-- ==== Sys2Proof/Word.lean ====
section
/-! DEFINITION. The word types of the TC36 and the one way the model builds a fixed-size table. -/

namespace Sys2Proof

/-- A byte of the wall bus, of the feed port or of the configuration memory. -/
abbrev Byte := BitVec 8

/-- A colour 0..7 (00_scope.md, Fixed dimensions). -/
abbrev Colour := BitVec 3

/-- A generation number, modulo 256 (R1). -/
abbrev Generation := BitVec 8

/-- A frame number, modulo 65536 (R159). -/
abbrev FrameNumber := BitVec 16

/-- A station number 0..63 (R171). -/
abbrev Station := Fin 64

/-- A local row 0..11 of the tile (R47). -/
abbrev LocalRow := Fin 12

/-- A local column 0..31 of the tile (R47). -/
abbrev LocalColumn := Fin 32

/-- The table whose element at `i` is `f i`. -/
def tabulate {α : Type} {n : Nat} (f : Fin n → α) : Vector α n :=
  ⟨(List.ofFn f).toArray, by simp⟩

/-- A set of station numbers: for each number, whether it is in the set (00_scope.md, Collections). -/
abbrev StationSet := Vector Bool 64

end Sys2Proof
end

