-- ==== Sys2Proof/Syntax.lean ====
section
/-! DEFINITION. The commands of the block: one constructor for each row of spec/opcode_table.json, with the row's
operands. -/

namespace Sys2Proof

/-- The levels of the six strap pins: bit i of `cols` is COLSi, bit i of `rows` is ROWSi (R171). -/
structure Straps where
  cols : BitVec 3
  rows : BitVec 3
deriving DecidableEq, Repr

/-- What the configuration memory gives at a read: no answer, or its five bytes (R172, R197). -/
inductive ConfigurationRead where
  | noAnswer
  | answered (b0 b1 b2 b3 b4 : Byte)
deriving DecidableEq, Repr

/-- The key of a frame: class, then station number (R138). -/
structure Key where
  cls : BitVec 3
  sender : Station
deriving DecidableEq, Repr

/-- A frame as THIS station reads it, up to the end of its spoil window. The class is the row's own; the length is
the number of payload bytes (notes/assumptions/5.md). `spoiledByOther` says whether another station drives the
dominant level in the spoil window (R144). -/
structure BusFrame where
  sender : Station
  payload : List Byte
  check : BitVec 16
  spoiledByOther : Bool
deriving DecidableEq, Repr

/-- How a clash is detected: by readback after the key (R154, R155), or by a foreign frame that bears this
station's number (R156). -/
inductive ClashCause where
  | readback
  | foreignKey
deriving DecidableEq, Repr

/-- The edges of the select line. A transaction is one assertion of it, from assertion to release (R183): a feed port
command carries the edge it stands for, and its other operands are the bytes clocked between the two. A command
written without an edge is the release, which with no transaction in progress is the whole transaction
(notes/assumptions/21.md). -/
inductive SelectEdge where
  | asserted
  | released
deriving DecidableEq, Repr

/-- The commands, in the table's order. -/
inductive Instr where
  | powerOn (straps : Straps)
  | resetPinLow (widthMicroseconds : Nat)
  | resetPinHigh (straps : Straps)
  | configurationReadEnd (read : ConfigurationRead)
  | frameTimerExpiry
  | listeningWindow
  | quietOver
  | frameSynchronisation
  | idlePoint (others : List Key)
  | clash (cause : ClashCause)
  | beacon (f : BusFrame)
  | flipTimeout (f : BusFrame)
  | silenceTimeout (f : BusFrame)
  | presenceInterval (f : BusFrame)
  | ready (f : BusFrame)
  | sealFrame (f : BusFrame)
  | join (f : BusFrame)
  | presence (f : BusFrame)
  | leave (f : BusFrame)
  | update (f : BusFrame)
  | glyph (f : BusFrame)
  | deaf (cls : BitVec 3) (f : BusFrame)
  | leftUnheard (f : BusFrame)
  | feedDropped (cls : BitVec 3) (f : BusFrame)
  | tileStep
  | catchUpRead
  | catchUpWrite
  | rowFetch
  | rowDisplay
  | dotLine
  | tail
  | status (edge : SelectEdge := .released)
  | nextEvent (edge : SelectEdge := .released)
  | submit (args : List Byte) (edge : SelectEdge := .released)
  | readCell (args : List Byte) (edge : SelectEdge := .released)
  | feedReadComplete
  | readRoster (args : List Byte) (edge : SelectEdge := .released)
  | readCounters (edge : SelectEdge := .released)
  | clearCounters (edge : SelectEdge := .released)
  | restart (edge : SelectEdge := .released)
  | collect (clocked : Nat) (edge : SelectEdge := .released)
  | unknownCommand (code : Byte) (edge : SelectEdge := .released)
  | invalidClassFrame (seven : Bool) (f : BusFrame)
  | lossOfPower
deriving DecidableEq, Repr

end Sys2Proof
end

