-- ==== Sys2Proof/WellFormed.lean ====
section
/-! DEFINITION. Which operands a command of the table can have. `exec` is total: it gives every command a next
state, well-formed or not (notes/assumptions/5.md); this check says which terms stand for something a bus, a pin
or a feed controller can present. -/

namespace Sys2Proof

/-- A frame's length field has 6 bits, so a frame carries at most 63 payload bytes (R138, R197). -/
def BusFrame.fits (f : BusFrame) : Bool := f.payload.length ≤ 63

/-- The row a class 3 frame belongs to is decided by its subtype byte; a frame with no defined subtype is
presented as JOIN (R198; notes/assumptions/5.md). -/
def BusFrame.isLeave (f : BusFrame) : Bool := f.payload.head? == some 3

/-- See `BusFrame.isLeave`. -/
def BusFrame.isPresence (f : BusFrame) : Bool := f.payload.head? == some 2

/-- The command codes of the Formats chapter, the collect code included (R184, R197). -/
def definedCommandCode (code : Byte) : Bool :=
  code == 0x80 || (1 ≤ code.toNat && code.toNat ≤ 8)

/-- A transaction carries at most 257 argument bytes that a command can need: class, length and 255 bytes
(R184, R190). More may be clocked and are ignored, so no bound is put on argument lists. -/
def Instr.wellFormed : Instr → Bool
  | .beacon f | .flipTimeout f | .silenceTimeout f | .presenceInterval f => f.fits
  | .ready f | .sealFrame f | .update f | .glyph f => f.fits
  | .join f => f.fits && !f.isLeave && !f.isPresence
  | .presence f => f.fits && f.isPresence
  | .leave f => f.fits && f.isLeave
  | .leftUnheard f => f.fits && f.isLeave
  | .deaf _ f => f.fits
  | .feedDropped cls f => f.fits && (cls == 2 || cls == 4 || cls == 5)
  | .invalidClassFrame _ f => f.fits
  | .unknownCommand code _ => !definedCommandCode code
  | .powerOn _ | .resetPinLow _ | .resetPinHigh _ | .configurationReadEnd _ => true
  | .frameTimerExpiry | .listeningWindow | .quietOver | .frameSynchronisation => true
  | .idlePoint _ | .clash _ => true
  | .tileStep | .catchUpRead | .catchUpWrite | .rowFetch | .feedReadComplete => true
  | .rowDisplay | .dotLine | .tail => true
  | .status _ | .nextEvent _ | .submit _ _ | .readCell _ _ | .readRoster _ _ => true
  | .readCounters _ | .clearCounters _ | .restart _ | .collect _ _ | .lossOfPower => true

end Sys2Proof
end

