-- ==== Sys2Proof/Decode.lean ====
section
/-! DEFINITION. Words of the opcode table, and the bytes of a feed transaction. No row of spec/opcode_table.json gives
bits (every row's "fields" is empty and none has "fixed"), so no word of the table spells a command; the command of a
feed transaction is picked by its first byte (R184, R186, 13_formats.md, The feed port). -/

namespace Sys2Proof

/-- The command a word spells by the table's bits: none, whatever the word, because no row gives bits. -/
def decodeTableWord (_nbits _w : Nat) : Option Instr := none

/-- The command of a transaction, picked by its first byte: 80H collect, 01H to 08H the commands in the order of the
Formats chapter, any other code an unknown command (R184, R186, R197). The bytes after it are the argument bytes; a
collect carries none, and only how many bytes are clocked counts. A transaction without a whole byte is no command
(R183). -/
def commandOfBytes (edge : SelectEdge) : List Byte → Option Instr
  | [] => none
  | code :: args =>
    some <|
      match code.toNat with
      | 0x80 => .collect args.length edge
      | 0x01 => .status edge
      | 0x02 => .nextEvent edge
      | 0x03 => .submit args edge
      | 0x04 => .readCell args edge
      | 0x05 => .readRoster args edge
      | 0x06 => .readCounters edge
      | 0x07 => .clearCounters edge
      | 0x08 => .restart edge
      | _ => .unknownCommand code edge

/-- The bytes of the transaction a feed port command stands for; none for the other commands. -/
def Instr.transactionBytes : Instr → Option (List Byte)
  | .collect clocked _ => some (0x80 :: List.replicate clocked 0)
  | .status _ => some [0x01]
  | .nextEvent _ => some [0x02]
  | .submit args _ => some (0x03 :: args)
  | .readCell args _ => some (0x04 :: args)
  | .readRoster args _ => some (0x05 :: args)
  | .readCounters _ => some [0x06]
  | .clearCounters _ => some [0x07]
  | .restart _ => some [0x08]
  | .unknownCommand code _ => some [code]
  | .powerOn _ | .resetPinLow _ | .resetPinHigh _ | .configurationReadEnd _ => none
  | .frameTimerExpiry | .listeningWindow | .quietOver | .frameSynchronisation => none
  | .idlePoint _ | .clash _ => none
  | .beacon _ | .flipTimeout _ | .silenceTimeout _ | .presenceInterval _ => none
  | .ready _ | .sealFrame _ | .join _ | .presence _ | .leave _ | .update _ | .glyph _ => none
  | .deaf _ _ | .leftUnheard _ | .feedDropped _ _ | .invalidClassFrame _ _ => none
  | .tileStep | .catchUpRead | .catchUpWrite | .rowFetch | .feedReadComplete => none
  | .rowDisplay | .dotLine | .tail | .lossOfPower => none

end Sys2Proof
end

