-- ==== Sys2Proof/Config.lean ====
section
/-! DEFINITION. The free values: what the spec leaves open, as constants without a body. Each is applied to the
plain counter `State.freeCount`, so that every use draws a value of its own (notes/assumptions/27.md). -/

namespace Sys2Proof.Config

/-- Which of two requests that are issued at one moment, with no access in progress, is issued first: yes when it
is the row fetch's (R132; notes/assumptions/8.md). -/
opaque fetchIssuedFirst : Nat → Bool

/-- Whether a reset pulse shorter than the minimum width is taken as a reset (R182; notes/assumptions/9.md). -/
opaque shortPulseTaken : Nat → Bool

/-- How many dots of a dot line had been sent when the line was stopped (R111; notes/assumptions/10.md). -/
opaque dotsSentBeforeStop : Nat → Nat

end Sys2Proof.Config
end

