-- ==== Sys2Proof/Machine/State.lean ====
section
/-! DEFINITION. The state of one TC36 as plain data, block by block as in 00_scope.md's block overview, and
`State.reset`. -/

namespace Sys2Proof.Machine

/-! ### Cells and zones (R83, R84) -/

/-- The double-size form of a glyph cell (R83). -/
inductive GlyphSize where
  | normal | wide | tall | large
deriving DecidableEq, Repr

/-- A glyph cell (R83). -/
structure GlyphCell where
  set : BitVec 2
  code : BitVec 7
  foreground : Colour
  size : GlyphSize
  invert : Bool
  flash : Bool
deriving DecidableEq, Repr

/-- A zone record, also the form of a row default record and of the scan engine's zone state (R84, R68, R114). -/
structure ZoneRecord where
  background : Colour
  conceal : Bool
  underline : Bool
deriving DecidableEq, Repr

/-- A zone cell: the colour it is drawn in and the zone it starts (R83). -/
structure ZoneCell where
  colour : Colour
  zone : ZoneRecord
deriving DecidableEq, Repr

/-- A cell record is a glyph cell or a zone cell (R83). -/
inductive CellRecord where
  | glyph (g : GlyphCell)
  | zone (z : ZoneCell)
deriving DecidableEq, Repr

/-- The blank cell (R69). -/
def blankCell : CellRecord :=
  .glyph ⟨0, 0x20, 7, .normal, false, false⟩

/-- The blank row default (R69). -/
def blankDefault : ZoneRecord := ⟨0, false, false⟩

/-- A tile position (R67). -/
structure Pos where
  row : LocalRow
  col : LocalColumn
deriving DecidableEq, Repr

/-! ### Station life (R173, R182) -/

/-- The state a station entered Leaving from (R173). -/
inductive LeavingOrigin where
  | fromJoining | fromMember
deriving DecidableEq, Repr

/-- The seven station states; the Leaving origin is present only in Leaving (R173). -/
inductive StationState where
  | halted | listening | joining | member
  | leaving (origin : LeavingOrigin)
  | withdrawn | clashed
deriving DecidableEq, Repr

/-- Where the device is in its life: without power (R108), held at the beginning of its start by the reset pin
(R182), in the configuration read (R172), or running in a station state. -/
inductive Life where
  | unpowered
  | heldInReset
  | readingConfiguration
  | running (st : StationState)
deriving DecidableEq, Repr

/-- The withdraw reason (R173). -/
inductive WithdrawReason where
  | none | noConfiguration | configurationCheck | configurationRange | outsideWall
  | left | leftUnheard | deaf | outOfStep | silenced | clash
deriving DecidableEq, Repr

/-- The reason a STATE event carries: a withdraw reason or one of five more (R173, Formats). -/
inductive StateReason where
  | withdraw (r : WithdrawReason)
  | start | adopted | promoted | restart | quietOver
deriving DecidableEq, Repr

/-- The configuration record (R172). -/
structure ConfigRecord where
  wallWidth : Nat
  wallHeight : Nat
  periodMs : Nat
  concealEnable : Bool
  scanFirst : Bool
deriving DecidableEq, Repr

/-! ### Generation control (R1) and roster (R27) -/

/-- The generation record. B is always S + 1 and is derived (R1; notes/assumptions/26.md). -/
structure GenerationRecord where
  shown : Generation
  isSealed : Bool
  sealer : Option Station
  baseline : Option StationSet
  revealBuilding : Bool
  revealShown : Bool
  readySet : StationSet
  armed : Bool
  sealAge : Nat
  announced : Bool
deriving DecidableEq, Repr

/-- The state of a roster entry (R27). -/
inductive EntryState where
  | absent | joining | member | silent
deriving DecidableEq, Repr

/-- A roster entry (R27). -/
structure RosterEntry where
  state : EntryState
  silence : Nat
  joinFrame : Option FrameNumber
deriving DecidableEq, Repr

/-- The roster: one entry for each station number (R27). -/
abbrev Roster := Vector RosterEntry 64

/-! ### Update queue and apply engine (R45, R50, R54) -/

/-- Current: for the generation now building. Next: for the one after it (R51). -/
inductive Epoch where
  | current | next
deriving DecidableEq, Repr

/-- The five kinds of UPDATE, in wall coordinates (R45). -/
inductive Update where
  | cell (row col : Nat) (c : CellRecord)
  | run (row col : Nat) (cells : List CellRecord)
  | fill (row col count : Nat) (c : CellRecord)
  | rowdef (row : Nat) (d : ZoneRecord)
  | rowclear (row : Nat) (d : ZoneRecord) (c : CellRecord)
deriving DecidableEq, Repr

/-- An update queue entry: the clipped UPDATE and its epoch (R50). -/
structure UpdateEntry where
  epoch : Epoch
  update : Update
deriving DecidableEq, Repr

/-- The apply engine: Idle, or Applying the head of the queue with the index of the next step still to be done
(R54). Its outstanding write request is the arbiter's. -/
inductive ApplyEngine where
  | idle
  | applying (nextStep : Nat)
deriving DecidableEq, Repr

/-! ### Page buffers and catch-up (R67, R72, R74) -/

/-- The two page buffers (R67). -/
inductive BufferName where
  | x | y
deriving DecidableEq, Repr

/-- The role a request names (R129). -/
inductive Role where
  | shown | building
deriving DecidableEq, Repr

/-- The dirty list: distinct positions in the order first added, or overflow (R72). -/
structure DirtyList where
  positions : List Pos
  overflow : Bool
deriving DecidableEq, Repr

/-- The phase of the position in progress (R74). -/
inductive CopyPhase where
  | readOutstanding
  | writeOutstanding (c : CellRecord)
deriving DecidableEq, Repr

/-- The catch-up engine. `list first rest phase`: the position in progress, the rest of the work list, the phase.
`tile first phase`: the position in progress (R74). -/
inductive CatchUp where
  | idle
  | list (first : Pos) (rest : List Pos) (phase : CopyPhase)
  | tile (first : Pos) (phase : CopyPhase)
deriving DecidableEq, Repr

/-! ### Zone carry (R85, R93) -/

/-- One list of the left-zone table with its floor (R85). -/
structure LeftRow where
  entries : List (Nat × ZoneRecord)
  floor : Option Nat
deriving DecidableEq, Repr

/-- An entry record (R93). -/
structure EntryRecord where
  zone : ZoneRecord
  isUncertain : Bool
deriving DecidableEq, Repr

/-! ### Scan engine (R110, R114) -/

/-- The phase of the display frame (R110). -/
inductive ScanPhase where
  | lead
  | row (r : LocalRow) (line : Fin 16)
  | tail
deriving DecidableEq, Repr

/-- The kind of the frame (R112). -/
inductive FrameKind where
  | drawing | dark
deriving DecidableEq, Repr

/-- The row fetch: idle, or fetching a row with the next column to read (R114). -/
inductive Fetch where
  | idle
  | fetching (r : LocalRow) (nextColumn : LocalColumn)
deriving DecidableEq, Repr

/-- The scan engine (R114). In `rowBuffer` none is unfetched, in `displayRow` none is an underrun mark.
`lineBegun` says whether the dot line the phase names has begun; `dots` are the dots of the dot line being sent;
`lineStrobes` counts the line strobes sent in the frame in progress (R110; notes/assumptions/36.md); `panel` is what the
attached panel holds, line 16 × row + dot line (notes/assumptions/11.md, 12.md). -/
structure ScanEngine where
  phase : ScanPhase
  lineBegun : Bool
  kind : FrameKind
  rowBuffer : Vector (Option CellRecord) 32
  fetch : Fetch
  displayRow : Vector (Option CellRecord) 32
  zone : ZoneRecord
  flashOn : Bool
  reveal : Bool
  concealEnable : Bool
  underrun : Bool
  dots : List Colour
  lineStrobes : Nat
  panel : List (Nat × List Colour)
deriving DecidableEq, Repr

/-! ### Page memory arbiter (R129, R130) -/

/-- The four requesters (R129). -/
inductive Requester where
  | rowFetch | feedRead | apply | catchUp
deriving DecidableEq, Repr

/-- A request: position, role, and the record to write when it writes (R129). -/
structure Request where
  pos : Pos
  role : Role
  write : Option CellRecord
deriving DecidableEq, Repr

/-- The access in progress, its role resolved (R130). `abandoned`: its owner has given it up (R136). `blanked`:
the station has entered Listening since the grant, and the blanking stands over it (R137). -/
structure Access where
  requester : Requester
  buffer : BufferName
  pos : Pos
  write : Option CellRecord
  abandoned : Bool
  blanked : Bool
deriving DecidableEq, Repr

/-- The arbiter: the waiting request of each requester, and the access in progress (R129). -/
structure Arbiter where
  rowFetch : Option Request
  feedRead : Option Request
  apply : Option Request
  catchUp : Option Request
  access : Option Access
deriving DecidableEq, Repr

/-! ### Wall bus interface (R139, R146 to R152) -/

/-- The items the interface chooses among (R149). -/
inductive Item where
  | beacon | ready | leave | join | presence | feed
deriving DecidableEq, Repr

/-- The frame this station is sending: the item in flight and the bits it drives (R150). -/
structure SentFrame where
  item : Item
  cls : BitVec 3
  payload : List Byte
  check : BitVec 16
deriving DecidableEq, Repr

/-- A message of the feed transmit queue (R148). -/
structure FeedMessage where
  cls : BitVec 3
  payload : List Byte
  attempts : Nat
deriving DecidableEq, Repr

/-- The wall bus interface. `readyPending` carries the g fixed when READY was set pending (R13, R147). -/
structure BusInterface where
  synchronised : Bool
  beaconPending : Bool
  readyPending : Option Generation
  leavePending : Bool
  joinPending : Bool
  presencePending : Bool
  leaveAttempts : Nat
  feedQueue : List FeedMessage
  consecutiveSpoils : Nat
  inFlight : Option SentFrame
deriving DecidableEq, Repr

/-! ### Beacon timer (R159) -/

/-- The frame timer: stopped, or running with the period loaded at its last restart (R159, R160;
notes/assumptions/20.md). -/
inductive FrameTimer where
  | stopped
  | running (loadedMs : Nat)
deriving DecidableEq, Repr

/-- The beacon timer (R159). -/
structure BeaconTimer where
  frameTimer : FrameTimer
  frameNumber : FrameNumber
  listeningExpiries : Nat
  quietExpiries : Nat
deriving DecidableEq, Repr

/-! ### Feed port, events, counters (R183, R194 to R196) -/

/-- An event with its details (R195). -/
inductive Event where
  | flip (newS : Generation)
  | sealTaken (g : Generation) (sealer : Station)
  | sealIgnored (g : Generation) (sender : Station)
  | roster (station : Station) (state : EntryState)
  | flipTimeout (g : Generation) (count : Nat)
  | rowUncertain (row : LocalRow)
  | rowCertain (row : LocalRow)
  | underrun
  | shortFrame
  | feedDropped (cls : BitVec 3)
  | feedFlushed (count : Nat)
  | state (st : StationState) (reason : StateReason)
  | configClash (station : Station)
deriving DecidableEq, Repr

/-- An event record: the event and the frame number in force when it was posted (R195). -/
structure EventRecord where
  frameNumber : FrameNumber
  event : Event
deriving DecidableEq, Repr

/-- The event queue, oldest first, with the lost marker (R194). -/
structure EventQueue where
  records : List EventRecord
  lost : Bool
deriving DecidableEq, Repr

/-- The ten counters, in the order of R196's table. -/
structure Counters where
  framesAccepted : BitVec 16
  spoilsCheck : BitVec 16
  spoilsFormat : BitVec 16
  spoilsQueueFull : BitVec 16
  ownAttemptsSpoiled : BitVec 16
  feedDropped : BitVec 16
  updatesPassed : BitVec 16
  sealsIgnored : BitVec 16
  shortFrames : BitVec 16
  underrunRows : BitVec 16
deriving DecidableEq, Repr

/-- The fields of a STATUS response (R188). -/
structure StatusReport where
  station : Station
  state : StationState
  reason : WithdrawReason
  shown : Generation
  isSealed : Bool
  armed : Bool
  catchingUp : Bool
  readySize : Nat
  requirementSize : Nat
  updateFill : Nat
  feedFill : Nat
  uncertainRows : Nat
  clashRecord : Option Station
deriving DecidableEq, Repr

/-- A response: its code and the fields its command's rule gives (R183, R188 to R193). -/
inductive Response where
  | status (r : StatusReport)
  | nextEvent (record : Option EventRecord) (lost : Bool)
  | submitted (fill : Nat)
  | cell (role : Role) (pos : Pos) (c : CellRecord)
  | rosterEntry (station : Station) (e : RosterEntry)
  | counters (c : Counters)
  | cleared
  | restarted (st : StationState)
  | full | badClass | badArg | refused
deriving DecidableEq, Repr

/-- The port state (R183). Working holds what the READ CELL in progress named (R185, R187). -/
inductive PortState where
  | free
  | working (role : Role) (pos : Pos)
  | ready (r : Response)
deriving DecidableEq, Repr

/-- The transaction in progress (R183): the port byte sampled when the select was asserted, whether the port was Ready
then (R186), and whether the transaction is discarded because it began in a start or without power, or a start came over
it (R172, R182, R183; notes/assumptions/21.md). It is in progress exactly while the select is asserted. -/
structure Transaction where
  shown : Byte
  ready : Bool
  abandoned : Bool
deriving DecidableEq, Repr

/-! ### The whole station -/

/-- One TC36. `freeCount` (the counter the free values are drawn with) and `pending` (the commands that wait,
first in first out) are the model's own (notes/assumptions/27.md, 2.md). -/
structure State where
  life : Life
  resetPinLow : Bool
  straps : Straps
  config : Option ConfigRecord
  withdrawReason : WithdrawReason
  gen : GenerationRecord
  roster : Roster
  presenceCount : Nat
  clashRecord : Option Station
  updateQueue : List UpdateEntry
  applyEngine : ApplyEngine
  bufferX : List (Nat × CellRecord)
  bufferY : List (Nat × CellRecord)
  shown : BufferName
  defaultsX : Vector ZoneRecord 12
  defaultsY : Vector ZoneRecord 12
  dirty : DirtyList
  catchUp : CatchUp
  leftTable : Vector LeftRow 12
  entryRecords : Vector EntryRecord 12
  glyphMemory : List Host.Cell
  scan : ScanEngine
  arbiter : Arbiter
  bus : BusInterface
  timer : BeaconTimer
  port : PortState
  transaction : Option Transaction
  dataOut : List Byte
  events : EventQueue
  counters : Counters
  freeCount : Nat
  pending : List Instr
deriving DecidableEq, Repr

/-- The reasons a step could stop with a fault: there is none. Every row of the table has an effect in every
state, "no effect" included, so no command faults (INVENTORY.md, Faults). Having no constructor is safe: no claim
can rest on a fault. -/
inductive Fault where
deriving DecidableEq, Repr

/-- The reasons a step could be refused. -/
inductive Refusal where
  /-- Raised by `exec`'s arm of a command that has no meaning yet. Every command has its meaning, so no arm raises
  it. Safe. -/
  | notModelled (mnemonic : String)
deriving DecidableEq, Repr

/-! ### Values after a start -/

/-- An Absent roster entry (R28). -/
def RosterEntry.cleared : RosterEntry := ⟨.absent, 0, none⟩

/-- The empty set of stations. -/
def StationSet.empty : StationSet := Vector.replicate 64 false

/-- The generation record at a start (R2). -/
def GenerationRecord.atStart : GenerationRecord :=
  ⟨0, false, none, none, false, false, StationSet.empty, false, 0, false⟩

/-- A list of the left-zone table that is empty with no floor (R86). -/
def LeftRow.empty : LeftRow := ⟨[], none⟩

/-- A blank, certain entry record (R93). -/
def EntryRecord.blank : EntryRecord := ⟨blankDefault, false⟩

/-- The scan engine at a start: in the lead of the dark frame R113 begins, with frame number 0 (flash on, R115)
(R114). `panel` is the attached panel, which a start leaves as it is (notes/assumptions/11.md). -/
def ScanEngine.atStart (panel : List (Nat × List Colour)) : ScanEngine :=
  { phase := .lead, lineBegun := false, kind := .dark, rowBuffer := Vector.replicate 32 none, fetch := .idle
    displayRow := Vector.replicate 32 none, zone := blankDefault, flashOn := true, reveal := false
    concealEnable := false, underrun := false, dots := [], lineStrobes := 0, panel := panel }

/-- The arbiter at a start (R129). -/
def Arbiter.atStart : Arbiter := ⟨none, none, none, none, none⟩

/-- The wall bus interface at a start (R139, R146 to R148, R182). -/
def BusInterface.atStart : BusInterface :=
  { synchronised := false, beaconPending := false, readyPending := none, leavePending := false
    joinPending := false, presencePending := false, leaveAttempts := 0, feedQueue := [], consecutiveSpoils := 0
    inFlight := none }

/-- All ten counters 0 (R196). -/
def Counters.zero : Counters := ⟨0, 0, 0, 0, 0, 0, 0, 0, 0, 0⟩

/-- The machine right after reset: power has been applied with every strap low, glyph memory is all 0-dots, and
the configuration read runs (R182; notes/assumptions/1.md). -/
def State.reset : State :=
  { life := .readingConfiguration
    resetPinLow := false
    straps := ⟨0, 0⟩
    config := none
    withdrawReason := .none
    gen := GenerationRecord.atStart
    roster := Vector.replicate 64 RosterEntry.cleared
    presenceCount := 0
    clashRecord := none
    updateQueue := []
    applyEngine := .idle
    bufferX := []
    bufferY := []
    shown := .x
    defaultsX := Vector.replicate 12 blankDefault
    defaultsY := Vector.replicate 12 blankDefault
    dirty := ⟨[], false⟩
    catchUp := .idle
    leftTable := Vector.replicate 12 LeftRow.empty
    entryRecords := Vector.replicate 12 EntryRecord.blank
    glyphMemory := []
    scan := ScanEngine.atStart []
    arbiter := Arbiter.atStart
    bus := BusInterface.atStart
    timer := ⟨.stopped, 0, 0, 0⟩
    port := .free
    transaction := none
    dataOut := []
    events := ⟨[], false⟩
    counters := Counters.zero
    freeCount := 0
    pending := [] }

end Sys2Proof.Machine
end

