-- ==== Sys2Proof/Machine/Memory.lean ====
section
/-! DEFINITION. Sparse memory in one canonical form: a list of (address, value) pairs, addresses strictly rising,
no value equal to `d`, what an unlisted address reads as. Page memory (R67), glyph memory (R102) and the panel's
lines (R110) are held so (notes/assumptions/25.md). -/

namespace Sys2Proof.Machine

/-- The value at address `a`; an unlisted address reads as `d`. -/
def Memory.read {α : Type} (d : α) : List (Nat × α) → Nat → α
  | [], _ => d
  | (b, w) :: rest, a => if a = b then w else Memory.read d rest a

/-- The memory with `v` at address `a`, in canonical form: writing `d` removes the entry. -/
def Memory.write {α : Type} [DecidableEq α] (d : α) : List (Nat × α) → Nat → α → List (Nat × α)
  | [], a, v => if v = d then [] else [(a, v)]
  | (b, w) :: rest, a, v =>
    if a < b then (if v = d then (b, w) :: rest else (a, v) :: (b, w) :: rest)
    else if a = b then (if v = d then rest else (a, v) :: rest)
    else (b, w) :: Memory.write d rest a v

/-- The canonical form: every address below those after it, no value equal to `d`. -/
def Memory.wf {α : Type} [DecidableEq α] (d : α) : List (Nat × α) → Bool
  | [] => true
  | (a, v) :: rest => decide (v ≠ d) && rest.all (fun e => decide (a < e.1)) && Memory.wf d rest

/-- Values written at consecutive addresses from `a` on. -/
def Memory.writeAll {α : Type} [DecidableEq α] (d : α) (m : List (Nat × α)) (a : Nat) : List α → List (Nat × α)
  | [] => m
  | v :: vs => Memory.writeAll d (Memory.write d m a v) (a + 1) vs

/-! ### Page memory (R67, R69) -/

/-- The address of a tile position within its buffer. -/
def Pos.address (p : Pos) : Nat := 32 * p.row.val + p.col.val

/-- The position after `p` in the order of R74, none after row 11 column 31. -/
def Pos.succ? (p : Pos) : Option Pos :=
  if hc : p.col.val + 1 < 32 then some ⟨p.row, ⟨p.col.val + 1, hc⟩⟩
  else if hr : p.row.val + 1 < 12 then some ⟨⟨p.row.val + 1, hr⟩, 0⟩
  else none

/-- The contents of a named buffer. -/
def State.buffer (s : State) : BufferName → List (Nat × CellRecord)
  | .x => s.bufferX
  | .y => s.bufferY

/-- The other buffer. -/
def BufferName.other : BufferName → BufferName
  | .x => .y
  | .y => .x

/-- The buffer that holds a role, given the shown pointer (R67, R130). -/
def BufferName.ofRole (shown : BufferName) : Role → BufferName
  | .shown => shown
  | .building => shown.other

/-- The cell record held at a position of a buffer. -/
def State.readCell (s : State) (b : BufferName) (p : Pos) : CellRecord :=
  Memory.read blankCell (s.buffer b) p.address

/-- The station with a cell record written at a position of a buffer. -/
def State.writeCell (s : State) (b : BufferName) (p : Pos) (c : CellRecord) : State :=
  match b with
  | .x => { s with bufferX := Memory.write blankCell s.bufferX p.address c }
  | .y => { s with bufferY := Memory.write blankCell s.bufferY p.address c }

/-! ### Row-default sets (R68) -/

/-- The row-default set paired with the shown buffer. -/
def State.shownDefaults (s : State) : Vector ZoneRecord 12 :=
  match s.shown with
  | .x => s.defaultsX
  | .y => s.defaultsY

/-- The building row-default set with the record of one local row set (R60). -/
def State.setBuildingDefault (s : State) (r : LocalRow) (d : ZoneRecord) : State :=
  match s.shown with
  | .x => { s with defaultsY := s.defaultsY.set r d }
  | .y => { s with defaultsX := s.defaultsX.set r d }

/-! ### Glyph memory (R102) -/

/-- The address of a line pattern: set, code, line. -/
def glyphAddress (set : BitVec 2) (code : BitVec 7) (line : Nat) : Nat :=
  (set.toNat * 128 + code.toNat) * 16 + line

/-- The line pattern of a glyph line; a line nothing has written is all 0-dots (R103). -/
def glyphLine (m : List Host.Cell) (set : BitVec 2) (code : BitVec 7) (line : Nat) : Byte :=
  Memory.read (0 : Byte) m (glyphAddress set code line)

/-! ### The panel (R110) -/

/-- A dot line of colour 0. -/
def darkLine : List Colour := List.replicate 256 0

/-- The number of a panel line: 16 × row + dot line. -/
def panelLine (r : LocalRow) (line : Fin 16) : Nat := 16 * r.val + line.val

end Sys2Proof.Machine
end

