-- ==== Sys2Proof/Machine/Operands.lean ====
section
/-! DEFINITION. The operand forms: the layouts of 13_formats.md (R197 to R200). Frame payloads, the CRC, cell
records, row default bytes, the configuration bytes, and the bytes of responses. -/

namespace Sys2Proof.Machine

/-! ### Bits and the check (13_formats.md, The wall bus frame) -/

/-- The bits of a value of `w` bits, most significant first. -/
def bitsOf {w : Nat} (v : BitVec w) : List Bool :=
  (List.range w).map fun i => v.getLsbD (w - 1 - i)

/-- One bit of the CRC with generator x^16 + x^12 + x^5 + 1. -/
def crcBit (c : BitVec 16) (b : Bool) : BitVec 16 :=
  if c.msb ^^ b then (c <<< 1) ^^^ 0x1021 else c <<< 1

/-- The station number as its six bits. -/
def stationBits (n : Station) : BitVec 6 := BitVec.ofNat 6 n.val

/-- The bits of a key, most significant first (R138). -/
def keyBits (k : Key) : List Bool := bitsOf k.cls ++ bitsOf (stationBits k.sender)

/-- The check of a frame: the CRC over key, length and payload, from FFFFH, without inversion. -/
def frameCheck (k : Key) (payload : List Byte) : BitVec 16 :=
  let bits := keyBits k ++ bitsOf (BitVec.ofNat 6 payload.length) ++ payload.flatMap bitsOf
  bits.foldl crcBit 0xFFFF

/-- A field of two bytes, high byte first. -/
def twoBytes (hi lo : Byte) : BitVec 16 := hi ++ lo

/-- The high byte of a field of two bytes. -/
def highByte (v : BitVec 16) : Byte := v.extractLsb' 8 8

/-- The low byte of a field of two bytes. -/
def lowByte (v : BitVec 16) : Byte := v.extractLsb' 0 8

/-- A count as one byte. -/
def byteOf (n : Nat) : Byte := BitVec.ofNat 8 n

/-- A flag as a byte with the bit at `pos`. -/
def flagBit (b : Bool) (pos : Nat) : Byte := if b then 1 <<< pos else 0

/-! ### Cell record and row default byte -/

/-- The size field of a glyph cell. -/
def GlyphSize.ofBits (b : BitVec 2) : GlyphSize :=
  if b = 0 then .normal else if b = 1 then .wide else if b = 2 then .tall else .large

/-- The code of a size. -/
def GlyphSize.bits : GlyphSize → BitVec 2
  | .normal => 0
  | .wide => 1
  | .tall => 2
  | .large => 3

/-- The zone record in the low five bits of a byte: bits 4..2 background, bit 1 conceal, bit 0 underline. -/
def ZoneRecord.ofByte (b : Byte) : ZoneRecord :=
  ⟨b.extractLsb' 2 3, b.getLsbD 1, b.getLsbD 0⟩

/-- The low five bits of a zone record. -/
def ZoneRecord.bits (z : ZoneRecord) : BitVec 5 :=
  z.background ++ BitVec.ofBool z.conceal ++ BitVec.ofBool z.underline

/-- The glyph cell of 16 record bits: every value is one (R198, Cell record). -/
def GlyphCell.ofBits (v : BitVec 16) : GlyphCell :=
  { set := v.extractLsb' 14 2, code := v.extractLsb' 7 7, foreground := v.extractLsb' 4 3
    size := GlyphSize.ofBits (v.extractLsb' 2 2), invert := v.getLsbD 1, flash := v.getLsbD 0 }

/-- The 16 record bits of a glyph cell. -/
def GlyphCell.bits (g : GlyphCell) : BitVec 16 :=
  g.set ++ g.code ++ g.foreground ++ g.size.bits ++ BitVec.ofBool g.invert ++ BitVec.ofBool g.flash

/-- The cell record of a cell kind bit and 16 record bits; none when a cell marked zone does not hold 20H in
bits 15..8 (R199). -/
def CellRecord.ofBits (isZone : Bool) (hi lo : Byte) : Option CellRecord :=
  if isZone then
    if hi = 0x20 then some (.zone ⟨lo.extractLsb' 5 3, ZoneRecord.ofByte lo⟩) else none
  else some (.glyph (GlyphCell.ofBits (twoBytes hi lo)))

/-- The cell kind of a record as a byte: 0 glyph, 1 zone. -/
def CellRecord.kindByte : CellRecord → Byte
  | .glyph _ => 0
  | .zone _ => 1

/-- The 16 record bits of a cell record. -/
def CellRecord.bits : CellRecord → BitVec 16
  | .glyph g => g.bits
  | .zone z => (0x20 : Byte) ++ z.colour ++ z.zone.bits

/-- The row default record of a row default byte; none when any of bits 7..5 is set (R199). -/
def rowDefaultOfByte (b : Byte) : Option ZoneRecord :=
  if b.extractLsb' 5 3 = 0 then some (ZoneRecord.ofByte b) else none

/-! ### UPDATE payloads (R45, R199) -/

/-- The cell records of a RUN, two bytes each, their kinds from the mask's bits from `k` on. -/
def runCells (mask : BitVec 16) : Nat → List Byte → Option (List CellRecord)
  | _, [] => some []
  | _, [_] => none
  | k, hi :: lo :: rest =>
    match CellRecord.ofBits (mask.getLsbD k) hi lo, runCells mask (k + 1) rest with
    | some c, some cs => some (c :: cs)
    | _, _ => none

/-- A CELL after its kind byte: bits 4..1 of the kind byte are 0, bit 0 is the cell kind. -/
def parseCell (b0 : Byte) : List Byte → Option Update
  | [row, col, hi, lo] =>
    if b0.extractLsb' 1 4 = 0 then
      (CellRecord.ofBits (b0.getLsbD 0) hi lo).map (Update.cell row.toNat col.toNat)
    else none
  | _ => none

/-- A RUN after its kind byte: n is 1..16, the payload holds n records, and no mask bit stands at position n or
above. -/
def parseRun (b0 : Byte) : List Byte → Option Update
  | row :: col :: maskHi :: maskLo :: records =>
    let n := (b0.extractLsb' 0 5).toNat
    let mask := twoBytes maskHi maskLo
    if 1 ≤ n ∧ n ≤ 16 ∧ records.length = 2 * n ∧ mask.toNat < 2 ^ n then
      (runCells mask 0 records).map (Update.run row.toNat col.toNat)
    else none
  | _ => none

/-- A FILL after its kind byte: bits 4..2 are 0, bit 1 is the cell kind, bit 0 is the count's bit 8, and the count
is not 0. -/
def parseFill (b0 : Byte) : List Byte → Option Update
  | [row, col, count, hi, lo] =>
    let n := (if b0.getLsbD 0 then 256 else 0) + count.toNat
    if b0.extractLsb' 2 3 = 0 ∧ n ≠ 0 then
      (CellRecord.ofBits (b0.getLsbD 1) hi lo).map (Update.fill row.toNat col.toNat n)
    else none
  | _ => none

/-- A ROWDEF after its kind byte, whose bits 4..0 are 0. -/
def parseRowdef (b0 : Byte) : List Byte → Option Update
  | [row, d] => if b0.extractLsb' 0 5 = 0 then (rowDefaultOfByte d).map (Update.rowdef row.toNat) else none
  | _ => none

/-- A ROWCLEAR after its kind byte: bits 4..1 are 0, bit 0 is the cell kind. -/
def parseRowclear (b0 : Byte) : List Byte → Option Update
  | [row, d, hi, lo] =>
    if b0.extractLsb' 1 4 = 0 then
      match rowDefaultOfByte d, CellRecord.ofBits (b0.getLsbD 0) hi lo with
      | some z, some c => some (.rowclear row.toNat z c)
      | _, _ => none
    else none
  | _ => none

/-- An UPDATE payload; none is a format error (R198, R199). -/
def parseUpdate : List Byte → Option Update
  | [] => none
  | b0 :: rest =>
    match (b0.extractLsb' 5 3).toNat with
    | 0 => parseCell b0 rest
    | 1 => parseRun b0 rest
    | 2 => parseFill b0 rest
    | 3 => parseRowdef b0 rest
    | 4 => parseRowclear b0 rest
    | _ => none

/-! ### Messages (13_formats.md, Payloads) -/

/-- The fields of a BEACON (R163). -/
structure BeaconFields where
  frameNumber : FrameNumber
  shown : Generation
  isSealed : Bool
  armed : Bool
deriving DecidableEq, Repr

/-- The content of a frame whose payload fits a layout. -/
inductive Message where
  | beacon (m : BeaconFields)
  | ready (g : Generation)
  | sealing (g : Generation) (reveal : Bool) (baseline : Option StationSet)
  | join (wallWidth wallHeight periodMs : Byte)
  | presence (isMember : Bool)
  | leave
  | update (u : Update)
  | glyph (set : BitVec 2) (code : BitVec 7) (first : Nat) (patterns : List Byte)
deriving DecidableEq, Repr

/-- The baseline of a SEAL: bit j of the k-th byte names station 8k + j. -/
def baselineOfBytes (bytes : List Byte) : StationSet :=
  tabulate fun n => (bytes.getD (n.val / 8) 0).getLsbD (n.val % 8)

/-- BEACON: length 4, bits 7..2 of byte 3 are 0. -/
def parseBeacon : List Byte → Option Message
  | [hi, lo, g, flags] =>
    if flags.extractLsb' 2 6 = 0 then
      some (.beacon ⟨twoBytes hi lo, g, flags.getLsbD 0, flags.getLsbD 1⟩)
    else none
  | _ => none

/-- READY: length 1. -/
def parseReady : List Byte → Option Message
  | [g] => some (.ready g)
  | _ => none

/-- SEAL: length 2 without the baseline-present bit, 10 with it; bits 7..2 of byte 1 are 0. -/
def parseSeal : List Byte → Option Message
  | g :: flags :: bytes =>
    if flags.extractLsb' 2 6 = 0 then
      if flags.getLsbD 1 then
        if bytes.length = 8 then some (.sealing g (flags.getLsbD 0) (some (baselineOfBytes bytes))) else none
      else if bytes = [] then some (.sealing g (flags.getLsbD 0) none) else none
    else none
  | _ => none

/-- ROSTER: JOIN of length 4, PRESENCE of length 2 with state 01H or 02H, LEAVE of length 1. -/
def parseRoster : List Byte → Option Message
  | [subtype, w, h, period] => if subtype = 0x01 then some (.join w h period) else none
  | [subtype, st] =>
    if subtype ≠ 0x02 then none
    else if st = 1 then some (.presence false)
    else if st = 2 then some (.presence true)
    else none
  | [subtype] => if subtype = 0x03 then some .leave else none
  | _ => none

/-- GLYPH: 3 bytes and 1..16 patterns; bits 5..4 of byte 0, bit 7 of byte 1 and byte 2 are 0; no pattern names a
line beyond 15 (R104, R198). -/
def parseGlyph : List Byte → Option Message
  | b0 :: b1 :: b2 :: patterns =>
    let first := (b0.extractLsb' 0 4).toNat
    if b0.extractLsb' 4 2 = 0 ∧ b1.getLsbD 7 = false ∧ b2 = 0 ∧ 1 ≤ patterns.length ∧ patterns.length ≤ 16
        ∧ first + patterns.length ≤ 16 then
      some (.glyph (b0.extractLsb' 6 2) (b1.extractLsb' 0 7) first patterns)
    else none
  | _ => none

/-- The message of a frame of a class; none is a format error (R143, R198, R199). -/
def parseMessage (cls : BitVec 3) (payload : List Byte) : Option Message :=
  match cls.toNat with
  | 0 => parseBeacon payload
  | 1 => parseReady payload
  | 2 => parseSeal payload
  | 3 => parseRoster payload
  | 4 => (parseUpdate payload).map .update
  | 5 => parseGlyph payload
  | _ => none

/-! ### The configuration record (13_formats.md; R172, R200) -/

/-- The check byte of the configuration record. -/
def configCheck (b0 b1 b2 b3 : Byte) : Byte := b0 ^^^ b1 ^^^ b2 ^^^ b3 ^^^ 0xA5

/-- The record of the five bytes, whatever their values. -/
def configOfBytes (b0 b1 b2 b3 : Byte) : ConfigRecord :=
  ⟨b0.toNat, b1.toNat, b2.toNat, b3.getLsbD 0, b3.getLsbD 1⟩

/-- Test 3 of R172: W and H in 1..8, the period in 10..50, bits 7..2 of byte 3 all 0. -/
def configInRange (b0 b1 b2 b3 : Byte) : Bool :=
  1 ≤ b0.toNat && b0.toNat ≤ 8 && 1 ≤ b1.toNat && b1.toNat ≤ 8 && 10 ≤ b2.toNat && b2.toNat ≤ 50
    && b3.extractLsb' 2 6 == 0

/-! ### Codes and responses (13_formats.md, The feed port) -/

/-- The state code of STATUS; bit 7 is set for Leaving from Member. -/
def StationState.code : StationState → Byte
  | .halted => 0
  | .listening => 1
  | .joining => 2
  | .member => 3
  | .leaving .fromJoining => 4
  | .leaving .fromMember => 0x84
  | .withdrawn => 5
  | .clashed => 6

/-- The state code of READ ROSTER. -/
def EntryState.code : EntryState → Byte
  | .absent => 0
  | .joining => 1
  | .member => 2
  | .silent => 3

/-- The withdraw reason code. -/
def WithdrawReason.code : WithdrawReason → Byte
  | .none => 0
  | .noConfiguration => 1
  | .configurationCheck => 2
  | .configurationRange => 3
  | .outsideWall => 4
  | .left => 5
  | .leftUnheard => 6
  | .deaf => 7
  | .outOfStep => 8
  | .silenced => 9
  | .clash => 10

/-- The reason code of a STATE event. -/
def StateReason.code : StateReason → Byte
  | .withdraw r => r.code
  | .start => 11
  | .adopted => 12
  | .promoted => 13
  | .restart => 14
  | .quietOver => 15

/-- A station number as a byte. -/
def stationByte (n : Station) : Byte := byteOf n.val

/-- Kind, detail A and detail B of an event. -/
def Event.bytes : Event → Byte × Byte × Byte
  | .flip s => (1, s, 0)
  | .sealTaken g n => (2, g, stationByte n)
  | .sealIgnored g n => (3, g, stationByte n)
  | .roster n st => (4, stationByte n, st.code)
  | .flipTimeout g count => (5, g, byteOf count)
  | .rowUncertain r => (6, byteOf r.val, 0)
  | .rowCertain r => (7, byteOf r.val, 0)
  | .underrun => (8, 0, 0)
  | .shortFrame => (9, 0, 0)
  | .feedDropped cls => (10, cls.zeroExtend 8, 0)
  | .feedFlushed count => (11, byteOf count, 0)
  | .state st reason => (12, st.code, reason.code)
  | .configClash n => (13, stationByte n, 0)

/-- The last five bytes of a NEXT EVENT response: all 0 when no record is present. -/
def eventBytes : Option EventRecord → List Byte
  | none => [0, 0, 0, 0, 0]
  | some r =>
    let (kind, a, b) := r.event.bytes
    [kind, highByte r.frameNumber, lowByte r.frameNumber, a, b]

/-- The role byte. -/
def Role.code : Role → Byte
  | .shown => 0
  | .building => 1

/-- A value of two bytes, high byte first. -/
def wordBytes (v : BitVec 16) : List Byte := [highByte v, lowByte v]

/-- The bytes of the ten counters in R196's order. -/
def Counters.bytes (c : Counters) : List Byte :=
  [c.framesAccepted, c.spoilsCheck, c.spoilsFormat, c.spoilsQueueFull, c.ownAttemptsSpoiled, c.feedDropped,
    c.updatesPassed, c.sealsIgnored, c.shortFrames, c.underrunRows].flatMap wordBytes

/-- The bytes of a STATUS response after its code. -/
def StatusReport.bytes (r : StatusReport) : List Byte :=
  [stationByte r.station, r.state.code, r.reason.code, r.shown,
    flagBit r.isSealed 0 ||| flagBit r.armed 1 ||| flagBit r.catchingUp 2 ||| flagBit r.clashRecord.isSome 3,
    byteOf r.readySize, byteOf r.requirementSize, byteOf r.updateFill, byteOf r.feedFill, byteOf r.uncertainRows,
    match r.clashRecord with
    | some n => stationByte n
    | none => 0]

/-- The join frame of READ ROSTER: 0 unless the entry is Joining. -/
def RosterEntry.joinFrameBytes (e : RosterEntry) : List Byte :=
  match e.state, e.joinFrame with
  | .joining, some f => wordBytes f
  | _, _ => [0, 0]

/-- The bytes of a response, its code first. Any code but OK ends the response. -/
def Response.bytes : Response → List Byte
  | .status r => 0 :: r.bytes
  | .nextEvent rec lost => 0 :: (flagBit rec.isSome 0 ||| flagBit lost 1) :: eventBytes rec
  | .submitted fill => [0, byteOf fill]
  | .cell role p c =>
    [0, role.code, byteOf p.row.val, byteOf p.col.val, c.kindByte, highByte c.bits, lowByte c.bits]
  | .rosterEntry n e => [0, stationByte n, e.state.code, byteOf e.silence] ++ e.joinFrameBytes
  | .counters c => 0 :: c.bytes
  | .cleared => [0]
  | .restarted st => [0, st.code]
  | .full => [1]
  | .badClass => [2]
  | .badArg => [3]
  | .refused => [4]

/-- The port byte: bits 7..6 the port state, bit 0 whether the event queue holds a record (R183, Formats). -/
def portByte (port : PortState) (events : EventQueue) : Byte :=
  (match port with
    | .free => 0
    | .working _ _ => 0x40
    | .ready _ => 0x80) ||| flagBit (!events.records.isEmpty) 0

/-- The filler byte (R186, Formats). -/
def filler : Byte := 0xFF

end Sys2Proof.Machine
end

