-- ==== Sys2Proof/Machine/Ops.lean ====
section
/-! DEFINITION. The shared operations of the blocks: straps and station state, sets of stations, counters, the
event queue, the page memory arbiter, the roster's changes. Each works on its own block, so that what it leaves
alone is seen from its type. -/

namespace Sys2Proof.Machine

/-! ### Straps and configuration (R171, R172) -/

/-- Station number = tile row × 8 + tile column (R171). -/
def stationOf (p : Straps) : Station :=
  ⟨p.rows.toNat * 8 + p.cols.toNat, by have := p.rows.isLt; have := p.cols.isLt; omega⟩

/-- L = 32 × tile column (R171). -/
def leftEdge (p : Straps) : Nat := 32 * p.cols.toNat

/-- T = 12 × tile row (R171). -/
def topEdge (p : Straps) : Nat := 12 * p.rows.toNat

/-- This station's own number. -/
def State.station (s : State) : Station := stationOf s.straps

/-- The width of the wall in columns, 32W; 0 without a configuration record (R172). -/
def State.wallColumns (s : State) : Nat :=
  match s.config with
  | some c => 32 * c.wallWidth
  | none => 0

/-- The height of the wall in rows, 12H. -/
def State.wallRows (s : State) : Nat :=
  match s.config with
  | some c => 12 * c.wallHeight
  | none => 0

/-- The scan-first option; off without a configuration record (R137, R172). -/
def State.scanFirst (s : State) : Bool :=
  match s.config with
  | some c => c.scanFirst
  | none => false

/-- The conceal enable; no without a configuration record (notes/assumptions/14.md). -/
def State.concealEnable (s : State) : Bool :=
  match s.config with
  | some c => c.concealEnable
  | none => false

/-- The frame period. -/
def State.period (s : State) : Nat :=
  match s.config with
  | some c => c.periodMs
  | none => 0

/-! ### Station state (R173) -/

/-- Joining, Member or Leaving: the states in which the station judges, spoils and accepts every frame (R142). -/
def StationState.participates : StationState → Bool
  | .joining | .member | .leaving _ => true
  | .halted | .listening | .withdrawn | .clashed => false

/-- A drawing state: Member, or Leaving entered from Member (R112). -/
def StationState.draws : StationState → Bool
  | .member | .leaving .fromMember => true
  | .halted | .listening | .joining | .leaving .fromJoining | .withdrawn | .clashed => false

/-- Joining, or Leaving entered from Joining: the states in which a station may be following (R12). -/
def StationState.mayFollow : StationState → Bool
  | .joining | .leaving .fromJoining => true
  | .halted | .listening | .member | .leaving .fromMember | .withdrawn | .clashed => false

/-- A state in which a synchronised station reads the key of every frame for clash detection (R156). -/
def StationState.readsKeys : StationState → Bool
  | .listening | .joining | .member | .leaving _ | .withdrawn => true
  | .halted | .clashed => false

/-- The station is running in Joining, Member or Leaving. -/
def State.participates (s : State) : Bool :=
  match s.life with
  | .running st => st.participates
  | .unpowered | .heldInReset | .readingConfiguration => false

/-- The station is running in a drawing state. -/
def State.draws (s : State) : Bool :=
  match s.life with
  | .running st => st.draws
  | .unpowered | .heldInReset | .readingConfiguration => false

/-- The station has power (R108, R182). -/
def State.powered (s : State) : Bool := decide (s.life ≠ .unpowered)

/-- The kind a frame has that begins now (R112). -/
def State.frameKind (s : State) : FrameKind := if s.draws then .drawing else .dark

/-! ### Sets of stations -/

/-- Every member of `a` is a member of `b`. -/
def stationSubset (a b : StationSet) : Bool := (List.finRange 64).all fun n => !a[n] || b[n]

/-- The stations in both sets. -/
def stationInter (a b : StationSet) : StationSet := tabulate fun n => a[n] && b[n]

/-- The number of stations in a set. -/
def stationCount (a : StationSet) : Nat := (List.finRange 64).countP fun n => a[n]

/-! ### Counters (R196) -/

/-- A counter one higher, holding at 65535 (R196). -/
def rise (c : BitVec 16) : BitVec 16 := if c = 0xFFFF then c else c + 1

/-! ### The event queue (R194, R195) -/

/-- The queue with an event posted: at the tail, or dropped with the lost marker set when 32 records are held
(R194). -/
def EventQueue.post (q : EventQueue) (fn : FrameNumber) (e : Event) : EventQueue :=
  if q.records.length < 32 then { q with records := q.records ++ [⟨fn, e⟩] } else { q with lost := true }

/-- The queue with several events posted in order. -/
def EventQueue.postAll (q : EventQueue) (fn : FrameNumber) : List Event → EventQueue
  | [] => q
  | e :: es => (q.post fn e).postAll fn es

/-- The station with an event posted under the frame number in force (R195). -/
def State.post (s : State) (e : Event) : State := { s with events := s.events.post s.timer.frameNumber e }

/-- The interrupt line: asserted while the event queue holds a record (R194). That it follows the queue State keeps also
without power is the model's choice (notes/assumptions/23.md). -/
def State.interruptLine (s : State) : Bool := !s.events.records.isEmpty

/-! ### The page memory arbiter (R129 to R137) -/

/-- The waiting request of a requester. -/
def Arbiter.waiting (a : Arbiter) : Requester → Option Request
  | .rowFetch => a.rowFetch
  | .feedRead => a.feedRead
  | .apply => a.apply
  | .catchUp => a.catchUp

/-- The arbiter with the waiting request of one requester replaced. -/
def Arbiter.setWaiting (a : Arbiter) (q : Option Request) : Requester → Arbiter
  | .rowFetch => { a with rowFetch := q }
  | .feedRead => { a with feedRead := q }
  | .apply => { a with apply := q }
  | .catchUp => { a with catchUp := q }

/-- The arbiter with a request issued (R129). -/
def Arbiter.issue (a : Arbiter) (r : Requester) (q : Request) : Arbiter := a.setWaiting (some q) r

/-- The arbiter with an owner's work abandoned: its waiting request is withdrawn, its access in progress will
complete without it (R136). -/
def Arbiter.withdraw (a : Arbiter) (r : Requester) : Arbiter :=
  { a.setWaiting none r with
    access := a.access.map fun acc => if acc.requester = r then { acc with abandoned := true } else acc }

/-- The arbiter at the entry to Listening: the blanking stands over the access in progress (R137). -/
def Arbiter.blank (a : Arbiter) : Arbiter :=
  { a with access := a.access.map fun acc => { acc with blanked := true } }

/-- The waiting request of a requester granted, its role resolved by the shown pointer (R130). -/
def Arbiter.grantTo (a : Arbiter) (shown : BufferName) (r : Requester) : Arbiter :=
  match a.waiting r with
  | none => a
  | some q =>
    { a.setWaiting none r with access := some ⟨r, shown.ofRole q.role, q.pos, q.write, false, false⟩ }

/-- The order in force (R131). -/
def grantOrder (scanFirst : Bool) : List Requester :=
  if scanFirst then [.rowFetch, .feedRead, .apply, .catchUp] else [.feedRead, .apply, .catchUp, .rowFetch]

/-- The grant: with no access in progress, the highest waiting requester in the order in force (R131). -/
def Arbiter.grant (a : Arbiter) (shown : BufferName) (scanFirst : Bool) : Arbiter :=
  if a.access.isSome then a
  else
    match (grantOrder scanFirst).find? fun r => (a.waiting r).isSome with
    | none => a
    | some r => a.grantTo shown r

/-- The station after the arbiter's grant. -/
def State.grant (s : State) : State := { s with arbiter := s.arbiter.grant s.shown s.scanFirst }

/-- The station after the grant at a moment at which the row fetch and a writing engine may have issued requests
together: with no access in progress either may be first (R132), a free value (notes/assumptions/8.md). -/
def State.grantRace (s : State) : State :=
  if s.arbiter.access.isNone && s.arbiter.rowFetch.isSome && s.arbiter.feedRead.isNone
      && (s.arbiter.apply.isSome || s.arbiter.catchUp.isSome) then
    { s with
      arbiter :=
        if Config.fetchIssuedFirst s.freeCount then s.arbiter.grantTo s.shown .rowFetch
        else if s.arbiter.apply.isSome then s.arbiter.grantTo s.shown .apply
        else s.arbiter.grantTo s.shown .catchUp
      freeCount := s.freeCount + 1 }
  else s.grant

/-- The access in progress completes: a write leaves its record in the granted buffer, unless the entry to
Listening has blanked over it (R130, R137). -/
def State.finishAccess (s : State) (acc : Access) : State :=
  let t := { s with arbiter := { s.arbiter with access := none } }
  match acc.write with
  | some c => if acc.blanked then t else t.writeCell acc.buffer acc.pos c
  | none => t

/-- The access in progress, when the station has power and it is the read (`false`) or the write (`true`) of a
requester (R130). -/
def State.accessOf (s : State) (r : Requester) (writes : Bool) : Option Access :=
  match s.arbiter.access with
  | some acc => if s.powered ∧ acc.requester = r ∧ acc.write.isSome = writes then some acc else none
  | none => none

/-! ### The roster (R30 to R38) -/

/-- The sender's silence count returned to 0, whatever the entry's state (R30). -/
def rosterHeard (r : Roster) (n : Station) : Roster := r.set n { r[n] with silence := 0 }

/-- An entry whose station joined (R31). -/
def rosterJoin (r : Roster) (n : Station) (fn : FrameNumber) : Roster := r.set n ⟨.joining, 0, some fn⟩

/-- An entry whose station left (R33). -/
def rosterLeave (r : Roster) (n : Station) : Roster := r.set n { r[n] with state := .absent, joinFrame := none }

/-- An Absent entry whose station sent a PRESENCE carrying Member (R34). -/
def rosterPresence (r : Roster) (n : Station) : Roster :=
  if r[n].state = .absent then r.set n { r[n] with state := .member, joinFrame := none } else r

/-- One entry at a beacon acceptance: a Joining or Member entry counts one more, and goes Silent at 48; the
sender's ends at 0 (R36). -/
def RosterEntry.counted (e : RosterEntry) (isSender : Bool) : RosterEntry :=
  if isSender then { e with silence := 0 }
  else if e.state = .joining ∨ e.state = .member then
    if e.silence + 1 < 48 then { e with silence := e.silence + 1 }
    else ⟨.silent, e.silence + 1, none⟩
  else e

/-- Silence counting at a beacon acceptance (R36). -/
def rosterCount (r : Roster) (sender : Station) : Roster :=
  tabulate fun n => r[n].counted (decide (n = sender))

/-- The promotion at a flip: every Joining entry named in the baseline becomes Member (R38). -/
def rosterPromote (r : Roster) (baseline : Option StationSet) : Roster :=
  tabulate fun n =>
    if r[n].state = .joining ∧ (baseline.map fun b => b[n]) = some true then
      { r[n] with state := .member, joinFrame := none }
    else r[n]

/-- The flip timeout: every station named becomes Silent, its silence count left as it is (R37). -/
def rosterTimeOut (r : Roster) (names : StationSet) : Roster :=
  tabulate fun n => if names[n] then { r[n] with state := .silent, joinFrame := none } else r[n]

/-- One ROSTER event for each entry whose state changed, in ascending station number (R43). -/
def rosterEvents (before after : Roster) : List Event :=
  (List.finRange 64).filterMap fun n =>
    if before[n].state = after[n].state then none else some (.roster n after[n].state)

/-- The roster as entry to Withdrawn, Clashed or Listening leaves it (R28). -/
def rosterCleared : Roster := Vector.replicate 64 RosterEntry.cleared

end Sys2Proof.Machine
end

