-- ==== Sys2Proof/Machine/Flags.lean ====
section
/-! DEFINITION. The conditions generation control computes: the requirement set, following, armed, READY (R9 to
R16). -/

namespace Sys2Proof.Machine

/-- B, always S + 1 modulo 256 (R1). -/
def GenerationRecord.building (g : GenerationRecord) : Generation := g.shown + 1

/-- Whether the baseline set holds a station; an absent set holds none (R7). -/
def GenerationRecord.inBaseline (g : GenerationRecord) (n : Station) : Bool :=
  match g.baseline with
  | some b => b[n]
  | none => false

/-- The requirement set: every Member, and when B is sealed every Joining station of the baseline set (R9, R42). -/
def requirementSet (r : Roster) (g : GenerationRecord) : StationSet :=
  tabulate fun n =>
    decide (r[n].state = .member) || (g.isSealed && decide (r[n].state = .joining) && g.inBaseline n)

/-- This station's requirement set. -/
def State.requirementSet (s : State) : StationSet := Machine.requirementSet s.roster s.gen

/-- A station in Joining, or in Leaving entered from Joining, that is not in its own requirement set (R12). -/
def isFollowing (st : StationState) (own : Station) (r : Roster) (g : GenerationRecord) : Bool :=
  st.mayFollow && !(Machine.requirementSet r g)[own]

/-- This station is following (R12). -/
def State.following (s : State) : Bool :=
  match s.life with
  | .running st => isFollowing st s.station s.roster s.gen
  | .unpowered | .heldInReset | .readingConfiguration => false

/-- B is sealed and every station of the requirement set is in the ready set: armed of a station that is not
following (R16), computed armed of one that is (R163). -/
def computedArmed (r : Roster) (g : GenerationRecord) : Bool :=
  g.isSealed && stationSubset (Machine.requirementSet r g) g.readySet

/-- The baseline set after a change of the roster: a station whose entry is Absent or Silent is out (R7). -/
def baselineKept (r : Roster) (b : StationSet) : StationSet :=
  tabulate fun n => b[n] && !(decide (r[n].state = .absent) || decide (r[n].state = .silent))

/-- The record after a change of the roster, of the ready set or of the seal: the baseline keeps the stations
that are neither Absent nor Silent (R7), the ready set holds only stations of the requirement set (R11), and armed
is evaluated unless the station is following (R12, R16). -/
def GenerationRecord.settle (g : GenerationRecord) (st : StationState) (own : Station) (r : Roster) :
    GenerationRecord :=
  let g1 := { g with baseline := g.baseline.map (baselineKept r) }
  let g2 := { g1 with readySet := stationInter g1.readySet (Machine.requirementSet r g1) }
  { g2 with armed := !isFollowing st own r g2 && computedArmed r g2 }

/-- The flip's changes of the record (R18). -/
def GenerationRecord.flip (g : GenerationRecord) : GenerationRecord :=
  { shown := g.building, isSealed := false, sealer := none, baseline := none, revealBuilding := false
    revealShown := g.revealBuilding, readySet := StationSet.empty, armed := false, sealAge := 0
    announced := false }

/-- The seal age one higher while B is sealed and it is below 32 (R21). -/
def GenerationRecord.aged (g : GenerationRecord) : GenerationRecord :=
  if g.isSealed && decide (g.sealAge < 32) then { g with sealAge := g.sealAge + 1 } else g

/-- The stations the flip timeout names: in the requirement set and not in the ready set (R21, R37). -/
def timeoutNames (r : Roster) (g : GenerationRecord) : StationSet :=
  tabulate fun n => (Machine.requirementSet r g)[n] && !g.readySet[n]

/-- The update queue holds a Current entry, or the engine is applying one (R13). -/
def State.currentWork (s : State) : Bool :=
  s.updateQueue.any (fun e => decide (e.epoch = .current)) || decide (s.applyEngine ≠ .idle)

/-- The conditions of R13. -/
def State.readyCondition (s : State) : Bool :=
  (decide (s.life = .running .joining) || decide (s.life = .running .member))
    && s.requirementSet[s.station] && s.gen.isSealed && !s.currentWork && decide (s.catchUp = .idle)
    && !s.gen.announced

/-- READY set pending with g = B, and announced set, when the conditions of R13 hold together. -/
def State.evaluateReady (s : State) : State :=
  if s.readyCondition then
    { s with
      gen := { s.gen with announced := true }
      bus := { s.bus with readyPending := some s.gen.building } }
  else s

/-- The station after its roster has changed to `r`: the record settled, the ROSTER events posted, READY
evaluated (R11, R13, R16, R42, R43). Used while the station is in Joining, Member or Leaving. -/
def State.changeRoster (s : State) (st : StationState) (r : Roster) : State :=
  let t := { s with
    roster := r
    gen := s.gen.settle st s.station r
    events := s.events.postAll s.timer.frameNumber (rosterEvents s.roster r) }
  t.evaluateReady

end Sys2Proof.Machine
end

