-- ==== Sys2Proof/Machine/ZoneCarry.lean ====
section
/-! DEFINITION. Zone carry: the left-zone table's steps (R87 to R91) and the latch of the entry records (R94,
R95). -/

namespace Sys2Proof.Machine

/-- An entry inserted at its place in column order, or its record replaced (R87). -/
def insertColumn (c : Nat) (z : ZoneRecord) : List (Nat × ZoneRecord) → List (Nat × ZoneRecord)
  | [] => [(c, z)]
  | (b, w) :: rest =>
    if c < b then (c, z) :: (b, w) :: rest
    else if c = b then (c, z) :: rest
    else (b, w) :: insertColumn c z rest

/-- A list of 17 entries loses the lowest, whose column becomes the floor (R88). -/
def LeftRow.trim (row : LeftRow) : LeftRow :=
  if row.entries.length ≤ 16 then row
  else
    match row.entries with
    | [] => row
    | (c, _) :: rest => ⟨rest, some c⟩

/-- A column at or below the row's floor (R87, R89). -/
def LeftRow.belowFloor (row : LeftRow) (c : Nat) : Bool :=
  match row.floor with
  | some f => decide (c ≤ f)
  | none => false

/-- A left step of a row: a zone cell is recorded (R87, R88), a glyph cell removes an entry (R89); at or below
the floor nothing changes. -/
def LeftRow.write (row : LeftRow) (c : Nat) (cell : CellRecord) : LeftRow :=
  if row.belowFloor c then row
  else
    match cell with
    | .zone z => LeftRow.trim { row with entries := insertColumn c z.zone row.entries }
    | .glyph _ => { row with entries := row.entries.filter fun e => decide (e.1 ≠ c) }

/-- The entry record a latch sets for a row, from its list, its floor and the shown row default (R94). -/
def LeftRow.latch (row : LeftRow) (d : ZoneRecord) : EntryRecord :=
  match row.entries.getLast? with
  | some (_, z) => ⟨z, false⟩
  | none => ⟨d, row.floor.isSome⟩

/-- The twelve entry records a latch sets (R94). -/
def latchAll (table : Vector LeftRow 12) (shownDefaults : Vector ZoneRecord 12) : Vector EntryRecord 12 :=
  tabulate fun r => table[r].latch shownDefaults[r]

/-- ROW_UNCERTAIN and ROW_CERTAIN for the rows whose flag changed, in ascending local row (R95). -/
def latchEvents (before after : Vector EntryRecord 12) : List Event :=
  (List.finRange 12).filterMap fun r =>
    if before[r].isUncertain = after[r].isUncertain then none
    else some (if after[r].isUncertain then .rowUncertain r else .rowCertain r)

/-- The uncertain-row count (R95). -/
def State.uncertainRows (s : State) : Nat :=
  (List.finRange 12).countP fun r => s.entryRecords[r].isUncertain

end Sys2Proof.Machine
end

