-- ==== Sys2Proof/Machine/Apply.lean ====
section
/-! DEFINITION. The update queue, the apply engine, the dirty list and the catch-up engine (03 and 04 of the spec),
with the meanings of TILE_STEP, CATCH_UP_READ and CATCH_UP_WRITE. -/

namespace Sys2Proof.Machine

/-! ### Clipping and the acceptance filter (R46 to R48) -/

/-- The wall row an UPDATE names (R45). -/
def Update.row : Update → Nat
  | .cell row _ _ | .run row _ _ | .fill row _ _ _ | .rowdef row _ | .rowclear row _ _ => row

/-- The targets of an UPDATE, in order, on a wall `columns` wide (R45). -/
def Update.targets (columns : Nat) : Update → List (Nat × CellRecord)
  | .cell _ col c => [(col, c)]
  | .run _ col cells => cells.zipIdx.map fun e => (col + e.2, e.1)
  | .fill _ col count c => (List.range count).map fun k => (col + k, c)
  | .rowdef _ _ => []
  | .rowclear _ _ c => (List.range columns).map fun k => (k, c)

/-- An UPDATE clipped to a wall of `columns` by `rows`; none when it keeps no targets and no row default (R46). -/
def Update.clip (columns rows : Nat) (u : Update) : Option Update :=
  if u.row < rows then
    match u with
    | .cell row col c => if col < columns then some (.cell row col c) else none
    | .run row col cells => if col < columns then some (.run row col (cells.take (columns - col))) else none
    | .fill row col count c =>
      if col < columns then some (.fill row col (min count (columns - col)) c) else none
    | .rowdef row d => some (.rowdef row d)
    | .rowclear row d c => some (.rowclear row d c)
  else none

/-- The local row of a wall row (R47). -/
def localRow? (p : Straps) (row : Nat) : Option LocalRow :=
  if h : topEdge p ≤ row ∧ row - topEdge p < 12 then some ⟨row - topEdge p, h.2⟩ else none

/-- The region of a wall column in a local row (R47). -/
inductive Region where
  | tile (col : LocalColumn)
  | left
  | right
deriving DecidableEq, Repr

/-- The region a wall column falls in (R47). -/
def regionOf (p : Straps) (col : Nat) : Region :=
  if col < leftEdge p then .left
  else if h : col - leftEdge p < 32 then .tile ⟨col - leftEdge p, h⟩
  else .right

/-- A ROWDEF or a ROWCLEAR (R48). -/
def Update.setsDefault : Update → Bool
  | .rowdef _ _ | .rowclear _ _ _ => true
  | .cell _ _ _ | .run _ _ _ | .fill _ _ _ _ => false

/-- The acceptance filter on a clipped UPDATE: queued when a target is in the tile or the left region, or when it
is a ROWDEF or ROWCLEAR of a local row (R48). -/
def Update.queuedAt (p : Straps) (columns : Nat) (u : Update) : Bool :=
  (localRow? p u.row).isSome &&
    (u.setsDefault || (u.targets columns).any fun t => decide (regionOf p t.1 ≠ .right))

/-- The clipped UPDATE when this station's filter queues it, none when it is passed (R46, R48). -/
def State.filtered (s : State) (u : Update) : Option Update :=
  match u.clip s.wallColumns s.wallRows with
  | some v => if v.queuedAt s.straps s.wallColumns then some v else none
  | none => none

/-! ### The steps of an entry (R57 to R60) -/

/-- One step of an entry (R57). -/
inductive ApplyStep where
  | tile (pos : Pos) (c : CellRecord)
  | left (row : LocalRow) (col : Nat) (c : CellRecord)
  | right
  | rowDefault (row : LocalRow) (d : ZoneRecord)
  | leftClear (row : LocalRow)
deriving DecidableEq, Repr

/-- A target step: a tile step, a left step or a right step, by its column's region (R57). -/
def targetStep (p : Straps) (r : LocalRow) (t : Nat × CellRecord) : ApplyStep :=
  match regionOf p t.1 with
  | .tile col => .tile ⟨r, col⟩ t.2
  | .left => .left r t.1 t.2
  | .right => .right

/-- The steps of an entry, in order (R57); none in a row that is not a local row. -/
def Update.steps (p : Straps) (columns : Nat) (u : Update) : List ApplyStep :=
  match localRow? p u.row with
  | none => []
  | some r =>
    (match u with
      | .rowdef _ d => [.rowDefault r d]
      | .rowclear _ d _ => [.rowDefault r d, .leftClear r]
      | .cell _ _ _ | .run _ _ _ | .fill _ _ _ _ => []) ++
      (u.targets columns).map (targetStep p r)

/-- A step that makes no page memory access, done as the engine reaches it (R59, R60); a tile step changes nothing
here. -/
def State.doStep (s : State) : ApplyStep → State
  | .left r col c => { s with leftTable := s.leftTable.set r (s.leftTable[r].write col c) }
  | .leftClear r => { s with leftTable := s.leftTable.set r LeftRow.empty }
  | .rowDefault r d => s.setBuildingDefault r d
  | .right => s
  | .tile _ _ => s

/-! ### The engine (R54, R55, R61) -/

/-- The steps from number `n` on, up to the first tile step, whose write request is issued (R58): the station, and
the number of that tile step, or none when the entry completes (R61). -/
def State.runSteps (s : State) : List ApplyStep → Nat → State × Option Nat
  | [], _ => (s, none)
  | .tile pos c :: _, n => ({ s with arbiter := s.arbiter.issue .apply ⟨pos, .building, some c⟩ }, some n)
  | st :: rest, n => (s.doStep st).runSteps rest (n + 1)

/-- The idle engine in front of a queue: it takes the head when it is Current, and entries that make no access
complete as they are taken (R55, R61). -/
def State.takeHeads (s : State) : List UpdateEntry → State
  | [] => { s with updateQueue := [], applyEngine := .idle }
  | e :: rest =>
    if e.epoch = .current then
      match s.runSteps (e.update.steps s.straps s.wallColumns) 0 with
      | (t, none) => t.takeHeads rest
      | (t, some n) => { t with updateQueue := e :: rest, applyEngine := .applying n }
    else { s with updateQueue := e :: rest, applyEngine := .idle }

/-- The condition of R55 evaluated: the engine takes the head entry when it is Idle, the head is Current, no
catch-up is in progress and the station is in Joining, Member or Leaving. -/
def State.resumeApply (s : State) : State :=
  if s.participates && decide (s.applyEngine = .idle) && decide (s.catchUp = .idle) then
    s.takeHeads s.updateQueue
  else s

/-- The engine after its tile step number `n` completed: the steps that follow; when the entry completes it leaves the
queue, the engine is Idle and the condition of R55 is evaluated (R58, R61). -/
def State.continueEntry (s : State) (n : Nat) : State :=
  match s.updateQueue with
  | [] => { s with applyEngine := .idle }
  | e :: rest =>
    match s.runSteps ((e.update.steps s.straps s.wallColumns).drop (n + 1)) (n + 1) with
    | (t, none) => { t with updateQueue := rest, applyEngine := .idle }.resumeApply
    | (t, some k) => { t with updateQueue := e :: rest, applyEngine := .applying k }

/-! ### The dirty list (R72) -/

/-- The dirty list with a position posted (R72). -/
def DirtyList.post (d : DirtyList) (p : Pos) : DirtyList :=
  if d.overflow || decide (p ∈ d.positions) then d
  else if d.positions.length < 128 then { d with positions := d.positions ++ [p] }
  else ⟨[], true⟩

/-! ### Catch-up (R74 to R77) -/

/-- "Catch-up in progress" (R74). -/
def State.catchingUp (s : State) : Bool := decide (s.catchUp ≠ .idle)

/-- The position in progress of the catch-up engine. -/
def CatchUp.position : CatchUp → Option Pos
  | .idle => none
  | .list p _ _ | .tile p _ => some p

/-- The engine's work at a swap: the tile at the station's first swap as Member or after an overflow, else the
dirty list's positions (R75). -/
def catchUpWork (firstSwap : Bool) (d : DirtyList) : CatchUp :=
  if firstSwap || d.overflow then .tile ⟨0, 0⟩ .readOutstanding
  else
    match d.positions with
    | [] => .idle
    | p :: rest => .list p rest .readOutstanding

/-- The station with the catch-up engine at a position's read: the request of the shown role is issued (R76). An
idle engine issues none. -/
def State.requestCopy (s : State) (c : CatchUp) : State :=
  match c.position with
  | some p => { s with catchUp := c, arbiter := s.arbiter.issue .catchUp ⟨p, .shown, none⟩ }
  | none => { s with catchUp := c }

/-- Catch-up starts at a swap: it takes the dirty list and empties it, clearing overflow (R75). -/
def State.startCatchUp (s : State) (firstSwap : Bool) : State :=
  { s with dirty := ⟨[], false⟩ }.requestCopy (catchUpWork firstSwap s.dirty)

/-- The engine with a position's read done and its record held (R76). -/
def CatchUp.withRecord (c : CatchUp) (cell : CellRecord) : CatchUp :=
  match c with
  | .idle => .idle
  | .list p rest _ => .list p rest (.writeOutstanding cell)
  | .tile p _ => .tile p (.writeOutstanding cell)

/-- The engine with the position in progress done (R76); idle when it was the last (R77). -/
def CatchUp.advance : CatchUp → CatchUp
  | .idle => .idle
  | .list _ [] _ => .idle
  | .list _ (p :: rest) _ => .list p rest .readOutstanding
  | .tile p _ =>
    match p.succ? with
    | some q => .tile q .readOutstanding
    | none => .idle

/-! ### The meanings -/

/-- TILE_STEP: an apply write access completes. The record is in the granted buffer; the position is posted to
the dirty list and the engine goes on, unless the entry was abandoned (R58, R61, R65, R136); the arbiter grants
(R131, R132). -/
def State.tileStep (s : State) (acc : Access) : State :=
  let t := s.finishAccess acc
  if acc.abandoned then t.grant
  else
    match t.applyEngine with
    | .idle => t.grant
    | .applying n => (({ t with dirty := t.dirty.post acc.pos }.continueEntry n).evaluateReady).grant

/-- CATCH_UP_READ: the record read is held and the write of the building role is requested; an abandoned read is
not followed by its write (R76, R80, R133). -/
def State.catchUpRead (s : State) (acc : Access) : State :=
  let t := s.finishAccess acc
  if acc.abandoned then t.grant
  else
    let c := s.readCell acc.buffer acc.pos
    { t with
      catchUp := t.catchUp.withRecord c
      arbiter := t.arbiter.issue .catchUp ⟨acc.pos, .building, some c⟩ }.grant

/-- CATCH_UP_WRITE: the position is done; the next read is requested, or catch-up completes, apply resumes and
READY is evaluated (R76, R77). -/
def State.catchUpWrite (s : State) (acc : Access) : State :=
  let t := s.finishAccess acc
  if acc.abandoned then t.grant
  else (((t.requestCopy t.catchUp.advance).resumeApply).evaluateReady).grant

/-- TILE_STEP (R58). With no apply write in progress the event does not occur (notes/assumptions/3.md). -/
def execTileStep (s : State) : Host.Outcome State Fault Refusal :=
  match s.accessOf .apply true with
  | some acc => .next (s.tileStep acc)
  | none => .next s

/-- CATCH_UP_READ (R76). With no catch-up read in progress the event does not occur. -/
def execCatchUpRead (s : State) : Host.Outcome State Fault Refusal :=
  match s.accessOf .catchUp false with
  | some acc => .next (s.catchUpRead acc)
  | none => .next s

/-- CATCH_UP_WRITE (R76, R77). With no catch-up write in progress the event does not occur. -/
def execCatchUpWrite (s : State) : Host.Outcome State Fault Refusal :=
  match s.accessOf .catchUp true with
  | some acc => .next (s.catchUpWrite acc)
  | none => .next s

end Sys2Proof.Machine
end

