-- ==== Sys2Proof/Machine/Scan.lean ====
section
/-! DEFINITION. The scan engine (07 of the spec): frames, the row fetch, composition, and the meanings of
ROW_FETCH, ROW_DISPLAY, DOT_LINE and TAIL. -/

namespace Sys2Proof.Machine

/-! ### Composition (R121 to R126) -/

/-- What is fixed while a dot line is composed: the frame values (R115), the row and the dot line. -/
structure LineContext where
  glyphs : List Host.Cell
  flashOn : Bool
  reveal : Bool
  concealEnable : Bool
  row : LocalRow
  line : Fin 16

/-- A zone is effectively concealed at a cell (R121). -/
def LineContext.concealed (x : LineContext) (z : ZoneRecord) : Bool :=
  x.concealEnable && !x.reveal && z.conceal

/-- A tall or large cell (R122). -/
def GlyphSize.isTall : GlyphSize → Bool
  | .tall | .large => true
  | .normal | .wide => false

/-- A wide or large cell (R122). -/
def GlyphSize.isWide : GlyphSize → Bool
  | .wide | .large => true
  | .normal | .tall => false

/-- The glyph line a cell reads for a dot line (R122). -/
def LineContext.glyphLineFor (x : LineContext) (size : GlyphSize) : Nat :=
  if size.isTall then (if x.row.val % 2 = 0 then x.line.val / 2 else 8 + x.line.val / 2) else x.line.val

/-- The pattern dot a cell reads for a dot (R122). -/
def patternDotFor (size : GlyphSize) (col dot : Nat) : Nat :=
  if size.isWide then (if col % 2 = 0 then dot / 2 else 4 + dot / 2) else dot

/-- Whether a dot of a glyph cell is ink (R123, steps 1 to 3). Bit 7 of a pattern is its leftmost dot. -/
def LineContext.ink (x : LineContext) (g : GlyphCell) (z : ZoneRecord) (col dot : Nat) : Bool :=
  let pattern := glyphLine x.glyphs g.set g.code (x.glyphLineFor g.size)
  let lit := pattern.getLsbD (7 - patternDotFor g.size col dot) && (!g.flash || x.flashOn)
  let underlined := z.underline && decide (x.line.val = 15) && (!g.size.isTall || decide (x.row.val % 2 = 1))
  lit || underlined

/-- The eight dots of a cell on a dot line: underrun marks (R126), zone cells (R125), concealed glyph cells (R124)
and glyph cells (R123). -/
def LineContext.cellDots (x : LineContext) (col : Nat) (z : ZoneRecord) : Option CellRecord → List Colour
  | none => List.replicate 8 z.background
  | some (.zone zc) => List.replicate 8 (if x.concealed z then z.background else zc.colour)
  | some (.glyph g) =>
    if x.concealed z then List.replicate 8 z.background
    else
      (List.range 8).map fun dot =>
        if x.ink g z col dot ^^ g.invert then g.foreground else z.background

/-- The zone state after a cell: a zone cell sets it (R125), others leave it (R121, R126). -/
def zoneAfter (z : ZoneRecord) : Option CellRecord → ZoneRecord
  | some (.zone zc) => zc.zone
  | some (.glyph _) => z
  | none => z

/-- The dots of the cells from column `col` on, and the zone state they leave (R121). -/
def LineContext.compose (x : LineContext) : Nat → ZoneRecord → List (Option CellRecord) → List Colour × ZoneRecord
  | _, z, [] => ([], z)
  | col, z, cell :: rest =>
    let after := x.compose (col + 1) (zoneAfter z cell) rest
    (x.cellDots col z cell ++ after.1, after.2)

/-! ### Frames (R110 to R115) -/

/-- The flash phase is on when the frame number modulo 32 is 0..15 (R115). -/
def flashPhase (fn : FrameNumber) : Bool := decide (fn.toNat % 32 < 16)

/-- The dot line that ends now ends with its line strobe, and the panel holds it (R110). -/
def ScanEngine.endLine (sc : ScanEngine) : ScanEngine :=
  match sc.phase with
  | .row r line =>
    if sc.lineBegun then
      { sc with
        lineStrobes := sc.lineStrobes + 1
        panel := Memory.write darkLine sc.panel (panelLine r line) sc.dots }
    else sc
  | .lead | .tail => sc

/-- A dot line that is stopped: the first `sent` of its dots reached the panel, and no line strobe ends it (R111;
notes/assumptions/10.md). -/
def ScanEngine.stopLine (sc : ScanEngine) (sent : Nat) : ScanEngine :=
  match sc.phase with
  | .row r line =>
    if sc.lineBegun then
      let held := Memory.read darkLine sc.panel (panelLine r line)
      { sc with panel := Memory.write darkLine sc.panel (panelLine r line) (sc.dots.take sent ++ held.drop sent) }
    else sc
  | .lead | .tail => sc

/-- The active part of a frame (R110). -/
def ScanPhase.isActive : ScanPhase → Bool
  | .row _ _ => true
  | .lead | .tail => false

/-- A display frame begins with its lead: the line being sent stops, the frame's values are taken (R111, R115). -/
def State.beginFrame (s : State) (kind : FrameKind) : State :=
  { s with
    scan := { s.scan.stopLine (Config.dotsSentBeforeStop s.freeCount) with
      phase := .lead, lineBegun := false, kind := kind, flashOn := flashPhase s.timer.frameNumber
      reveal := s.gen.revealShown, concealEnable := s.concealEnable, underrun := false, lineStrobes := 0 }
    freeCount := s.freeCount + 1 }

/-- The frame strobe is driven in the lead (R110). A station without power drives none, the model's choice
(notes/assumptions/23.md). -/
def State.frameStrobe (s : State) : Bool := s.powered && decide (s.scan.phase = .lead)

/-! ### The row fetch (R116 to R119) -/

/-- Every cell unfetched (R114). -/
def unfetched : Vector (Option CellRecord) 32 := Vector.replicate 32 none

/-- The fetch abandoned: its request withdrawn, the read in progress discarded, the row buffer cleared (R117 to
R119). -/
def State.abandonFetch (s : State) : State :=
  { s with
    scan := { s.scan with rowBuffer := unfetched, fetch := .idle }
    arbiter := s.arbiter.withdraw .rowFetch }

/-- The fetch of a row begins: every cell unfetched, the request for column 0 issued (R116). -/
def State.beginFetch (s : State) (r : LocalRow) : State :=
  { s with
    scan := { s.scan with rowBuffer := unfetched, fetch := .fetching r 0 }
    arbiter := s.arbiter.issue .rowFetch ⟨⟨r, 0⟩, .shown, none⟩ }

/-- A row fetch read completes: the cell is placed in the row buffer and the next column is requested; the read of
column 31 completes the fetch; an abandoned read's record is discarded (R116, R136). -/
def State.rowFetched (s : State) (acc : Access) : State :=
  let t := s.finishAccess acc
  if acc.abandoned then t.grant
  else
    match s.scan.fetch with
    | .idle => t.grant
    | .fetching r col =>
      let buffer := s.scan.rowBuffer.set col (some (s.readCell acc.buffer acc.pos))
      if h : col.val + 1 < 32 then
        { t with
          scan := { t.scan with rowBuffer := buffer, fetch := .fetching r ⟨col.val + 1, h⟩ }
          arbiter := t.arbiter.issue .rowFetch ⟨⟨r, ⟨col.val + 1, h⟩⟩, .shown, none⟩ }.grant
      else { t with scan := { t.scan with rowBuffer := buffer, fetch := .idle } }.grant

/-! ### Display of a row (R117, R120, R121) -/

/-- The row whose display begins next: row 0 at the end of the lead, row r + 1 when dot line 15 of row r has been
sent (R110). -/
def ScanEngine.nextRow (sc : ScanEngine) : Option LocalRow :=
  match sc.phase with
  | .lead => some 0
  | .row r line =>
    if h : r.val + 1 < 12 then
      if line.val = 15 && sc.lineBegun then some ⟨r.val + 1, h⟩ else none
    else none
  | .tail => none

/-- Some cell of the row buffer is unfetched (R117). -/
def ScanEngine.rowIncomplete (sc : ScanEngine) : Bool := sc.rowBuffer.toList.any Option.isNone

/-- An underrun: the fetch is abandoned, the row counted, and the first of the frame posts UNDERRUN (R117,
R120). -/
def State.countUnderrun (s : State) : State :=
  { s with
    arbiter := s.arbiter.withdraw .rowFetch
    counters := { s.counters with underrunRows := rise s.counters.underrunRows }
    events := if s.scan.underrun then s.events else s.events.post s.timer.frameNumber .underrun
    scan := { s.scan with underrun := true } }

/-- The take-over of the row buffer into the display row, and the zone state from the entry record (R117, R121). -/
def State.takeOver (s : State) (r : LocalRow) : State :=
  { s with
    scan := { s.scan with
      displayRow := s.scan.rowBuffer, rowBuffer := unfetched, fetch := .idle, zone := s.entryRecords[r].zone } }

/-- The fetch of the row after `r` begins when display of row `r` begins, for r = 0..10 (R116). -/
def State.fetchAfter (s : State) (r : LocalRow) : State :=
  if h : r.val + 1 < 12 then s.beginFetch ⟨r.val + 1, h⟩ else s

/-- The phase moves to the beginning of a row's display; the line before it ends (R110). -/
def State.enterRow (s : State) (r : LocalRow) : State :=
  { s with scan := { s.scan.endLine with phase := .row r 0, lineBegun := false } }

/-- The underrun counted when some cell is unfetched (R117). -/
def State.noteUnderrun (s : State) : State := if s.scan.rowIncomplete then s.countUnderrun else s

/-- Display of row `r` begins. In a dark frame only the phase moves (R112). -/
def State.displayRow (s : State) (r : LocalRow) : State :=
  if s.scan.kind = .drawing then ((((s.enterRow r).noteUnderrun).takeOver r).fetchAfter r).grant else s.enterRow r

/-! ### Dot lines (R106, R110, R121) -/

/-- The dot line that begins next: line 0 when display of the row has begun, else the line after the one being
sent (R110). -/
def ScanEngine.nextLine (sc : ScanEngine) : Option (LocalRow × Fin 16) :=
  match sc.phase with
  | .row r line =>
    if sc.lineBegun then
      if h : line.val + 1 < 16 then some (r, ⟨line.val + 1, h⟩) else none
    else some (r, line)
  | .lead | .tail => none

/-- The context of a dot line: glyph memory as it stands at the line's beginning (R106) and the frame's values. -/
def State.lineContext (s : State) (r : LocalRow) (line : Fin 16) : LineContext :=
  ⟨s.glyphMemory, s.scan.flashOn, s.scan.reveal, s.scan.concealEnable, r, line⟩

/-- A dot line begins: its dots are composed from the row's entry record on; in a dark frame every dot is colour 0
(R112, R121). -/
def State.beginLine (s : State) (r : LocalRow) (line : Fin 16) : State :=
  let sc := s.scan.endLine
  if s.scan.kind = .drawing then
    let composed := (s.lineContext r line).compose 0 s.entryRecords[r].zone s.scan.displayRow.toList
    { s with scan := { sc with phase := .row r line, lineBegun := true, dots := composed.1, zone := composed.2 } }
  else { s with scan := { sc with phase := .row r line, lineBegun := true, dots := darkLine } }

/-! ### The tail (R110, R116) -/

/-- Dot line 15 of row 11 is being sent. -/
def ScanEngine.lastLine (sc : ScanEngine) : Bool :=
  decide (sc.phase = .row 11 15) && sc.lineBegun

/-- The phase moves to the tail; dot line 15 of row 11 ends (R110). -/
def State.enterTail (s : State) : State :=
  { s with scan := { s.scan.endLine with phase := .tail, lineBegun := false } }

/-- The tail begins; in a drawing frame the fetch of row 0 begins (R110, R116). -/
def State.beginTail (s : State) : State :=
  if s.scan.kind = .drawing then (s.enterTail.beginFetch 0).grant else s.enterTail

/-! ### The meanings -/

/-- ROW_FETCH (R116). With no row fetch read in progress the event does not occur (notes/assumptions/3.md). -/
def execRowFetch (s : State) : Host.Outcome State Fault Refusal :=
  match s.accessOf .rowFetch false with
  | some acc => .next (s.rowFetched acc)
  | none => .next s

/-- ROW_DISPLAY (R117). It occurs at the end of the lead and of a row's dot line 15. -/
def execRowDisplay (s : State) : Host.Outcome State Fault Refusal :=
  match s.scan.nextRow with
  | some r => if s.powered then .next (s.displayRow r) else .next s
  | none => .next s

/-- DOT_LINE (R106). -/
def execDotLine (s : State) : Host.Outcome State Fault Refusal :=
  match s.scan.nextLine with
  | some (r, line) => if s.powered then .next (s.beginLine r line) else .next s
  | none => .next s

/-- TAIL (R110). -/
def execTail (s : State) : Host.Outcome State Fault Refusal :=
  if s.scan.lastLine && s.powered then .next s.beginTail else .next s

end Sys2Proof.Machine
end

