-- ==== Sys2Proof/Machine/Life.lean ====
section
/-! DEFINITION. Station life (11 of the spec): starts, the entries to Listening, Withdrawn, Clashed and Leaving,
and the meanings of POWER_ON, RESET_PIN_LOW, RESET_PIN_HIGH, CONFIGURATION_READ_END and LOSS_OF_POWER. -/

namespace Sys2Proof.Machine

/-! ### Starts (R182) -/

/-- The station at the beginning of a start: every block at its start value, in the given stage, with the given
strap levels and glyph memory. The attached panel, the reset pin's level and the model's own fields stay; a dot
line being sent is stopped, and a feed transaction in progress is abandoned (R182; notes/assumptions/11.md, 21.md,
23.md). -/
def State.atStart (s : State) (life : Life) (straps : Straps) (glyphs : List Host.Cell) : State :=
  { State.reset with
    life := life
    resetPinLow := s.resetPinLow
    straps := straps
    glyphMemory := glyphs
    scan := ScanEngine.atStart (s.scan.stopLine (Config.dotsSentBeforeStop s.freeCount)).panel
    transaction := s.transaction.map fun tr => { tr with abandoned := true }
    dataOut := s.dataOut
    freeCount := s.freeCount + 1
    pending := s.pending }

/-- POWER_ON: every block takes its start value, glyph memory is all 0-dots, the configuration read begins; with
the reset pin low the station is held at the beginning of its start (R182, R103). -/
def State.powerOn (s : State) (straps : Straps) : State :=
  s.atStart (if s.resetPinLow then .heldInReset else .readingConfiguration) straps []

/-- The pulse is taken as a reset: it lasts at least 10 µs, or it is shorter and taken all the same, a free value
(R182; notes/assumptions/9.md). -/
def State.pulseTaken (s : State) (widthMicroseconds : Nat) : Bool :=
  decide (10 ≤ widthMicroseconds) || Config.shortPulseTaken s.freeCount

/-- RESET_PIN_LOW: a pulse that is taken holds the station at the beginning of its start; one that is not has no
effect but the pin's level (R182). Without power only the level changes. -/
def State.resetLow (s : State) (widthMicroseconds : Nat) : State :=
  let t := { s with resetPinLow := true }
  if s.life = .unpowered then t
  else if s.pulseTaken widthMicroseconds then t.atStart .heldInReset s.straps s.glyphMemory
  else { t with freeCount := s.freeCount + 1 }

/-- RESET_PIN_HIGH: after a pulse that was taken the blocks take their start values, glyph memory is kept, the
straps are read and the configuration read begins (R182, R171, R103). That the dark frame of the start begins again here,
after the one that began with the pulse, is the model's choice (notes/assumptions/38.md). -/
def State.resetHigh (s : State) (straps : Straps) : State :=
  let t := { s with resetPinLow := false }
  if s.life = .heldInReset then t.atStart .readingConfiguration straps s.glyphMemory else t

/-- LOSS_OF_POWER: the station stops, and a frame it was sending is cut off (R108). The spec says nothing of the scan
phase without power: the model stops the display frame, its phase back at the lead with no line sent, and drives no
strobe (notes/assumptions/23.md). -/
def State.losePower (s : State) : State :=
  { s with
    life := .unpowered
    bus := { s.bus with inFlight := none }
    scan := { s.scan.stopLine (Config.dotsSentBeforeStop s.freeCount) with
      phase := .lead, lineBegun := false, lineStrobes := 0 }
    freeCount := s.freeCount + 1 }

/-! ### Entry to Listening (R175) -/

/-- The row fetch, apply and catch-up requesters abandoned (R136). -/
def Arbiter.withdrawEngines (a : Arbiter) : Arbiter :=
  ((a.withdraw .rowFetch).withdraw .apply).withdraw .catchUp

/-- Entry to Listening, with the reason its STATE event carries: the table of R175. -/
def State.enterListening (s : State) (reason : StateReason) : State :=
  { s with
      life := .running .listening
      gen := { GenerationRecord.atStart with shown := s.gen.shown }
      roster := rosterCleared
      presenceCount := 0
      updateQueue := []
      applyEngine := .idle
      bufferX := []
      bufferY := []
      shown := .x
      defaultsX := Vector.replicate 12 blankDefault
      defaultsY := Vector.replicate 12 blankDefault
      dirty := ⟨[], false⟩
      catchUp := .idle
      leftTable := Vector.replicate 12 LeftRow.empty
      entryRecords := Vector.replicate 12 EntryRecord.blank
      scan := { s.scan with rowBuffer := unfetched, fetch := .idle }
      arbiter := s.arbiter.withdrawEngines.blank
      bus := { BusInterface.atStart with feedQueue := s.bus.feedQueue }
      timer := { s.timer with listeningExpiries := 0 }
      events := s.events.post s.timer.frameNumber (.state .listening reason) }

/-! ### Entry to Withdrawn and Clashed (R157, R179, R181) -/

/-- FEED_FLUSHED when the flush discards at least one message (R157). -/
def flushEvents (n : Nat) : List Event := if n = 0 then [] else [.feedFlushed n]

/-- What every block does at an entry to Withdrawn or Clashed, before the state changes: the interface is cleared
and the feed queue flushed, apply, catch-up and row fetch abandoned, a feed read answered with REFUSED, the roster
cleared (R157, R179). The record, buffers, defaults, dirty list, left-zone table and entry records are kept. That a feed
read which an entry to Listening met before is answered with REFUSED too is the model's choice
(notes/assumptions/37.md). -/
def State.standDown (s : State) : State :=
  { s with
    roster := rosterCleared
    presenceCount := 0
    updateQueue := []
    applyEngine := .idle
    catchUp := .idle
    scan := { s.scan with rowBuffer := unfetched, fetch := .idle }
    arbiter := s.arbiter.withdrawEngines.withdraw .feedRead
    bus := { BusInterface.atStart with synchronised := s.bus.synchronised }
    port := if s.arbiter.feedRead.isSome then .ready .refused else s.port
    events := s.events.postAll s.timer.frameNumber (flushEvents s.bus.feedQueue.length) }

/-- The station in a dark state it has just entered: a station that leaves a drawing state begins a dark frame
(R113). -/
def State.enterDark (s : State) (st : StationState) (reason : WithdrawReason) : State :=
  let t := { s.standDown with
    life := .running st
    withdrawReason := reason
    events := s.standDown.events.post s.timer.frameNumber (.state st (.withdraw reason)) }
  if s.draws then t.beginFrame .dark else t

/-- Entry to Withdrawn (R179). -/
def State.withdraw (s : State) (reason : WithdrawReason) : State :=
  let t := s.enterDark .withdrawn reason
  { t with timer := { t.timer with quietExpiries := 0 } }

/-- Entry to Clashed (R181). From Withdrawn the quiet-expiry count stops where it is (R180). -/
def State.becomeClashed (s : State) : State :=
  let t := s.enterDark .clashed .clash
  { t with timer := { t.timer with quietExpiries := if s.participates then 0 else s.timer.quietExpiries } }

/-! ### Entry to Leaving (R178) -/

/-- Entry to Leaving: LEAVE set pending with its count 0, STATE (Leaving, restart) posted. -/
def State.enterLeaving (s : State) (origin : LeavingOrigin) : State :=
  { s with
      life := .running (.leaving origin)
      bus := { s.bus with leavePending := true, leaveAttempts := 0 } }.post (.state (.leaving origin) .restart)

/-! ### The end of the configuration read (R172, R173) -/

/-- How the loader judges the read: the first test that fails, or the record (R172). -/
inductive ReadVerdict where
  | good (c : ConfigRecord)
  | outside (c : ConfigRecord)
  | bad (reason : WithdrawReason)
deriving DecidableEq, Repr

/-- The tests of R172 in their order. -/
def judgeRead (p : Straps) : ConfigurationRead → ReadVerdict
  | .noAnswer => .bad .noConfiguration
  | .answered b0 b1 b2 b3 b4 =>
    if b4 ≠ configCheck b0 b1 b2 b3 then .bad .configurationCheck
    else if !configInRange b0 b1 b2 b3 then .bad .configurationRange
    else if b0.toNat ≤ p.cols.toNat ∨ b1.toNat ≤ p.rows.toNat then .outside (configOfBytes b0 b1 b2 b3)
    else .good (configOfBytes b0 b1 b2 b3)

/-- Entry to Halted from a start (R172, R173, R174). -/
def State.halt (s : State) (config : Option ConfigRecord) (reason : WithdrawReason) : State :=
  { s with life := .running .halted, config := config, withdrawReason := reason }.post
    (.state .halted (.withdraw reason))

/-- The configuration read ends: Listening with the frame timer started (R160, R172), or Halted. -/
def State.endRead (s : State) (read : ConfigurationRead) : State :=
  match judgeRead s.straps read with
  | .good c =>
    { s with
      config := some c
      withdrawReason := .none
      timer := { s.timer with frameTimer := .running c.periodMs } }.enterListening .start
  | .outside c => s.halt (some c) .outsideWall
  | .bad reason => s.halt none reason

/-! ### The meanings -/

/-- POWER_ON (R182). -/
def execPowerOn (straps : Straps) (s : State) : Host.Outcome State Fault Refusal := .next (s.powerOn straps)

/-- RESET_PIN_LOW (R182). -/
def execResetPinLow (widthMicroseconds : Nat) (s : State) : Host.Outcome State Fault Refusal :=
  .next (s.resetLow widthMicroseconds)

/-- RESET_PIN_HIGH (R182). -/
def execResetPinHigh (straps : Straps) (s : State) : Host.Outcome State Fault Refusal := .next (s.resetHigh straps)

/-- CONFIGURATION_READ_END (R172). When no read runs the event does not occur (notes/assumptions/3.md). -/
def execConfigurationReadEnd (read : ConfigurationRead) (s : State) : Host.Outcome State Fault Refusal :=
  if s.life = .readingConfiguration then .next (s.endRead read) else .next s

/-- LOSS_OF_POWER (R108). -/
def execLossOfPower (s : State) : Host.Outcome State Fault Refusal := .next s.losePower

end Sys2Proof.Machine
end

