-- ==== Sys2Proof/Machine/Timer.lean ====
section
/-! DEFINITION. The frame timer (10 of the spec, R159 to R162, R180): the meanings of FRAME_TIMER_EXPIRY,
LISTENING_WINDOW and QUIET_OVER. -/

namespace Sys2Proof.Machine

/-- The frame timer restarted for one full period of the configuration record (R160). -/
def State.restartTimer (s : State) : State :=
  { s with timer := { s.timer with frameTimer := .running s.period } }

/-- BEACON set pending (R147, R161). -/
def State.setBeaconPending (s : State) : State := { s with bus := { s.bus with beaconPending := true } }

/-- An expiry in Listening: the count rises up to 3; at 3 the first beacon is set pending (R161, R162). -/
def State.listeningExpiry (s : State) : State :=
  let n := min 3 (s.timer.listeningExpiries + 1)
  let t := { s with timer := { s.timer with listeningExpiries := n } }
  if n = 3 then t.setBeaconPending else t

/-- An expiry in Withdrawn: the count rises; the expiry that brings it to 8 moves the station to Listening (R161,
R180). -/
def State.quietExpiry (s : State) : State :=
  let n := min 8 (s.timer.quietExpiries + 1)
  let t := { s with timer := { s.timer with quietExpiries := n } }
  if n = 8 then t.enterListening .quietOver else t

/-- An expiry of the frame timer: it restarts, and the expiry acts by the station state (R161). -/
def State.expire (s : State) : State :=
  let t := s.restartTimer
  match s.life with
  | .running .listening => t.listeningExpiry
  | .running .withdrawn => t.quietExpiry
  | .running .joining | .running .member | .running (.leaving _) => t.setBeaconPending
  | .running .clashed | .running .halted => t
  | .unpowered | .heldInReset | .readingConfiguration => t

/-- The frame timer runs (R160). -/
def State.timerRuns (s : State) : Bool :=
  match s.timer.frameTimer, s.life with
  | .running _, .running _ => true
  | _, _ => false

/-- FRAME_TIMER_EXPIRY (R161). A stopped timer does not expire (R160; notes/assumptions/3.md). -/
def execFrameTimerExpiry (s : State) : Host.Outcome State Fault Refusal :=
  if s.timerRuns then .next s.expire else .next s

/-- LISTENING_WINDOW (R162): the expiry that brings the listening-expiry count to 3, or finds it there. In any
other state the event does not occur (notes/assumptions/4.md). -/
def execListeningWindow (s : State) : Host.Outcome State Fault Refusal :=
  if s.timerRuns && decide (s.life = .running .listening) && decide (2 ≤ s.timer.listeningExpiries) then
    .next s.expire
  else .next s

/-- QUIET_OVER (R180): the expiry that brings the quiet-expiry count to 8. In any other state the event does not
occur (notes/assumptions/4.md). -/
def execQuietOver (s : State) : Host.Outcome State Fault Refusal :=
  if s.timerRuns && decide (s.life = .running .withdrawn) && decide (7 ≤ s.timer.quietExpiries) then
    .next s.expire
  else .next s

end Sys2Proof.Machine
end

