-- ==== Sys2Proof/Machine/Beacon.lean ====
section
/-! DEFINITION. A beacon acceptance (10 of the spec, and R4, R18 to R22, R36 to R41, R71, R75, R94, R111, R118):
the lockstep check, adoption, the flip, the swap, silence and presence counting, the flip timeout, the new display
frame. -/

namespace Sys2Proof.Machine

/-! ### What a BEACON decides, from the state before it is processed -/

/-- The armed value in force at the acceptance: the carried one at a following station, else its own (R12, R18). -/
def State.armedInForce (s : State) (m : BeaconFields) : Bool := if s.following then m.armed else s.gen.armed

/-- The lockstep check (R165). -/
def State.inStep (s : State) (sender : Station) (m : BeaconFields) : Bool :=
  decide (m.shown = s.gen.shown) && decide (m.isSealed = s.gen.isSealed)
    && (s.following || !s.requirementSet[sender] || decide (m.armed = s.gen.armed))

/-- The station flips at this beacon: armed is in force and no catch-up is in progress (R18). -/
def State.flipsAt (s : State) (m : BeaconFields) : Bool := s.armedInForce m && !s.catchingUp

/-- The flip timeout is ordered at this beacon: armed was no, B is sealed, and the seal age is 32 after its rise
(R21). -/
def State.timesOutAt (s : State) (m : BeaconFields) : Bool :=
  !s.armedInForce m && s.gen.isSealed && decide (32 ≤ s.gen.sealAge + 1)

/-- The roster after all its work for the acceptance: promotion at a flip (R38), silence counting (R36), the flip
timeout (R37). -/
def State.rosterAt (s : State) (sender : Station) (m : BeaconFields) : Roster :=
  let promoted := if s.flipsAt m then rosterPromote s.roster s.gen.baseline else s.roster
  let counted := rosterCount promoted sender
  if s.timesOutAt m then rosterTimeOut counted (timeoutNames s.roster s.gen) else counted

/-- The number of stations the timeout itself makes Silent: those it names whose silence count stays below 48
(R22). -/
def State.timedOutCount (s : State) (sender : Station) : Nat :=
  let counted := rosterCount s.roster sender
  stationCount (tabulate fun n => (timeoutNames s.roster s.gen)[n] && decide (counted[n].state ≠ .silent))

/-- The FLIP or FLIP_TIMEOUT event of the acceptance (R18, R21, R22). -/
def State.generationEvents (s : State) (sender : Station) (m : BeaconFields) : List Event :=
  if s.flipsAt m then [.flip s.gen.building]
  else if s.timesOutAt m && decide (s.timedOutCount sender ≠ 0) then
    [.flipTimeout s.gen.building (s.timedOutCount sender)]
  else []

/-- The record after the acceptance, before it is settled: the flip's, or the seal age one higher when armed was
no (R18, R21). -/
def State.recordAt (s : State) (m : BeaconFields) : GenerationRecord :=
  if s.flipsAt m then s.gen.flip else if s.armedInForce m then s.gen else s.gen.aged

/-- The own entry is promoted at this acceptance and ends Member (R38, R39). -/
def State.promotedAt (s : State) (sender : Station) (m : BeaconFields) : Bool :=
  s.flipsAt m && decide (s.roster[s.station].state ≠ .member)
    && decide ((s.rosterAt sender m)[s.station].state = .member)

/-- The station swaps: it flips, and its own entry ends the acceptance Member (R71). -/
def State.swapsAt (s : State) (sender : Station) (m : BeaconFields) : Bool :=
  s.flipsAt m && decide ((s.rosterAt sender m)[s.station].state = .member)

/-- The own entry becomes Silent at this acceptance (R39). -/
def State.silencedAt (s : State) (sender : Station) (m : BeaconFields) : Bool :=
  decide (s.roster[s.station].state ≠ .silent) && decide ((s.rosterAt sender m)[s.station].state = .silent)

/-- The station state after a promotion of the own entry: Joining becomes Member, Leaving from Joining becomes
Leaving from Member (R39, R71, R173). -/
def StationState.promoted : StationState → StationState
  | .joining => .member
  | .leaving _ => .leaving .fromMember
  | .member => .member
  | .halted => .halted
  | .listening => .listening
  | .withdrawn => .withdrawn
  | .clashed => .clashed

/-- The station state after the acceptance, unless the station withdraws. -/
def State.stateAt (s : State) (st : StationState) (sender : Station) (m : BeaconFields) : StationState :=
  if s.promotedAt sender m then st.promoted else st

/-- The frame in progress is cut short: a drawing frame in its active part, at a station that draws after the
acceptance (R111). -/
def State.cutsShort (s : State) (st : StationState) (sender : Station) (m : BeaconFields) : Bool :=
  decide (s.scan.kind = .drawing) && s.scan.phase.isActive && (s.stateAt st sender m).draws
    && !s.silencedAt sender m

/-! ### The parts of an acceptance -/

/-- The timer's part: the frame timer restarts, the frame number is the carried one, BEACON pending is cleared
(R164, R147). -/
def State.takeBeacon (s : State) (m : BeaconFields) : State :=
  { s with
    timer := { s.timer with frameTimer := .running s.period, frameNumber := m.frameNumber }
    bus := { s.bus with beaconPending := false } }

/-- Every Next entry becomes Current (R52). -/
def epochsCurrent (q : List UpdateEntry) : List UpdateEntry := q.map fun e => { e with epoch := .current }

/-- Generation control, the roster, the update queue, READY pending and their events, with the station state after the
acceptance (R14, R18, R21, R36 to R39, R43, R52, R195). `s` is the state before, `t` the station the changes are made to.
Where the own entry goes Silent, the record is settled for the new roster before the withdrawal freezes it, the model's
choice (notes/assumptions/34.md). -/
def State.wallWork (t s : State) (st : StationState) (sender : Station) (m : BeaconFields) : State :=
  let st' := s.stateAt st sender m
  let r := s.rosterAt sender m
  { t with
    life := .running st'
    roster := r
    gen := (s.recordAt m).settle st' s.station r
    updateQueue := if s.flipsAt m then epochsCurrent t.updateQueue else t.updateQueue
    bus := { t.bus with readyPending := if s.flipsAt m then none else t.bus.readyPending }
    counters :=
      if s.cutsShort st sender m then { t.counters with shortFrames := rise t.counters.shortFrames } else t.counters
    events :=
      t.events.postAll t.timer.frameNumber
        ((if s.cutsShort st sender m then [.shortFrame] else []) ++ s.generationEvents sender m
          ++ rosterEvents s.roster r) }

/-- The swap: the pointer changes, the set apply built becomes the shown one and is copied into the new building
one, and the entry records are latched (R71, R94, R95). -/
def State.swap (s : State) : State :=
  let built :=
    match s.shown with
    | .x => s.defaultsY
    | .y => s.defaultsX
  let latched := latchAll s.leftTable built
  { s with
    shown := s.shown.other
    defaultsX := built
    defaultsY := built
    entryRecords := latched
    events := s.events.postAll s.timer.frameNumber (latchEvents s.entryRecords latched) }

/-- Presence counting: one more up to 16, 0 at an own BEACON; PRESENCE is set pending when the count is left at 16
in Joining or Member, and at the own promotion to Member (R35, R41). -/
def State.countPresence (s : State) (own promoted : Bool) : State :=
  let n := if own then 0 else min 16 (s.presenceCount + 1)
  let inWall := decide (s.life = .running .joining) || decide (s.life = .running .member)
  let asks := (inWall && decide (n = 16)) || (promoted && decide (s.life = .running .member))
  { s with
    presenceCount := n
    bus := { s.bus with presencePending := s.bus.presencePending || asks } }

/-- The new display frame (R111, R115) and the row fetch by the phase found (R118): begun again at a swap or from
the active part of a drawing frame, else kept. -/
def State.newFrame (s : State) (swapped : Bool) : State :=
  let active := s.scan.phase.isActive
  let t := s.beginFrame s.frameKind
  if s.draws && (swapped || active) then (t.abandonFetch).beginFetch 0 else t

/-- The swap when the station swaps (R71). -/
def State.swapIf (s : State) (swaps : Bool) : State := if swaps then s.swap else s

/-- The start of catch-up when the station swaps, its work by whether this is its first swap as Member (R75). -/
def State.copyIf (s : State) (swaps promoted : Bool) : State := if swaps then s.startCatchUp promoted else s

/-- STATE (Member, promoted) when the flip promotes a station in Joining (R177). -/
def State.tellPromotion (s : State) (st : StationState) (promoted : Bool) : State :=
  if promoted && decide (st = .joining) then s.post (.state .member .promoted) else s

/-- A beacon acceptance that passes the lockstep check, in Joining, Member or Leaving (R164). `s` is the station
with the frame accepted at the interface and the timer's part done; `before` the station the BEACON is judged
against. -/
def State.actOnBeacon (s before : State) (st : StationState) (own : Bool) (sender : Station) (m : BeaconFields) :
    State :=
  let worked := s.wallWork before st sender m
  if before.silencedAt sender m then (worked.withdraw .silenced).newFrame false
  else
    let promoted := before.promotedAt sender m
    let swaps := before.swapsAt sender m
    let framed := ((worked.swapIf swaps).countPresence own promoted).newFrame swaps
    let applied := (framed.copyIf swaps promoted).resumeApply.evaluateReady
    (applied.tellPromotion st promoted).grantRace

/-- A BEACON accepted in Joining, Member or Leaving: the lockstep check first; a station out of step withdraws
(R164, R165). -/
def State.acceptBeacon (s : State) (st : StationState) (own : Bool) (sender : Station) (m : BeaconFields) : State :=
  let t := s.takeBeacon m
  if s.inStep sender m then t.actOnBeacon s st own sender m
  else (t.withdraw .outOfStep).newFrame false

/-- Adoption: a Listening station takes the generation state and the frame number of the first BEACON it accepts
and enters Joining with JOIN pending (R4, R166, R176). -/
def State.adopt (s : State) (m : BeaconFields) : State :=
  let t := s.takeBeacon m
  let u := { t with
    life := .running .joining
    gen := { t.gen with
      shown := if m.armed then m.shown + 1 else m.shown
      isSealed := !m.armed && m.isSealed }
    timer := { t.timer with listeningExpiries := 0 }
    bus := { t.bus with joinPending := true } }
  (u.post (.state .joining .adopted)).newFrame false

end Sys2Proof.Machine
end

