-- ==== Sys2Proof/Machine/Bus.lean ====
section
/-! DEFINITION. The wall bus interface (09 of the spec): the choice of what to send and arbitration, the judgement
and the outcome of a frame, acceptance, clash; and the meanings of the bus rows of the table. -/

namespace Sys2Proof.Machine

/-! ### The choice of what to send (R149) and the frame formed (R163, Formats) -/

/-- The item the interface chooses at an idle point, by the order and the station states of R149. -/
def State.chooseItem (s : State) : Option Item :=
  match s.life with
  | .running .listening => if s.bus.beaconPending then some .beacon else none
  | .running .joining | .running .member =>
    if s.bus.beaconPending then some .beacon
    else if s.bus.readyPending.isSome then some .ready
    else if s.bus.joinPending then some .join
    else if s.bus.presencePending then some .presence
    else if s.bus.feedQueue.isEmpty then none else some .feed
  | .running (.leaving _) =>
    if s.bus.beaconPending then some .beacon else if s.bus.leavePending then some .leave else none
  | .running .halted | .running .withdrawn | .running .clashed => none
  | .unpowered | .heldInReset | .readingConfiguration => none

/-- The armed field a BEACON carries: the own armed, or computed armed at a following station (R163). -/
def State.carriedArmed (s : State) : Bool :=
  if s.following then computedArmed s.roster s.gen else s.gen.armed

/-- The fields of a BEACON formed now: fixed in Listening (R162), else from the record (R163). -/
def State.beaconFields (s : State) : BeaconFields :=
  if s.life = .running .listening then ⟨0, 0, false, false⟩
  else ⟨s.timer.frameNumber + 1, s.gen.shown, s.gen.isSealed, s.carriedArmed⟩

/-- The payload of a BEACON. -/
def BeaconFields.bytes (m : BeaconFields) : List Byte :=
  [highByte m.frameNumber, lowByte m.frameNumber, m.shown, flagBit m.isSealed 0 ||| flagBit m.armed 1]

/-- Class and payload of the frame of an item, formed from the state in force (R147, R163, Formats). -/
def State.formFrame (s : State) : Item → BitVec 3 × List Byte
  | .beacon => (0, s.beaconFields.bytes)
  | .ready => (1, [s.bus.readyPending.getD 0])
  | .leave => (3, [0x03])
  | .join =>
    match s.config with
    | some c => (3, [0x01, byteOf c.wallWidth, byteOf c.wallHeight, byteOf c.periodMs])
    | none => (3, [0x01, 0, 0, 0])
  | .presence => (3, [0x02, if s.life = .running .member then 2 else 1])
  | .feed =>
    match s.bus.feedQueue with
    | m :: _ => (m.cls, m.payload)
    | [] => (0, [])

/-- The frame of an item as this station drives it (R138). -/
def State.frameOf (s : State) (item : Item) : SentFrame :=
  let formed := s.formFrame item
  ⟨item, formed.1, formed.2, frameCheck ⟨formed.1, s.station⟩ formed.2⟩

/-! ### Arbitration (R140) -/

/-- A station that drives the bits `own` against others loses when it drives a 1 and reads back a 0; the medium
shows a 0 when any station still driving drives one (R140). A station that has driven a 1 against a 0 no longer
drives. -/
def losesArbitration : List Bool → List (List Bool) → Bool
  | [], _ => false
  | b :: rest, others =>
    let medium := b && others.all fun o => o.headD true
    if b && !medium then true
    else losesArbitration rest ((others.filter fun o => o.headD true == medium).map List.tail)

/-- The station begins its start mark at an idle point and contends: left driving, its item is in flight; having
lost, it is a receiver and its item stays where it was (R139 to R141, R149, R150). -/
def State.contend (s : State) (others : List Key) : State :=
  match s.chooseItem with
  | none => s
  | some item =>
    let f := s.frameOf item
    if losesArbitration (keyBits ⟨f.cls, s.station⟩) (others.map keyBits) then s
    else { s with bus := { s.bus with inFlight := some f } }

/-! ### Judgement (R142, R143) -/

/-- The reasons to spoil a frame, in their order (R143). -/
inductive SpoilReason where
  | check | format | queueFull
deriving DecidableEq, Repr

/-- The first reason that holds (R143). -/
def State.judge (s : State) (cls : BitVec 3) (f : BusFrame) : Option SpoilReason :=
  if f.check ≠ frameCheck ⟨cls, f.sender⟩ f.payload then some .check
  else
    match parseMessage cls f.payload with
    | none => some .format
    | some (.update u) =>
      if (s.filtered u).isSome && decide (96 ≤ s.updateQueue.length) then some .queueFull else none
    | some _ => none

/-- Whose frame it is: this station's own item, another station's, or a clash (R154 to R156;
notes/assumptions/6.md, 7.md). -/
inductive Ownership where
  | own (item : Item)
  | foreign
  | clash
deriving DecidableEq, Repr

/-- A frame with the key of the frame in flight is the station's own when every bit it drives is read back, and a
clash when one is not (R154, R155). A frame that bears this station's number and that it does not drive is a clash
(R156). A frame in flight of which the medium shows another station number is read as a foreign frame, the model's choice
(notes/assumptions/35.md). -/
def State.ownership (s : State) (cls : BitVec 3) (f : BusFrame) : Ownership :=
  if f.sender = s.station then
    match s.bus.inFlight with
    | some sent =>
      if sent.cls = cls ∧ sent.payload = f.payload ∧ sent.check = f.check then .own sent.item else .clash
    | none => .clash
  else .foreign

/-- The item of an own frame. -/
def Ownership.item : Ownership → Option Item
  | .own item => some item
  | .foreign | .clash => none

/-! ### The outcome of a spoiled frame (R144, R146, R151 to R153) -/

/-- A frame this station spoils: the counter of the reason and the consecutive-spoil count rise (R143, R146). -/
def State.driveSpoil (s : State) (reason : Option SpoilReason) : State :=
  match reason with
  | none => s
  | some r =>
    { s with
      counters :=
        match r with
        | .check => { s.counters with spoilsCheck := rise s.counters.spoilsCheck }
        | .format => { s.counters with spoilsFormat := rise s.counters.spoilsFormat }
        | .queueFull => { s.counters with spoilsQueueFull := rise s.counters.spoilsQueueFull }
      bus := { s.bus with consecutiveSpoils := s.bus.consecutiveSpoils + 1 } }

/-- The head of the feed queue dropped: FEED_DROPPED with its class, and the counter (R153). -/
def State.dropFeedHead (s : State) (m : FeedMessage) (rest : List FeedMessage) : State :=
  { s with
    bus := { s.bus with feedQueue := rest }
    counters := { s.counters with feedDropped := rise s.counters.feedDropped } }.post (.feedDropped m.cls)

/-- The head of the feed queue leaves it at this spoiled attempt: the 16th, or this station's own format spoil
(R153). -/
def FeedMessage.dropsAt (m : FeedMessage) (reason : Option SpoilReason) : Bool :=
  decide (reason = some .format) || decide (16 ≤ m.attempts + 1)

/-- A spoiled attempt of the head of the feed queue (R153). -/
def State.spoilFeedHead (s : State) (reason : Option SpoilReason) : State :=
  match s.bus.feedQueue with
  | [] => s
  | m :: rest =>
    if m.dropsAt reason then s.dropFeedHead m rest
    else { s with bus := { s.bus with feedQueue := { m with attempts := m.attempts + 1 } :: rest } }

/-- A spoiled attempt of the LEAVE: the count rises; the fourth gives up, and the station withdraws (R152). -/
def State.spoilLeave (s : State) : State :=
  if s.bus.leaveAttempts + 1 < 4 then { s with bus := { s.bus with leaveAttempts := s.bus.leaveAttempts + 1 } }
  else { s with bus := { s.bus with leavePending := false } }.withdraw .leftUnheard

/-- The outcome of a spoiled frame for the item in flight (R151). -/
def State.attemptSpoiled (s : State) (item : Option Item) (reason : Option SpoilReason) : State :=
  match item with
  | none => s
  | some i =>
    let t := { s with counters := { s.counters with ownAttemptsSpoiled := rise s.counters.ownAttemptsSpoiled } }
    match i with
    | .leave => t.spoilLeave
    | .feed => t.spoilFeedHead reason
    | .beacon | .ready | .join | .presence => t

/-- The 32nd consecutive spoil withdraws the station as deaf, after the attempt's outcome (R146, R179). -/
def State.deafCheck (s : State) : State :=
  if 32 ≤ s.bus.consecutiveSpoils then s.withdraw .deaf else s

/-- A spoiled frame at a station in Joining, Member or Leaving (R144). -/
def State.frameSpoiled (s : State) (item : Option Item) (reason : Option SpoilReason) : State :=
  ((s.driveSpoil reason).attemptSpoiled item reason).deafCheck

/-! ### Acceptance (R145) -/

/-- The item of an accepted own frame leaves: its flag is cleared, or the feed queue's head is removed (R147,
R151). -/
def BusInterface.sentAccepted (b : BusInterface) : Option Item → BusInterface
  | none => b
  | some .beacon => { b with beaconPending := false }
  | some .ready => { b with readyPending := none }
  | some .leave => { b with leavePending := false }
  | some .join => { b with joinPending := false }
  | some .presence => { b with presencePending := false }
  | some .feed => { b with feedQueue := b.feedQueue.tail }

/-- The interface's part of an acceptance: the frame is counted, the consecutive-spoil count is 0, an own frame's
item leaves and returns the presence count to 0 (R41, R145, R146, R151). -/
def State.frameAccepted (s : State) (item : Option Item) : State :=
  { s with
    counters := { s.counters with framesAccepted := rise s.counters.framesAccepted }
    bus := { s.bus.sentAccepted item with consecutiveSpoils := 0 }
    presenceCount := if item.isSome then 0 else s.presenceCount }

/-- READY accepted (R10): added to the ready set when B is sealed, g is B and the sender is required; armed is
evaluated (R16). -/
def State.acceptReady (s : State) (st : StationState) (sender : Station) (g : Generation) : State :=
  if s.gen.isSealed && decide (g = s.gen.building) && s.requirementSet[sender] then
    { s with
      gen := { s.gen with readySet := s.gen.readySet.set sender true }.settle st s.station s.roster }
  else s

/-- The baseline set a SEAL forms: the carried set restricted to the stations whose entry is Joining (R7). -/
def baselineTaken (r : Roster) (carried : StationSet) : StationSet :=
  tabulate fun n => carried[n] && decide (r[n].state = .joining)

/-- The record after a SEAL is taken (R6, R7). -/
def GenerationRecord.takeSeal (g : GenerationRecord) (r : Roster) (sender : Station) (reveal : Bool)
    (carried : Option StationSet) : GenerationRecord :=
  { g with
    isSealed := true
    sealer := some sender
    baseline := carried.map (baselineTaken r)
    revealBuilding := reveal
    readySet := StationSet.empty
    sealAge := 0 }

/-- SEAL accepted: taken when B is unsealed and g is B (R6), else ignored and counted (R8). -/
def State.acceptSeal (s : State) (st : StationState) (sender : Station) (g : Generation) (reveal : Bool)
    (carried : Option StationSet) : State :=
  if !s.gen.isSealed && decide (g = s.gen.building) then
    ({ s with gen := (s.gen.takeSeal s.roster sender reveal carried).settle st s.station s.roster }.post
      (.sealTaken g sender)).evaluateReady
  else
    { s with counters := { s.counters with sealsIgnored := rise s.counters.sealsIgnored } }.post
      (.sealIgnored g sender)

/-- The three values of a JOIN all equal this station's configuration record (R31). -/
def State.sameConfiguration (s : State) (w h period : Byte) : Bool :=
  match s.config with
  | some c => decide (w.toNat = c.wallWidth) && decide (h.toNat = c.wallHeight) && decide (period.toNat = c.periodMs)
  | none => false

/-- JOIN accepted: with equal configuration the entry becomes Joining and a Member answers another station with
PRESENCE (R31, R35); else a configuration clash is recorded (R32). -/
def State.acceptJoin (s : State) (st : StationState) (sender : Station) (w h period : Byte) : State :=
  if s.sameConfiguration w h period then
    let t := s.changeRoster st (rosterJoin s.roster sender s.timer.frameNumber)
    if decide (st = .member) && decide (sender ≠ s.station) then
      { t with bus := { t.bus with presencePending := true } }
    else t
  else { s with clashRecord := some sender }.post (.configClash sender)

/-- PRESENCE accepted: one that carries Member makes an Absent entry Member (R34). -/
def State.acceptPresence (s : State) (st : StationState) (sender : Station) (isMember : Bool) : State :=
  if isMember then s.changeRoster st (rosterPresence s.roster sender) else s

/-- LEAVE accepted: the entry becomes Absent (R33); the station's own LEAVE withdraws it (R39, R151). The record is
settled for the new roster before that withdrawal freezes it, the model's choice (notes/assumptions/34.md). -/
def State.acceptLeave (s : State) (st : StationState) (own : Bool) (sender : Station) : State :=
  let t := s.changeRoster st (rosterLeave s.roster sender)
  if own then t.withdraw .left else t

/-- A new entry of the update queue: the clipped UPDATE, Current when B is unsealed at the acceptance and Next when
it is sealed (R50, R51). -/
def State.newEntry (s : State) (v : Update) : UpdateEntry := ⟨if s.gen.isSealed then .next else .current, v⟩

/-- UPDATE accepted: queued at the tail with its epoch, the engine taking it up when it can (R48, R50, R51, R55), or
passed and counted (R48). -/
def State.acceptUpdate (s : State) (u : Update) : State :=
  match s.filtered u with
  | some v =>
    let t := { s with updateQueue := s.updateQueue ++ [s.newEntry v] }
    t.resumeApply.evaluateReady.grant
  | none => { s with counters := { s.counters with updatesPassed := rise s.counters.updatesPassed } }

/-- GLYPH accepted: the patterns are written into glyph memory in one step (R105). -/
def State.acceptGlyph (s : State) (set : BitVec 2) (code : BitVec 7) (first : Nat) (patterns : List Byte) : State :=
  { s with glyphMemory := Memory.writeAll (0 : Byte) s.glyphMemory (glyphAddress set code first) patterns }

/-- A frame accepted in Joining, Member or Leaving, handed to the blocks that own its effects (R145). -/
def State.acceptMessage (s : State) (st : StationState) (item : Option Item) (sender : Station) : Message → State
  | .beacon m => s.acceptBeacon st item.isSome sender m
  | .ready g => s.acceptReady st sender g
  | .sealing g reveal carried => s.acceptSeal st sender g reveal carried
  | .join w h period => s.acceptJoin st sender w h period
  | .presence isMember => s.acceptPresence st sender isMember
  | .leave => s.acceptLeave st item.isSome sender
  | .update u => s.acceptUpdate u
  | .glyph set code first patterns => s.acceptGlyph set code first patterns

/-- The station with a frame accepted at the interface and the roster's silence count of its sender at 0 (R30,
R145). -/
def State.heardFrame (s : State) (item : Option Item) (sender : Station) : State :=
  let t := s.frameAccepted item
  { t with roster := rosterHeard t.roster sender }

/-! ### The end of a frame (R142, R144) -/

/-- A frame at a station in Joining, Member or Leaving: spoiled, or accepted (R143 to R145). -/
def State.judgeFrame (s : State) (st : StationState) (item : Option Item) (cls : BitVec 3) (f : BusFrame) : State :=
  match s.judge cls f, parseMessage cls f.payload with
  | none, some msg =>
    if f.spoiledByOther then s.frameSpoiled item none
    else (s.heardFrame item f.sender).acceptMessage st item f.sender msg
  | reason, _ => s.frameSpoiled item reason

/-- A frame at a station in Listening: a BEACON that passes its own judgement and that no station spoils is
accepted; the station spoils nothing (R142, R144, R162, R166). -/
def State.listenFrame (s : State) (item : Option Item) (cls : BitVec 3) (f : BusFrame) : State :=
  match s.judge cls f, parseMessage cls f.payload with
  | none, some (.beacon m) =>
    if f.spoiledByOther then s.attemptSpoiled item none else (s.frameAccepted item).adopt m
  | _, _ => if f.spoiledByOther then s.attemptSpoiled item none else s

/-- The station reads the frames on the medium: it runs, it is synchronised, and its state reads keys (R139,
R156). -/
def State.reads (s : State) : Bool :=
  match s.life with
  | .running st => s.bus.synchronised && st.readsKeys
  | .unpowered | .heldInReset | .readingConfiguration => false

/-- The item in flight is in flight no longer (R150). -/
def State.endFlight (s : State) : State := { s with bus := { s.bus with inFlight := none } }

/-- The end of a frame's spoil window, for a frame of class `cls` (R142, R144). -/
def State.endFrame (s : State) (cls : BitVec 3) (f : BusFrame) : State :=
  match s.life with
  | .running st =>
    if s.reads then
      match s.ownership cls f with
      | .clash => s.becomeClashed
      | o =>
        let t := s.endFlight
        match st with
        | .joining | .member | .leaving _ => t.judgeFrame st o.item cls f
        | .listening => t.listenFrame o.item cls f
        | .halted | .withdrawn | .clashed => t
    else s
  | .unpowered | .heldInReset | .readingConfiguration => s

/-! ### When the named cases of a frame occur (notes/assumptions/4.md) -/

/-- This station judges the frame: it reads it in Joining, Member or Leaving, and it is no clash (R142). -/
def State.judges (s : State) (cls : BitVec 3) (f : BusFrame) : Bool :=
  s.participates && s.reads && decide (s.ownership cls f ≠ .clash)

/-- The frame is spoiled, by this station or another (R144). -/
def State.spoiledHere (s : State) (cls : BitVec 3) (f : BusFrame) : Bool :=
  s.judges cls f && ((s.judge cls f).isSome || f.spoiledByOther)

/-- The fields of a BEACON accepted here in Joining, Member or Leaving with the lockstep check passed (R164). -/
def State.goodBeacon (s : State) (f : BusFrame) : Option BeaconFields :=
  if s.judges 0 f && !s.spoiledHere 0 f then
    match parseMessage 0 f.payload with
    | some (.beacon m) => if s.inStep f.sender m then some m else none
    | _ => none
  else none

/-- The fourth attempt of the LEAVE is spoiled at this frame (R152). -/
def State.leftUnheardAt (s : State) (cls : BitVec 3) (f : BusFrame) : Bool :=
  s.spoiledHere cls f && decide (s.ownership cls f = .own .leave) && decide (4 ≤ s.bus.leaveAttempts + 1)

/-- This station's spoil of the frame is its 32nd in a row; the left unheard case comes first (R146, R179). -/
def State.deafAt (s : State) (cls : BitVec 3) (f : BusFrame) : Bool :=
  s.judges cls f && (s.judge cls f).isSome && decide (32 ≤ s.bus.consecutiveSpoils + 1)
    && !s.leftUnheardAt cls f

/-- The head of the feed queue is dropped at this frame (R153). -/
def State.feedDroppedAt (s : State) (cls : BitVec 3) (f : BusFrame) : Bool :=
  s.spoiledHere cls f && decide (s.ownership cls f = .own .feed)
    && (match s.bus.feedQueue with
        | m :: _ => m.dropsAt (s.judge cls f)
        | [] => false)

/-- The flip timeout is ordered at this frame (R21). -/
def State.flipTimeoutAt (s : State) (f : BusFrame) : Bool :=
  match s.goodBeacon f with
  | some m => s.timesOutAt m
  | none => false

/-- Some Joining or Member entry's silence count reaches 48 at this frame (R36). -/
def State.silenceTimeoutAt (s : State) (f : BusFrame) : Bool :=
  (s.goodBeacon f).isSome &&
    (List.finRange 64).any fun n =>
      decide (s.roster[n].state ≠ .silent) && decide ((rosterCount s.roster f.sender)[n].state = .silent)

/-- The presence count is left at 16 at this frame, in Joining or Member with PRESENCE not pending (R41); a station that
is silenced at this frame withdraws instead (R39). -/
def State.presenceIntervalAt (s : State) (f : BusFrame) : Bool :=
  (match s.goodBeacon f with
    | some m => !s.silencedAt f.sender m
    | none => false)
    && decide (f.sender ≠ s.station) && decide (16 ≤ s.presenceCount + 1)
    && (decide (s.life = .running .joining) || decide (s.life = .running .member)) && !s.bus.presencePending

/-! ### Synchronisation, idle points and clash -/

/-- The interface becomes synchronised, in every station state but Halted (R139). -/
def State.synchronise (s : State) : State :=
  match s.life with
  | .running .halted => s
  | .running .listening | .running .joining | .running .member | .running (.leaving _) | .running .withdrawn
  | .running .clashed => { s with bus := { s.bus with synchronised := true } }
  | .unpowered | .heldInReset | .readingConfiguration => s

/-- An idle point of this station: it is synchronised and no frame of its own is on the medium (R139). -/
def State.atIdlePoint (s : State) : Bool := s.bus.synchronised && s.bus.inFlight.isNone

/-- A clash of this cause can be detected: by readback while driving a frame, or by a foreign key while reading
frames and driving none (R154 to R156, R181). -/
def State.clashPossible (s : State) : ClashCause → Bool
  | .readback => s.reads && s.bus.inFlight.isSome
  | .foreignKey => s.reads && s.bus.inFlight.isNone

/-! ### The meanings -/

/-- FRAME_SYNCHRONISATION (R139). -/
def execFrameSynchronisation (s : State) : Host.Outcome State Fault Refusal := .next s.synchronise

/-- IDLE_POINT (R149, R140). -/
def execIdlePoint (others : List Key) (s : State) : Host.Outcome State Fault Refusal :=
  if s.atIdlePoint then .next (s.contend others) else .next s

/-- CLASH (R181). Where none can be detected the event does not occur (notes/assumptions/3.md). -/
def execClash (cause : ClashCause) (s : State) : Host.Outcome State Fault Refusal :=
  if s.clashPossible cause then .next s.becomeClashed else .next s

/-- BEACON: a frame of class 0 (R164, R166). -/
def execBeacon (f : BusFrame) (s : State) : Host.Outcome State Fault Refusal := .next (s.endFrame 0 f)

/-- FLIP_TIMEOUT: the beacon acceptance at which the flip timeout is ordered (R21). -/
def execFlipTimeout (f : BusFrame) (s : State) : Host.Outcome State Fault Refusal :=
  if s.flipTimeoutAt f then .next (s.endFrame 0 f) else .next s

/-- SILENCE_TIMEOUT: the beacon acceptance at which an entry's silence count reaches 48 (R36). -/
def execSilenceTimeout (f : BusFrame) (s : State) : Host.Outcome State Fault Refusal :=
  if s.silenceTimeoutAt f then .next (s.endFrame 0 f) else .next s

/-- PRESENCE_INTERVAL: the beacon acceptance that leaves the presence count at 16 and sets PRESENCE pending
(R41). -/
def execPresenceInterval (f : BusFrame) (s : State) : Host.Outcome State Fault Refusal :=
  if s.presenceIntervalAt f then .next (s.endFrame 0 f) else .next s

/-- READY: a frame of class 1 (R10). -/
def execReady (f : BusFrame) (s : State) : Host.Outcome State Fault Refusal := .next (s.endFrame 1 f)

/-- SEAL: a frame of class 2 (R6, R8). -/
def execSeal (f : BusFrame) (s : State) : Host.Outcome State Fault Refusal := .next (s.endFrame 2 f)

/-- JOIN: a frame of class 3, its subtype read from its payload (R31; notes/assumptions/5.md). -/
def execJoin (f : BusFrame) (s : State) : Host.Outcome State Fault Refusal := .next (s.endFrame 3 f)

/-- PRESENCE: a frame of class 3 (R34). -/
def execPresence (f : BusFrame) (s : State) : Host.Outcome State Fault Refusal := .next (s.endFrame 3 f)

/-- LEAVE: a frame of class 3 (R33). -/
def execLeave (f : BusFrame) (s : State) : Host.Outcome State Fault Refusal := .next (s.endFrame 3 f)

/-- UPDATE: a frame of class 4 (R48). -/
def execUpdate (f : BusFrame) (s : State) : Host.Outcome State Fault Refusal := .next (s.endFrame 4 f)

/-- GLYPH: a frame of class 5 (R105). -/
def execGlyph (f : BusFrame) (s : State) : Host.Outcome State Fault Refusal := .next (s.endFrame 5 f)

/-- DEAF: the end of the frame that is this station's 32nd spoil in a row (R146). -/
def execDeaf (cls : BitVec 3) (f : BusFrame) (s : State) : Host.Outcome State Fault Refusal :=
  if s.deafAt cls f then .next (s.endFrame cls f) else .next s

/-- LEFT_UNHEARD: the end of the LEAVE's fourth spoiled attempt (R152). -/
def execLeftUnheard (f : BusFrame) (s : State) : Host.Outcome State Fault Refusal :=
  if s.leftUnheardAt 3 f then .next (s.endFrame 3 f) else .next s

/-- FEED_DROPPED: the end of the spoiled attempt at which a feed message is dropped (R153). -/
def execFeedDropped (cls : BitVec 3) (f : BusFrame) (s : State) : Host.Outcome State Fault Refusal :=
  if s.feedDroppedAt cls f then .next (s.endFrame cls f) else .next s

/-- The class of an INVALID_CLASS_FRAME: 6 or 7. -/
def invalidClass (seven : Bool) : BitVec 3 := if seven then 7 else 6

/-- INVALID_CLASS_FRAME: a frame of class 6 or 7, which has no valid layout (R143, R198). -/
def execInvalidClassFrame (seven : Bool) (f : BusFrame) (s : State) : Host.Outcome State Fault Refusal :=
  .next (s.endFrame (invalidClass seven) f)

end Sys2Proof.Machine
end

