-- ==== Sys2Proof/Machine/Feed.lean ====
section
/-! DEFINITION. The feed port (12 of the spec): transactions, the commands and their responses, and the meanings of
STATUS, NEXT_EVENT, SUBMIT, READ_CELL, FEED_READ_COMPLETE, READ_ROSTER, READ_COUNTERS, CLEAR_COUNTERS, RESTART,
COLLECT and UNKNOWN_COMMAND. Each is one edge of the select line of its transaction (notes/assumptions/21.md). -/

namespace Sys2Proof.Machine

/-! ### Transactions (R183 to R186) -/

/-- The port is Ready. -/
def PortState.isReady : PortState → Bool
  | .ready _ => true
  | .free | .working _ _ => false

/-- The station runs: no start is running, and it has power (R182, R183). -/
def Life.isRunning : Life → Bool
  | .running _ => true
  | .unpowered | .heldInReset | .readingConfiguration => false

/-- The transaction that an assertion of the select begins: the port state and the event flag are those of this moment,
and its bytes are discarded when a start runs (R183, R186). Without power no byte is sampled, and the transaction is
discarded too (notes/assumptions/21.md). -/
def State.beginning (s : State) : Transaction :=
  if s.powered then ⟨portByte s.port s.events, s.port.isReady, !s.life.isRunning⟩ else ⟨0, false, true⟩

/-- The transaction a release ends: the one in progress, else one asserted at this same moment. -/
def State.inTransaction (s : State) : Transaction := s.transaction.getD s.beginning

/-- The bytes a station with power shifts out, as `dataOut` holds them; without power nothing is shifted out (R183;
notes/assumptions/23.md). -/
def State.shiftOut (s : State) (bytes : List Byte) : List Byte := if s.powered then bytes else s.dataOut

/-- The select is asserted, and the port byte is sampled. The select is the feed controller's line: its edges begin and
end a transaction without power too (notes/assumptions/21.md). With a transaction in progress the event does not occur
(R183; notes/assumptions/3.md). -/
def State.assertSelect (s : State) : State :=
  if s.transaction.isNone then
    { s with transaction := some s.beginning, dataOut := s.shiftOut [s.beginning.shown] }
  else s

/-- The select is released and no transaction is in progress any more: the bytes shifted out in the transaction are the
port byte sampled at its assertion, then `more` (R183, R186). -/
def State.releaseSelect (s : State) (more : List Byte) : State :=
  { s with transaction := none, dataOut := s.shiftOut (s.inTransaction.shown :: more) }

/-- The station state in which a command transaction is taken at its release: the port is Free, no start is running and
none came over the transaction (R182 to R184). -/
def State.takesCommand (s : State) : Option StationState :=
  match s.life, s.port with
  | .running st, .free => if s.inTransaction.abandoned then none else some st
  | _, _ => none

/-- A response is formed: the port becomes Ready with it (R185). -/
def State.respond (s : State) (r : Response) : State := { s with port := .ready r }

/-- One edge of a command transaction. At the release the command has its effect when the port takes it, and none when
the transaction is discarded (R183, R184). -/
def State.command (s : State) (edge : SelectEdge) (effect : StationState → State → State) : State :=
  match edge with
  | .asserted => s.assertSelect
  | .released =>
    let t := s.releaseSelect []
    match s.takesCommand with
    | some st => effect st t
    | none => t

/-! ### The responses (R188 to R193) -/

/-- The fields of STATUS as they stand (R188). -/
def State.statusReport (s : State) (st : StationState) : StatusReport :=
  { station := s.station
    state := st
    reason := s.withdrawReason
    shown := s.gen.shown
    isSealed := s.gen.isSealed
    armed := s.gen.armed
    catchingUp := s.catchingUp
    readySize := stationCount s.gen.readySet
    requirementSize := stationCount s.requirementSet
    updateFill := s.updateQueue.length
    feedFill := s.bus.feedQueue.length
    uncertainRows := s.uncertainRows
    clashRecord := s.clashRecord }

/-- NEXT EVENT: the oldest record leaves the queue for the response, the lost marker is reported and cleared
(R189). -/
def State.nextEvent (s : State) : State :=
  { s with events := ⟨s.events.records.tail, false⟩ }.respond
    (.nextEvent s.events.records.head? s.events.lost)

/-- The class of a SUBMIT: the low three bits of its class byte (R200). -/
def submitClass (b : Byte) : BitVec 3 := b.extractLsb' 0 3

/-- The classes SUBMIT takes: SEAL, UPDATE and GLYPH (R148, R190). -/
def submitTakes (cls : BitVec 3) : Bool := cls == 2 || cls == 4 || cls == 5

/-- A message joining the feed transmit queue: its spoiled-attempt count is 0 (R148, R190). -/
def newMessage (cls : BitVec 3) (payload : List Byte) : FeedMessage := ⟨cls, payload, 0⟩

/-- A SUBMIT whose arguments are complete, judged by the tests of R190 in their order. -/
def State.submit (s : State) (cls : BitVec 3) (payload : List Byte) : State :=
  if !submitTakes cls then s.respond .badClass
  else if 40 < payload.length then s.respond .badArg
  else if 16 ≤ s.bus.feedQueue.length then s.respond .full
  else
    { s with bus := { s.bus with feedQueue := s.bus.feedQueue ++ [newMessage cls payload] } }.respond
      (.submitted (s.bus.feedQueue.length + 1))

/-- The arguments of a SUBMIT: class byte, length byte and that many payload bytes; none when fewer bytes arrived
(R184). -/
def submitArguments : List Byte → Option (BitVec 3 × List Byte)
  | clsByte :: len :: bytes =>
    if len.toNat ≤ bytes.length then some (submitClass clsByte, bytes.take len.toNat) else none
  | _ => none

/-- The role of a role byte; none for a byte other than 00H and 01H (R200). -/
def roleOfByte (b : Byte) : Option Role :=
  if b = 0 then some .shown else if b = 1 then some .building else none

/-- The role and position READ CELL names; none when one of them is out of range (R187, R200). -/
def cellNamed (role row col : Byte) : Option (Role × Pos) :=
  match roleOfByte role with
  | none => none
  | some r =>
    if h : row.toNat < 12 ∧ col.toNat < 32 then some (r, ⟨⟨row.toNat, h.1⟩, ⟨col.toNat, h.2⟩⟩) else none

/-- READ CELL: BADARG at once, or the port becomes Working and the feed read request is issued (R187). -/
def State.readCellCommand (s : State) (role row col : Byte) : State :=
  match cellNamed role row col with
  | none => s.respond .badArg
  | some (r, p) =>
    { s with
      port := .working r p
      arbiter := s.arbiter.issue .feedRead ⟨p, r, none⟩ }.grant

/-- The response a completed feed read gives, for the role and position the port holds: REFUSED when the station
entered Withdrawn or Clashed since it was issued, else the record read (R136, R187). That it is REFUSED also when the
read met an entry to Listening, before or after that one, is the model's choice (notes/assumptions/37.md). -/
def State.readResponse (s : State) (acc : Access) : PortState → PortState
  | .working role p => .ready (if acc.abandoned then .refused else .cell role p (s.readCell acc.buffer acc.pos))
  | .free => .free
  | .ready r => .ready r

/-- A feed read access completes (R130, R187). -/
def State.feedReadDone (s : State) (acc : Access) : State :=
  { s.finishAccess acc with port := s.readResponse acc s.port }.grant

/-- READ ROSTER of a number (R191). -/
def State.readRosterCommand (s : State) (b : Byte) : State :=
  if h : b.toNat < 64 then s.respond (.rosterEntry ⟨b.toNat, h⟩ s.roster[b.toNat]) else s.respond .badArg

/-- RESTART, by the station state (R178, R193). -/
def State.restartCommand (s : State) : StationState → State
  | .halted => s.respond .refused
  | .joining => (s.enterLeaving .fromJoining).respond (.restarted (.leaving .fromJoining))
  | .member => (s.enterLeaving .fromMember).respond (.restarted (.leaving .fromMember))
  | .leaving origin => s.respond (.restarted (.leaving origin))
  | .listening | .withdrawn | .clashed => (s.enterListening .restart).respond (.restarted .listening)

/-- The port as a collect transaction finds it: judged by the port state at the assertion of its select (R186), Free
when a start came over it. -/
def State.collectPort (s : State) : PortState :=
  if s.inTransaction.ready && !s.inTransaction.abandoned then s.port else .free

/-- The bytes a collect transaction shifts out after the port byte when `clocked` bytes are clocked: the response
first, filler after it; filler alone when the port is not Ready (R186). -/
def PortState.collected (p : PortState) (clocked : Nat) : List Byte :=
  let bytes :=
    match p with
    | .ready r => r.bytes
    | .free | .working _ _ => []
  bytes.take clocked ++ List.replicate (clocked - bytes.length) filler

/-- Every byte of the response the collect transaction finds was shifted out (R186). -/
def PortState.isCollected (p : PortState) (clocked : Nat) : Bool :=
  match p with
  | .ready r => decide (r.bytes.length ≤ clocked)
  | .free | .working _ _ => false

/-- A collect transaction's release: the port is Free when the response was collected (R186). -/
def State.collect (s : State) (clocked : Nat) : State :=
  let t := s.releaseSelect (s.collectPort.collected clocked)
  if s.powered && s.collectPort.isCollected clocked then { t with port := .free } else t

/-! ### The meanings -/

/-- STATUS (R188). -/
def execStatus (s : State) (edge : SelectEdge := .released) : Host.Outcome State Fault Refusal :=
  .next (s.command edge fun st t => t.respond (.status (t.statusReport st)))

/-- NEXT_EVENT (R189). -/
def execNextEvent (s : State) (edge : SelectEdge := .released) : Host.Outcome State Fault Refusal :=
  .next (s.command edge fun _ t => t.nextEvent)

/-- SUBMIT (R190). With too few bytes the transaction is discarded (R184). -/
def execSubmit (args : List Byte) (s : State) (edge : SelectEdge := .released) : Host.Outcome State Fault Refusal :=
  match submitArguments args with
  | some (cls, payload) => .next (s.command edge fun _ t => t.submit cls payload)
  | none => .next (s.command edge fun _ t => t)

/-- READ_CELL (R187). With too few bytes the transaction is discarded (R184). -/
def execReadCell (args : List Byte) (s : State) (edge : SelectEdge := .released) : Host.Outcome State Fault Refusal :=
  match args with
  | role :: row :: col :: _ => .next (s.command edge fun _ t => t.readCellCommand role row col)
  | _ => .next (s.command edge fun _ t => t)

/-- FEED_READ_COMPLETE (R187). With no feed read in progress the event does not occur (notes/assumptions/3.md). -/
def execFeedReadComplete (s : State) : Host.Outcome State Fault Refusal :=
  match s.accessOf .feedRead false with
  | some acc => .next (s.feedReadDone acc)
  | none => .next s

/-- READ_ROSTER (R191). With too few bytes the transaction is discarded (R184). -/
def execReadRoster (args : List Byte) (s : State) (edge : SelectEdge := .released) : Host.Outcome State Fault Refusal :=
  match args with
  | number :: _ => .next (s.command edge fun _ t => t.readRosterCommand number)
  | [] => .next (s.command edge fun _ t => t)

/-- READ_COUNTERS (R192). -/
def execReadCounters (s : State) (edge : SelectEdge := .released) : Host.Outcome State Fault Refusal :=
  .next (s.command edge fun _ t => t.respond (.counters t.counters))

/-- CLEAR_COUNTERS (R192). -/
def execClearCounters (s : State) (edge : SelectEdge := .released) : Host.Outcome State Fault Refusal :=
  .next (s.command edge fun _ t => { t with counters := Counters.zero }.respond .cleared)

/-- RESTART (R178, R193). -/
def execRestart (s : State) (edge : SelectEdge := .released) : Host.Outcome State Fault Refusal :=
  .next (s.command edge fun st t => t.restartCommand st)

/-- COLLECT (R186). -/
def execCollect (clocked : Nat) (s : State) (edge : SelectEdge := .released) : Host.Outcome State Fault Refusal :=
  match edge with
  | .asserted => .next s.assertSelect
  | .released => .next (s.collect clocked)

/-- UNKNOWN_COMMAND: a first byte that is no code of the Formats chapter is answered with BADARG (R184). A defined
code is no unknown command, and its event is another row (notes/assumptions/3.md). -/
def execUnknownCommand (code : Byte) (s : State) (edge : SelectEdge := .released) : Host.Outcome State Fault Refusal :=
  if definedCommandCode code then .next s else .next (s.command edge fun _ t => t.respond .badArg)

end Sys2Proof.Machine
end

