-- ==== Sys2Proof/Machine/Dispatch.lean ====
section
/-! DEFINITION. The dispatch: one arm for each command, each one call of its meaning. -/

namespace Sys2Proof.Machine

/-- The effect of a command on everything but the queue. -/
def exec (i : Instr) (s : State) : Host.Outcome State Fault Refusal :=
  match i with
  | .powerOn straps => Sys2Proof.Machine.execPowerOn straps s
  | .resetPinLow widthMicroseconds => Sys2Proof.Machine.execResetPinLow widthMicroseconds s
  | .resetPinHigh straps => Sys2Proof.Machine.execResetPinHigh straps s
  | .configurationReadEnd read => Sys2Proof.Machine.execConfigurationReadEnd read s
  | .frameTimerExpiry => Sys2Proof.Machine.execFrameTimerExpiry s
  | .listeningWindow => Sys2Proof.Machine.execListeningWindow s
  | .quietOver => Sys2Proof.Machine.execQuietOver s
  | .frameSynchronisation => Sys2Proof.Machine.execFrameSynchronisation s
  | .idlePoint others => Sys2Proof.Machine.execIdlePoint others s
  | .clash cause => Sys2Proof.Machine.execClash cause s
  | .beacon f => Sys2Proof.Machine.execBeacon f s
  | .flipTimeout f => Sys2Proof.Machine.execFlipTimeout f s
  | .silenceTimeout f => Sys2Proof.Machine.execSilenceTimeout f s
  | .presenceInterval f => Sys2Proof.Machine.execPresenceInterval f s
  | .ready f => Sys2Proof.Machine.execReady f s
  | .sealFrame f => Sys2Proof.Machine.execSeal f s
  | .join f => Sys2Proof.Machine.execJoin f s
  | .presence f => Sys2Proof.Machine.execPresence f s
  | .leave f => Sys2Proof.Machine.execLeave f s
  | .update f => Sys2Proof.Machine.execUpdate f s
  | .glyph f => Sys2Proof.Machine.execGlyph f s
  | .deaf cls f => Sys2Proof.Machine.execDeaf cls f s
  | .leftUnheard f => Sys2Proof.Machine.execLeftUnheard f s
  | .feedDropped cls f => Sys2Proof.Machine.execFeedDropped cls f s
  | .tileStep => Sys2Proof.Machine.execTileStep s
  | .catchUpRead => Sys2Proof.Machine.execCatchUpRead s
  | .catchUpWrite => Sys2Proof.Machine.execCatchUpWrite s
  | .rowFetch => Sys2Proof.Machine.execRowFetch s
  | .rowDisplay => Sys2Proof.Machine.execRowDisplay s
  | .dotLine => Sys2Proof.Machine.execDotLine s
  | .tail => Sys2Proof.Machine.execTail s
  | .status edge => Sys2Proof.Machine.execStatus s edge
  | .nextEvent edge => Sys2Proof.Machine.execNextEvent s edge
  | .submit args edge => Sys2Proof.Machine.execSubmit args s edge
  | .readCell args edge => Sys2Proof.Machine.execReadCell args s edge
  | .feedReadComplete => Sys2Proof.Machine.execFeedReadComplete s
  | .readRoster args edge => Sys2Proof.Machine.execReadRoster args s edge
  | .readCounters edge => Sys2Proof.Machine.execReadCounters s edge
  | .clearCounters edge => Sys2Proof.Machine.execClearCounters s edge
  | .restart edge => Sys2Proof.Machine.execRestart s edge
  | .collect clocked edge => Sys2Proof.Machine.execCollect clocked s edge
  | .unknownCommand code edge => Sys2Proof.Machine.execUnknownCommand code s edge
  | .invalidClassFrame seven f => Sys2Proof.Machine.execInvalidClassFrame seven f s
  | .lossOfPower => Sys2Proof.Machine.execLossOfPower s

end Sys2Proof.Machine
end

