-- ==== Sys2Proof/Safety.lean ====
section
/-! DEFINITION. What the statements speak of: the start values, an accepted frame and its share at the interface,
and the invariants of the station. -/

namespace Sys2Proof.Machine

/-! ### The values after a start -/

/-- The values that power-on and a reset-pin start give the blocks, glyph memory apart: R2, R28, R53, R54, R69, R72,
R74, R86, R93, R114, R129, R139, R146 to R148, R159, R183, R194, R196. The LEAVE count's 0 is the model's choice, no
rule's (notes/assumptions/33.md). -/
structure State.HasStartValues (t : State) : Prop where
  record : t.gen = { shown := 0, isSealed := false, sealer := none, baseline := none, revealBuilding := false
                     revealShown := false, readySet := Vector.replicate 64 false, armed := false, sealAge := 0
                     announced := false }
  building : t.gen.building = 1
  roster : ∀ n : Station, t.roster[n] = { state := .absent, silence := 0, joinFrame := none }
  presence : t.presenceCount = 0
  clashRecord : t.clashRecord = none
  queue : t.updateQueue = []
  engine : t.applyEngine = .idle
  pages : ∀ (b : BufferName) (p : Pos), t.readCell b p = .glyph ⟨0, 0x20, 7, .normal, false, false⟩
  pointer : t.shown = .x
  defaults : ∀ r : LocalRow, t.defaultsX[r] = ⟨0, false, false⟩ ∧ t.defaultsY[r] = ⟨0, false, false⟩
  dirty : t.dirty = { positions := [], overflow := false }
  copying : t.catchUp = .idle
  left : ∀ r : LocalRow, t.leftTable[r] = { entries := [], floor := none }
  entries : ∀ r : LocalRow, t.entryRecords[r] = { zone := ⟨0, false, false⟩, isUncertain := false }
  frame : t.scan.phase = .lead ∧ t.scan.kind = .dark ∧ t.scan.underrun = false ∧ t.scan.fetch = .idle ∧
    t.scan.lineStrobes = 0
  rows : ∀ c : LocalColumn, t.scan.rowBuffer[c] = none ∧ t.scan.displayRow[c] = none
  requests : t.arbiter = { rowFetch := none, feedRead := none, apply := none, catchUp := none, access := none }
  interface : t.bus = { synchronised := false, beaconPending := false, readyPending := none, leavePending := false
                        joinPending := false, presencePending := false, leaveAttempts := 0, feedQueue := []
                        consecutiveSpoils := 0, inFlight := none }
  timer : t.timer = { frameTimer := .stopped, frameNumber := 0, listeningExpiries := 0, quietExpiries := 0 }
  port : t.port = .free
  events : t.events = { records := [], lost := false }
  counters : t.counters = ⟨0, 0, 0, 0, 0, 0, 0, 0, 0, 0⟩

/-! ### An accepted frame (R144, R145) -/

/-- The station, in Joining, Member or Leaving, accepts the frame, whose payload reads as `msg`: it is synchronised,
the frame is no clash, its own judgement finds no reason and no other station spoils it (R142 to R144). -/
structure State.Accepts (s : State) (st : StationState) (cls : BitVec 3) (f : BusFrame) (msg : Message) : Prop where
  running : s.life = .running st
  inWall : st.participates = true
  synchronised : s.bus.synchronised = true
  noClash : s.ownership cls f ≠ .clash
  checkGood : f.check = frameCheck ⟨cls, f.sender⟩ f.payload
  layout : parseMessage cls f.payload = some msg
  room : ∀ u, msg = .update u → (s.filtered u).isSome = true → s.updateQueue.length < 96
  unspoiled : f.spoiledByOther = false

/-- The station with the share of every accepted frame done: the frame counted, the consecutive-spoil count and the
sender's silence count at 0, an own item gone and the presence count at 0 for an own frame (R30, R41, R145, R146,
R151). -/
def State.afterShare (s : State) (cls : BitVec 3) (f : BusFrame) : State :=
  s.endFlight.heardFrame (s.ownership cls f).item f.sender

/-- The station judges a frame that is spoiled, by itself for `reason`, or by another station when it finds no reason
(R142 to R144). -/
structure State.Spoiled (s : State) (st : StationState) (cls : BitVec 3) (f : BusFrame)
    (reason : Option SpoilReason) : Prop where
  running : s.life = .running st
  inWall : st.participates = true
  synchronised : s.bus.synchronised = true
  noClash : s.ownership cls f ≠ .clash
  judged : s.judge cls f = reason
  spoiled : reason = none → f.spoiledByOther = true

/-! ### Invariants -/

/-- Every sparse memory has its canonical form (notes/assumptions/25.md). -/
structure State.MemoriesCanonical (s : State) : Prop where
  x : Memory.wf blankCell s.bufferX = true
  y : Memory.wf blankCell s.bufferY = true
  glyphs : Memory.wf (0 : Byte) s.glyphMemory = true
  panel : Memory.wf darkLine s.scan.panel = true

/-- Every queue keeps its capacity: 32 events (R194), 16 feed messages of a class SUBMIT takes, each with at most 40
payload bytes and at most 15 spoiled attempts (R148), 96 update entries (R49), 128 distinct dirty positions, none in
overflow (R72). -/
structure State.CapacitiesKept (s : State) : Prop where
  events : s.events.records.length ≤ 32
  feed : s.bus.feedQueue.length ≤ 16
  messages : ∀ m ∈ s.bus.feedQueue, submitTakes m.cls = true ∧ m.payload.length ≤ 40 ∧ m.attempts ≤ 15
  updates : s.updateQueue.length ≤ 96
  dirty : s.dirty.positions.length ≤ 128 ∧ s.dirty.positions.Nodup
  overflow : s.dirty.overflow = true → s.dirty.positions = []

/-- The dot lines of a frame that stand before a phase: none before the lead, all 192 before the tail (R110). -/
def ScanPhase.linesBefore : ScanPhase → Nat
  | .lead => 0
  | .row r line => 16 * r.val + line.val
  | .tail => 192

/-- Every count stays in its range: consecutive spoils 0..31 (R146), LEAVE's attempts 0..3 (R152), presence 0..16
(R41), seal age 0..32 (R21), listening expiries 0..3, quiet expiries 0..8 (R159), silence 0..48 and below 48 while an
entry is Joining or Member (R36); a join frame is present exactly while an entry is Joining (R27, R31). Every dot line
before the one the phase names has ended with its line strobe (R110). -/
structure State.CountsInRange (s : State) : Prop where
  spoils : s.bus.consecutiveSpoils ≤ 31
  leave : s.bus.leaveAttempts ≤ 3
  presence : s.presenceCount ≤ 16
  sealAge : s.gen.sealAge ≤ 32
  listening : s.timer.listeningExpiries ≤ 3
  quiet : s.timer.quietExpiries ≤ 8
  silence : ∀ n : Station, s.roster[n].silence ≤ 48
  heard : ∀ n : Station, s.roster[n].state = .joining ∨ s.roster[n].state = .member → s.roster[n].silence < 48
  joinFrame : ∀ n : Station, s.roster[n].joinFrame.isSome = true ↔ s.roster[n].state = .joining
  strobes : s.scan.lineStrobes = s.scan.phase.linesBefore

/-- One list of the left-zone table at a station with left edge `l`: at most 16 entries, strictly ascending, every
column below `l` and above the floor (R85). -/
structure LeftRow.Formed (row : LeftRow) (l : Nat) : Prop where
  size : row.entries.length ≤ 16
  ascending : row.entries.Pairwise fun a b => a.1 < b.1
  below : ∀ e ∈ row.entries, e.1 < l
  floor : ∀ c, row.floor = some c → c < l ∧ ∀ e ∈ row.entries, c < e.1

/-- Every list of the left-zone table has the form of R85. -/
def State.LeftTableFormed (s : State) : Prop := ∀ r : LocalRow, s.leftTable[r].Formed (leftEdge s.straps)

/-- The update queue's epochs: Current entries before Next entries, Next entries only while B is sealed (R51); the
entry being applied is the head and Current (R54, R55); the queue is empty and the engine Idle outside Joining, Member
and Leaving (R53, R54), a station without power apart. -/
structure State.EpochsOrdered (s : State) : Prop where
  order : s.updateQueue.Pairwise fun a b => a.epoch = .next → b.epoch = .next
  nextOnlySealed : ∀ e ∈ s.updateQueue, e.epoch = .next → s.gen.isSealed = true
  head : s.applyEngine ≠ .idle → ∃ e rest, s.updateQueue = e :: rest ∧ e.epoch = .current
  taken : s.participates = true → s.applyEngine = .idle → s.catchUp = .idle → ∀ e ∈ s.updateQueue, e.epoch = .next
  outside : s.powered = true → s.participates = false → s.updateQueue = [] ∧ s.applyEngine = .idle

/-- The generation record: sealer and baseline only while B is sealed (R1), armed only while B is sealed (R16). In
Joining, Member and Leaving the baseline holds no Absent and no Silent station (R7), the ready set only stations of
the requirement set (R11), and armed is what R12 and R16 say. In Listening the record is cleared except S, and the
roster is cleared (R3, R28). -/
structure State.RecordAgrees (s : State) : Prop where
  sealer : s.gen.sealer.isSome = true → s.gen.isSealed = true
  baseline : s.gen.baseline.isSome = true → s.gen.isSealed = true
  armedSealed : s.gen.armed = true → s.gen.isSealed = true
  baselineLive : s.participates = true → ∀ n : Station, s.gen.inBaseline n = true →
    s.roster[n].state = .joining ∨ s.roster[n].state = .member
  ready : s.participates = true → ∀ n : Station, s.gen.readySet[n] = true → s.requirementSet[n] = true
  armed : s.participates = true → s.gen.armed = (!s.following && computedArmed s.roster s.gen)
  listening : s.life = .running .listening →
    s.gen = { GenerationRecord.atStart with shown := s.gen.shown } ∧ s.roster = rosterCleared

/-- The frame being sent is what its item forms: its class, for a ROSTER frame its subtype; a JOIN in flight has JOIN
pending, and a PRESENCE in flight that carries Member is sent in a drawing state (R147, R150, Formats). -/
def State.FlightFormed (s : State) (sent : SentFrame) : Prop :=
  match sent.item with
  | .beacon => sent.cls = 0
  | .ready => sent.cls = 1
  | .leave => sent.cls = 3 ∧ sent.payload = [0x03]
  | .join => sent.cls = 3 ∧ sent.payload.head? = some 0x01 ∧ s.bus.joinPending = true
  | .presence => sent.cls = 3 ∧ ∃ b : Byte, sent.payload = [0x02, b] ∧ (b = 2 → s.draws = true)
  | .feed => submitTakes sent.cls = true

/-- The station's own entry agrees with its state (R39): while the station takes part, its entry is Member exactly in
Member and in Leaving having been Member, and never Silent; else it is Absent. JOIN pends only while the own entry is
Absent (R40). The last three say what the frames in flight and in the feed queue can be: in Listening only a BEACON is
sent (R149). A station without power is left out. -/
structure State.OwnEntryAgrees (s : State) : Prop where
  member : s.participates = true → (s.roster[s.station].state = .member ↔ s.draws = true)
  silent : s.powered = true → s.roster[s.station].state ≠ .silent
  outside : s.powered = true → s.participates = false → s.roster[s.station].state = .absent
  join : s.powered = true → s.bus.joinPending = true →
    s.participates = true ∧ s.roster[s.station].state = .absent
  flight : s.powered = true → ∀ sent, s.bus.inFlight = some sent → s.FlightFormed sent
  listening : s.life = .running .listening → ∀ sent, s.bus.inFlight = some sent → sent.item = .beacon
  messages : ∀ m ∈ s.bus.feedQueue, submitTakes m.cls = true

/-- READY (R13): announced only while B is sealed; while the station takes part, a READY pending or in flight names B and
is announced, its own place in the ready set comes from such a READY, and from announced on no Current entry remains,
none is being applied and no catch-up is in progress. -/
structure State.ReadyFormed (s : State) : Prop where
  announced : s.gen.announced = true → s.gen.isSealed = true
  idle : s.participates = true → s.gen.announced = true → s.currentWork = false ∧ s.catchUp = .idle
  pending : s.powered = true → ∀ g, s.bus.readyPending = some g → g = s.gen.building ∧ s.gen.announced = true
  flight : s.powered = true → ∀ sent, s.bus.inFlight = some sent → sent.item = .ready →
    s.gen.announced = true ∧ sent.payload = [s.gen.building]
  own : s.participates = true → s.gen.readySet[s.station] = true → s.gen.announced = true

/-- The arbiter: the row fetch reads the shown role, the feed read reads, apply writes the building role, and
catch-up reads the shown role or writes the building role (R129); a request waits only behind an access in progress
(R131). A write in progress that no blanking stands over is made to a buffer that is not the shown one (R67, R135). The
last three say whose the requests and accesses are: an engine's that is at work and has one outstanding (R58, R76),
or, for a write, one's that gave it up at an entry to Withdrawn or Clashed, which no station has left but through the
blanking of Listening (R65, R80, R136, R137). -/
structure State.ArbiterFormed (s : State) : Prop where
  rowFetch : ∀ q, s.arbiter.rowFetch = some q → q.role = .shown ∧ q.write = none
  feedRead : ∀ q, s.arbiter.feedRead = some q → q.write = none
  apply : ∀ q, s.arbiter.apply = some q → q.role = .building ∧ q.write.isSome = true
  catchUp : ∀ q, s.arbiter.catchUp = some q → (q.role = .building ↔ q.write.isSome = true)
  access : ∀ acc, s.arbiter.access = some acc → acc.write.isSome = true →
    acc.requester = .apply ∨ acc.requester = .catchUp
  waiting : (s.arbiter.rowFetch.isSome || s.arbiter.feedRead.isSome || s.arbiter.apply.isSome
    || s.arbiter.catchUp.isSome) = true → s.arbiter.access.isSome = true
  buffer : ∀ acc, s.arbiter.access = some acc → acc.write.isSome = true → acc.blanked = false → acc.buffer ≠ s.shown
  working : (s.arbiter.apply.isSome = true → s.applyEngine ≠ .idle) ∧
    (s.arbiter.catchUp.isSome = true → s.catchUp ≠ .idle)
  owned : ∀ acc, s.arbiter.access = some acc → acc.abandoned = false →
    (acc.requester = .apply → acc.write.isSome = true ∧ s.applyEngine ≠ .idle ∧ s.arbiter.apply = none) ∧
    (acc.requester = .catchUp → s.catchUp ≠ .idle ∧ s.arbiter.catchUp = none)
  abandoned : ∀ acc, s.arbiter.access = some acc → acc.write.isSome = true → acc.abandoned = true →
    acc.blanked = false → s.participates = false ∧ s.life ≠ .running .listening

/-! ### Changes of station state (R173) -/

/-- Two station states are the same state of R173, the Leaving origin apart. -/
def StationState.sameState : StationState → StationState → Bool
  | .leaving _, .leaving _ => true
  | a, b => decide (a = b)

/-- The changes of station state the table of R173 allows. -/
def StationState.mayBecome : StationState → StationState → Bool
  | .listening, .joining => true
  | .joining, .member => true
  | .joining, .leaving .fromJoining => true
  | .member, .leaving .fromMember => true
  | .leaving .fromJoining, .leaving .fromMember => true
  | .joining, .withdrawn | .member, .withdrawn | .leaving _, .withdrawn => true
  | .withdrawn, .listening | .clashed, .listening => true
  | .listening, .clashed | .joining, .clashed | .member, .clashed | .leaving _, .clashed | .withdrawn, .clashed => true
  | _, _ => false

/-- The latest record is the STATE event of this state with the frame number `fn`, or the queue was full and the event
was dropped with the lost marker set (R173, R194, R195). -/
def EventQueue.endsWithState (q : EventQueue) (fn : FrameNumber) (st : StationState) : Prop :=
  (∃ reason, q.records.getLast? = some ⟨fn, .state st reason⟩) ∨ (q.lost = true ∧ 32 ≤ q.records.length)

/-! ### Entries to Listening, Withdrawn and Clashed (R157, R175, R179, R181) -/

/-- `t` is `s` after an entry to Listening with this reason: every row of the table of R175, and what that rule keeps.
The configuration record, the withdraw reason and the period of the frame timer, which a start sets at the same entry,
are left to the statements. That the LEAVE count becomes 0 and that a first BEACON in flight is in flight no longer is
the model's choice, in no row of that table (notes/assumptions/33.md, 22.md). -/
structure State.EntersListening (s t : State) (reason : StateReason) : Prop where
  state : t.life = .running .listening
  record : t.gen = { shown := s.gen.shown, isSealed := false, sealer := none, baseline := none, revealBuilding := false
                     revealShown := false, readySet := Vector.replicate 64 false, armed := false, sealAge := 0
                     announced := false }
  roster : ∀ n : Station, t.roster[n] = { state := .absent, silence := 0, joinFrame := none }
  presence : t.presenceCount = 0
  queue : t.updateQueue = [] ∧ t.applyEngine = .idle
  pages : ∀ (b : BufferName) (p : Pos), t.readCell b p = .glyph ⟨0, 0x20, 7, .normal, false, false⟩
  pointer : t.shown = .x
  defaults : ∀ r : LocalRow, t.defaultsX[r] = ⟨0, false, false⟩ ∧ t.defaultsY[r] = ⟨0, false, false⟩
  copying : t.dirty = { positions := [], overflow := false } ∧ t.catchUp = .idle
  left : ∀ r : LocalRow, t.leftTable[r] = { entries := [], floor := none }
  entries : ∀ r : LocalRow, t.entryRecords[r] = { zone := ⟨0, false, false⟩, isUncertain := false }
  fetch : t.scan.fetch = .idle ∧ ∀ c : LocalColumn, t.scan.rowBuffer[c] = none
  requests : t.arbiter.rowFetch = none ∧ t.arbiter.apply = none ∧ t.arbiter.catchUp = none ∧
    t.arbiter.feedRead = s.arbiter.feedRead
  interface : t.bus = { synchronised := false, beaconPending := false, readyPending := none, leavePending := false
                        joinPending := false, presencePending := false, leaveAttempts := 0
                        feedQueue := s.bus.feedQueue, consecutiveSpoils := 0, inFlight := none }
  expiries : t.timer.listeningExpiries = 0
  frameNumber : t.timer.frameNumber = s.timer.frameNumber
  told : t.events = s.events.post s.timer.frameNumber (.state .listening reason)
  kept : t.counters = s.counters ∧ t.glyphMemory = s.glyphMemory ∧ t.straps = s.straps ∧
    t.clashRecord = s.clashRecord

/-- `t` is `s` after an entry to Withdrawn or Clashed: what the interface, the engines, the scan engine, the feed read
and the roster do there, and what R70, R72, R86, R93, R102 and R28 keep. The generation record, the counters, the timer
and the events, to which the cause adds its own changes, are left to the statements. That a feed read which an entry to Listening met before
is given up here too is the model's choice (notes/assumptions/37.md). -/
structure State.StandsDown (s t : State) (st : StationState) (reason : WithdrawReason) : Prop where
  state : t.life = .running st
  reason : t.withdrawReason = reason
  roster : ∀ n : Station, t.roster[n] = { state := .absent, silence := 0, joinFrame := none }
  presence : t.presenceCount = 0
  queue : t.updateQueue = [] ∧ t.applyEngine = .idle
  copying : t.catchUp = .idle
  fetch : t.scan.fetch = .idle ∧ ∀ c : LocalColumn, t.scan.rowBuffer[c] = none
  requests : t.arbiter.rowFetch = none ∧ t.arbiter.feedRead = none ∧ t.arbiter.apply = none ∧
    t.arbiter.catchUp = none
  access : t.arbiter.access = s.arbiter.access.map fun acc => { acc with abandoned := true }
  port : t.port = if s.arbiter.feedRead.isSome then .ready .refused else s.port
  interface : t.bus = { synchronised := s.bus.synchronised, beaconPending := false, readyPending := none
                        leavePending := false, joinPending := false, presencePending := false, leaveAttempts := 0
                        feedQueue := [], consecutiveSpoils := 0, inFlight := none }
  dark : s.draws = true → t.scan.phase = .lead ∧ t.scan.kind = .dark
  pages : t.bufferX = s.bufferX ∧ t.bufferY = s.bufferY ∧ t.shown = s.shown ∧ t.defaultsX = s.defaultsX ∧
    t.defaultsY = s.defaultsY
  tables : t.dirty = s.dirty ∧ t.leftTable = s.leftTable ∧ t.entryRecords = s.entryRecords
  kept : t.glyphMemory = s.glyphMemory ∧ t.config = s.config ∧ t.straps = s.straps ∧ t.clashRecord = s.clashRecord

/-! ### Choosing what to send (R149) and arbitration (R140) -/

/-- The order of R149. -/
def sendOrder : List Item := [.beacon, .ready, .leave, .join, .presence, .feed]

/-- The table of R149: whether a station state allows an item. -/
def Item.allowedIn : Item → StationState → Bool
  | .beacon, .listening | .beacon, .joining | .beacon, .member | .beacon, .leaving _ => true
  | .ready, .joining | .ready, .member => true
  | .leave, .leaving _ => true
  | .join, .joining | .join, .member => true
  | .presence, .joining | .presence, .member => true
  | .feed, .joining | .feed, .member => true
  | _, _ => false

/-- The interface holds an item: its flag is set, or the feed queue has a head (R147, R148). -/
def BusInterface.holds (b : BusInterface) : Item → Bool
  | .beacon => b.beaconPending
  | .ready => b.readyPending.isSome
  | .leave => b.leavePending
  | .join => b.joinPending
  | .presence => b.presencePending
  | .feed => !b.feedQueue.isEmpty

/-- A key as a number: the lower wins (R140). -/
def keyValue (k : Key) : Nat := k.cls.toNat * 64 + k.sender.val

/-! ### Beacons (R165) -/

/-- The lockstep check passes: the carried S and sealed equal the station's own, and so does the carried armed where it
is compared, at a station that is not following, for a sender in its requirement set (R165). -/
structure State.AgreesWith (s : State) (sender : Station) (m : BeaconFields) : Prop where
  shown : m.shown = s.gen.shown
  isSealed : m.isSealed = s.gen.isSealed
  armed : s.following = false → s.requirementSet[sender] = true → m.armed = s.gen.armed

/-- The armed value in force at a beacon acceptance (R12, R18). -/
def State.armedAt (s : State) (m : BeaconFields) : Bool := if s.following then m.armed else s.gen.armed

/-- The entry counts silence at a beacon acceptance (R36). -/
def RosterEntry.isLive (e : RosterEntry) : Bool := e.state == .joining || e.state == .member

/-- A roster entry after a beacon acceptance, given whether its station sent the BEACON and whether the flip timeout
names it (R30, R36, R37). -/
def RosterEntry.afterBeacon (e : RosterEntry) (isSender named : Bool) : RosterEntry :=
  if named then ⟨.silent, if isSender then 0 else e.silence + 1, none⟩
  else if isSender then { e with silence := 0 }
  else if e.isLive then
    if e.silence < 47 then { e with silence := e.silence + 1 } else ⟨.silent, e.silence + 1, none⟩
  else e

/-- A roster entry after the promotion at a flip (R38). -/
def RosterEntry.afterPromotion (e : RosterEntry) (inBaseline : Bool) : RosterEntry :=
  if e.state = .joining ∧ inBaseline = true then { e with state := .member, joinFrame := none } else e

/-- The flip timeout names the station: required and not ready (R21). -/
def State.lags (s : State) (n : Station) : Bool := s.requirementSet[n] && !s.gen.readySet[n]

/-- The record of `t` is that of `s` after a change of the roster: the baseline set loses the stations whose entry is
Absent or Silent and no other (R7), the ready set loses the stations that are not required and no other (R11), and armed
is what R12 and R16 say. -/
structure State.RecordFollows (s t : State) : Prop where
  present : t.gen.baseline.isSome = s.gen.baseline.isSome
  baseline : ∀ n : Station, t.gen.inBaseline n = true ↔
    s.gen.inBaseline n = true ∧ t.roster[n].state ≠ .absent ∧ t.roster[n].state ≠ .silent
  ready : ∀ n : Station, t.gen.readySet[n] = true ↔ s.gen.readySet[n] = true ∧ t.requirementSet[n] = true
  armed : t.gen.armed = true ↔ t.following = false ∧ t.gen.isSealed = true ∧
    ∀ n : Station, t.requirementSet[n] = true → t.gen.readySet[n] = true

/-! ### Requests and display (R110, R114, R117, R129, R130) -/

/-- The request waits, or it is the access in progress, its role resolved by the shown pointer (R129, R130). -/
def State.asks (t : State) (r : Requester) (q : Request) : Prop :=
  t.arbiter.waiting r = some q ∨ t.arbiter.access = some ⟨r, t.shown.ofRole q.role, q.pos, q.write, false, false⟩

/-- `acc` is the access in progress of a station that has power, it is this requester's, and it writes `w` (R130). -/
def State.completes (s : State) (r : Requester) (acc : Access) (w : Option CellRecord) : Prop :=
  s.powered = true ∧ s.arbiter.access = some acc ∧ acc.requester = r ∧ acc.write = w

/-- The arbiter of `t` keeps what the arbiter of `s` had, the row fetch's waiting request apart: the access in progress
keeps its requester, buffer, position and record, and is given up exactly when it was before or is a read of a row fetch
that is `dropped`; the requests of the others that wait still ask, their roles unresolved until the grant, and no feed
read waits that did not (R117, R118, R130, R134 to R136). -/
structure State.ArbiterKeeps (s t : State) (dropped : Bool) : Prop where
  access : ∀ acc, s.arbiter.access = some acc → t.arbiter.access =
    some { acc with abandoned := acc.abandoned || (dropped && decide (acc.requester = .rowFetch)) }
  feedRead : ∀ q, s.arbiter.feedRead = some q → t.asks .feedRead q
  apply : ∀ q, s.arbiter.apply = some q → t.asks .apply q
  catchUp : ∀ q, s.arbiter.catchUp = some q → t.asks .catchUp q
  noFeedRead : s.arbiter.feedRead = none → t.arbiter.feedRead = none

/-- The place of a requester in the order in force: the lower is granted first (R131). -/
def Requester.place (scanFirst : Bool) : Requester → Nat
  | .rowFetch => if scanFirst then 0 else 4
  | .feedRead => 1
  | .apply => 2
  | .catchUp => 3

/-- The command at which an access of a requester completes, when it writes or reads (R130). -/
def Requester.completion : Requester → Bool → Instr
  | .rowFetch, _ => .rowFetch
  | .feedRead, _ => .feedReadComplete
  | .apply, _ => .tileStep
  | .catchUp, false => .catchUpRead
  | .catchUp, true => .catchUpWrite

/-- The scan engine at the beginning of a frame of a kind, the panel and the row fetch apart (R111, R115). -/
def ScanEngine.frameBegun (sc : ScanEngine) (kind : FrameKind) (fn : FrameNumber) (reveal concealEnable : Bool) :
    ScanEngine :=
  { sc with
    phase := .lead, lineBegun := false, kind := kind, flashOn := decide (fn.toNat % 32 < 16), reveal := reveal
    concealEnable := concealEnable, underrun := false, lineStrobes := 0 }

/-- Display of row `r` is what comes next: row 0 at the end of the lead, a later row when dot line 15 of the row before
it has been begun (R110). -/
def State.rowIsNext (s : State) (r : LocalRow) : Prop :=
  (s.scan.phase = .lead ∧ r = 0) ∨
    ∃ q : LocalRow, s.scan.phase = .row q 15 ∧ s.scan.lineBegun = true ∧ r.val = q.val + 1

/-- Dot line `line` of row `r` is what comes next (R110). -/
def State.lineIsNext (s : State) (r : LocalRow) (line : Fin 16) : Prop :=
  (s.scan.phase = .row r line ∧ s.scan.lineBegun = false) ∨
    ∃ k : Fin 16, s.scan.phase = .row r k ∧ s.scan.lineBegun = true ∧ line.val = k.val + 1

/-- The zone in force at a column of the display row: the one the last zone cell before it starts, else the row's entry
record (R121, R125). -/
def State.zoneAt (s : State) (r : LocalRow) (col : LocalColumn) : ZoneRecord :=
  ((s.scan.displayRow.toList.take col.val).filterMap fun cell =>
    match cell with
    | some (.zone z) => some z.zone
    | some (.glyph _) => none
    | none => none).getLast?.getD s.entryRecords[r].zone

/-- Whether a dot of a glyph cell is ink: a 1 of the glyph's pattern line that the flash does not hide, or the underline
of the zone in force (R122, R123). -/
def State.isInk (s : State) (r : LocalRow) (line : Fin 16) (col : LocalColumn) (dot : Fin 8) (g : GlyphCell) : Bool :=
  let tall := g.size == .tall || g.size == .large
  let wide := g.size == .wide || g.size == .large
  let patternLine := if tall then 8 * (r.val % 2) + line.val / 2 else line.val
  let patternDot := if wide then 4 * (col.val % 2) + dot.val / 2 else dot.val
  (glyphLine s.glyphMemory g.set g.code patternLine).getLsbD (7 - patternDot) && (!g.flash || s.scan.flashOn) ||
    (s.zoneAt r col).underline && line.val == 15 && (!tall || r.val % 2 == 1)

/-- The colour of a dot of a drawing frame (R121 to R126). -/
def State.dotColour (s : State) (r : LocalRow) (line : Fin 16) (col : LocalColumn) (dot : Fin 8) : Colour :=
  let z := s.zoneAt r col
  let hidden := s.scan.concealEnable && !s.scan.reveal && z.conceal
  match s.scan.displayRow[col] with
  | none => z.background
  | some (.zone c) => if hidden then z.background else c.colour
  | some (.glyph g) =>
    if hidden then z.background
    else if s.isInk r line col dot g != g.invert then g.foreground else z.background

/-! ### Feed commands (R183, R184) -/

/-- The station takes a command transaction that is released now, in a station state: it runs, the port is Free, and no
start has come over the transaction (R182 to R184). -/
def State.isFree (s : State) (st : StationState) : Prop :=
  s.life = .running st ∧ s.port = .free ∧ ∀ tr, s.transaction = some tr → tr.abandoned = false

/-- The port byte of the transaction that is released now: the one sampled when its select was asserted, or this moment's
when the two edges are one moment (R183; notes/assumptions/21.md). -/
def State.shownByte (s : State) : Byte :=
  match s.transaction with
  | some tr => tr.shown
  | none => portByte s.port s.events

/-- The station after the release of a command transaction that is taken: the port byte has been shifted out, and the
response is ready (R183, R185). -/
def State.answered (s : State) (r : Response) : State :=
  { s with transaction := none, dataOut := [s.shownByte], port := .ready r }

/-- The station after the release of a transaction that is discarded (R183, R184). -/
def State.discarded (s : State) : State := { s with transaction := none, dataOut := [s.shownByte] }

/-- The rows of the feed port, each with the edge it stands for: the commands, COLLECT, and the codes the Formats chapter
does not define. -/
def feedEdge : Instr → Option SelectEdge
  | .status edge | .nextEvent edge | .submit _ edge | .readCell _ edge | .readRoster _ edge => some edge
  | .readCounters edge | .clearCounters edge | .restart edge | .collect _ edge => some edge
  | .unknownCommand code edge => if definedCommandCode code then none else some edge
  | _ => none

/-- A row of the feed port that collects no response. -/
def isCollect : Instr → Bool
  | .collect _ _ => true
  | _ => false

/-! ### The bits of a frame (R138, R197) -/

/-- The low `width` bits of a value, most significant first. -/
def bitsFirst (width value : Nat) : List Bool := (List.range width).reverse.map value.testBit

/-! ### The command that carries a frame -/

/-- The command that carries a frame of a class: the general row of each class (R198 for 6 and 7). -/
def frameCommand (cls : BitVec 3) (f : BusFrame) : Instr :=
  match cls.toNat with
  | 0 => .beacon f
  | 1 => .ready f
  | 2 => .sealFrame f
  | 3 => .join f
  | 4 => .update f
  | 5 => .glyph f
  | 6 => .invalidClassFrame false f
  | _ => .invalidClassFrame true f

/-- The class and the frame a row of the table carries, the rows that name a case of a frame's end included. -/
def carriedFrame : Instr → Option (BitVec 3 × BusFrame)
  | .beacon f | .flipTimeout f | .silenceTimeout f | .presenceInterval f => some (0, f)
  | .ready f => some (1, f)
  | .sealFrame f => some (2, f)
  | .join f | .presence f | .leave f | .leftUnheard f => some (3, f)
  | .update f => some (4, f)
  | .glyph f => some (5, f)
  | .deaf cls f | .feedDropped cls f => some (cls, f)
  | .invalidClassFrame seven f => some (if seven then 7 else 6, f)
  | _ => none

/-- A row that names a case of a frame's end; where the case does not hold the event does not occur
(notes/assumptions/4.md). -/
def namesCase : Instr → Bool
  | .flipTimeout _ | .silenceTimeout _ | .presenceInterval _ | .deaf _ _ | .leftUnheard _ | .feedDropped _ _ => true
  | _ => false

/-! ### The steps between two writes of apply (R57, R59, R60, R87 to R91) -/

/-- What a left step with cell `c` at column `col` makes of a row's list and floor: nothing at or below the floor; a zone
cell is recorded, and when 17 columns would stand in the list the lowest becomes the floor; a glyph cell removes its
column (R87 to R89). -/
structure LeftRow.StepsTo (row : LeftRow) (col : Nat) (c : CellRecord) (row' : LeftRow) : Prop where
  below : (∃ f, row.floor = some f ∧ col ≤ f) → row' = row
  room : ∀ z, c = .zone z → (∀ f, row.floor = some f → f < col) →
    (row.entries.length < 16 ∨ ∃ e ∈ row.entries, e.1 = col) →
    row'.floor = row.floor ∧ ∀ e, e ∈ row'.entries ↔ e = (col, z.zone) ∨ e ∈ row.entries ∧ e.1 ≠ col
  full : ∀ z, c = .zone z → (∀ f, row.floor = some f → f < col) → row.entries.length = 16 →
    (∀ e ∈ row.entries, e.1 ≠ col) → ∃ low, row'.floor = some low ∧ row'.entries.length = 16 ∧
      (low = col ∨ ∃ e ∈ row.entries, e.1 = low) ∧
      ∀ e, e ∈ row'.entries ↔ low < e.1 ∧ (e = (col, z.zone) ∨ e ∈ row.entries)
  glyph : ∀ g, c = .glyph g → (∀ f, row.floor = some f → f < col) →
    row'.floor = row.floor ∧ ∀ e, e ∈ row'.entries ↔ e ∈ row.entries ∧ e.1 ≠ col
  ascending : row'.entries.Pairwise fun a b => a.1 < b.1

/-- `t` is `s` after a run of steps that make no access: each left step makes of its row's list what R87 to R89 say, a
left clear step empties the list and removes the floor (R91), a row default step sets the building record of its row
(R60), a right step does nothing (R59). -/
def State.StepsQuietly : List ApplyStep → State → State → Prop
  | [], s, t => t = s
  | .left r col c :: rest, s, t =>
    ∃ row, s.leftTable[r].StepsTo col c row ∧ State.StepsQuietly rest { s with leftTable := s.leftTable.set r row } t
  | .leftClear r :: rest, s, t =>
    State.StepsQuietly rest { s with leftTable := s.leftTable.set r { entries := [], floor := none } } t
  | .rowDefault r d :: rest, s, t =>
    State.StepsQuietly rest
      (match s.shown with
        | .x => { s with defaultsY := s.defaultsY.set r d }
        | .y => { s with defaultsX := s.defaultsX.set r d }) t
  | .right :: rest, s, t => State.StepsQuietly rest s t
  | .tile _ _ :: _, _, _ => False

/-- What a flip makes of the update queue, the apply engine and the left-zone table. Every entry is Current and keeps
its place (R52). An engine at work goes on with the same entry, the same next step and the same request or access (R20,
R64). It goes on unchanged too while catch-up runs; else an idle engine takes the heads at once: those that make no
access are done, and the next one is at its first write, which is requested (R55, R61). The flip itself does not write
the left-zone table (R92). -/
def State.QueueFlips (s t : State) : Prop :=
  let stepsOf (e : UpdateEntry) := e.update.steps s.straps s.wallColumns
  ∃ (done : List UpdateEntry) (quiet : List ApplyStep) (u : State),
    s.updateQueue.map (fun e => { e with epoch := .current }) = done ++ t.updateQueue ∧
    State.StepsQuietly (done.flatMap stepsOf ++ quiet) s u ∧ t.leftTable = u.leftTable ∧
    (s.applyEngine ≠ .idle ∨ t.catchUp ≠ .idle → done = [] ∧ quiet = [] ∧ t.applyEngine = s.applyEngine ∧
      (∀ q, s.arbiter.apply = some q → t.asks .apply q) ∧
      ∀ acc, s.arbiter.access = some acc → acc.requester = .apply → t.arbiter.access = some acc) ∧
    (s.applyEngine = .idle → t.catchUp = .idle →
      (t.updateQueue = [] → t.applyEngine = .idle ∧ quiet = []) ∧
      ∀ e rest, t.updateQueue = e :: rest → ∃ p c more, stepsOf e = quiet ++ .tile p c :: more ∧
        t.applyEngine = .applying quiet.length ∧ t.asks .apply ⟨p, .building, some c⟩)

end Sys2Proof.Machine
end

