-- ==== Sys2Proof/Certificates/Slice0/Obligations.lean ====
section
/-! DEFINITION. The statements for the provers. Each is about one command, one family of commands or every step;
each docstring names the rules of spec/ it rests on and the log entries of the model's own choices. -/

section Statements

open Sys2Proof Sys2Proof.Machine

/-! ### The step and the values at reset -/

/-- A step runs the command at the front of the queue on the state with the queue's rest; on an empty queue the block
idles (the model's choice, notes/assumptions/2.md). -/
def Obligations.StepRunsFrontCommand : Prop :=
  (∀ (c : Instr) (rest : List Instr) (s : State), s.pending = c :: rest →
    step s = exec c { s with pending := rest }) ∧
  ∀ s : State, s.pending = [] → step s = .next s

/-- The machine right after reset holds the start value of every block, every line pattern is all 0-dots, and the
configuration read runs (R182 and the rules named at `State.HasStartValues`; that reset is the moment power has been
applied is the model's choice, notes/assumptions/1.md, the withdraw reason during the read notes/assumptions/23.md, the
LEAVE count's 0 notes/assumptions/33.md). The nine invariants below hold of it. -/
def Obligations.ResetHoldsStartValues : Prop :=
  State.reset.HasStartValues ∧
  (∀ (set : BitVec 2) (code : BitVec 7) (line : Fin 16), glyphLine State.reset.glyphMemory set code line.val = 0) ∧
  State.reset.life = .readingConfiguration ∧ State.reset.config = none ∧ State.reset.withdrawReason = .none ∧
  State.reset.transaction = none ∧ State.reset.pending = [] ∧
  State.reset.MemoriesCanonical ∧ State.reset.CapacitiesKept ∧ State.reset.CountsInRange ∧
  State.reset.LeftTableFormed ∧ State.reset.EpochsOrdered ∧ State.reset.RecordAgrees ∧ State.reset.OwnEntryAgrees ∧
  State.reset.ReadyFormed ∧ State.reset.ArbiterFormed

/-! ### Invariants every step keeps -/

/-- Page memory, glyph memory and the panel keep their canonical form (R67, R102, R110; the form itself is the model's,
notes/assumptions/25.md). -/
def Obligations.StepKeepsMemoriesCanonical : Prop :=
  ∀ s t : State, s.MemoriesCanonical → step s = .next t → t.MemoriesCanonical

/-- The event queue, the feed transmit queue, the update queue and the dirty list keep their capacities (R49, R72,
R148, R194). -/
def Obligations.StepKeepsCapacities : Prop :=
  ∀ s t : State, s.CapacitiesKept → step s = .next t → t.CapacitiesKept

/-- Every count of the station stays in its range, and the line strobes sent in a frame are as many as the dot lines
before its phase (R1, R21, R27, R31, R36, R41, R110, R146, R152, R159). -/
def Obligations.StepKeepsCountsInRange : Prop :=
  ∀ s t : State, s.CountsInRange → step s = .next t → t.CountsInRange

/-- Every list of the left-zone table holds at most 16 entries, in strictly ascending column order, every column
below L and above the row's floor (R85). -/
def Obligations.StepKeepsLeftTableFormed : Prop :=
  ∀ s t : State, s.LeftTableFormed → step s = .next t → t.LeftTableFormed

/-- Current entries stand before Next entries, Next entries exist only while B is sealed, and the entry being applied
is the Current head (R51, R54, R55). -/
def Obligations.StepKeepsEpochsOrdered : Prop :=
  ∀ s t : State, s.EpochsOrdered → step s = .next t → t.EpochsOrdered

/-- The generation record agrees with the roster: baseline, ready set and armed are what R7, R11, R12 and R16 say. -/
def Obligations.StepKeepsRecordAgreement : Prop :=
  ∀ s t : State, s.RecordAgrees → step s = .next t → t.RecordAgrees

/-- The station's own entry is Member exactly in Member and in Leaving having been Member (R39). -/
def Obligations.StepKeepsOwnEntryAgreement : Prop :=
  ∀ s t : State, s.OwnEntryAgrees → step s = .next t → t.OwnEntryAgrees

/-- No write that no blanking stands over is made to the shown buffer, no write request names the shown role, and a
request waits only behind an access in progress (R67, R129, R131, R135). The premises on the record, the own entry and
READY are invariants of their own: they say that apply and catch-up are idle at a swap. -/
def Obligations.StepKeepsArbiterFormed : Prop :=
  ∀ s t : State, s.RecordAgrees → s.OwnEntryAgrees → s.ReadyFormed → s.ArbiterFormed → step s = .next t →
    t.ArbiterFormed

/-- READY is never owed: whichever step makes the last condition of R13 true also sets READY pending with g = B and
announced; a READY pending or in flight stays one for B, announced with no Current work left and no catch-up in
progress (R13). -/
def Obligations.StepLeavesNoReadyOwed : Prop :=
  ∀ s t : State, s.RecordAgrees → s.OwnEntryAgrees → s.ReadyFormed → step s = .next t →
    t.ReadyFormed ∧ (s.readyCondition = false → t.readyCondition = false) ∧
    (s.gen.announced = false → t.gen.announced = true → t.bus.readyPending = some t.gen.building)

/-! ### Changes of station state (R173) -/

/-- A command changes the station state of a running station only along the table of R173. The first premise is an
invariant of the model. -/
def Obligations.StationStateMovesByTable : Prop :=
  ∀ (c : Instr) (s t : State) (st st' : StationState), s.OwnEntryAgrees → s.life = .running st → exec c s = .next t →
    t.life = .running st' → st.sameState st' = true ∨ st.mayBecome st' = true

/-- At every change of station state a STATE event carries the new state, as the latest record (R173, R195). That the
one of an adoption or of a withdrawal at a BEACON carries the frame number the BEACON brought is the model's reading
(notes/assumptions/16.md). -/
def Obligations.StateEventAtEveryChange : Prop :=
  ∀ (c : Instr) (s t : State) (st' : StationState), exec c s = .next t → t.life = .running st' →
    (∀ st, s.life = .running st → st.sameState st' = false) →
    t.events.endsWithState t.timer.frameNumber st'

/-! ### Starts, the configuration read and the loss of power -/

/-- POWER_ON gives every block its start value and glyph memory all 0-dots; the configuration read begins, or the
station is held while the reset pin is low (R103, R182).
RESET_PIN_LOW: a pulse of at least 10 µs holds a station that has power at the beginning of its start, glyph memory
kept; of a shorter one the spec leaves open whether it is taken, and both outcomes are given; without power only the
pin's level changes (R103, R182; notes/assumptions/9.md, 23.md).
RESET_PIN_HIGH: a held station takes its start values, keeps glyph memory, reads the straps and begins the
configuration read (R103, R171, R182); for any other station only the pin's level changes.
The model's own choices in these are the withdraw reason during the read (notes/assumptions/23.md), the LEAVE count's 0
(notes/assumptions/33.md), that a feed transaction in progress is abandoned (notes/assumptions/21.md) and that the dark
frame begins again when the pin returns (notes/assumptions/38.md). -/
def Obligations.StartsGiveStartValues : Prop :=
  (∀ (straps : Straps) (s : State), ∃ t, exec (.powerOn straps) s = .next t ∧ t.HasStartValues ∧
     (∀ (set : BitVec 2) (code : BitVec 7) (line : Fin 16), glyphLine t.glyphMemory set code line.val = 0) ∧
     t.straps = straps ∧ t.config = none ∧ t.withdrawReason = .none ∧
     t.life = (if s.resetPinLow then .heldInReset else .readingConfiguration) ∧
     t.resetPinLow = s.resetPinLow ∧ (∀ tr, t.transaction = some tr → tr.abandoned = true) ∧ t.pending = s.pending) ∧
  (∀ (width : Nat) (s : State),
     (s.powered = true → 10 ≤ width → ∃ t, exec (.resetPinLow width) s = .next t ∧ t.HasStartValues ∧
       t.life = .heldInReset ∧ t.resetPinLow = true ∧ t.glyphMemory = s.glyphMemory ∧ t.straps = s.straps ∧
       t.config = none ∧ t.withdrawReason = .none ∧
       (∀ tr, t.transaction = some tr → tr.abandoned = true) ∧ t.pending = s.pending) ∧
     (s.powered = true → width < 10 → ∃ t, exec (.resetPinLow width) s = .next t ∧
       (t = { s with resetPinLow := true, freeCount := t.freeCount } ∨
         t.HasStartValues ∧ t.life = .heldInReset ∧ t.resetPinLow = true ∧ t.glyphMemory = s.glyphMemory ∧
           t.straps = s.straps ∧ t.config = none ∧ t.pending = s.pending)) ∧
     (s.powered = false → exec (.resetPinLow width) s = .next { s with resetPinLow := true })) ∧
  ∀ (straps : Straps) (s : State),
    (s.life = .heldInReset → ∃ t, exec (.resetPinHigh straps) s = .next t ∧ t.HasStartValues ∧
      t.life = .readingConfiguration ∧ t.resetPinLow = false ∧ t.glyphMemory = s.glyphMemory ∧ t.straps = straps ∧
      t.config = none ∧ t.withdrawReason = .none ∧
       (∀ tr, t.transaction = some tr → tr.abandoned = true) ∧ t.pending = s.pending) ∧
    (s.life ≠ .heldInReset → exec (.resetPinHigh straps) s = .next { s with resetPinLow := false })

/-- CONFIGURATION_READ_END with a record that passes the four tests: the record takes the values read and the station
enters Listening with its frame timer running for one period (R160, R172, R173, R175).
CONFIGURATION_READ_END with a read that fails: the first test that fails gives the reason, the station enters
Halted, and the record takes the values read only when the position is what fails (R172, R173).
That the LEAVE count is 0 after the entry to Listening is the model's choice (notes/assumptions/33.md). -/
def Obligations.ConfigurationReadEndsInListeningOrHalted : Prop :=
  (∀ (b0 b1 b2 b3 b4 : Byte) (s : State), s.life = .readingConfiguration →
     b4 = b0 ^^^ b1 ^^^ b2 ^^^ b3 ^^^ 0xA5 → 1 ≤ b0.toNat → b0.toNat ≤ 8 → 1 ≤ b1.toNat → b1.toNat ≤ 8 →
     10 ≤ b2.toNat → b2.toNat ≤ 50 → b3.toNat < 4 → s.straps.cols.toNat < b0.toNat → s.straps.rows.toNat < b1.toNat →
     ∃ t, exec (.configurationReadEnd (.answered b0 b1 b2 b3 b4)) s = .next t ∧ s.EntersListening t .start ∧
       t.config = some ⟨b0.toNat, b1.toNat, b2.toNat, b3.getLsbD 0, b3.getLsbD 1⟩ ∧ t.withdrawReason = .none ∧
       t.timer.frameTimer = .running b2.toNat ∧ t.port = s.port ∧ t.transaction = s.transaction ∧
       t.dataOut = s.dataOut ∧ t.pending = s.pending) ∧
  ∀ (s : State), s.life = .readingConfiguration →
    let halted (c : Option ConfigRecord) (r : WithdrawReason) : State :=
      { s with
        life := .running .halted, config := c, withdrawReason := r
        events := s.events.post s.timer.frameNumber (.state .halted (.withdraw r)) }
    exec (.configurationReadEnd .noAnswer) s = .next (halted none .noConfiguration) ∧
    ∀ b0 b1 b2 b3 b4 : Byte,
      let checkGood := b4 = b0 ^^^ b1 ^^^ b2 ^^^ b3 ^^^ 0xA5
      let inRange := 1 ≤ b0.toNat ∧ b0.toNat ≤ 8 ∧ 1 ≤ b1.toNat ∧ b1.toNat ≤ 8 ∧ 10 ≤ b2.toNat ∧ b2.toNat ≤ 50 ∧
        b3.toNat < 4
      let inside := s.straps.cols.toNat < b0.toNat ∧ s.straps.rows.toNat < b1.toNat
      let ends (t : State) := exec (.configurationReadEnd (.answered b0 b1 b2 b3 b4)) s = .next t
      (¬ checkGood → ends (halted none .configurationCheck)) ∧
      (checkGood → ¬ inRange → ends (halted none .configurationRange)) ∧
      (checkGood → inRange → ¬ inside →
        ends (halted (some ⟨b0.toNat, b1.toNat, b2.toNat, b3.getLsbD 0, b3.getLsbD 1⟩) .outsideWall))

/-- LOSS_OF_POWER: the station stops, a frame it was sending is cut off and the panel line being sent stops (R108). That
the scan phase goes back to the lead, that the other fields are left as they are, and that nothing acts without power, is
the model's choice (notes/assumptions/10.md, 23.md). -/
def Obligations.LossOfPowerStopsStation : Prop :=
  ∀ s : State, ∃ t, exec .lossOfPower s = .next t ∧
    t = { s with
      life := .unpowered, bus := { s.bus with inFlight := none }, scan := t.scan, freeCount := t.freeCount } ∧
    t.scan = { s.scan with phase := .lead, lineBegun := false, lineStrobes := 0, panel := t.scan.panel }

/-! ### The frame timer -/

/-- FRAME_TIMER_EXPIRY: the timer restarts, and the expiry acts by the station state (R161, R162); a timer that does not
run does not expire (R160).
LISTENING_WINDOW: the third expiry in Listening brings the count to 3 and sets BEACON pending for the first beacon;
further expiries leave the count at 3 and the flag set (R161, R162).
QUIET_OVER: the expiry that brings the quiet-expiry count to 8 moves the station from Withdrawn to Listening with the
reason quiet over, the timer running on (R161, R175, R180); it is the expiry FRAME_TIMER_EXPIRY gives there.
That LISTENING_WINDOW and QUIET_OVER are the expiry itself is the model's reading (notes/assumptions/4.md); that the
LEAVE count is 0 after the entry to Listening is its choice (notes/assumptions/33.md). -/
def Obligations.ExpiryActsByState : Prop :=
  (∀ s : State,
     let restarted : BeaconTimer := { s.timer with frameTimer := .running s.period }
     (s.timerRuns = true → s.participates = true →
       exec .frameTimerExpiry s = .next { s with timer := restarted, bus := { s.bus with beaconPending := true } }) ∧
     (s.timerRuns = true → s.life = .running .clashed → exec .frameTimerExpiry s = .next { s with timer := restarted }) ∧
     (s.timerRuns = true → s.life = .running .listening → s.timer.listeningExpiries < 2 →
       exec .frameTimerExpiry s =
         .next { s with timer := { restarted with listeningExpiries := s.timer.listeningExpiries + 1 } }) ∧
     (s.timerRuns = true → s.life = .running .listening → 2 ≤ s.timer.listeningExpiries →
       exec .frameTimerExpiry s =
         .next { s with timer := { restarted with listeningExpiries := 3 }
                        bus := { s.bus with beaconPending := true } }) ∧
     (s.timerRuns = true → s.life = .running .withdrawn → s.timer.quietExpiries < 7 →
       exec .frameTimerExpiry s =
         .next { s with timer := { restarted with quietExpiries := s.timer.quietExpiries + 1 } }) ∧
     (s.timerRuns = false → exec .frameTimerExpiry s = .next s)) ∧
  (∀ s : State, s.timerRuns = true → s.life = .running .listening → 2 ≤ s.timer.listeningExpiries →
     exec .listeningWindow s =
       .next { s with timer := { s.timer with frameTimer := .running s.period, listeningExpiries := 3 }
                      bus := { s.bus with beaconPending := true } }) ∧
  ∀ s : State, s.timerRuns = true → s.life = .running .withdrawn → 7 ≤ s.timer.quietExpiries →
    ∃ t, exec .quietOver s = .next t ∧ exec .frameTimerExpiry s = .next t ∧ s.EntersListening t .quietOver ∧
      t.timer.frameTimer = .running s.period ∧ t.config = s.config ∧ t.withdrawReason = s.withdrawReason ∧
      t.port = s.port ∧ t.transaction = s.transaction ∧ t.dataOut = s.dataOut ∧ t.pending = s.pending

/-! ### Sending and clash -/

/-- FRAME_SYNCHRONISATION: the interface becomes synchronised in every station state but Halted (R139).
A frame, in every row of the table that carries one, has no effect at a station that is not synchronised, in Halted or
Clashed, in a start or without power; at a station in Withdrawn that is synchronised another station's frame changes
nothing but that nothing is in flight, and a row that names a case of a frame's end does not occur (R139, R142, R150,
R156; notes/assumptions/4.md). -/
def Obligations.SynchronisationAndUnreadFrames : Prop :=
  (∀ (s : State) (st : StationState), s.life = .running st →
     (st ≠ .halted → exec .frameSynchronisation s = .next { s with bus := { s.bus with synchronised := true } }) ∧
     (st = .halted → exec .frameSynchronisation s = .next s)) ∧
  (∀ (c : Instr) (s : State) (cls : BitVec 3) (f : BusFrame), carriedFrame c = some (cls, f) →
    (s.bus.synchronised = false ∨ s.life = .running .halted ∨ s.life = .running .clashed ∨
      ∀ st, s.life ≠ .running st) →
    exec c s = .next s) ∧
  ∀ (c : Instr) (s : State) (cls : BitVec 3) (f : BusFrame), carriedFrame c = some (cls, f) →
    s.life = .running .withdrawn → s.bus.synchronised = true → f.sender ≠ s.station →
    (namesCase c = true → exec c s = .next s) ∧
    (namesCase c = false → exec c s = .next { s with bus := { s.bus with inFlight := none } })

/-- IDLE_POINT: the item chosen is the first of R149's order that the interface holds and the station state allows; it is
in flight afterwards unless a lower key contends, and a station that loses arbitration, or that has nothing to send,
changes nothing (R140, R141, R149, R150). A key loses arbitration exactly when a lower one is driven against it (R140). -/
def Obligations.IdlePointSendsByOrder : Prop :=
  (∀ (own : Key) (others : List Key),
    losesArbitration (keyBits own) (others.map keyBits) = true ↔ ∃ o ∈ others, keyValue o < keyValue own) ∧
  ∀ (others : List Key) (s : State) (st : StationState), s.life = .running st → s.bus.synchronised = true →
    s.bus.inFlight = none →
    let chosen := sendOrder.find? fun i => i.allowedIn st && s.bus.holds i
    (chosen = none → exec (.idlePoint others) s = .next s) ∧
    ∀ i, chosen = some i →
      ((∃ o ∈ others, keyValue o < keyValue ⟨(s.frameOf i).cls, s.station⟩) → exec (.idlePoint others) s = .next s) ∧
      ((∀ o ∈ others, keyValue ⟨(s.frameOf i).cls, s.station⟩ ≤ keyValue o) →
        exec (.idlePoint others) s = .next { s with bus := { s.bus with inFlight := some (s.frameOf i) } })

/-- The frame formed for each item: its class and payload are those of the Formats chapter, a BEACON carries frame number
+ 1 and the sender's record, the first beacon carries fixed values, and a PRESENCE carries the sender's state (R34, R147,
R162, R163, R197). The check of a frame is that of the generator x^16 + x^12 + x^5 + 1, from FFFFH, over the bits of the
key, the length and the payload, each field most significant bit first, without a final inversion (R138, R197). -/
def Obligations.FramesCarrySendersState : Prop :=
  (∃ crc : List Bool → BitVec 16, crc [] = 0xFFFF ∧
    (∀ (bits : List Bool) (b : Bool), crc (bits ++ [b]) =
      if (crc bits).getLsbD 15 = b then crc bits <<< 1 else (crc bits <<< 1) ^^^ 0x1021) ∧
    ∀ (k : Key) (payload : List Byte), frameCheck k payload =
      crc (bitsFirst 3 k.cls.toNat ++ bitsFirst 6 k.sender.val ++ bitsFirst 6 payload.length ++
        payload.flatMap fun b => bitsFirst 8 b.toNat)) ∧
  ∀ (s : State) (c : ConfigRecord), s.config = some c →
    (s.life = .running .listening → (s.frameOf .beacon).payload = [0, 0, 0, 0]) ∧
    (s.participates = true → ∃ flags : Byte,
      (s.frameOf .beacon).payload =
        [highByte (s.timer.frameNumber + 1), lowByte (s.timer.frameNumber + 1), s.gen.shown, flags] ∧
      flags.getLsbD 0 = s.gen.isSealed ∧
      flags.getLsbD 1 = (if s.following then computedArmed s.roster s.gen else s.gen.armed) ∧
      flags.toNat < 4) ∧
    (s.frameOf .beacon).cls = 0 ∧
    (∀ g, s.bus.readyPending = some g → (s.frameOf .ready).cls = 1 ∧ (s.frameOf .ready).payload = [g]) ∧
    ((s.frameOf .leave).cls = 3 ∧ (s.frameOf .leave).payload = [3]) ∧
    ((s.frameOf .join).cls = 3 ∧
      (s.frameOf .join).payload =
        [1, BitVec.ofNat 8 c.wallWidth, BitVec.ofNat 8 c.wallHeight, BitVec.ofNat 8 c.periodMs]) ∧
    ((s.frameOf .presence).cls = 3 ∧
      (s.frameOf .presence).payload = [2, if s.life = .running .member then 2 else 1]) ∧
    (∀ m rest, s.bus.feedQueue = m :: rest →
      (s.frameOf .feed).cls = m.cls ∧ (s.frameOf .feed).payload = m.payload) ∧
    ∀ i, (s.frameOf i).check = frameCheck ⟨(s.frameOf i).cls, s.station⟩ (s.frameOf i).payload

/-- CLASH: where the interface detects one, by readback while it drives a frame or by a foreign key while it drives none,
the station becomes Clashed: the interface is cleared, the feed queue flushed with FEED_FLUSHED before STATE, the engines
abandoned and the roster cleared (R154 to R157, R181); the record is left as it stood (R3).
A frame row that bears the station's own number while nothing of it is in flight is such a clash (R40, R156;
notes/assumptions/7.md). That a feed read which an entry to Listening met before is given up too is
notes/assumptions/37.md. -/
def Obligations.ClashTakesStationOff : Prop :=
  (∀ (cause : ClashCause) (s : State) (st : StationState), s.life = .running st → st.readsKeys = true →
     s.bus.synchronised = true → (cause = .readback ↔ s.bus.inFlight.isSome = true) →
     ∃ t, exec (.clash cause) s = .next t ∧ s.StandsDown t .clashed .clash ∧ t.gen = s.gen ∧ t.counters = s.counters ∧
       t.timer = { s.timer with quietExpiries := t.timer.quietExpiries } ∧
       t.events = s.events.postAll s.timer.frameNumber
         ((if s.bus.feedQueue = [] then [] else [.feedFlushed s.bus.feedQueue.length])
           ++ [.state .clashed (.withdraw .clash)])) ∧
  ∀ (s : State) (st : StationState) (cls : BitVec 3) (f : BusFrame), s.life = .running st → st.readsKeys = true →
    s.bus.synchronised = true → f.sender = s.station → s.bus.inFlight = none →
    exec (frameCommand cls f) s = exec (.clash .foreignKey) s ∧
    (cls = 3 → exec (.presence f) s = exec (.clash .foreignKey) s ∧ exec (.leave f) s = exec (.clash .foreignKey) s)

/-! ### Accepted frames -/

/-- The share of every accepted frame: the frames-accepted counter rises and holds at 65535, the consecutive-spoil count
and the sender's silence count become 0, and for an own frame the item leaves and the presence count becomes 0 (R30, R41,
R145, R146, R151). -/
def Obligations.AcceptanceShare : Prop :=
  ∀ (s : State) (cls : BitVec 3) (f : BusFrame),
    let u := s.afterShare cls f
    u = { s with counters := u.counters, bus := u.bus, presenceCount := u.presenceCount, roster := u.roster } ∧
    u.counters = { s.counters with framesAccepted := u.counters.framesAccepted } ∧
    u.counters.framesAccepted.toNat = min 65535 (s.counters.framesAccepted.toNat + 1) ∧
    (∀ n : Station, u.roster[n] = if n = f.sender then { s.roster[n] with silence := 0 } else s.roster[n]) ∧
    (s.ownership cls f = .foreign →
      u.presenceCount = s.presenceCount ∧ u.bus = { s.bus with consecutiveSpoils := 0, inFlight := none }) ∧
    ∀ i, s.ownership cls f = .own i →
      u.presenceCount = 0 ∧ u.bus.holds i = (decide (i = .feed) && decide (2 ≤ s.bus.feedQueue.length)) ∧
      u.bus.consecutiveSpoils = 0 ∧ u.bus.inFlight = none ∧
      (∀ j, j ≠ i → u.bus.holds j = s.bus.holds j) ∧
      u.bus.feedQueue = (if i = .feed then s.bus.feedQueue.tail else s.bus.feedQueue)

/-- READY accepted: the sender joins the ready set when B is sealed, g equals B and the sender is in the requirement set;
armed is yes when every required station is ready and the station is not following; any other READY changes nothing more
than every accepted frame does (R10, R12, R16). -/
def Obligations.ReadyJoinsReadySet : Prop :=
  ∀ (s : State) (st : StationState) (f : BusFrame) (g : Generation), s.RecordAgrees → s.Accepts st 1 f (.ready g) →
    let u := s.afterShare 1 f
    let taken := s.gen.isSealed = true ∧ g = s.gen.shown + 1 ∧ s.requirementSet[f.sender] = true
    (taken → ∃ t, exec (.ready f) s = .next t ∧
      t = { u with gen := { s.gen with readySet := t.gen.readySet, armed := t.gen.armed } } ∧
      (∀ n : Station, t.gen.readySet[n] = true ↔ s.gen.readySet[n] = true ∨ n = f.sender) ∧
      (t.gen.armed = true ↔ s.following = false ∧
        ∀ n : Station, s.requirementSet[n] = true → s.gen.readySet[n] = true ∨ n = f.sender)) ∧
    (¬ taken → exec (.ready f) s = .next u)

/-- SEAL accepted and taken: sealed, sealer, the baseline set restricted to the Joining stations, the reveal flag, seal
age 0, an empty ready set, armed evaluated, SEAL_TAKEN posted; READY goes pending when R13's conditions then hold (R6,
R7, R13, R16).
SEAL ignored: when g differs from B, and when B is already sealed, the record keeps every field, SEAL_IGNORED is posted
with g and the sender, and the counter of ignored SEALs rises (R8). -/
def Obligations.SealTakenOrIgnored : Prop :=
  (∀ (s : State) (st : StationState) (f : BusFrame) (g : Generation) (reveal : Bool) (carried : Option StationSet),
     s.Accepts st 2 f (.sealing g reveal carried) → s.gen.isSealed = false → g = s.gen.shown + 1 →
     let u := s.afterShare 2 f
     ∃ t, exec (.sealFrame f) s = .next t ∧
       t = { u with
         gen := t.gen, bus := { u.bus with readyPending := t.bus.readyPending }
         events := s.events.post s.timer.frameNumber (.sealTaken g f.sender) } ∧
       t.gen.shown = s.gen.shown ∧ t.gen.isSealed = true ∧ t.gen.sealer = some f.sender ∧
       t.gen.revealBuilding = reveal ∧ t.gen.revealShown = s.gen.revealShown ∧ t.gen.sealAge = 0 ∧
       (∀ n : Station, t.gen.readySet[n] = false) ∧
       (carried = none → t.gen.baseline = none) ∧
       (∀ named, carried = some named → ∃ b, t.gen.baseline = some b ∧
         ∀ n : Station, b[n] = true ↔ named[n] = true ∧ s.roster[n].state = .joining) ∧
       (t.gen.armed = true ↔ t.following = false ∧ ∀ n : Station, t.requirementSet[n] = false) ∧
       (let owed := (st = .joining ∨ st = .member) ∧ t.requirementSet[s.station] = true ∧ s.currentWork = false ∧
           s.catchUp = .idle ∧ s.gen.announced = false
        (owed → t.gen.announced = true ∧ t.bus.readyPending = some g) ∧
        (¬ owed → t.gen.announced = s.gen.announced ∧ t.bus.readyPending = u.bus.readyPending))) ∧
  ∀ (s : State) (st : StationState) (f : BusFrame) (g : Generation) (reveal : Bool) (carried : Option StationSet),
    s.Accepts st 2 f (.sealing g reveal carried) → (s.gen.isSealed = true ∨ g ≠ s.gen.shown + 1) →
    let u := s.afterShare 2 f
    exec (.sealFrame f) s =
      .next { u with
        counters := { u.counters with sealsIgnored := rise s.counters.sealsIgnored }
        events := s.events.post s.timer.frameNumber (.sealIgnored g f.sender) }

/-- JOIN accepted with this station's own configuration: the sender's entry becomes Joining whatever its state before,
with the frame number in force as its join frame and silence count 0, one ROSTER event is posted when the state
changed, and a Member sets PRESENCE pending for another station's JOIN; every other station keeps its place in the
baseline and the ready set, and armed is evaluated (R7, R11, R16, R31, R35, R43).
JOIN accepted with a different configuration: the configuration clash record becomes the sender's number and
CONFIG_CLASH is posted; the entry keeps its state and join frame (R32).
That a Member answers also a JOIN of a station whose entry is Joining already is the model's reading
(notes/assumptions/18.md). -/
def Obligations.JoinByConfiguration : Prop :=
  (∀ (s : State) (st : StationState) (f : BusFrame) (w h p : Byte) (c : ConfigRecord),
     s.Accepts st 3 f (.join w h p) → s.config = some c → w.toNat = c.wallWidth → h.toNat = c.wallHeight →
     p.toNat = c.periodMs →
     let u := s.afterShare 3 f
     ∃ t, exec (.join f) s = .next t ∧
       t = { u with
         roster := t.roster, gen := t.gen, events := t.events
         bus := { u.bus with readyPending := t.bus.readyPending, presencePending := t.bus.presencePending } } ∧
       (∀ n : Station, t.roster[n] =
         if n = f.sender then ⟨.joining, 0, some s.timer.frameNumber⟩ else s.roster[n]) ∧
       s.RecordFollows t ∧
       t.gen = { s.gen with baseline := t.gen.baseline, readySet := t.gen.readySet, armed := t.gen.armed
                            announced := t.gen.announced } ∧
       t.events = s.events.postAll s.timer.frameNumber
         (if s.roster[f.sender].state = .joining then [] else [.roster f.sender .joining]) ∧
       t.bus.presencePending = (u.bus.presencePending || (decide (st = .member) && decide (f.sender ≠ s.station)))) ∧
  ∀ (s : State) (st : StationState) (f : BusFrame) (w h p : Byte) (c : ConfigRecord),
    s.Accepts st 3 f (.join w h p) → s.config = some c →
    ¬ (w.toNat = c.wallWidth ∧ h.toNat = c.wallHeight ∧ p.toNat = c.periodMs) →
    exec (.join f) s =
      .next { s.afterShare 3 f with
        clashRecord := some f.sender, events := s.events.post s.timer.frameNumber (.configClash f.sender) }

/-- PRESENCE accepted: one that carries Member makes an Absent entry Member with one ROSTER event, a required station
that is not ready, while the others keep their places and armed is evaluated; any other changes no state (R7, R11, R16,
R34, R43). The two premises are invariants of the model. -/
def Obligations.PresenceMakesAbsentMember : Prop :=
  ∀ (s : State) (st : StationState) (f : BusFrame) (isMember : Bool), s.RecordAgrees → s.readyCondition = false →
    s.Accepts st 3 f (.presence isMember) →
    let u := s.afterShare 3 f
    (isMember = true → s.roster[f.sender].state = .absent → ∃ t, exec (.presence f) s = .next t ∧
      t = { u with
        roster := t.roster, gen := t.gen, bus := { u.bus with readyPending := t.bus.readyPending }
        events := s.events.post s.timer.frameNumber (.roster f.sender .member) } ∧
      (∀ n : Station, t.roster[n] = if n = f.sender then ⟨.member, 0, none⟩ else s.roster[n]) ∧
      t.gen = { s.gen with baseline := t.gen.baseline, readySet := t.gen.readySet, armed := t.gen.armed
                           announced := t.gen.announced } ∧
      s.RecordFollows t ∧ t.requirementSet[f.sender] = true ∧ t.gen.readySet[f.sender] = false) ∧
    (isMember = false ∨ s.roster[f.sender].state ≠ .absent → exec (.presence f) s = .next u)

/-- LEAVE of another station accepted: its entry becomes Absent whatever its state before, with silence count 0 and no
join frame, one ROSTER event when the state changed; it is in no requirement set, ready set or baseline any more, every
other station keeps its place, and armed is evaluated (R7, R11, R16, R30, R33, R43).
The station's own LEAVE accepted: it withdraws with the reason left; the ROSTER event of its own entry, FEED_FLUSHED
and STATE are posted in this order (R33, R39, R151, R179); that a feed read which an entry to Listening met before is given
up too is notes/assumptions/37.md. -/
def Obligations.LeaveMakesEntryAbsentOrWithdraws : Prop :=
  (∀ (s : State) (st : StationState) (f : BusFrame), s.Accepts st 3 f .leave → f.sender ≠ s.station →
     let u := s.afterShare 3 f
     ∃ t, exec (.leave f) s = .next t ∧
       t = { u with
         roster := t.roster, gen := t.gen, bus := { u.bus with readyPending := t.bus.readyPending }
         events := s.events.postAll s.timer.frameNumber
           (if s.roster[f.sender].state = .absent then [] else [.roster f.sender .absent]) } ∧
       (∀ n : Station, t.roster[n] = if n = f.sender then ⟨.absent, 0, none⟩ else s.roster[n]) ∧
       t.gen = { s.gen with baseline := t.gen.baseline, readySet := t.gen.readySet, armed := t.gen.armed
                            announced := t.gen.announced } ∧
       s.RecordFollows t ∧ t.requirementSet[f.sender] = false ∧ t.gen.readySet[f.sender] = false ∧
       t.gen.inBaseline f.sender = false) ∧
  ∀ (s : State) (st : StationState) (f : BusFrame), s.Accepts st 3 f .leave → s.ownership 3 f = .own .leave →
    ∃ t, exec (.leave f) s = .next t ∧ s.StandsDown t .withdrawn .left ∧
      t.counters = { s.counters with framesAccepted := rise s.counters.framesAccepted } ∧
      t.timer = { s.timer with quietExpiries := 0 } ∧
      t.events = s.events.postAll s.timer.frameNumber
        ((if s.roster[s.station].state = .absent then [] else [.roster s.station .absent])
          ++ (if s.bus.feedQueue = [] then [] else [.feedFlushed s.bus.feedQueue.length])
          ++ [.state .withdrawn (.withdraw .left)])

/-- UPDATE accepted and queued: it joins the queue at the tail, Current when B is unsealed and Next when it is sealed;
with the engine applying, catch-up in progress or a Next entry at the head it waits there (R50, R51, R55). The
premises are invariants of the model.
UPDATE accepted and passed: when the acceptance filter does not queue it, the counter of UPDATEs passed rises and
nothing else of the station changes beyond the share of every accepted frame (R48). -/
def Obligations.UpdateQueuedOrPassed : Prop :=
  (∀ (s : State) (st : StationState) (f : BusFrame) (u v : Update), s.ArbiterFormed →
     s.readyCondition = false → s.Accepts st 4 f (.update u) → s.filtered u = some v →
     (s.applyEngine ≠ .idle ∨ s.catchUp ≠ .idle ∨ s.gen.isSealed = true ∧ s.currentWork = false) →
     exec (.update f) s =
       .next { s.afterShare 4 f with
         updateQueue := s.updateQueue ++ [⟨if s.gen.isSealed then .next else .current, v⟩] }) ∧
  ∀ (s : State) (st : StationState) (f : BusFrame) (u : Update), s.Accepts st 4 f (.update u) → s.filtered u = none →
    exec (.update f) s =
      .next { s.afterShare 4 f with
        counters := { (s.afterShare 4 f).counters with updatesPassed := rise s.counters.updatesPassed } }

/-- UPDATE accepted into an empty queue at an idle engine with B unsealed, its first step in the tile: the engine
takes it and issues the write of that cell to the building role, which is granted when the arbiter is free (R55, R58,
R131).
ROWDEF accepted into an empty queue at an idle engine with B unsealed, for a local row: it completes as it is taken,
the building row-default set holds the record for that row, the shown set and the queue are as before (R60, R61, R68). -/
def Obligations.UpdateTakenAtOnce : Prop :=
  (∀ (s : State) (st : StationState) (f : BusFrame) (u v : Update) (p : Pos) (cell : CellRecord) (more : List ApplyStep),
     s.Accepts st 4 f (.update u) → s.filtered u = some v → s.updateQueue = [] → s.applyEngine = .idle →
     s.catchUp = .idle → s.gen.isSealed = false → s.arbiter = ⟨none, none, none, none, none⟩ →
     v.steps s.straps s.wallColumns = .tile p cell :: more →
     exec (.update f) s =
       .next { s.afterShare 4 f with
         updateQueue := [⟨.current, v⟩], applyEngine := .applying 0
         arbiter := ⟨none, none, none, none, some ⟨.apply, s.shown.other, p, some cell, false, false⟩⟩ }) ∧
  ∀ (s : State) (st : StationState) (f : BusFrame) (wallRow : Nat) (d : ZoneRecord) (r : LocalRow),
    s.Accepts st 4 f (.update (.rowdef wallRow d)) → wallRow = topEdge s.straps + r.val → wallRow < s.wallRows →
    s.updateQueue = [] → s.applyEngine = .idle → s.catchUp = .idle → s.gen.isSealed = false →
    s.arbiter = ⟨none, none, none, none, none⟩ →
    ∃ t, exec (.update f) s = .next t ∧
      t = { s.afterShare 4 f with defaultsX := t.defaultsX, defaultsY := t.defaultsY } ∧
      t.shownDefaults = s.shownDefaults ∧
      ∀ k : LocalRow,
        (s.shown = .x → t.defaultsY[k] = if k = r then d else s.defaultsY[k]) ∧
        (s.shown = .y → t.defaultsX[k] = if k = r then d else s.defaultsX[k])

/-- The acceptance filter: an UPDATE is queued exactly when its row is a local row inside the wall and it is a ROWDEF
or a ROWCLEAR, or one of its targets inside the wall falls in the tile or left region (R46, R47, R48).
What is queued is the clipped UPDATE: the same kind and row with the targets inside the wall, a RUN without its last cells
beyond the right edge, a FILL with its count reduced (R46). -/
def Obligations.FilterQueuesByRegion : Prop :=
  (∀ (s : State) (u : Update), (s.filtered u).isSome = true ↔
    u.row < s.wallRows ∧ topEdge s.straps ≤ u.row ∧ u.row < topEdge s.straps + 12 ∧
      (u.setsDefault = true ∨
        ∃ target ∈ u.targets s.wallColumns, target.1 < s.wallColumns ∧ target.1 < leftEdge s.straps + 32)) ∧
  ∀ (s : State) (u v : Update), s.filtered u = some v →
    v.row = u.row ∧
    v.targets s.wallColumns = (u.targets s.wallColumns).filter (fun target => decide (target.1 < s.wallColumns)) ∧
    v = match u with
      | .run row col cells => .run row col (cells.take (s.wallColumns - col))
      | .fill row col count c => .fill row col (if s.wallColumns < col + count then s.wallColumns - col else count) c
      | .cell _ _ _ | .rowdef _ _ | .rowclear _ _ _ => u

/-- What apply does between its writes. The steps of an entry are the row default and left clear steps of its kind,
then one step for each target by the region of its column (R47, R57). UPDATE at an idle engine: the steps before its
first write are done in the same step, each left step by R87 to R89, a left clear step by R91, a row default step by
R60; without a write the entry completes as it is taken (R61). TILE_STEP: so are the steps up to the entry's next
write, and, when the entry completes, those of a Current entry behind it up to its first write; a Next entry behind it
waits (R55, R61). ROWCLEAR leaves the row's list known: empty and with no floor for a glyph cell, its last 16 columns
and a floor below them for a zone cell (R91). The forms of the left-zone table and of the arbiter are invariants of
the model. -/
def Obligations.LeftAndDefaultSteps : Prop :=
  (∀ (p : Straps) (columns : Nat) (u : Update) (r : LocalRow), u.row = topEdge p + r.val →
    ∃ first, u.steps p columns = first ++ (u.targets columns).map (fun e =>
        if e.1 < leftEdge p then .left r e.1 e.2
        else if h : e.1 < leftEdge p + 32 then .tile ⟨r, ⟨e.1 - leftEdge p, by omega⟩⟩ e.2
        else .right) ∧
      (u.setsDefault = false → first = []) ∧
      (∀ row d, u = .rowdef row d → first = [.rowDefault r d]) ∧
      ∀ row d c, u = .rowclear row d c → first = [.rowDefault r d, .leftClear r]) ∧
  (∀ (s : State) (st : StationState) (f : BusFrame) (u v : Update) (quiet more : List ApplyStep), s.LeftTableFormed →
    s.ArbiterFormed → s.Accepts st 4 f (.update u) → s.filtered u = some v → s.updateQueue = [] →
    s.applyEngine = .idle → s.catchUp = .idle → s.gen.isSealed = false →
    v.steps s.straps s.wallColumns = quiet ++ more → (∀ p c, .tile p c ∉ quiet) →
    ∃ u0 t, State.StepsQuietly quiet (s.afterShare 4 f) u0 ∧ exec (.update f) s = .next t ∧
      (more = [] → t = u0) ∧
      ∀ p c rest, more = .tile p c :: rest →
        t = { u0 with
          updateQueue := [⟨.current, v⟩], applyEngine := .applying quiet.length, arbiter := t.arbiter } ∧
        t.asks .apply ⟨p, .building, some c⟩) ∧
  (∀ (s : State) (acc : Access) (c : CellRecord) (n : Nat) (e : UpdateEntry) (rest : List UpdateEntry)
    (quiet more : List ApplyStep), s.LeftTableFormed → s.completes .apply acc (some c) → acc.abandoned = false →
    s.applyEngine = .applying n → s.updateQueue = e :: rest →
    (e.update.steps s.straps s.wallColumns).drop (n + 1) = quiet ++ more → (∀ p d, .tile p d ∉ quiet) →
    ∃ u0 t, State.StepsQuietly quiet s u0 ∧ exec .tileStep s = .next t ∧
      (∀ p d tail, more = .tile p d :: tail →
        t.updateQueue = s.updateQueue ∧ t.applyEngine = .applying (n + 1 + quiet.length) ∧
        t.asks .apply ⟨p, .building, some d⟩ ∧
        t.leftTable = u0.leftTable ∧ t.defaultsX = u0.defaultsX ∧ t.defaultsY = u0.defaultsY) ∧
      (more = [] → (∀ e2 tail, rest = e2 :: tail → e2.epoch = .next) →
        t.updateQueue = rest ∧ t.applyEngine = .idle ∧
        t.leftTable = u0.leftTable ∧ t.defaultsX = u0.defaultsX ∧ t.defaultsY = u0.defaultsY) ∧
      ∀ e2 tail quiet2 p d after, more = [] → rest = e2 :: tail → e2.epoch = .current → s.participates = true →
        s.catchUp = .idle → e2.update.steps s.straps s.wallColumns = quiet2 ++ .tile p d :: after →
        (∀ q x, .tile q x ∉ quiet2) →
        ∃ u1, State.StepsQuietly quiet2 u0 u1 ∧
          t.updateQueue = rest ∧ t.applyEngine = .applying quiet2.length ∧ t.asks .apply ⟨p, .building, some d⟩ ∧
          t.leftTable = u1.leftTable ∧ t.defaultsX = u1.defaultsX ∧ t.defaultsY = u1.defaultsY) ∧
  ∀ (s : State) (st : StationState) (f : BusFrame) (d : ZoneRecord) (c : CellRecord) (r : LocalRow),
    s.Accepts st 4 f (.update (.rowclear (topEdge s.straps + r.val) d c)) → topEdge s.straps + r.val < s.wallRows →
    leftEdge s.straps < s.wallColumns → s.updateQueue = [] → s.applyEngine = .idle → s.catchUp = .idle →
    s.gen.isSealed = false →
    ∃ t, exec (.update f) s = .next t ∧
      (∀ g, c = .glyph g → t.leftTable[r] = { entries := [], floor := none }) ∧
      (∀ z, c = .zone z → leftEdge s.straps = 0 → t.leftTable[r] = { entries := [], floor := none }) ∧
      (∀ z, c = .zone z → 0 < leftEdge s.straps → t.leftTable[r] =
        { entries := (List.range 16).map fun k => (leftEdge s.straps - 16 + k, z.zone)
          floor := some (leftEdge s.straps - 17) }) ∧
      ∀ k : LocalRow, k ≠ r → t.leftTable[k] = s.leftTable[k]

/-- GLYPH accepted: each of the n patterns is written into the named line of the named glyph, and every other line of
glyph memory reads as before (R104, R105). The canonical form is an invariant of the model. -/
def Obligations.GlyphWritesLines : Prop :=
  ∀ (s : State) (st : StationState) (f : BusFrame) (set : BitVec 2) (code : BitVec 7) (first : Nat)
    (patterns : List Byte), s.MemoriesCanonical → s.Accepts st 5 f (.glyph set code first patterns) →
    ∃ t, exec (.glyph f) s = .next t ∧ t = { s.afterShare 5 f with glyphMemory := t.glyphMemory } ∧
      ∀ (set' : BitVec 2) (code' : BitVec 7) (line : Fin 16), glyphLine t.glyphMemory set' code' line.val =
        if set' = set ∧ code' = code ∧ first ≤ line.val ∧ line.val < first + patterns.length then
          patterns.getD (line.val - first) 0
        else glyphLine s.glyphMemory set' code' line.val

/-! ### Beacons -/

/-- BEACON in Listening: the station accepts it, takes the frame number and the generation state it carries, S one higher
and unsealed when it carries armed, and enters Joining with JOIN pending, in a new dark frame (R4, R142, R164, R166,
R176; that the frame is a new one is notes/assumptions/15.md, that STATE carries the new frame number
notes/assumptions/16.md).
In Listening every frame that is not so accepted, of another station, changes nothing (R142). The station's own first
BEACON is in flight no longer and BEACON pending stays set when another station spoils it, which raises the
own-attempts-spoiled counter, and when it fails the station's own judgement (R151, R162). -/
def Obligations.BeaconAdoptedInListening : Prop :=
  (∀ (s : State) (f : BusFrame) (m : BeaconFields), s.life = .running .listening → s.bus.synchronised = true →
    s.ownership 0 f ≠ .clash → (∀ sent, s.bus.inFlight = some sent → sent.item = .beacon) →
    f.check = frameCheck ⟨0, f.sender⟩ f.payload → parseMessage 0 f.payload = some (.beacon m) →
    f.spoiledByOther = false →
    ∃ t, exec (.beacon f) s = .next t ∧
      t = { s with
        life := .running .joining
        gen := { s.gen with shown := if m.armed then m.shown + 1 else m.shown
                            isSealed := !m.armed && m.isSealed }
        presenceCount := if f.sender = s.station then 0 else s.presenceCount
        bus := { s.bus with beaconPending := false, joinPending := true, consecutiveSpoils := 0, inFlight := none }
        timer := { s.timer with frameTimer := .running s.period, frameNumber := m.frameNumber, listeningExpiries := 0 }
        events := s.events.post m.frameNumber (.state .joining .adopted)
        counters := { s.counters with framesAccepted := rise s.counters.framesAccepted }
        scan := t.scan, freeCount := t.freeCount } ∧
      t.scan = { s.scan.frameBegun .dark m.frameNumber s.gen.revealShown s.concealEnable with panel := t.scan.panel }) ∧
  (∀ (s : State) (cls : BitVec 3) (f : BusFrame), s.life = .running .listening → s.bus.synchronised = true →
    f.sender ≠ s.station →
    (f.spoiledByOther = true ∨ s.judge cls f ≠ none ∨ ∀ m, parseMessage cls f.payload ≠ some (.beacon m)) →
    exec (frameCommand cls f) s = .next { s with bus := { s.bus with inFlight := none } }) ∧
  ∀ (s : State) (f : BusFrame), s.life = .running .listening → s.bus.synchronised = true →
    s.ownership 0 f = .own .beacon →
    (f.spoiledByOther = true → exec (.beacon f) s = .next { s with
      bus := { s.bus with inFlight := none }
      counters := { s.counters with ownAttemptsSpoiled := rise s.counters.ownAttemptsSpoiled } }) ∧
    (f.spoiledByOther = false → s.judge 0 f ≠ none →
      exec (.beacon f) s = .next { s with bus := { s.bus with inFlight := none } })

/-- A flip: a BEACON accepted in step with armed in force and no catch-up in progress. The timer takes its frame number,
the record is the one R18 states, READY is no longer pending (R14), the update queue keeps its entries in their order,
every one Current, an engine at work goes on with its entry and its step, and the flip does not write the left-zone
table (R20, R52, R55, R64, R92), every Joining entry of the baseline becomes Member and silence is counted (R36, R38),
and the events are posted in R195's order: SHORT_FRAME when a drawing frame is cut, FLIP with the new S, the ROSTER
events, the latch's, STATE at the own promotion. The own entry is not one that goes Silent here; that case is
`Obligations.SilentOwnEntryWithdraws`. The access in progress and the waiting requests go on, the row fetch of a station
that then draws apart, whose read in progress is given up (R118, R134, R135). The forms of the left-zone table and of
the arbiter are invariants of the model. -/
def Obligations.FlipChangesRecordAndRoster : Prop :=
  ∀ (s : State) (st : StationState) (f : BusFrame) (m : BeaconFields), s.OwnEntryAgrees → s.LeftTableFormed →
    s.ArbiterFormed → s.Accepts st 0 f (.beacon m) → s.AgreesWith f.sender m → s.armedAt m = true → s.catchUp = .idle →
    (f.sender = s.station ∨ s.roster[s.station].silence < 47) →
    let promoted := !st.draws && decide (s.roster[s.station].state = .joining) && s.gen.inBaseline s.station
    let st' : StationState := if promoted then (if st = .joining then .member else .leaving .fromMember) else st
    let cut := decide (s.scan.kind = .drawing) && s.scan.phase.isActive && st'.draws
    ∃ t, exec (.beacon f) s = .next t ∧ t.life = .running st' ∧
      t.gen = { shown := s.gen.shown + 1, isSealed := false, sealer := none, baseline := none, revealBuilding := false
                revealShown := s.gen.revealBuilding, readySet := Vector.replicate 64 false, armed := false
                sealAge := 0, announced := false } ∧
      (∀ n : Station, t.roster[n] =
        (s.roster[n].afterPromotion (s.gen.inBaseline n)).afterBeacon (decide (n = f.sender)) false) ∧
      t.bus.readyPending = none ∧ t.bus.beaconPending = false ∧
      s.QueueFlips t ∧ s.ArbiterKeeps t st'.draws ∧ (∀ e ∈ t.updateQueue, e.epoch = .current) ∧
      t.timer = { s.timer with frameTimer := .running s.period, frameNumber := m.frameNumber } ∧
      t.events = s.events.postAll m.frameNumber
        ((if cut then [.shortFrame] else []) ++ [.flip (s.gen.shown + 1)] ++ rosterEvents s.roster t.roster
          ++ (if st'.draws then latchEvents s.entryRecords t.entryRecords else [])
          ++ (if promoted && decide (st = .joining) then [.state .member .promoted] else [])) ∧
      t.counters = { s.counters with
        framesAccepted := rise s.counters.framesAccepted
        shortFrames := if cut then rise s.counters.shortFrames else s.counters.shortFrames } ∧
      t.bufferX = s.bufferX ∧ t.bufferY = s.bufferY ∧ t.glyphMemory = s.glyphMemory ∧ t.config = s.config ∧
      t.straps = s.straps ∧ t.port = s.port ∧ t.clashRecord = s.clashRecord ∧
      t.withdrawReason = s.withdrawReason ∧ t.bus.feedQueue = (s.afterShare 0 f).bus.feedQueue

/-- The swap: a flip at a station whose own entry ends it Member makes the building role the shown one, shows the
defaults apply built and copies it into the building one, row default steps of entries taken at once apart, latches
the entry records, empties the dirty list and starts catch-up with the work of R75; a drawing frame begins, whose row
0 is fetched, and a station promoted from Joining sets PRESENCE pending (R35, R71, R75, R94, R111, R118).
A flip at any other station leaves the buffers, the shown set, the entry records and the dirty list as they are (R71);
an engine at work, its entry and its step, the left-zone table and the building set stay too, the entries all Current
(R20, R52, R64).
At a swap the row fetch's waiting request is replaced and its read in progress given up, the access in progress stays
with the buffer of its grant and every other waiting request goes on waiting, its role unresolved (R118, R134, R135); at
another station every request and the access go on (R135).
The own entry is not one that goes Silent here. The form of the arbiter is an invariant of the model. -/
def Obligations.FlipSwapsForMember : Prop :=
  ∀ (s : State) (st : StationState) (f : BusFrame) (m : BeaconFields), s.OwnEntryAgrees → s.ArbiterFormed →
    s.Accepts st 0 f (.beacon m) → s.AgreesWith f.sender m → s.armedAt m = true → s.catchUp = .idle →
    (f.sender = s.station ∨ s.roster[s.station].silence < 47) →
    let promoted := !st.draws && decide (s.roster[s.station].state = .joining) && s.gen.inBaseline s.station
    (st.draws = true ∨ promoted = true → ∃ t, exec (.beacon f) s = .next t ∧
      t.shown = s.shown.other ∧ t.bufferX = s.bufferX ∧ t.bufferY = s.bufferY ∧
      t.shownDefaults = (match s.shown with | .x => s.defaultsY | .y => s.defaultsX) ∧
      (∀ r : LocalRow, (∀ e ∈ s.updateQueue, e.update.setsDefault = true → e.update.row ≠ topEdge s.straps + r.val) →
        t.defaultsX[r] = t.defaultsY[r]) ∧
      (∀ r : LocalRow, t.entryRecords[r] =
        match s.leftTable[r].entries.getLast? with
        | some e => ⟨e.2, false⟩
        | none => ⟨t.shownDefaults[r], s.leftTable[r].floor.isSome⟩) ∧
      t.dirty = ⟨[], false⟩ ∧
      t.catchUp =
        (if promoted = true ∨ s.dirty.overflow = true then .tile ⟨0, 0⟩ .readOutstanding
         else match s.dirty.positions with
           | [] => .idle
           | p :: rest => .list p rest .readOutstanding) ∧
      (∀ p : Pos, t.catchUp.position = some p → t.asks .catchUp ⟨p, .shown, none⟩) ∧
      t.scan = { s.scan.frameBegun .drawing m.frameNumber s.gen.revealBuilding s.concealEnable with
        rowBuffer := Vector.replicate 32 none, fetch := .fetching 0 0, panel := t.scan.panel } ∧
      t.asks .rowFetch ⟨⟨0, 0⟩, .shown, none⟩ ∧ s.ArbiterKeeps t true ∧
      (∀ q, t.arbiter.rowFetch = some q → q = ⟨⟨0, 0⟩, .shown, none⟩) ∧
      (st = .joining → t.bus.presencePending = true)) ∧
    (st.draws = false → promoted = false → ∃ t, exec (.beacon f) s = .next t ∧
      t.shown = s.shown ∧ t.bufferX = s.bufferX ∧ t.bufferY = s.bufferY ∧ t.shownDefaults = s.shownDefaults ∧
      t.entryRecords = s.entryRecords ∧ t.dirty = s.dirty ∧ t.catchUp = .idle ∧ s.ArbiterKeeps t false ∧
      (∀ q, s.arbiter.rowFetch = some q → t.asks .rowFetch q) ∧
      (s.applyEngine ≠ .idle ∨ s.updateQueue = [] →
        t.updateQueue = s.updateQueue.map (fun e => { e with epoch := .current }) ∧ t.applyEngine = s.applyEngine ∧
        t.leftTable = s.leftTable ∧ t.defaultsX = s.defaultsX ∧ t.defaultsY = s.defaultsY) ∧
      t.scan = { s.scan.frameBegun .dark m.frameNumber s.gen.revealBuilding s.concealEnable with
        panel := t.scan.panel })

/-- A BEACON accepted in step without a flip, a flip timeout or a silence timeout: the timer takes its frame number,
the seal age rises while B is sealed, silence and presence are counted, a new display frame begins, and every other
field stays (R21, R36, R41, R111, R118, R164). In the active part at a station that draws the row fetch begins again:
its waiting request is replaced and its read in progress given up, and the access in progress and the other waiting
requests go on; else the arbiter stays as it is (R118, R136). The first four premises are invariants of the model. -/
def Obligations.BeaconWithoutFlip : Prop :=
  ∀ (s : State) (st : StationState) (f : BusFrame) (m : BeaconFields), s.RecordAgrees → s.EpochsOrdered →
    s.ArbiterFormed → s.readyCondition = false →
    s.Accepts st 0 f (.beacon m) → s.AgreesWith f.sender m → s.armedAt m = false →
    (s.gen.isSealed = false ∨ s.gen.sealAge < 31) →
    (∀ n : Station, n ≠ f.sender → s.roster[n].isLive = true → s.roster[n].silence < 47) →
    let u := s.afterShare 0 f
    let count := if f.sender = s.station then 0 else min 16 (s.presenceCount + 1)
    let active := s.scan.phase.isActive && st.draws
    let cut := decide (s.scan.kind = .drawing) && active
    ∃ t, exec (.beacon f) s = .next t ∧
      t = { u with
        gen := { s.gen with sealAge := if s.gen.isSealed then s.gen.sealAge + 1 else s.gen.sealAge }
        roster := t.roster
        presenceCount := count
        bus := { u.bus with
          beaconPending := false
          presencePending :=
            u.bus.presencePending || (decide (st = .joining ∨ st = .member) && decide (count = 16)) }
        timer := { s.timer with frameTimer := .running s.period, frameNumber := m.frameNumber }
        events := s.events.postAll m.frameNumber (if cut then [.shortFrame] else [])
        counters := { u.counters with
          shortFrames := if cut then rise s.counters.shortFrames else s.counters.shortFrames }
        scan := t.scan, arbiter := t.arbiter, freeCount := t.freeCount } ∧
      (∀ n : Station, t.roster[n] = s.roster[n].afterBeacon (decide (n = f.sender)) false) ∧
      t.scan = { s.scan.frameBegun (if st.draws then .drawing else .dark) m.frameNumber s.gen.revealShown
          s.concealEnable with
        rowBuffer := if active then Vector.replicate 32 none else s.scan.rowBuffer
        fetch := if active then .fetching 0 0 else s.scan.fetch
        panel := t.scan.panel } ∧
      s.ArbiterKeeps t active ∧
      (active = true → t.asks .rowFetch ⟨⟨0, 0⟩, .shown, none⟩ ∧
        ∀ q, t.arbiter.rowFetch = some q → q = ⟨⟨0, 0⟩, .shown, none⟩) ∧
      (active = false → t.arbiter = s.arbiter)

/-- Out of step: a BEACON of another station that is accepted and does not agree with the station's own record
withdraws it with the reason out of step, in a dark frame, its record as it stood; FEED_FLUSHED stands before STATE
(R3, R157, R165, R179; that the events carry the new frame number is notes/assumptions/16.md, that a station that drew
dark begins a new dark frame too notes/assumptions/15.md, that a feed read which an entry to Listening met before is given
up too notes/assumptions/37.md). -/
def Obligations.OutOfStepWithdraws : Prop :=
  ∀ (s : State) (st : StationState) (f : BusFrame) (m : BeaconFields), s.Accepts st 0 f (.beacon m) →
    f.sender ≠ s.station → ¬ s.AgreesWith f.sender m →
    ∃ t, exec (.beacon f) s = .next t ∧ s.StandsDown t .withdrawn .outOfStep ∧ t.gen = s.gen ∧
      t.counters = { s.counters with framesAccepted := rise s.counters.framesAccepted } ∧
      t.timer = { s.timer with frameTimer := .running s.period, frameNumber := m.frameNumber, quietExpiries := 0 } ∧
      t.events = s.events.postAll m.frameNumber
        ((if s.bus.feedQueue = [] then [] else [.feedFlushed s.bus.feedQueue.length])
          ++ [.state .withdrawn (.withdraw .outOfStep)]) ∧
      t.scan.phase = .lead ∧ t.scan.kind = .dark

/-- FLIP_TIMEOUT: the BEACON acceptance that brings the seal age to 32 with armed no makes every required station that
is not ready Silent; FLIP_TIMEOUT carries B and the number of those made so by the timeout itself, and is not posted
when that number is 0; B stays sealed, the stations that stay required keep their places, and armed then holds at a
station that is not following (R7, R11, R16, R21, R22, R36, R37, R43; that a named entry's silence count also rises at
this beacon is notes/assumptions/17.md). The access in progress and the waiting requests go on, the row fetch apart where
it begins again (R118). The own entry is not one that goes Silent. That this row is the BEACON acceptance itself is the
model's reading (notes/assumptions/4.md). -/
def Obligations.FlipTimeoutSilencesLagging : Prop :=
  ∀ (s : State) (st : StationState) (f : BusFrame) (m : BeaconFields), s.CountsInRange → s.ArbiterFormed →
    s.Accepts st 0 f (.beacon m) → s.AgreesWith f.sender m → s.armedAt m = false → s.gen.isSealed = true →
    31 ≤ s.gen.sealAge → (f.sender = s.station ∨ s.roster[s.station].silence < 47) → s.lags s.station = false →
    let count := ((List.finRange 64).filter fun n =>
      s.lags n && (decide (n = f.sender) || decide (s.roster[n].silence < 47))).length
    let cut := decide (s.scan.kind = .drawing) && s.scan.phase.isActive && st.draws
    ∃ t, exec (.flipTimeout f) s = .next t ∧ exec (.beacon f) s = .next t ∧ t.life = .running st ∧
      (∀ n : Station, t.roster[n] = s.roster[n].afterBeacon (decide (n = f.sender)) (s.lags n)) ∧
      t.gen.shown = s.gen.shown ∧ t.gen.isSealed = true ∧ t.gen.sealer = s.gen.sealer ∧ t.gen.sealAge = 32 ∧
      t.gen.revealBuilding = s.gen.revealBuilding ∧ t.gen.revealShown = s.gen.revealShown ∧
      s.RecordFollows t ∧ (t.gen.armed = true ↔ t.following = false) ∧
      t.events = s.events.postAll m.frameNumber
        ((if cut then [.shortFrame] else [])
          ++ (if count = 0 then [] else [.flipTimeout (s.gen.shown + 1) count]) ++ rosterEvents s.roster t.roster) ∧
      t.shown = s.shown ∧ t.shownDefaults = s.shownDefaults ∧ t.bufferX = s.bufferX ∧ t.bufferY = s.bufferY ∧
      t.entryRecords = s.entryRecords ∧ t.dirty = s.dirty ∧ t.catchUp = s.catchUp ∧
      s.ArbiterKeeps t (s.scan.phase.isActive && st.draws)

/-- The own entry goes Silent at a BEACON acceptance, by silence or because the flip timeout names it: the station
withdraws with the reason silenced (R36, R37, R39, R179). The events stand in the order FLIP or FLIP_TIMEOUT, ROSTER for
each entry the acceptance changed, FEED_FLUSHED, STATE (R22, R43, R157, R179, R195). A flip at the same acceptance is
recorded (R18, R39); else S, sealed, sealer and the reveal flags are as before, and the seal age rises where armed was no
(R21). That the silence count of an entry the timeout names also rises is notes/assumptions/17.md, that the events carry
the new frame number notes/assumptions/16.md, that a station that drew dark begins a new dark frame too
notes/assumptions/15.md, that a feed read which an entry to Listening met before is given up too
notes/assumptions/37.md. -/
def Obligations.SilentOwnEntryWithdraws : Prop :=
  ∀ (s : State) (st : StationState) (f : BusFrame) (m : BeaconFields), s.Accepts st 0 f (.beacon m) →
    s.AgreesWith f.sender m → f.sender ≠ s.station → s.roster[s.station].isLive = true →
    (47 ≤ s.roster[s.station].silence ∨
      s.armedAt m = false ∧ s.gen.isSealed = true ∧ 31 ≤ s.gen.sealAge ∧ s.lags s.station = true) →
    ∃ t, exec (.beacon f) s = .next t ∧ s.StandsDown t .withdrawn .silenced ∧
      t.timer = { s.timer with frameTimer := .running s.period, frameNumber := m.frameNumber, quietExpiries := 0 } ∧
      t.counters = { s.counters with framesAccepted := rise s.counters.framesAccepted } ∧
      t.events.endsWithState m.frameNumber .withdrawn ∧ t.scan.phase = .lead ∧ t.scan.kind = .dark ∧
      let flips := s.armedAt m && decide (s.catchUp = .idle)
      let timesOut := !s.armedAt m && s.gen.isSealed && decide (31 ≤ s.gen.sealAge)
      let count := ((List.finRange 64).filter fun n =>
        s.lags n && (decide (n = f.sender) || decide (s.roster[n].silence < 47))).length
      (∃ changed : Roster,
        (∀ n : Station, changed[n] =
          (if flips then s.roster[n].afterPromotion (s.gen.inBaseline n) else s.roster[n]).afterBeacon
            (decide (n = f.sender)) (timesOut && s.lags n)) ∧
        t.events = s.events.postAll m.frameNumber
          ((if flips then [.flip (s.gen.shown + 1)]
              else if timesOut ∧ count ≠ 0 then [.flipTimeout (s.gen.shown + 1) count] else [])
            ++ rosterEvents s.roster changed
            ++ (if s.bus.feedQueue = [] then [] else [.feedFlushed s.bus.feedQueue.length])
            ++ [.state .withdrawn (.withdraw .silenced)])) ∧
      (flips = true → t.gen = { shown := s.gen.shown + 1, isSealed := false, sealer := none, baseline := none
                                revealBuilding := false, revealShown := s.gen.revealBuilding
                                readySet := Vector.replicate 64 false, armed := false, sealAge := 0
                                announced := false }) ∧
      (flips = false → t.gen = { s.gen with
        baseline := t.gen.baseline, readySet := t.gen.readySet, armed := t.gen.armed
        sealAge := if s.armedAt m = false ∧ s.gen.isSealed = true ∧ s.gen.sealAge < 32 then s.gen.sealAge + 1
                   else s.gen.sealAge })

/-- SILENCE_TIMEOUT: the BEACON acceptance at which the silence count of a Joining or Member entry reaches 48 makes
the entry Silent with one ROSTER event; such a station is in no requirement set, ready set or baseline, every other
keeps its place, and armed is evaluated (R7, R11, R16, R36, R43). The access in progress and the waiting requests go on,
the row fetch apart where it begins again (R118). The own entry is not the one. That this row is the BEACON acceptance
itself is the model's reading (notes/assumptions/4.md). -/
def Obligations.SilenceTimeoutMakesSilent : Prop :=
  (∀ (s : State) (st : StationState) (f : BusFrame) (m : BeaconFields), s.Accepts st 0 f (.beacon m) →
    s.AgreesWith f.sender m →
    (∃ n : Station, n ≠ f.sender ∧ s.roster[n].isLive = true ∧ 47 ≤ s.roster[n].silence) →
    exec (.silenceTimeout f) s = exec (.beacon f) s) ∧
  ∀ (s : State) (st : StationState) (f : BusFrame) (m : BeaconFields) (k : Station), s.Accepts st 0 f (.beacon m) →
    s.AgreesWith f.sender m → s.armedAt m = false → (s.gen.isSealed = false ∨ s.gen.sealAge < 31) →
    k ≠ f.sender → s.roster[k].isLive = true → 47 ≤ s.roster[k].silence → s.ArbiterFormed →
    (f.sender = s.station ∨ s.roster[s.station].silence < 47) →
    ∃ t, exec (.silenceTimeout f) s = .next t ∧ t.life = .running st ∧
      (∀ n : Station, t.roster[n] = s.roster[n].afterBeacon (decide (n = f.sender)) false) ∧
      t.roster[k].state = .silent ∧ t.requirementSet[k] = false ∧ t.gen.readySet[k] = false ∧
      t.gen.inBaseline k = false ∧ s.RecordFollows t ∧
      t.gen.shown = s.gen.shown ∧ t.gen.isSealed = s.gen.isSealed ∧
      s.ArbiterKeeps t (s.scan.phase.isActive && st.draws) ∧
      t.events = s.events.postAll m.frameNumber
        ((if s.scan.kind = .drawing ∧ s.scan.phase.isActive = true ∧ st.draws = true then [.shortFrame] else [])
          ++ rosterEvents s.roster t.roster)

/-- PRESENCE_INTERVAL: the sixteenth BEACON of other stations in a row that a station in Joining or Member accepts sets
PRESENCE pending with the count held at 16 (R41). The own entry does not go Silent at it. That this row is the BEACON
acceptance itself is the model's reading (notes/assumptions/4.md). -/
def Obligations.PresenceIntervalSetsPresence : Prop :=
  ∀ (s : State) (st : StationState) (f : BusFrame) (m : BeaconFields), s.Accepts st 0 f (.beacon m) →
    s.AgreesWith f.sender m → f.sender ≠ s.station → (st = .joining ∨ st = .member) → 15 ≤ s.presenceCount →
    s.bus.presencePending = false → s.roster[s.station].silence < 47 →
    (s.armedAt m = true ∨ s.gen.isSealed = false ∨ s.gen.sealAge < 31 ∨ s.lags s.station = false) →
    ∃ t, exec (.presenceInterval f) s = .next t ∧ exec (.beacon f) s = .next t ∧ t.presenceCount = 16 ∧
      t.bus.presencePending = true ∧ t.timer.frameNumber = m.frameNumber

/-! ### Spoiled frames -/

/-- A spoiled frame: the station's own spoil counts the first reason of R143 and one more consecutive spoil, another
station's spoil counts neither; an attempt of the station's own raises the own-attempts-spoiled counter and keeps its
item; nothing else changes (R142 to R147, R151). A frame of class 6 or 7 with a good check is spoiled for its format
(R143, R198). -/
def Obligations.SpoilIsCounted : Prop :=
  (∀ (s : State) (st : StationState) (cls : BitVec 3) (f : BusFrame) (reason : Option SpoilReason),
    s.Spoiled st cls f reason → (s.bus.consecutiveSpoils < 31 ∨ reason = none ∧ s.bus.consecutiveSpoils = 31) →
    s.ownership cls f ≠ .own .leave → s.ownership cls f ≠ .own .feed →
    exec (frameCommand cls f) s = .next { s with
      bus := { s.bus with
        inFlight := none
        consecutiveSpoils := if reason = none then s.bus.consecutiveSpoils else s.bus.consecutiveSpoils + 1 }
      counters := { s.counters with
        spoilsCheck := if reason = some .check then rise s.counters.spoilsCheck else s.counters.spoilsCheck
        spoilsFormat := if reason = some .format then rise s.counters.spoilsFormat else s.counters.spoilsFormat
        spoilsQueueFull :=
          if reason = some .queueFull then rise s.counters.spoilsQueueFull else s.counters.spoilsQueueFull
        ownAttemptsSpoiled :=
          if s.ownership cls f = .foreign then s.counters.ownAttemptsSpoiled
          else rise s.counters.ownAttemptsSpoiled } }) ∧
  (∀ (s : State) (cls : BitVec 3) (f : BusFrame), s.judge cls f =
    if f.check ≠ frameCheck ⟨cls, f.sender⟩ f.payload then some .check
    else match parseMessage cls f.payload with
      | none => some .format
      | some (.update v) =>
        if (s.filtered v).isSome = true ∧ 96 ≤ s.updateQueue.length then some .queueFull else none
      | some _ => none) ∧
  ∀ (s : State) (st : StationState) (seven : Bool) (f : BusFrame), s.life = .running st → st.participates = true →
    s.bus.synchronised = true → f.sender ≠ s.station → s.bus.consecutiveSpoils < 31 →
    f.check = frameCheck ⟨if seven then 7 else 6, f.sender⟩ f.payload →
    exec (.invalidClassFrame seven f) s = .next { s with
      bus := { s.bus with inFlight := none, consecutiveSpoils := s.bus.consecutiveSpoils + 1 }
      counters := { s.counters with spoilsFormat := rise s.counters.spoilsFormat } }

/-- Which payloads are a layout of the Formats chapter, class by class, and what they carry; every other payload is a
format error: a wrong length, class 6 or 7, an undefined subtype, state or UPDATE kind, a set bit that the layouts
show as 0, a RUN or FILL count out of range, a kind mask with a bit beyond its cells, a cell marked zone without 20H
(R104, R198, R199). -/
def Obligations.PayloadsFollowLayouts : Prop :=
  (∀ payload m, parseMessage 0 payload = some m ↔ ∃ hi lo g flags, payload = [hi, lo, g, flags] ∧ flags.toNat < 4 ∧
    m = .beacon ⟨hi ++ lo, g, flags.getLsbD 0, flags.getLsbD 1⟩) ∧
  (∀ payload m, parseMessage 1 payload = some m ↔ ∃ g, payload = [g] ∧ m = .ready g) ∧
  (∀ payload m, parseMessage 2 payload = some m ↔ ∃ g flags bytes, payload = g :: flags :: bytes ∧ flags.toNat < 4 ∧
    (flags.getLsbD 1 = false ∧ bytes = [] ∧ m = .sealing g (flags.getLsbD 0) none ∨
      flags.getLsbD 1 = true ∧ bytes.length = 8 ∧ ∃ b : StationSet,
        (∀ n : Station, b[n] = (bytes.getD (n.val / 8) 0).getLsbD (n.val % 8)) ∧
        m = .sealing g (flags.getLsbD 0) (some b))) ∧
  (∀ payload m, parseMessage 3 payload = some m ↔ (∃ w h p, payload = [1, w, h, p] ∧ m = .join w h p) ∨
    payload = [2, 1] ∧ m = .presence false ∨ payload = [2, 2] ∧ m = .presence true ∨ payload = [3] ∧ m = .leave) ∧
  (∀ payload m, parseMessage 5 payload = some m ↔ ∃ (set : BitVec 2) (code : BitVec 7) (first : Nat)
    (patterns : List Byte), payload =
      BitVec.ofNat 8 (64 * set.toNat + first) :: BitVec.ofNat 8 code.toNat :: 0 :: patterns ∧
    1 ≤ patterns.length ∧ first + patterns.length ≤ 16 ∧ m = .glyph set code first patterns) ∧
  (∀ payload, parseMessage 6 payload = none ∧ parseMessage 7 payload = none) ∧
  (∀ (cls : BitVec 3) (payload : List Byte), 40 < payload.length → parseMessage cls payload = none) ∧
  (∀ (isZone : Bool) (hi lo : Byte) (c : CellRecord), CellRecord.ofBits isZone hi lo = some c ↔
    isZone = true ∧ hi = 0x20 ∧ c = .zone ⟨lo.extractLsb' 5 3, lo.extractLsb' 2 3, lo.getLsbD 1, lo.getLsbD 0⟩ ∨
    isZone = false ∧ ∃ g, c = .glyph g ∧ g.set = hi.extractLsb' 6 2 ∧ g.code = hi.extractLsb' 0 6 ++ lo.extractLsb' 7 1 ∧
      g.foreground = lo.extractLsb' 4 3 ∧ g.size.bits = lo.extractLsb' 2 2 ∧ g.invert = lo.getLsbD 1 ∧
      g.flash = lo.getLsbD 0) ∧
  ∀ payload m, parseMessage 4 payload = some m ↔ ∃ u, m = .update u ∧
    ((∃ z row col hi lo c, payload = [if z then 0x01 else 0x00, row, col, hi, lo] ∧
        CellRecord.ofBits z hi lo = some c ∧ u = .cell row.toNat col.toNat c) ∨
      (∃ n row col maskHi maskLo records cells,
        payload = BitVec.ofNat 8 (0x20 + n) :: row :: col :: maskHi :: maskLo :: records ∧
        1 ≤ n ∧ n ≤ 16 ∧ records.length = 2 * n ∧ cells.length = n ∧
        (∀ k, 16 ≤ k ∨ n ≤ k → (maskHi ++ maskLo).getLsbD k = false) ∧
        (∀ k, k < n → CellRecord.ofBits ((maskHi ++ maskLo).getLsbD k) (records.getD (2 * k) 0)
          (records.getD (2 * k + 1) 0) = cells[k]?) ∧ u = .run row.toNat col.toNat cells) ∨
      (∃ z long row col count hi lo c, payload =
          [0x40 ||| (if z then 0x02 else 0x00) ||| (if long then 0x01 else 0x00), row, col, count, hi, lo] ∧
        (long = true ∨ count ≠ 0) ∧ CellRecord.ofBits z hi lo = some c ∧
        u = .fill row.toNat col.toNat ((if long then 256 else 0) + count.toNat) c) ∨
      (∃ row d, payload = [0x60, row, d] ∧ d.toNat < 32 ∧
        u = .rowdef row.toNat ⟨d.extractLsb' 2 3, d.getLsbD 1, d.getLsbD 0⟩) ∨
      ∃ z row d hi lo c, payload = [if z then 0x81 else 0x80, row, d, hi, lo] ∧ d.toNat < 32 ∧
        CellRecord.ofBits z hi lo = some c ∧ u = .rowclear row.toNat ⟨d.extractLsb' 2 3, d.getLsbD 1, d.getLsbD 0⟩ c)

/-- DEAF: the station's 32nd spoil in a row withdraws it with the reason deaf, its record as it stood; for a frame of
another station the counter of the reason rises and FEED_FLUSHED stands before STATE (R146, R157, R179). That
this row is the end of the frame itself is the model's reading (notes/assumptions/4.md), and that a feed read which an
entry to Listening met before is given up too is its choice (notes/assumptions/37.md). -/
def Obligations.DeafStationWithdraws : Prop :=
  ∀ (s : State) (st : StationState) (cls : BitVec 3) (f : BusFrame) (reason : SpoilReason),
    s.Spoiled st cls f (some reason) → 31 ≤ s.bus.consecutiveSpoils →
    (s.ownership cls f = .own .leave → s.bus.leaveAttempts < 3) →
    ∃ t, exec (.deaf cls f) s = .next t ∧ exec (frameCommand cls f) s = .next t ∧
      s.StandsDown t .withdrawn .deaf ∧ t.gen = s.gen ∧ t.timer = { s.timer with quietExpiries := 0 } ∧
      t.events.endsWithState s.timer.frameNumber .withdrawn ∧
      (s.ownership cls f = .foreign →
        t.counters = { s.counters with
          spoilsCheck := if reason = .check then rise s.counters.spoilsCheck else s.counters.spoilsCheck
          spoilsFormat := if reason = .format then rise s.counters.spoilsFormat else s.counters.spoilsFormat
          spoilsQueueFull :=
            if reason = .queueFull then rise s.counters.spoilsQueueFull else s.counters.spoilsQueueFull } ∧
        t.events = s.events.postAll s.timer.frameNumber
          ((if s.bus.feedQueue = [] then [] else [.feedFlushed s.bus.feedQueue.length])
            ++ [.state .withdrawn (.withdraw .deaf)]))

/-- LEFT_UNHEARD: the fourth spoiled attempt of the station's LEAVE withdraws it with the reason left unheard; an
earlier one raises the attempt count and LEAVE stays pending, whoever spoils it (R151, R152, R179). That this row
is the end of the frame itself is the model's reading (notes/assumptions/4.md), and that a feed read which an entry to
Listening met before is given up too is its choice (notes/assumptions/37.md). -/
def Obligations.LeaveGivenUpAtFourthSpoil : Prop :=
  ∀ (s : State) (st : StationState) (f : BusFrame) (reason : Option SpoilReason), s.Spoiled st 3 f reason →
    s.ownership 3 f = .own .leave →
    (3 ≤ s.bus.leaveAttempts → ∃ t, exec (.leftUnheard f) s = .next t ∧ exec (.leave f) s = .next t ∧
      s.StandsDown t .withdrawn .leftUnheard ∧ t.gen = s.gen ∧ t.timer = { s.timer with quietExpiries := 0 } ∧
      t.counters.ownAttemptsSpoiled = rise s.counters.ownAttemptsSpoiled ∧
      t.events = s.events.postAll s.timer.frameNumber
        ((if s.bus.feedQueue = [] then [] else [.feedFlushed s.bus.feedQueue.length])
          ++ [.state .withdrawn (.withdraw .leftUnheard)])) ∧
    (s.bus.leaveAttempts < 3 → reason = none → s.bus.consecutiveSpoils ≤ 31 →
      exec (.leave f) s = .next { s with
        bus := { s.bus with inFlight := none, leaveAttempts := s.bus.leaveAttempts + 1 }
        counters := { s.counters with ownAttemptsSpoiled := rise s.counters.ownAttemptsSpoiled } }) ∧
    (∀ r, s.bus.leaveAttempts < 3 → reason = some r → s.bus.consecutiveSpoils < 31 →
      exec (.leave f) s = .next { s with
        bus := { s.bus with
          inFlight := none, leaveAttempts := s.bus.leaveAttempts + 1
          consecutiveSpoils := s.bus.consecutiveSpoils + 1 }
        counters := { s.counters with
          spoilsCheck := if r = .check then rise s.counters.spoilsCheck else s.counters.spoilsCheck
          spoilsFormat := if r = .format then rise s.counters.spoilsFormat else s.counters.spoilsFormat
          spoilsQueueFull := if r = .queueFull then rise s.counters.spoilsQueueFull else s.counters.spoilsQueueFull
          ownAttemptsSpoiled := rise s.counters.ownAttemptsSpoiled } })

/-- FEED_DROPPED: a spoiled attempt of the head of the feed queue drops it, with FEED_DROPPED and its counter, when it
is the sixteenth or when the station itself spoils it for its format; any other raises the message's attempt count and
it stays the head (R153). That this row is the end of the frame itself is the model's reading
(notes/assumptions/4.md). -/
def Obligations.FeedHeadDropped : Prop :=
  ∀ (s : State) (st : StationState) (cls : BitVec 3) (f : BusFrame) (reason : Option SpoilReason) (m : FeedMessage)
    (rest : List FeedMessage), s.Spoiled st cls f reason → s.ownership cls f = .own .feed →
    s.bus.feedQueue = m :: rest → (s.bus.consecutiveSpoils < 31 ∨ reason = none ∧ s.bus.consecutiveSpoils = 31) →
    let spoils := if reason = none then s.bus.consecutiveSpoils else s.bus.consecutiveSpoils + 1
    let counted : Counters := { s.counters with
      spoilsCheck := if reason = some .check then rise s.counters.spoilsCheck else s.counters.spoilsCheck
      spoilsFormat := if reason = some .format then rise s.counters.spoilsFormat else s.counters.spoilsFormat
      spoilsQueueFull :=
        if reason = some .queueFull then rise s.counters.spoilsQueueFull else s.counters.spoilsQueueFull
      ownAttemptsSpoiled := rise s.counters.ownAttemptsSpoiled }
    (reason = some .format ∨ 15 ≤ m.attempts → ∃ t, exec (.feedDropped cls f) s = .next t ∧
      exec (frameCommand cls f) s = .next t ∧
      t = { s with
        bus := { s.bus with inFlight := none, consecutiveSpoils := spoils, feedQueue := rest }
        counters := { counted with feedDropped := rise s.counters.feedDropped }
        events := s.events.post s.timer.frameNumber (.feedDropped m.cls) }) ∧
    (reason ≠ some .format → m.attempts < 15 →
      exec (frameCommand cls f) s = .next { s with
        bus := { s.bus with
          inFlight := none, consecutiveSpoils := spoils
          feedQueue := { m with attempts := m.attempts + 1 } :: rest }
        counters := counted })

/-! ### Page memory -/

/-- TILE_STEP: the apply write completes: the record is in the granted buffer and in no other place, its position is
posted to the dirty list, and the engine issues the write of the next step or completes the entry; an abandoned access
that no blanking stands over still writes and posts nothing, one that a blanking stands over writes nothing; the
completion of the last Current entry sets READY pending with g = B (R13, R58, R61, R72, R130,
R136, R137). The canonical form is an invariant of the model. -/
def Obligations.TileStepWritesCell : Prop :=
  ∀ (s : State) (acc : Access) (c : CellRecord), s.MemoriesCanonical → s.completes .apply acc (some c) →
    (∀ n, acc.abandoned = false → acc.blanked = false → s.applyEngine = .applying n → ∃ t, exec .tileStep s = .next t ∧
      (∀ (b : BufferName) (p : Pos), t.readCell b p = if b = acc.buffer ∧ p = acc.pos then c else s.readCell b p) ∧
      t.dirty =
        (if s.dirty.overflow = true ∨ acc.pos ∈ s.dirty.positions then s.dirty
         else if s.dirty.positions.length < 128 then ⟨s.dirty.positions ++ [acc.pos], false⟩
         else ⟨[], true⟩) ∧
      t.shownDefaults = s.shownDefaults ∧
      t = { s with
        gen := { s.gen with announced := t.gen.announced }, bus := { s.bus with readyPending := t.bus.readyPending }
        bufferX := t.bufferX, bufferY := t.bufferY, defaultsX := t.defaultsX, defaultsY := t.defaultsY
        updateQueue := t.updateQueue, applyEngine := t.applyEngine, dirty := t.dirty, leftTable := t.leftTable
        arbiter := t.arbiter } ∧
      (∀ e rest p d more, s.updateQueue = e :: rest →
        (e.update.steps s.straps s.wallColumns).drop (n + 1) = .tile p d :: more →
        t.updateQueue = s.updateQueue ∧ t.applyEngine = .applying (n + 1) ∧ t.asks .apply ⟨p, .building, some d⟩) ∧
      (∀ e, s.updateQueue = [e] → (e.update.steps s.straps s.wallColumns).drop (n + 1) = [] →
        t.updateQueue = [] ∧ t.applyEngine = .idle ∧
        (s.life = .running .joining ∨ s.life = .running .member → s.gen.isSealed = true →
          s.requirementSet[s.station] = true → s.catchUp = .idle → s.gen.announced = false →
          t.gen.announced = true ∧ t.bus.readyPending = some s.gen.building))) ∧
    (acc.abandoned = true → ∃ t, exec .tileStep s = .next t ∧
      t = { s with bufferX := t.bufferX, bufferY := t.bufferY, arbiter := t.arbiter } ∧
      (acc.blanked = false → ∀ (b : BufferName) (p : Pos),
        t.readCell b p = if b = acc.buffer ∧ p = acc.pos then c else s.readCell b p) ∧
      (acc.blanked = true → t.bufferX = s.bufferX ∧ t.bufferY = s.bufferY))

/-- CATCH_UP_READ and CATCH_UP_WRITE: a record read from the shown role is held and its write to the building role at
the same position is requested; when that write completes the record is in the granted buffer and the next position's
read is requested, or after the last one catch-up is idle and no READY is owed; an abandoned read is not followed by
its write; an abandoned write leaves its record, and one that a blanking stands over leaves nothing (R13, R76, R77,
R80, R133, R136, R137). The canonical form is an invariant of the model. -/
def Obligations.CatchUpCopiesCell : Prop :=
  (∀ (s : State) (acc : Access), s.completes .catchUp acc none →
    let c := s.readCell acc.buffer acc.pos
    (∀ p rest, acc.abandoned = false → s.catchUp = .list p rest .readOutstanding →
      ∃ t, exec .catchUpRead s = .next t ∧
        t = { s with catchUp := .list p rest (.writeOutstanding c), arbiter := t.arbiter } ∧
        t.asks .catchUp ⟨acc.pos, .building, some c⟩) ∧
    (∀ p, acc.abandoned = false → s.catchUp = .tile p .readOutstanding →
      ∃ t, exec .catchUpRead s = .next t ∧
        t = { s with catchUp := .tile p (.writeOutstanding c), arbiter := t.arbiter } ∧
        t.asks .catchUp ⟨acc.pos, .building, some c⟩) ∧
    (acc.abandoned = true → ∃ t, exec .catchUpRead s = .next t ∧ t = { s with arbiter := t.arbiter } ∧
      (s.arbiter.catchUp = none → t.arbiter.catchUp = none))) ∧
  (∀ (s : State) (acc : Access) (c : CellRecord), s.MemoriesCanonical →
    s.completes .catchUp acc (some c) → acc.abandoned = true →
    ∃ t, exec .catchUpWrite s = .next t ∧
      t = { s with bufferX := t.bufferX, bufferY := t.bufferY, arbiter := t.arbiter } ∧
      (acc.blanked = false → ∀ (b : BufferName) (p : Pos),
        t.readCell b p = if b = acc.buffer ∧ p = acc.pos then c else s.readCell b p) ∧
      (acc.blanked = true → t.bufferX = s.bufferX ∧ t.bufferY = s.bufferY)) ∧
  ∀ (s : State) (acc : Access) (c : CellRecord), s.MemoriesCanonical →
    s.completes .catchUp acc (some c) → acc.abandoned = false → acc.blanked = false →
    ∃ t, exec .catchUpWrite s = .next t ∧
      (∀ (b : BufferName) (p : Pos), t.readCell b p = if b = acc.buffer ∧ p = acc.pos then c else s.readCell b p) ∧
      (∀ p q rest ph, s.catchUp = .list p (q :: rest) ph →
        t.catchUp = .list q rest .readOutstanding ∧ t.asks .catchUp ⟨q, .shown, none⟩ ∧
        t = { s with bufferX := t.bufferX, bufferY := t.bufferY, catchUp := t.catchUp, arbiter := t.arbiter }) ∧
      (∀ p q ph, s.catchUp = .tile p ph → q.address = p.address + 1 →
        t.catchUp = .tile q .readOutstanding ∧ t.asks .catchUp ⟨q, .shown, none⟩ ∧
        t = { s with bufferX := t.bufferX, bufferY := t.bufferY, catchUp := t.catchUp, arbiter := t.arbiter }) ∧
      ((∃ p ph, s.catchUp = .list p [] ph ∨ s.catchUp = .tile p ph ∧ p = ⟨11, 31⟩) →
        t.catchUp = .idle ∧ t.readyCondition = false ∧ t.shownDefaults = s.shownDefaults ∧
        (s.gen.announced = false → t.gen.announced = true → t.bus.readyPending = some s.gen.building) ∧
        (s.life = .running .joining ∨ s.life = .running .member → s.gen.isSealed = true →
          s.requirementSet[s.station] = true → s.currentWork = false → s.gen.announced = false →
          t.gen.announced = true) ∧
        t = { s with
          gen := { s.gen with announced := t.gen.announced }, bus := { s.bus with readyPending := t.bus.readyPending }
          bufferX := t.bufferX, bufferY := t.bufferY, defaultsX := t.defaultsX, defaultsY := t.defaultsY
          updateQueue := t.updateQueue, applyEngine := t.applyEngine, catchUp := .idle, leftTable := t.leftTable
          arbiter := t.arbiter })

/-- The grant at a completion: of the requests that wait when an access completes, the one issued by its owner in the
same step included, the highest in the order in force is granted, feed read, apply, catch-up, row fetch, or with the
scan-first option row fetch, feed read, apply, catch-up; the others go on waiting, and no request waits with no access
in progress (R130, R131, R132). READ_CELL: the first request issued with nothing in progress is granted at once
(R131). That at the completion of catch-up's last write the grant includes the request apply issues in that step is the
model's reading (notes/assumptions/19.md). The form of the arbiter is an invariant of the model. -/
def Obligations.CompletionGrantsHighest : Prop :=
  (∀ (s : State) (acc : Access), s.ArbiterFormed → s.powered = true → s.arbiter.access = some acc →
    (acc.requester = .apply → acc.write.isSome = true) →
    ∃ t, exec (acc.requester.completion acc.write.isSome) s = .next t ∧
      (∀ g, t.arbiter.access = some g → g.abandoned = false ∧ g.blanked = false ∧
        ∀ r, t.arbiter.waiting r ≠ none → g.requester.place s.scanFirst < r.place s.scanFirst) ∧
      (t.arbiter.access = none → ∀ r, t.arbiter.waiting r = none) ∧
      ∀ r q, (r ≠ acc.requester ∨ acc.abandoned = true) → s.arbiter.waiting r = some q → t.asks r q) ∧
  ∀ (s : State) (st : StationState) (role row col : Byte) (ro : Role) (p : Pos), s.isFree st →
    s.arbiter = ⟨none, none, none, none, none⟩ → role = (if ro = .shown then 0 else 1) → row.toNat = p.row.val →
    col.toNat = p.col.val → ∃ t, exec (.readCell [role, row, col] .released) s = .next t ∧
      t.arbiter = ⟨none, none, none, none, some ⟨.feedRead, s.shown.ofRole ro, p, none, false, false⟩⟩

/-! ### The display -/

/-- ROW_FETCH: the record read is placed in the row buffer and the next column is requested; after column 31 the fetch
is idle; an abandoned read is discarded (R116, R136). -/
def Obligations.RowFetchFillsRowBuffer : Prop :=
  ∀ (s : State) (acc : Access), s.completes .rowFetch acc none →
    (∀ r col, acc.abandoned = false → s.scan.fetch = .fetching r col → ∃ t, exec .rowFetch s = .next t ∧
      t = { s with scan := { s.scan with rowBuffer := t.scan.rowBuffer, fetch := t.scan.fetch }, arbiter := t.arbiter } ∧
      (∀ c : LocalColumn, t.scan.rowBuffer[c] =
        if c = col then some (s.readCell acc.buffer acc.pos) else s.scan.rowBuffer[c]) ∧
      (∀ next : LocalColumn, next.val = col.val + 1 →
        t.scan.fetch = .fetching r next ∧ t.asks .rowFetch ⟨⟨r, next⟩, .shown, none⟩) ∧
      (col = 31 → t.scan.fetch = .idle)) ∧
    (acc.abandoned = true → ∃ t, exec .rowFetch s = .next t ∧ t = { s with arbiter := t.arbiter })

/-- ROW_DISPLAY: in a drawing frame the row buffer is taken over, unfetched cells becoming underrun marks, the zone
state is set from the entry record and the fetch of the next row begins; a row with an unfetched cell is counted, and
the first of the frame posts UNDERRUN; in a dark frame only the phase moves
and the line before it ends (R112, R114, R116, R117, R120, R121).
At an underrun the row fetch's waiting request is withdrawn and its read in progress given up; the access in progress and
the requests of the other requesters go on (R117, R136).
TAIL: after dot line 15 of row 11 the phase is the tail; in a drawing frame the fetch of row 0 begins, and the access in
progress and the other requests go on (R110, R116).
That the line before ends here and is then held by the panel, and that ROW_DISPLAY leaves line 0 to the next DOT_LINE,
are the model's choices (notes/assumptions/11.md, 12.md). -/
def Obligations.RowDisplayAndTail : Prop :=
  (∀ (s : State) (r : LocalRow), s.powered = true → s.rowIsNext r →
     let short := decide (∃ c : LocalColumn, s.scan.rowBuffer[c] = none)
     (s.scan.kind = .drawing → ∃ t, exec .rowDisplay s = .next t ∧
       t = { s with
         arbiter := t.arbiter
         counters := { s.counters with
           underrunRows := if short then rise s.counters.underrunRows else s.counters.underrunRows }
         events := if short && !s.scan.underrun then s.events.post s.timer.frameNumber .underrun else s.events
         scan := { s.scan.endLine with
           phase := .row r 0, lineBegun := false, displayRow := s.scan.rowBuffer, zone := s.entryRecords[r].zone
           rowBuffer := Vector.replicate 32 none, underrun := s.scan.underrun || short, fetch := t.scan.fetch } } ∧
       (∀ next : LocalRow, next.val = r.val + 1 →
         t.scan.fetch = .fetching next 0 ∧ t.asks .rowFetch ⟨⟨next, 0⟩, .shown, none⟩) ∧
       (r = 11 → t.scan.fetch = .idle) ∧ s.ArbiterKeeps t short ∧
       (short = true → (∀ q, t.arbiter.rowFetch = some q → q.pos.row.val = r.val + 1 ∧ q.pos.col = 0) ∧
         (r = 11 → ∀ acc, t.arbiter.access = some acc → acc.requester = .rowFetch → acc.abandoned = true))) ∧
     (s.scan.kind = .dark →
       exec .rowDisplay s = .next { s with scan := { s.scan.endLine with phase := .row r 0, lineBegun := false } })) ∧
  ∀ s : State, s.powered = true → s.scan.phase = .row 11 15 → s.scan.lineBegun = true →
    (s.scan.kind = .drawing → ∃ t, exec .tail s = .next t ∧
      t = { s with
        arbiter := t.arbiter
        scan := { s.scan.endLine with
          phase := .tail, lineBegun := false, rowBuffer := Vector.replicate 32 none, fetch := .fetching 0 0 } } ∧
      t.asks .rowFetch ⟨⟨0, 0⟩, .shown, none⟩ ∧ s.ArbiterKeeps t false) ∧
    (s.scan.kind = .dark →
      exec .tail s = .next { s with scan := { s.scan.endLine with phase := .tail, lineBegun := false } })

/-- DOT_LINE: in a drawing frame each dot of the line takes the colour of R121 to R126 for the record its column
holds, with glyph memory as it stands at the line's beginning; in a dark frame every dot is colour 0 (R106, R112). The
line that ends ends with its line strobe, and the panel holds its dots and every other line as before (R110; that the
panel takes the whole line when it ends, and that strobes are counted, are the model's choices,
notes/assumptions/12.md, 36.md). The frame strobe is driven in the lead and at no other time (R110; that a station
without power drives none is the model's choice, notes/assumptions/23.md). -/
def Obligations.DotLineDrawsCells : Prop :=
  (∀ s : State, s.frameStrobe = true ↔ s.powered = true ∧ s.scan.phase = .lead) ∧
  (∀ (s : State) (r : LocalRow) (line : Fin 16), s.powered = true → s.lineIsNext r line →
     (s.scan.kind = .drawing → ∃ t, exec .dotLine s = .next t ∧
       t = { s with scan := { s.scan.endLine with
         phase := .row r line, lineBegun := true, dots := t.scan.dots, zone := t.scan.zone } } ∧
       t.scan.dots.length = 256 ∧
       ∀ (col : LocalColumn) (dot : Fin 8), t.scan.dots[8 * col.val + dot.val]? = some (s.dotColour r line col dot)) ∧
     (s.scan.kind = .dark →
       exec .dotLine s = .next { s with scan := { s.scan.endLine with
         phase := .row r line, lineBegun := true, dots := List.replicate 256 0 } })) ∧
  ∀ (s : State) (r : LocalRow) (line : Fin 16), s.MemoriesCanonical → s.scan.phase = .row r line →
    s.scan.lineBegun = true → s.scan.endLine = { s.scan with
      lineStrobes := s.scan.lineStrobes + 1, panel := s.scan.endLine.panel } ∧
    ∀ k, Memory.read darkLine s.scan.endLine.panel k =
      if k = 16 * r.val + line.val then s.scan.dots else Memory.read darkLine s.scan.panel k

/-! ### The feed port -/

/-- The assertion of the select, in every feed row, samples the port byte and whether the port is Ready, unless a
transaction is in progress (R183, R186; notes/assumptions/21.md).
A feed command is discarded at its release when the port is not Free, when a start runs or came over its transaction,
and when fewer argument bytes arrived than it needs: what was shifted out is the port byte sampled at the assertion
(R183, R184); UNKNOWN_COMMAND at a Free port is answered with BADARG (R184). That nothing is shifted out under the
argument bytes and that a start discards the whole transaction is the model's choice (notes/assumptions/21.md), that
an incomplete SUBMIT of length above 40 is discarded its reading (notes/assumptions/29.md), and so is its choice what the
select does without power: an assertion begins a transaction that is discarded, a release ends the one in progress, and
nothing is sampled or shifted out (notes/assumptions/21.md, 23.md). -/
def Obligations.SelectSamplesPortByte : Prop :=
  (∀ (c : Instr) (s : State), feedEdge c = some .asserted →
    (s.powered = true → s.transaction = none → exec c s = .next { s with
      dataOut := [portByte s.port s.events]
      transaction := some
        { shown := portByte s.port s.events
          ready := match s.port with | .ready _ => true | .free | .working _ _ => false
          abandoned := match s.life with | .running _ => false | _ => true } }) ∧
    (s.powered = false → s.transaction = none → exec c s = .next { s with
      transaction := some { shown := 0, ready := false, abandoned := true } }) ∧
    (s.transaction ≠ none → exec c s = .next s)) ∧
  (∀ (c : Instr) (s : State), feedEdge c = some .released → isCollect c = false → s.powered = true →
    (∀ st, ¬ s.isFree st) → exec c s = .next s.discarded) ∧
  (∀ (c : Instr) (s : State), feedEdge c = some .released → s.powered = false →
    exec c s = .next { s with transaction := none }) ∧
  (∀ (args : List Byte) (s : State), s.powered = true → args.length < 3 →
    exec (.readCell args .released) s = .next s.discarded) ∧
  (∀ s : State, s.powered = true → exec (.readRoster [] .released) s = .next s.discarded) ∧
  (∀ (args : List Byte) (s : State), s.powered = true →
    (args.length < 2 ∨ args.length < 2 + (args.getD 1 0).toNat) →
    exec (.submit args .released) s = .next s.discarded) ∧
  ∀ (code : Byte) (s : State) (st : StationState), s.isFree st → definedCommandCode code = false →
    exec (.unknownCommand code .released) s = .next (s.answered .badArg)

/-- STATUS, READ_ROSTER, READ_COUNTERS and CLEAR_COUNTERS at a Free port: the response carries the fields as they
stand, a station number of 64 or more is answered with BADARG, clearing sets the ten counters to 0, and nothing else
changes (R188, R191, R192).
NEXT_EVENT at a Free port: the oldest record leaves the queue for the response, which also carries the lost marker, and
the marker is cleared; with no record held the response says so (R189, R194).
The interrupt line is asserted exactly while the event queue holds a record, so after every posting (R194).
That dataOut holds the port byte alone, also under READ_ROSTER's argument byte, is the model's choice
(notes/assumptions/21.md), and so is the interrupt line's level without power (notes/assumptions/23.md). -/
def Obligations.ReportsCarryFields : Prop :=
  (∀ (s : State) (st : StationState), s.isFree st →
     exec (.status .released) s = .next (s.answered (.status
       { station := s.station, state := st, reason := s.withdrawReason, shown := s.gen.shown
         isSealed := s.gen.isSealed, armed := s.gen.armed, catchingUp := decide (s.catchUp ≠ .idle)
         readySize := ((List.finRange 64).filter fun n => s.gen.readySet[n]).length
         requirementSize := ((List.finRange 64).filter fun n => s.requirementSet[n]).length
         updateFill := s.updateQueue.length, feedFill := s.bus.feedQueue.length
         uncertainRows := ((List.finRange 12).filter fun r => s.entryRecords[r].isUncertain).length
         clashRecord := s.clashRecord })) ∧
     (∀ (n : Station) (more : List Byte),
       exec (.readRoster (BitVec.ofNat 8 n.val :: more) .released) s = .next (s.answered (.rosterEntry n s.roster[n]))) ∧
     (∀ (b : Byte) (more : List Byte), 64 ≤ b.toNat →
       exec (.readRoster (b :: more) .released) s = .next (s.answered .badArg)) ∧
     exec (.readCounters .released) s = .next (s.answered (.counters s.counters)) ∧
     exec (.clearCounters .released) s =
       .next { s.answered .cleared with counters := ⟨0, 0, 0, 0, 0, 0, 0, 0, 0, 0⟩ }) ∧
  (∀ (s : State) (e : Event), (s.interruptLine = true ↔ s.events.records ≠ []) ∧ (s.post e).interruptLine = true) ∧
  ∀ (s : State) (st : StationState), s.isFree st →
    (∀ e rest, s.events.records = e :: rest →
      exec (.nextEvent .released) s =
        .next { s.answered (.nextEvent (some e) s.events.lost) with events := ⟨rest, false⟩ }) ∧
    (s.events.records = [] →
      exec (.nextEvent .released) s = .next { s.answered (.nextEvent none s.events.lost) with events := ⟨[], false⟩ })

/-- SUBMIT at a Free port, its arguments complete: BADCLASS for a class that is not SEAL, UPDATE or GLYPH, else BADARG
for a length above 40, else FULL when 16 messages are held, else the message joins the tail with no spoiled attempt
and the response gives the fill (R148, R190). That dataOut holds the port byte alone under the argument bytes is the
model's choice (notes/assumptions/21.md). -/
def Obligations.SubmitJoinsFeedQueue : Prop :=
  ∀ (s : State) (st : StationState) (clsByte len : Byte) (payload more : List Byte), s.isFree st →
    payload.length = len.toNat →
    let cls := clsByte.extractLsb' 0 3
    let takes := cls = 2 ∨ cls = 4 ∨ cls = 5
    let ends (t : State) := exec (.submit (clsByte :: len :: (payload ++ more)) .released) s = .next t
    (¬ takes → ends (s.answered .badClass)) ∧
    (takes → 40 < len.toNat → ends (s.answered .badArg)) ∧
    (takes → len.toNat ≤ 40 → 16 ≤ s.bus.feedQueue.length → ends (s.answered .full)) ∧
    (takes → len.toNat ≤ 40 → s.bus.feedQueue.length < 16 →
      ends { s.answered (.submitted (s.bus.feedQueue.length + 1)) with
        bus := { s.bus with feedQueue := s.bus.feedQueue ++ [⟨cls, payload, 0⟩] } })

/-- READ_CELL at a Free port: a role byte above 1, a row above 11 or a column above 31 is answered with BADARG; else
the port is Working and the feed read is requested. FEED_READ_COMPLETE: the port is Ready with the record read, or
with REFUSED when the read was given up (R136, R157, R185, R187). That a read given up at an entry to
Withdrawn or Clashed is REFUSED also when it met an entry to Listening, before or after that one, is the model's choice
(notes/assumptions/37.md), and so is that dataOut holds the port byte alone under the argument bytes (notes/assumptions/21.md). -/
def Obligations.ReadCellAnswersRecord : Prop :=
  (∀ (s : State) (st : StationState) (role row col : Byte) (more : List Byte), s.isFree st →
    (2 ≤ role.toNat ∨ 12 ≤ row.toNat ∨ 32 ≤ col.toNat →
      exec (.readCell (role :: row :: col :: more) .released) s = .next (s.answered .badArg)) ∧
    ∀ (ro : Role) (p : Pos), role = (if ro = .shown then 0 else 1) → row.toNat = p.row.val → col.toNat = p.col.val →
      ∃ t, exec (.readCell (role :: row :: col :: more) .released) s = .next t ∧
        t = { s with transaction := none, dataOut := [s.shownByte], port := .working ro p, arbiter := t.arbiter } ∧
        t.asks .feedRead ⟨p, ro, none⟩) ∧
  ∀ (s : State) (acc : Access) (ro : Role) (p : Pos), s.completes .feedRead acc none → s.port = .working ro p →
    ∃ t, exec .feedReadComplete s = .next t ∧
      t = { s with
        port := .ready (if acc.abandoned then .refused else .cell ro p (s.readCell acc.buffer acc.pos))
        arbiter := t.arbiter }

/-- RESTART at a Free port: Joining and Member enter Leaving with LEAVE pending, Listening, Withdrawn and Clashed enter
Listening, Leaving stays as it is, each answered with the state that follows; Halted answers REFUSED (R178, R193). That a
first BEACON in flight is stopped by a RESTART in Listening is the model's reading (notes/assumptions/22.md), that the
LEAVE count is 0 after the entry to Listening its choice (notes/assumptions/33.md). -/
def Obligations.RestartByStationState : Prop :=
  ∀ (s : State) (st : StationState), s.isFree st →
    (st = .halted → exec (.restart .released) s = .next (s.answered .refused)) ∧
    (∀ origin : LeavingOrigin, (st = .joining ∧ origin = .fromJoining ∨ st = .member ∧ origin = .fromMember) →
      exec (.restart .released) s = .next { s.answered (.restarted (.leaving origin)) with
        life := .running (.leaving origin)
        bus := { s.bus with leavePending := true, leaveAttempts := 0 }
        events := s.events.post s.timer.frameNumber (.state (.leaving origin) .restart) }) ∧
    (∀ origin, st = .leaving origin → exec (.restart .released) s = .next (s.answered (.restarted (.leaving origin)))) ∧
    (st = .listening ∨ st = .withdrawn ∨ st = .clashed → ∃ t, exec (.restart .released) s = .next t ∧
      s.EntersListening t .restart ∧ t.timer.frameTimer = s.timer.frameTimer ∧ t.config = s.config ∧
      t.withdrawReason = s.withdrawReason ∧ t.port = .ready (.restarted .listening) ∧
      t.transaction = none ∧ t.dataOut = [s.shownByte] ∧ t.pending = s.pending)

/-- COLLECT at its release: after the port byte the response's bytes are shifted out in order, then filler FFH; the
port becomes Free when every byte of the response was clocked, else the response stays whole; in a transaction whose
select was asserted while the port was not Ready only filler follows, also when the port has become Ready since (R183,
R186). A transaction that a start came over is such a one, the model's choice (notes/assumptions/21.md). -/
def Obligations.CollectShiftsResponse : Prop :=
  ∀ (s : State) (clocked : Nat), s.powered = true →
    (∀ (st : StationState) (r : Response), s.life = .running st → s.port = .ready r →
      (∀ tr, s.transaction = some tr → tr.ready = true ∧ tr.abandoned = false) →
      (r.bytes.length ≤ clocked →
        exec (.collect clocked .released) s = .next { s with
          port := .free, transaction := none
          dataOut := s.shownByte :: (r.bytes ++ List.replicate (clocked - r.bytes.length) 0xFF) }) ∧
      (clocked < r.bytes.length →
        exec (.collect clocked .released) s = .next { s with
          transaction := none, dataOut := s.shownByte :: r.bytes.take clocked })) ∧
    ((∀ r, s.port ≠ .ready r) ∨ (∃ tr, s.transaction = some tr ∧ (tr.ready = false ∨ tr.abandoned = true)) →
      exec (.collect clocked .released) s = .next { s with
        transaction := none, dataOut := s.shownByte :: List.replicate clocked 0xFF }) ∧
    (portByte s.port s.events).getLsbD 0 = !s.events.records.isEmpty ∧
    (portByte s.port s.events).extractLsb' 1 5 = 0 ∧
    (portByte s.port s.events).extractLsb' 6 2 =
      (match s.port with | .free => 0 | .working _ _ => 1 | .ready _ => 2)

/-- The bytes of a response and of an event record, by the tables of the Formats chapter: the response code, then the
fields in the table's order, two-byte fields with the high byte first; any code but OK ends the response (R183, R188,
R195, R197). -/
def Obligations.ResponsesShiftFormatBytes : Prop :=
  (∀ r : StatusReport, ∃ flags clash : Byte, (Response.status r).bytes =
      [0x00, BitVec.ofNat 8 r.station.val, r.state.code, r.reason.code, r.shown, flags, BitVec.ofNat 8 r.readySize,
        BitVec.ofNat 8 r.requirementSize, BitVec.ofNat 8 r.updateFill, BitVec.ofNat 8 r.feedFill,
        BitVec.ofNat 8 r.uncertainRows, clash] ∧
    flags.toNat < 16 ∧ flags.getLsbD 0 = r.isSealed ∧ flags.getLsbD 1 = r.armed ∧ flags.getLsbD 2 = r.catchingUp ∧
    flags.getLsbD 3 = r.clashRecord.isSome ∧ (r.clashRecord = none → clash = 0) ∧
    ∀ n, r.clashRecord = some n → clash = BitVec.ofNat 8 n.val) ∧
  ([StationState.halted, .listening, .joining, .member, .leaving .fromJoining, .leaving .fromMember, .withdrawn,
      .clashed].map StationState.code = [0, 1, 2, 3, 4, 0x84, 5, 6]) ∧
  ([WithdrawReason.none, .noConfiguration, .configurationCheck, .configurationRange, .outsideWall, .left, .leftUnheard,
      .deaf, .outOfStep, .silenced, .clash].map WithdrawReason.code = [0, 1, 2, 3, 4, 5, 6, 7, 8, 9, 10]) ∧
  ([StateReason.start, .adopted, .promoted, .restart, .quietOver].map StateReason.code = [11, 12, 13, 14, 15]) ∧
  (∀ r, (StateReason.withdraw r).code = r.code) ∧
  ([EntryState.absent, .joining, .member, .silent].map EntryState.code = [0, 1, 2, 3]) ∧
  (∀ lost : Bool, (Response.nextEvent none lost).bytes = [0x00, if lost then 2 else 0, 0, 0, 0, 0, 0]) ∧
  (∀ (fn : FrameNumber) (e : Event) (lost : Bool), ∃ kind a b : Byte,
    (Response.nextEvent (some ⟨fn, e⟩) lost).bytes =
      [0x00, if lost then 3 else 1, kind, fn.extractLsb' 8 8, fn.extractLsb' 0 8, a, b] ∧
    (kind, a, b) = match e with
      | .flip g => (1, g, 0)
      | .sealTaken g n => (2, g, BitVec.ofNat 8 n.val)
      | .sealIgnored g n => (3, g, BitVec.ofNat 8 n.val)
      | .roster n st => (4, BitVec.ofNat 8 n.val, st.code)
      | .flipTimeout g count => (5, g, BitVec.ofNat 8 count)
      | .rowUncertain r => (6, BitVec.ofNat 8 r.val, 0)
      | .rowCertain r => (7, BitVec.ofNat 8 r.val, 0)
      | .underrun => (8, 0, 0)
      | .shortFrame => (9, 0, 0)
      | .feedDropped cls => (10, BitVec.ofNat 8 cls.toNat, 0)
      | .feedFlushed count => (11, BitVec.ofNat 8 count, 0)
      | .state st reason => (12, st.code, reason.code)
      | .configClash n => (13, BitVec.ofNat 8 n.val, 0)) ∧
  (∀ fill, (Response.submitted fill).bytes = [0x00, BitVec.ofNat 8 fill]) ∧
  (∀ (ro : Role) (p : Pos) (c : CellRecord), ∃ hi lo : Byte, (Response.cell ro p c).bytes =
      [0x00, if ro = .shown then 0 else 1, BitVec.ofNat 8 p.row.val, BitVec.ofNat 8 p.col.val,
        match c with | .glyph _ => 0 | .zone _ => 1, hi, lo] ∧
    CellRecord.ofBits (match c with | .glyph _ => false | .zone _ => true) hi lo = some c) ∧
  (∀ (n : Station) (e : RosterEntry), (Response.rosterEntry n e).bytes =
    [0x00, BitVec.ofNat 8 n.val, e.state.code, BitVec.ofNat 8 e.silence] ++
      (if e.state = .joining then [(e.joinFrame.getD 0).extractLsb' 8 8, (e.joinFrame.getD 0).extractLsb' 0 8]
       else [0, 0])) ∧
  (∀ c : Counters, (Response.counters c).bytes = 0x00 ::
    [c.framesAccepted, c.spoilsCheck, c.spoilsFormat, c.spoilsQueueFull, c.ownAttemptsSpoiled, c.feedDropped,
      c.updatesPassed, c.sealsIgnored, c.shortFrames, c.underrunRows].flatMap
        fun v => [v.extractLsb' 8 8, v.extractLsb' 0 8]) ∧
  Response.cleared.bytes = [0x00] ∧ (∀ st, (Response.restarted st).bytes = [0x00, st.code]) ∧
  Response.full.bytes = [0x01] ∧ Response.badClass.bytes = [0x02] ∧ Response.badArg.bytes = [0x03] ∧
  Response.refused.bytes = [0x04]

/-- The command of a feed transaction is picked by its first byte: 80H collect, 01H to 08H the commands of the Formats
chapter, any other code an unknown command; and for every feed row the bytes of its transaction give that row back
with its operands (R184, R186, R197). -/
def Obligations.TransactionBytesPickCommand : Prop :=
  (∀ (c : Instr) (edge : SelectEdge), feedEdge c = some edge →
    ∃ bytes, c.transactionBytes = some bytes ∧ commandOfBytes edge bytes = some c) ∧
  (∀ (edge : SelectEdge) (args : List Byte),
    commandOfBytes edge (0x80 :: args) = some (.collect args.length edge) ∧
    commandOfBytes edge (0x01 :: args) = some (.status edge) ∧
    commandOfBytes edge (0x02 :: args) = some (.nextEvent edge) ∧
    commandOfBytes edge (0x03 :: args) = some (.submit args edge) ∧
    commandOfBytes edge (0x04 :: args) = some (.readCell args edge) ∧
    commandOfBytes edge (0x05 :: args) = some (.readRoster args edge) ∧
    commandOfBytes edge (0x06 :: args) = some (.readCounters edge) ∧
    commandOfBytes edge (0x07 :: args) = some (.clearCounters edge) ∧
    commandOfBytes edge (0x08 :: args) = some (.restart edge) ∧
    ∀ code : Byte, (code = 0 ∨ 9 ≤ code.toNat ∧ code ≠ 0x80) →
      commandOfBytes edge (code :: args) = some (.unknownCommand code edge)) ∧
  (∀ (edge : SelectEdge) (bytes : List Byte) (c : Instr), commandOfBytes edge bytes = some c →
    feedEdge c = some edge ∧ c.wellFormed = true) ∧
  ∀ edge, commandOfBytes edge [] = none

end Statements
end

