-- ==== Sys2Proof/Laws/State.lean ====
section
/-! SUPPORT. What each named operation over State leaves alone: one lemma for each operation, one equation for each
field, so that no later proof unfolds a record update. -/

namespace Sys2Proof.Machine

@[simp] theorem State.post_keeps (s : State) (e : Event) :
    (s.post e).life = s.life ∧ (s.post e).resetPinLow = s.resetPinLow ∧ (s.post e).straps = s.straps ∧
    (s.post e).config = s.config ∧ (s.post e).withdrawReason = s.withdrawReason ∧ (s.post e).gen = s.gen ∧
    (s.post e).roster = s.roster ∧ (s.post e).presenceCount = s.presenceCount ∧
    (s.post e).clashRecord = s.clashRecord ∧ (s.post e).updateQueue = s.updateQueue ∧
    (s.post e).applyEngine = s.applyEngine ∧ (s.post e).bufferX = s.bufferX ∧ (s.post e).bufferY = s.bufferY ∧
    (s.post e).shown = s.shown ∧ (s.post e).defaultsX = s.defaultsX ∧ (s.post e).defaultsY = s.defaultsY ∧
    (s.post e).dirty = s.dirty ∧ (s.post e).catchUp = s.catchUp ∧ (s.post e).leftTable = s.leftTable ∧
    (s.post e).entryRecords = s.entryRecords ∧ (s.post e).glyphMemory = s.glyphMemory ∧ (s.post e).scan = s.scan ∧
    (s.post e).arbiter = s.arbiter ∧ (s.post e).bus = s.bus ∧ (s.post e).timer = s.timer ∧ (s.post e).port = s.port ∧
    (s.post e).transaction = s.transaction ∧ (s.post e).dataOut = s.dataOut ∧ (s.post e).counters = s.counters ∧
    (s.post e).freeCount = s.freeCount ∧ (s.post e).pending = s.pending := by simp [State.post]

@[simp] theorem State.respond_keeps (s : State) (r : Response) :
    (s.respond r).life = s.life ∧ (s.respond r).resetPinLow = s.resetPinLow ∧ (s.respond r).straps = s.straps ∧
    (s.respond r).config = s.config ∧ (s.respond r).withdrawReason = s.withdrawReason ∧ (s.respond r).gen = s.gen ∧
    (s.respond r).roster = s.roster ∧ (s.respond r).presenceCount = s.presenceCount ∧
    (s.respond r).clashRecord = s.clashRecord ∧ (s.respond r).updateQueue = s.updateQueue ∧
    (s.respond r).applyEngine = s.applyEngine ∧ (s.respond r).bufferX = s.bufferX ∧
    (s.respond r).bufferY = s.bufferY ∧ (s.respond r).shown = s.shown ∧ (s.respond r).defaultsX = s.defaultsX ∧
    (s.respond r).defaultsY = s.defaultsY ∧ (s.respond r).dirty = s.dirty ∧ (s.respond r).catchUp = s.catchUp ∧
    (s.respond r).leftTable = s.leftTable ∧ (s.respond r).entryRecords = s.entryRecords ∧
    (s.respond r).glyphMemory = s.glyphMemory ∧ (s.respond r).scan = s.scan ∧ (s.respond r).arbiter = s.arbiter ∧
    (s.respond r).bus = s.bus ∧ (s.respond r).timer = s.timer ∧ (s.respond r).transaction = s.transaction ∧
    (s.respond r).dataOut = s.dataOut ∧ (s.respond r).events = s.events ∧ (s.respond r).counters = s.counters ∧
    (s.respond r).freeCount = s.freeCount ∧ (s.respond r).pending = s.pending := by simp [State.respond]

@[simp] theorem State.assertSelect_keeps (s : State) :
    s.assertSelect.life = s.life ∧ s.assertSelect.resetPinLow = s.resetPinLow ∧ s.assertSelect.straps = s.straps ∧
    s.assertSelect.config = s.config ∧ s.assertSelect.withdrawReason = s.withdrawReason ∧
    s.assertSelect.gen = s.gen ∧ s.assertSelect.roster = s.roster ∧ s.assertSelect.presenceCount = s.presenceCount ∧
    s.assertSelect.clashRecord = s.clashRecord ∧ s.assertSelect.updateQueue = s.updateQueue ∧
    s.assertSelect.applyEngine = s.applyEngine ∧ s.assertSelect.bufferX = s.bufferX ∧
    s.assertSelect.bufferY = s.bufferY ∧ s.assertSelect.shown = s.shown ∧ s.assertSelect.defaultsX = s.defaultsX ∧
    s.assertSelect.defaultsY = s.defaultsY ∧ s.assertSelect.dirty = s.dirty ∧ s.assertSelect.catchUp = s.catchUp ∧
    s.assertSelect.leftTable = s.leftTable ∧ s.assertSelect.entryRecords = s.entryRecords ∧
    s.assertSelect.glyphMemory = s.glyphMemory ∧ s.assertSelect.scan = s.scan ∧ s.assertSelect.arbiter = s.arbiter ∧
    s.assertSelect.bus = s.bus ∧ s.assertSelect.timer = s.timer ∧ s.assertSelect.port = s.port ∧
    s.assertSelect.events = s.events ∧ s.assertSelect.counters = s.counters ∧
    s.assertSelect.freeCount = s.freeCount ∧ s.assertSelect.pending = s.pending := by
  simp only [State.assertSelect]; (repeat' split) <;> simp

@[simp] theorem State.releaseSelect_keeps (s : State) (more : List Byte) :
    (s.releaseSelect more).life = s.life ∧ (s.releaseSelect more).resetPinLow = s.resetPinLow ∧
    (s.releaseSelect more).straps = s.straps ∧ (s.releaseSelect more).config = s.config ∧
    (s.releaseSelect more).withdrawReason = s.withdrawReason ∧ (s.releaseSelect more).gen = s.gen ∧
    (s.releaseSelect more).roster = s.roster ∧ (s.releaseSelect more).presenceCount = s.presenceCount ∧
    (s.releaseSelect more).clashRecord = s.clashRecord ∧ (s.releaseSelect more).updateQueue = s.updateQueue ∧
    (s.releaseSelect more).applyEngine = s.applyEngine ∧ (s.releaseSelect more).bufferX = s.bufferX ∧
    (s.releaseSelect more).bufferY = s.bufferY ∧ (s.releaseSelect more).shown = s.shown ∧
    (s.releaseSelect more).defaultsX = s.defaultsX ∧ (s.releaseSelect more).defaultsY = s.defaultsY ∧
    (s.releaseSelect more).dirty = s.dirty ∧ (s.releaseSelect more).catchUp = s.catchUp ∧
    (s.releaseSelect more).leftTable = s.leftTable ∧ (s.releaseSelect more).entryRecords = s.entryRecords ∧
    (s.releaseSelect more).glyphMemory = s.glyphMemory ∧ (s.releaseSelect more).scan = s.scan ∧
    (s.releaseSelect more).arbiter = s.arbiter ∧ (s.releaseSelect more).bus = s.bus ∧
    (s.releaseSelect more).timer = s.timer ∧ (s.releaseSelect more).port = s.port ∧
    (s.releaseSelect more).events = s.events ∧ (s.releaseSelect more).counters = s.counters ∧
    (s.releaseSelect more).freeCount = s.freeCount ∧ (s.releaseSelect more).pending = s.pending := by
  simp [State.releaseSelect]

@[simp] theorem State.writeCell_keeps (s : State) (b : BufferName) (p : Pos) (c : CellRecord) :
    (s.writeCell b p c).life = s.life ∧ (s.writeCell b p c).resetPinLow = s.resetPinLow ∧
    (s.writeCell b p c).straps = s.straps ∧ (s.writeCell b p c).config = s.config ∧
    (s.writeCell b p c).withdrawReason = s.withdrawReason ∧ (s.writeCell b p c).gen = s.gen ∧
    (s.writeCell b p c).roster = s.roster ∧ (s.writeCell b p c).presenceCount = s.presenceCount ∧
    (s.writeCell b p c).clashRecord = s.clashRecord ∧ (s.writeCell b p c).updateQueue = s.updateQueue ∧
    (s.writeCell b p c).applyEngine = s.applyEngine ∧ (s.writeCell b p c).shown = s.shown ∧
    (s.writeCell b p c).defaultsX = s.defaultsX ∧ (s.writeCell b p c).defaultsY = s.defaultsY ∧
    (s.writeCell b p c).dirty = s.dirty ∧ (s.writeCell b p c).catchUp = s.catchUp ∧
    (s.writeCell b p c).leftTable = s.leftTable ∧ (s.writeCell b p c).entryRecords = s.entryRecords ∧
    (s.writeCell b p c).glyphMemory = s.glyphMemory ∧ (s.writeCell b p c).scan = s.scan ∧
    (s.writeCell b p c).arbiter = s.arbiter ∧ (s.writeCell b p c).bus = s.bus ∧ (s.writeCell b p c).timer = s.timer ∧
    (s.writeCell b p c).port = s.port ∧ (s.writeCell b p c).transaction = s.transaction ∧
    (s.writeCell b p c).dataOut = s.dataOut ∧ (s.writeCell b p c).events = s.events ∧
    (s.writeCell b p c).counters = s.counters ∧ (s.writeCell b p c).freeCount = s.freeCount ∧
    (s.writeCell b p c).pending = s.pending := by
  cases b <;> simp [State.writeCell]

@[simp] theorem State.setBuildingDefault_keeps (s : State) (r : LocalRow) (d : ZoneRecord) :
    (s.setBuildingDefault r d).life = s.life ∧ (s.setBuildingDefault r d).resetPinLow = s.resetPinLow ∧
    (s.setBuildingDefault r d).straps = s.straps ∧ (s.setBuildingDefault r d).config = s.config ∧
    (s.setBuildingDefault r d).withdrawReason = s.withdrawReason ∧ (s.setBuildingDefault r d).gen = s.gen ∧
    (s.setBuildingDefault r d).roster = s.roster ∧ (s.setBuildingDefault r d).presenceCount = s.presenceCount ∧
    (s.setBuildingDefault r d).clashRecord = s.clashRecord ∧ (s.setBuildingDefault r d).updateQueue = s.updateQueue ∧
    (s.setBuildingDefault r d).applyEngine = s.applyEngine ∧ (s.setBuildingDefault r d).bufferX = s.bufferX ∧
    (s.setBuildingDefault r d).bufferY = s.bufferY ∧ (s.setBuildingDefault r d).shown = s.shown ∧
    (s.setBuildingDefault r d).dirty = s.dirty ∧ (s.setBuildingDefault r d).catchUp = s.catchUp ∧
    (s.setBuildingDefault r d).leftTable = s.leftTable ∧ (s.setBuildingDefault r d).entryRecords = s.entryRecords ∧
    (s.setBuildingDefault r d).glyphMemory = s.glyphMemory ∧ (s.setBuildingDefault r d).scan = s.scan ∧
    (s.setBuildingDefault r d).arbiter = s.arbiter ∧ (s.setBuildingDefault r d).bus = s.bus ∧
    (s.setBuildingDefault r d).timer = s.timer ∧ (s.setBuildingDefault r d).port = s.port ∧
    (s.setBuildingDefault r d).transaction = s.transaction ∧ (s.setBuildingDefault r d).dataOut = s.dataOut ∧
    (s.setBuildingDefault r d).events = s.events ∧ (s.setBuildingDefault r d).counters = s.counters ∧
    (s.setBuildingDefault r d).freeCount = s.freeCount ∧ (s.setBuildingDefault r d).pending = s.pending := by
  simp only [State.setBuildingDefault]; (repeat' split) <;> simp

@[simp] theorem State.grant_keeps (s : State) :
    s.grant.life = s.life ∧ s.grant.resetPinLow = s.resetPinLow ∧ s.grant.straps = s.straps ∧
    s.grant.config = s.config ∧ s.grant.withdrawReason = s.withdrawReason ∧ s.grant.gen = s.gen ∧
    s.grant.roster = s.roster ∧ s.grant.presenceCount = s.presenceCount ∧ s.grant.clashRecord = s.clashRecord ∧
    s.grant.updateQueue = s.updateQueue ∧ s.grant.applyEngine = s.applyEngine ∧ s.grant.bufferX = s.bufferX ∧
    s.grant.bufferY = s.bufferY ∧ s.grant.shown = s.shown ∧ s.grant.defaultsX = s.defaultsX ∧
    s.grant.defaultsY = s.defaultsY ∧ s.grant.dirty = s.dirty ∧ s.grant.catchUp = s.catchUp ∧
    s.grant.leftTable = s.leftTable ∧ s.grant.entryRecords = s.entryRecords ∧ s.grant.glyphMemory = s.glyphMemory ∧
    s.grant.scan = s.scan ∧ s.grant.bus = s.bus ∧ s.grant.timer = s.timer ∧ s.grant.port = s.port ∧
    s.grant.transaction = s.transaction ∧ s.grant.dataOut = s.dataOut ∧ s.grant.events = s.events ∧
    s.grant.counters = s.counters ∧ s.grant.freeCount = s.freeCount ∧ s.grant.pending = s.pending := by simp [State.grant]

@[simp] theorem State.grantRace_keeps (s : State) :
    s.grantRace.life = s.life ∧ s.grantRace.resetPinLow = s.resetPinLow ∧ s.grantRace.straps = s.straps ∧
    s.grantRace.config = s.config ∧ s.grantRace.withdrawReason = s.withdrawReason ∧ s.grantRace.gen = s.gen ∧
    s.grantRace.roster = s.roster ∧ s.grantRace.presenceCount = s.presenceCount ∧
    s.grantRace.clashRecord = s.clashRecord ∧ s.grantRace.updateQueue = s.updateQueue ∧
    s.grantRace.applyEngine = s.applyEngine ∧ s.grantRace.bufferX = s.bufferX ∧ s.grantRace.bufferY = s.bufferY ∧
    s.grantRace.shown = s.shown ∧ s.grantRace.defaultsX = s.defaultsX ∧ s.grantRace.defaultsY = s.defaultsY ∧
    s.grantRace.dirty = s.dirty ∧ s.grantRace.catchUp = s.catchUp ∧ s.grantRace.leftTable = s.leftTable ∧
    s.grantRace.entryRecords = s.entryRecords ∧ s.grantRace.glyphMemory = s.glyphMemory ∧ s.grantRace.scan = s.scan ∧
    s.grantRace.bus = s.bus ∧ s.grantRace.timer = s.timer ∧ s.grantRace.port = s.port ∧
    s.grantRace.transaction = s.transaction ∧ s.grantRace.dataOut = s.dataOut ∧ s.grantRace.events = s.events ∧
    s.grantRace.counters = s.counters ∧ s.grantRace.pending = s.pending := by
  simp only [State.grantRace]; (repeat' split) <;> simp

@[simp] theorem State.finishAccess_keeps (s : State) (acc : Access) :
    (s.finishAccess acc).life = s.life ∧ (s.finishAccess acc).resetPinLow = s.resetPinLow ∧
    (s.finishAccess acc).straps = s.straps ∧ (s.finishAccess acc).config = s.config ∧
    (s.finishAccess acc).withdrawReason = s.withdrawReason ∧ (s.finishAccess acc).gen = s.gen ∧
    (s.finishAccess acc).roster = s.roster ∧ (s.finishAccess acc).presenceCount = s.presenceCount ∧
    (s.finishAccess acc).clashRecord = s.clashRecord ∧ (s.finishAccess acc).updateQueue = s.updateQueue ∧
    (s.finishAccess acc).applyEngine = s.applyEngine ∧ (s.finishAccess acc).shown = s.shown ∧
    (s.finishAccess acc).defaultsX = s.defaultsX ∧ (s.finishAccess acc).defaultsY = s.defaultsY ∧
    (s.finishAccess acc).dirty = s.dirty ∧ (s.finishAccess acc).catchUp = s.catchUp ∧
    (s.finishAccess acc).leftTable = s.leftTable ∧ (s.finishAccess acc).entryRecords = s.entryRecords ∧
    (s.finishAccess acc).glyphMemory = s.glyphMemory ∧ (s.finishAccess acc).scan = s.scan ∧
    (s.finishAccess acc).bus = s.bus ∧ (s.finishAccess acc).timer = s.timer ∧ (s.finishAccess acc).port = s.port ∧
    (s.finishAccess acc).transaction = s.transaction ∧ (s.finishAccess acc).dataOut = s.dataOut ∧
    (s.finishAccess acc).events = s.events ∧ (s.finishAccess acc).counters = s.counters ∧
    (s.finishAccess acc).freeCount = s.freeCount ∧ (s.finishAccess acc).pending = s.pending := by
  simp only [State.finishAccess]; (repeat' split) <;> simp

@[simp] theorem State.evaluateReady_keeps (s : State) :
    s.evaluateReady.life = s.life ∧ s.evaluateReady.resetPinLow = s.resetPinLow ∧ s.evaluateReady.straps = s.straps ∧
    s.evaluateReady.config = s.config ∧ s.evaluateReady.withdrawReason = s.withdrawReason ∧
    s.evaluateReady.roster = s.roster ∧ s.evaluateReady.presenceCount = s.presenceCount ∧
    s.evaluateReady.clashRecord = s.clashRecord ∧ s.evaluateReady.updateQueue = s.updateQueue ∧
    s.evaluateReady.applyEngine = s.applyEngine ∧ s.evaluateReady.bufferX = s.bufferX ∧
    s.evaluateReady.bufferY = s.bufferY ∧ s.evaluateReady.shown = s.shown ∧ s.evaluateReady.defaultsX = s.defaultsX ∧
    s.evaluateReady.defaultsY = s.defaultsY ∧ s.evaluateReady.dirty = s.dirty ∧ s.evaluateReady.catchUp = s.catchUp ∧
    s.evaluateReady.leftTable = s.leftTable ∧ s.evaluateReady.entryRecords = s.entryRecords ∧
    s.evaluateReady.glyphMemory = s.glyphMemory ∧ s.evaluateReady.scan = s.scan ∧
    s.evaluateReady.arbiter = s.arbiter ∧ s.evaluateReady.timer = s.timer ∧ s.evaluateReady.port = s.port ∧
    s.evaluateReady.transaction = s.transaction ∧ s.evaluateReady.dataOut = s.dataOut ∧
    s.evaluateReady.events = s.events ∧ s.evaluateReady.counters = s.counters ∧
    s.evaluateReady.freeCount = s.freeCount ∧ s.evaluateReady.pending = s.pending := by
  simp only [State.evaluateReady]; (repeat' split) <;> simp

@[simp] theorem State.changeRoster_keeps (s : State) (st : StationState) (r : Roster) :
    (s.changeRoster st r).life = s.life ∧ (s.changeRoster st r).resetPinLow = s.resetPinLow ∧
    (s.changeRoster st r).straps = s.straps ∧ (s.changeRoster st r).config = s.config ∧
    (s.changeRoster st r).withdrawReason = s.withdrawReason ∧ (s.changeRoster st r).presenceCount = s.presenceCount ∧
    (s.changeRoster st r).clashRecord = s.clashRecord ∧ (s.changeRoster st r).updateQueue = s.updateQueue ∧
    (s.changeRoster st r).applyEngine = s.applyEngine ∧ (s.changeRoster st r).bufferX = s.bufferX ∧
    (s.changeRoster st r).bufferY = s.bufferY ∧ (s.changeRoster st r).shown = s.shown ∧
    (s.changeRoster st r).defaultsX = s.defaultsX ∧ (s.changeRoster st r).defaultsY = s.defaultsY ∧
    (s.changeRoster st r).dirty = s.dirty ∧ (s.changeRoster st r).catchUp = s.catchUp ∧
    (s.changeRoster st r).leftTable = s.leftTable ∧ (s.changeRoster st r).entryRecords = s.entryRecords ∧
    (s.changeRoster st r).glyphMemory = s.glyphMemory ∧ (s.changeRoster st r).scan = s.scan ∧
    (s.changeRoster st r).arbiter = s.arbiter ∧ (s.changeRoster st r).timer = s.timer ∧
    (s.changeRoster st r).port = s.port ∧ (s.changeRoster st r).transaction = s.transaction ∧
    (s.changeRoster st r).dataOut = s.dataOut ∧ (s.changeRoster st r).counters = s.counters ∧
    (s.changeRoster st r).freeCount = s.freeCount ∧ (s.changeRoster st r).pending = s.pending := by simp [State.changeRoster]

@[simp] theorem State.doStep_keeps (s : State) (a : ApplyStep) :
    (s.doStep a).life = s.life ∧ (s.doStep a).resetPinLow = s.resetPinLow ∧ (s.doStep a).straps = s.straps ∧
    (s.doStep a).config = s.config ∧ (s.doStep a).withdrawReason = s.withdrawReason ∧ (s.doStep a).gen = s.gen ∧
    (s.doStep a).roster = s.roster ∧ (s.doStep a).presenceCount = s.presenceCount ∧
    (s.doStep a).clashRecord = s.clashRecord ∧ (s.doStep a).updateQueue = s.updateQueue ∧
    (s.doStep a).applyEngine = s.applyEngine ∧ (s.doStep a).bufferX = s.bufferX ∧ (s.doStep a).bufferY = s.bufferY ∧
    (s.doStep a).shown = s.shown ∧ (s.doStep a).dirty = s.dirty ∧ (s.doStep a).catchUp = s.catchUp ∧
    (s.doStep a).entryRecords = s.entryRecords ∧ (s.doStep a).glyphMemory = s.glyphMemory ∧
    (s.doStep a).scan = s.scan ∧ (s.doStep a).arbiter = s.arbiter ∧ (s.doStep a).bus = s.bus ∧
    (s.doStep a).timer = s.timer ∧ (s.doStep a).port = s.port ∧ (s.doStep a).transaction = s.transaction ∧
    (s.doStep a).dataOut = s.dataOut ∧ (s.doStep a).events = s.events ∧ (s.doStep a).counters = s.counters ∧
    (s.doStep a).freeCount = s.freeCount ∧ (s.doStep a).pending = s.pending := by
  cases a <;> simp [State.doStep]

@[simp] theorem State.runSteps_keeps (s : State) (l : List ApplyStep) (n : Nat) :
    (s.runSteps l n).1.life = s.life ∧ (s.runSteps l n).1.resetPinLow = s.resetPinLow ∧
    (s.runSteps l n).1.straps = s.straps ∧ (s.runSteps l n).1.config = s.config ∧
    (s.runSteps l n).1.withdrawReason = s.withdrawReason ∧ (s.runSteps l n).1.gen = s.gen ∧
    (s.runSteps l n).1.roster = s.roster ∧ (s.runSteps l n).1.presenceCount = s.presenceCount ∧
    (s.runSteps l n).1.clashRecord = s.clashRecord ∧ (s.runSteps l n).1.updateQueue = s.updateQueue ∧
    (s.runSteps l n).1.applyEngine = s.applyEngine ∧ (s.runSteps l n).1.bufferX = s.bufferX ∧
    (s.runSteps l n).1.bufferY = s.bufferY ∧ (s.runSteps l n).1.shown = s.shown ∧
    (s.runSteps l n).1.dirty = s.dirty ∧ (s.runSteps l n).1.catchUp = s.catchUp ∧
    (s.runSteps l n).1.entryRecords = s.entryRecords ∧ (s.runSteps l n).1.glyphMemory = s.glyphMemory ∧
    (s.runSteps l n).1.scan = s.scan ∧ (s.runSteps l n).1.bus = s.bus ∧ (s.runSteps l n).1.timer = s.timer ∧
    (s.runSteps l n).1.port = s.port ∧ (s.runSteps l n).1.transaction = s.transaction ∧
    (s.runSteps l n).1.dataOut = s.dataOut ∧ (s.runSteps l n).1.events = s.events ∧
    (s.runSteps l n).1.counters = s.counters ∧ (s.runSteps l n).1.freeCount = s.freeCount ∧
    (s.runSteps l n).1.pending = s.pending := by
  induction l generalizing s n with
  | nil => simp [State.runSteps]
  | cons a l ih => cases a <;> simp [State.runSteps, ih]

@[simp] theorem State.takeHeads_keeps (s : State) (q : List UpdateEntry) :
    (s.takeHeads q).life = s.life ∧ (s.takeHeads q).resetPinLow = s.resetPinLow ∧ (s.takeHeads q).straps = s.straps ∧
    (s.takeHeads q).config = s.config ∧ (s.takeHeads q).withdrawReason = s.withdrawReason ∧
    (s.takeHeads q).gen = s.gen ∧ (s.takeHeads q).roster = s.roster ∧
    (s.takeHeads q).presenceCount = s.presenceCount ∧ (s.takeHeads q).clashRecord = s.clashRecord ∧
    (s.takeHeads q).bufferX = s.bufferX ∧ (s.takeHeads q).bufferY = s.bufferY ∧ (s.takeHeads q).shown = s.shown ∧
    (s.takeHeads q).dirty = s.dirty ∧ (s.takeHeads q).catchUp = s.catchUp ∧
    (s.takeHeads q).entryRecords = s.entryRecords ∧ (s.takeHeads q).glyphMemory = s.glyphMemory ∧
    (s.takeHeads q).scan = s.scan ∧ (s.takeHeads q).bus = s.bus ∧ (s.takeHeads q).timer = s.timer ∧
    (s.takeHeads q).port = s.port ∧ (s.takeHeads q).transaction = s.transaction ∧
    (s.takeHeads q).dataOut = s.dataOut ∧ (s.takeHeads q).events = s.events ∧ (s.takeHeads q).counters = s.counters ∧
    (s.takeHeads q).freeCount = s.freeCount ∧ (s.takeHeads q).pending = s.pending := by
  induction q generalizing s with
  | nil => simp [State.takeHeads]
  | cons e q ih =>
    simp only [State.takeHeads]
    split
    · have h := s.runSteps_keeps (e.update.steps s.straps s.wallColumns) 0
      split <;> simp_all
    · simp

@[simp] theorem State.resumeApply_keeps (s : State) :
    s.resumeApply.life = s.life ∧ s.resumeApply.resetPinLow = s.resetPinLow ∧ s.resumeApply.straps = s.straps ∧
    s.resumeApply.config = s.config ∧ s.resumeApply.withdrawReason = s.withdrawReason ∧ s.resumeApply.gen = s.gen ∧
    s.resumeApply.roster = s.roster ∧ s.resumeApply.presenceCount = s.presenceCount ∧
    s.resumeApply.clashRecord = s.clashRecord ∧ s.resumeApply.bufferX = s.bufferX ∧
    s.resumeApply.bufferY = s.bufferY ∧ s.resumeApply.shown = s.shown ∧ s.resumeApply.dirty = s.dirty ∧
    s.resumeApply.catchUp = s.catchUp ∧ s.resumeApply.entryRecords = s.entryRecords ∧
    s.resumeApply.glyphMemory = s.glyphMemory ∧ s.resumeApply.scan = s.scan ∧ s.resumeApply.bus = s.bus ∧
    s.resumeApply.timer = s.timer ∧ s.resumeApply.port = s.port ∧ s.resumeApply.transaction = s.transaction ∧
    s.resumeApply.dataOut = s.dataOut ∧ s.resumeApply.events = s.events ∧ s.resumeApply.counters = s.counters ∧
    s.resumeApply.freeCount = s.freeCount ∧ s.resumeApply.pending = s.pending := by
  simp only [State.resumeApply]; (repeat' split) <;> simp

@[simp] theorem State.continueEntry_keeps (s : State) (n : Nat) :
    (s.continueEntry n).life = s.life ∧ (s.continueEntry n).resetPinLow = s.resetPinLow ∧
    (s.continueEntry n).straps = s.straps ∧ (s.continueEntry n).config = s.config ∧
    (s.continueEntry n).withdrawReason = s.withdrawReason ∧ (s.continueEntry n).gen = s.gen ∧
    (s.continueEntry n).roster = s.roster ∧ (s.continueEntry n).presenceCount = s.presenceCount ∧
    (s.continueEntry n).clashRecord = s.clashRecord ∧ (s.continueEntry n).bufferX = s.bufferX ∧
    (s.continueEntry n).bufferY = s.bufferY ∧ (s.continueEntry n).shown = s.shown ∧
    (s.continueEntry n).dirty = s.dirty ∧ (s.continueEntry n).catchUp = s.catchUp ∧
    (s.continueEntry n).entryRecords = s.entryRecords ∧ (s.continueEntry n).glyphMemory = s.glyphMemory ∧
    (s.continueEntry n).scan = s.scan ∧ (s.continueEntry n).bus = s.bus ∧ (s.continueEntry n).timer = s.timer ∧
    (s.continueEntry n).port = s.port ∧ (s.continueEntry n).transaction = s.transaction ∧
    (s.continueEntry n).dataOut = s.dataOut ∧ (s.continueEntry n).events = s.events ∧
    (s.continueEntry n).counters = s.counters ∧ (s.continueEntry n).freeCount = s.freeCount ∧
    (s.continueEntry n).pending = s.pending := by
  simp only [State.continueEntry]
  split
  · simp
  · rename_i e q _
    have h := s.runSteps_keeps ((e.update.steps s.straps s.wallColumns).drop (n + 1)) (n + 1)
    split <;> simp_all

@[simp] theorem State.requestCopy_keeps (s : State) (c : CatchUp) :
    (s.requestCopy c).life = s.life ∧ (s.requestCopy c).resetPinLow = s.resetPinLow ∧
    (s.requestCopy c).straps = s.straps ∧ (s.requestCopy c).config = s.config ∧
    (s.requestCopy c).withdrawReason = s.withdrawReason ∧ (s.requestCopy c).gen = s.gen ∧
    (s.requestCopy c).roster = s.roster ∧ (s.requestCopy c).presenceCount = s.presenceCount ∧
    (s.requestCopy c).clashRecord = s.clashRecord ∧ (s.requestCopy c).updateQueue = s.updateQueue ∧
    (s.requestCopy c).applyEngine = s.applyEngine ∧ (s.requestCopy c).bufferX = s.bufferX ∧
    (s.requestCopy c).bufferY = s.bufferY ∧ (s.requestCopy c).shown = s.shown ∧
    (s.requestCopy c).defaultsX = s.defaultsX ∧ (s.requestCopy c).defaultsY = s.defaultsY ∧
    (s.requestCopy c).dirty = s.dirty ∧ (s.requestCopy c).leftTable = s.leftTable ∧
    (s.requestCopy c).entryRecords = s.entryRecords ∧ (s.requestCopy c).glyphMemory = s.glyphMemory ∧
    (s.requestCopy c).scan = s.scan ∧ (s.requestCopy c).bus = s.bus ∧ (s.requestCopy c).timer = s.timer ∧
    (s.requestCopy c).port = s.port ∧ (s.requestCopy c).transaction = s.transaction ∧
    (s.requestCopy c).dataOut = s.dataOut ∧ (s.requestCopy c).events = s.events ∧
    (s.requestCopy c).counters = s.counters ∧ (s.requestCopy c).freeCount = s.freeCount ∧
    (s.requestCopy c).pending = s.pending := by
  simp only [State.requestCopy]; (repeat' split) <;> simp

@[simp] theorem State.startCatchUp_keeps (s : State) (first : Bool) :
    (s.startCatchUp first).life = s.life ∧ (s.startCatchUp first).resetPinLow = s.resetPinLow ∧
    (s.startCatchUp first).straps = s.straps ∧ (s.startCatchUp first).config = s.config ∧
    (s.startCatchUp first).withdrawReason = s.withdrawReason ∧ (s.startCatchUp first).gen = s.gen ∧
    (s.startCatchUp first).roster = s.roster ∧ (s.startCatchUp first).presenceCount = s.presenceCount ∧
    (s.startCatchUp first).clashRecord = s.clashRecord ∧ (s.startCatchUp first).updateQueue = s.updateQueue ∧
    (s.startCatchUp first).applyEngine = s.applyEngine ∧ (s.startCatchUp first).bufferX = s.bufferX ∧
    (s.startCatchUp first).bufferY = s.bufferY ∧ (s.startCatchUp first).shown = s.shown ∧
    (s.startCatchUp first).defaultsX = s.defaultsX ∧ (s.startCatchUp first).defaultsY = s.defaultsY ∧
    (s.startCatchUp first).leftTable = s.leftTable ∧ (s.startCatchUp first).entryRecords = s.entryRecords ∧
    (s.startCatchUp first).glyphMemory = s.glyphMemory ∧ (s.startCatchUp first).scan = s.scan ∧
    (s.startCatchUp first).bus = s.bus ∧ (s.startCatchUp first).timer = s.timer ∧
    (s.startCatchUp first).port = s.port ∧ (s.startCatchUp first).transaction = s.transaction ∧
    (s.startCatchUp first).dataOut = s.dataOut ∧ (s.startCatchUp first).events = s.events ∧
    (s.startCatchUp first).counters = s.counters ∧ (s.startCatchUp first).freeCount = s.freeCount ∧
    (s.startCatchUp first).pending = s.pending := by simp [State.startCatchUp]

@[simp] theorem State.beginFrame_keeps (s : State) (k : FrameKind) :
    (s.beginFrame k).life = s.life ∧ (s.beginFrame k).resetPinLow = s.resetPinLow ∧
    (s.beginFrame k).straps = s.straps ∧ (s.beginFrame k).config = s.config ∧
    (s.beginFrame k).withdrawReason = s.withdrawReason ∧ (s.beginFrame k).gen = s.gen ∧
    (s.beginFrame k).roster = s.roster ∧ (s.beginFrame k).presenceCount = s.presenceCount ∧
    (s.beginFrame k).clashRecord = s.clashRecord ∧ (s.beginFrame k).updateQueue = s.updateQueue ∧
    (s.beginFrame k).applyEngine = s.applyEngine ∧ (s.beginFrame k).bufferX = s.bufferX ∧
    (s.beginFrame k).bufferY = s.bufferY ∧ (s.beginFrame k).shown = s.shown ∧
    (s.beginFrame k).defaultsX = s.defaultsX ∧ (s.beginFrame k).defaultsY = s.defaultsY ∧
    (s.beginFrame k).dirty = s.dirty ∧ (s.beginFrame k).catchUp = s.catchUp ∧
    (s.beginFrame k).leftTable = s.leftTable ∧ (s.beginFrame k).entryRecords = s.entryRecords ∧
    (s.beginFrame k).glyphMemory = s.glyphMemory ∧ (s.beginFrame k).arbiter = s.arbiter ∧
    (s.beginFrame k).bus = s.bus ∧ (s.beginFrame k).timer = s.timer ∧ (s.beginFrame k).port = s.port ∧
    (s.beginFrame k).transaction = s.transaction ∧ (s.beginFrame k).dataOut = s.dataOut ∧
    (s.beginFrame k).events = s.events ∧ (s.beginFrame k).counters = s.counters ∧
    (s.beginFrame k).pending = s.pending := by simp [State.beginFrame]

@[simp] theorem State.abandonFetch_keeps (s : State) :
    s.abandonFetch.life = s.life ∧ s.abandonFetch.resetPinLow = s.resetPinLow ∧ s.abandonFetch.straps = s.straps ∧
    s.abandonFetch.config = s.config ∧ s.abandonFetch.withdrawReason = s.withdrawReason ∧
    s.abandonFetch.gen = s.gen ∧ s.abandonFetch.roster = s.roster ∧ s.abandonFetch.presenceCount = s.presenceCount ∧
    s.abandonFetch.clashRecord = s.clashRecord ∧ s.abandonFetch.updateQueue = s.updateQueue ∧
    s.abandonFetch.applyEngine = s.applyEngine ∧ s.abandonFetch.bufferX = s.bufferX ∧
    s.abandonFetch.bufferY = s.bufferY ∧ s.abandonFetch.shown = s.shown ∧ s.abandonFetch.defaultsX = s.defaultsX ∧
    s.abandonFetch.defaultsY = s.defaultsY ∧ s.abandonFetch.dirty = s.dirty ∧ s.abandonFetch.catchUp = s.catchUp ∧
    s.abandonFetch.leftTable = s.leftTable ∧ s.abandonFetch.entryRecords = s.entryRecords ∧
    s.abandonFetch.glyphMemory = s.glyphMemory ∧ s.abandonFetch.bus = s.bus ∧ s.abandonFetch.timer = s.timer ∧
    s.abandonFetch.port = s.port ∧ s.abandonFetch.transaction = s.transaction ∧ s.abandonFetch.dataOut = s.dataOut ∧
    s.abandonFetch.events = s.events ∧ s.abandonFetch.counters = s.counters ∧
    s.abandonFetch.freeCount = s.freeCount ∧ s.abandonFetch.pending = s.pending := by simp [State.abandonFetch]

@[simp] theorem State.beginFetch_keeps (s : State) (r : LocalRow) :
    (s.beginFetch r).life = s.life ∧ (s.beginFetch r).resetPinLow = s.resetPinLow ∧
    (s.beginFetch r).straps = s.straps ∧ (s.beginFetch r).config = s.config ∧
    (s.beginFetch r).withdrawReason = s.withdrawReason ∧ (s.beginFetch r).gen = s.gen ∧
    (s.beginFetch r).roster = s.roster ∧ (s.beginFetch r).presenceCount = s.presenceCount ∧
    (s.beginFetch r).clashRecord = s.clashRecord ∧ (s.beginFetch r).updateQueue = s.updateQueue ∧
    (s.beginFetch r).applyEngine = s.applyEngine ∧ (s.beginFetch r).bufferX = s.bufferX ∧
    (s.beginFetch r).bufferY = s.bufferY ∧ (s.beginFetch r).shown = s.shown ∧
    (s.beginFetch r).defaultsX = s.defaultsX ∧ (s.beginFetch r).defaultsY = s.defaultsY ∧
    (s.beginFetch r).dirty = s.dirty ∧ (s.beginFetch r).catchUp = s.catchUp ∧
    (s.beginFetch r).leftTable = s.leftTable ∧ (s.beginFetch r).entryRecords = s.entryRecords ∧
    (s.beginFetch r).glyphMemory = s.glyphMemory ∧ (s.beginFetch r).bus = s.bus ∧ (s.beginFetch r).timer = s.timer ∧
    (s.beginFetch r).port = s.port ∧ (s.beginFetch r).transaction = s.transaction ∧
    (s.beginFetch r).dataOut = s.dataOut ∧ (s.beginFetch r).events = s.events ∧
    (s.beginFetch r).counters = s.counters ∧ (s.beginFetch r).freeCount = s.freeCount ∧
    (s.beginFetch r).pending = s.pending := by simp [State.beginFetch]

@[simp] theorem State.countUnderrun_keeps (s : State) :
    s.countUnderrun.life = s.life ∧ s.countUnderrun.resetPinLow = s.resetPinLow ∧ s.countUnderrun.straps = s.straps ∧
    s.countUnderrun.config = s.config ∧ s.countUnderrun.withdrawReason = s.withdrawReason ∧
    s.countUnderrun.gen = s.gen ∧ s.countUnderrun.roster = s.roster ∧
    s.countUnderrun.presenceCount = s.presenceCount ∧ s.countUnderrun.clashRecord = s.clashRecord ∧
    s.countUnderrun.updateQueue = s.updateQueue ∧ s.countUnderrun.applyEngine = s.applyEngine ∧
    s.countUnderrun.bufferX = s.bufferX ∧ s.countUnderrun.bufferY = s.bufferY ∧ s.countUnderrun.shown = s.shown ∧
    s.countUnderrun.defaultsX = s.defaultsX ∧ s.countUnderrun.defaultsY = s.defaultsY ∧
    s.countUnderrun.dirty = s.dirty ∧ s.countUnderrun.catchUp = s.catchUp ∧ s.countUnderrun.leftTable = s.leftTable ∧
    s.countUnderrun.entryRecords = s.entryRecords ∧ s.countUnderrun.glyphMemory = s.glyphMemory ∧
    s.countUnderrun.bus = s.bus ∧ s.countUnderrun.timer = s.timer ∧ s.countUnderrun.port = s.port ∧
    s.countUnderrun.transaction = s.transaction ∧ s.countUnderrun.dataOut = s.dataOut ∧
    s.countUnderrun.freeCount = s.freeCount ∧ s.countUnderrun.pending = s.pending := by simp [State.countUnderrun]

@[simp] theorem State.enterRow_keeps (s : State) (r : LocalRow) :
    (s.enterRow r).life = s.life ∧ (s.enterRow r).resetPinLow = s.resetPinLow ∧ (s.enterRow r).straps = s.straps ∧
    (s.enterRow r).config = s.config ∧ (s.enterRow r).withdrawReason = s.withdrawReason ∧
    (s.enterRow r).gen = s.gen ∧ (s.enterRow r).roster = s.roster ∧ (s.enterRow r).presenceCount = s.presenceCount ∧
    (s.enterRow r).clashRecord = s.clashRecord ∧ (s.enterRow r).updateQueue = s.updateQueue ∧
    (s.enterRow r).applyEngine = s.applyEngine ∧ (s.enterRow r).bufferX = s.bufferX ∧
    (s.enterRow r).bufferY = s.bufferY ∧ (s.enterRow r).shown = s.shown ∧ (s.enterRow r).defaultsX = s.defaultsX ∧
    (s.enterRow r).defaultsY = s.defaultsY ∧ (s.enterRow r).dirty = s.dirty ∧ (s.enterRow r).catchUp = s.catchUp ∧
    (s.enterRow r).leftTable = s.leftTable ∧ (s.enterRow r).entryRecords = s.entryRecords ∧
    (s.enterRow r).glyphMemory = s.glyphMemory ∧ (s.enterRow r).arbiter = s.arbiter ∧ (s.enterRow r).bus = s.bus ∧
    (s.enterRow r).timer = s.timer ∧ (s.enterRow r).port = s.port ∧ (s.enterRow r).transaction = s.transaction ∧
    (s.enterRow r).dataOut = s.dataOut ∧ (s.enterRow r).events = s.events ∧ (s.enterRow r).counters = s.counters ∧
    (s.enterRow r).freeCount = s.freeCount ∧ (s.enterRow r).pending = s.pending := by simp [State.enterRow]

@[simp] theorem State.noteUnderrun_keeps (s : State) :
    s.noteUnderrun.life = s.life ∧ s.noteUnderrun.resetPinLow = s.resetPinLow ∧ s.noteUnderrun.straps = s.straps ∧
    s.noteUnderrun.config = s.config ∧ s.noteUnderrun.withdrawReason = s.withdrawReason ∧
    s.noteUnderrun.gen = s.gen ∧ s.noteUnderrun.roster = s.roster ∧ s.noteUnderrun.presenceCount = s.presenceCount ∧
    s.noteUnderrun.clashRecord = s.clashRecord ∧ s.noteUnderrun.updateQueue = s.updateQueue ∧
    s.noteUnderrun.applyEngine = s.applyEngine ∧ s.noteUnderrun.bufferX = s.bufferX ∧
    s.noteUnderrun.bufferY = s.bufferY ∧ s.noteUnderrun.shown = s.shown ∧ s.noteUnderrun.defaultsX = s.defaultsX ∧
    s.noteUnderrun.defaultsY = s.defaultsY ∧ s.noteUnderrun.dirty = s.dirty ∧ s.noteUnderrun.catchUp = s.catchUp ∧
    s.noteUnderrun.leftTable = s.leftTable ∧ s.noteUnderrun.entryRecords = s.entryRecords ∧
    s.noteUnderrun.glyphMemory = s.glyphMemory ∧ s.noteUnderrun.bus = s.bus ∧ s.noteUnderrun.timer = s.timer ∧
    s.noteUnderrun.port = s.port ∧ s.noteUnderrun.transaction = s.transaction ∧ s.noteUnderrun.dataOut = s.dataOut ∧
    s.noteUnderrun.freeCount = s.freeCount ∧ s.noteUnderrun.pending = s.pending := by
  simp only [State.noteUnderrun]; (repeat' split) <;> simp

@[simp] theorem State.enterTail_keeps (s : State) :
    s.enterTail.life = s.life ∧ s.enterTail.resetPinLow = s.resetPinLow ∧ s.enterTail.straps = s.straps ∧
    s.enterTail.config = s.config ∧ s.enterTail.withdrawReason = s.withdrawReason ∧ s.enterTail.gen = s.gen ∧
    s.enterTail.roster = s.roster ∧ s.enterTail.presenceCount = s.presenceCount ∧
    s.enterTail.clashRecord = s.clashRecord ∧ s.enterTail.updateQueue = s.updateQueue ∧
    s.enterTail.applyEngine = s.applyEngine ∧ s.enterTail.bufferX = s.bufferX ∧ s.enterTail.bufferY = s.bufferY ∧
    s.enterTail.shown = s.shown ∧ s.enterTail.defaultsX = s.defaultsX ∧ s.enterTail.defaultsY = s.defaultsY ∧
    s.enterTail.dirty = s.dirty ∧ s.enterTail.catchUp = s.catchUp ∧ s.enterTail.leftTable = s.leftTable ∧
    s.enterTail.entryRecords = s.entryRecords ∧ s.enterTail.glyphMemory = s.glyphMemory ∧
    s.enterTail.arbiter = s.arbiter ∧ s.enterTail.bus = s.bus ∧ s.enterTail.timer = s.timer ∧
    s.enterTail.port = s.port ∧ s.enterTail.transaction = s.transaction ∧ s.enterTail.dataOut = s.dataOut ∧
    s.enterTail.events = s.events ∧ s.enterTail.counters = s.counters ∧ s.enterTail.freeCount = s.freeCount ∧
    s.enterTail.pending = s.pending := by simp [State.enterTail]

@[simp] theorem State.takeOver_keeps (s : State) (r : LocalRow) :
    (s.takeOver r).life = s.life ∧ (s.takeOver r).resetPinLow = s.resetPinLow ∧ (s.takeOver r).straps = s.straps ∧
    (s.takeOver r).config = s.config ∧ (s.takeOver r).withdrawReason = s.withdrawReason ∧
    (s.takeOver r).gen = s.gen ∧ (s.takeOver r).roster = s.roster ∧ (s.takeOver r).presenceCount = s.presenceCount ∧
    (s.takeOver r).clashRecord = s.clashRecord ∧ (s.takeOver r).updateQueue = s.updateQueue ∧
    (s.takeOver r).applyEngine = s.applyEngine ∧ (s.takeOver r).bufferX = s.bufferX ∧
    (s.takeOver r).bufferY = s.bufferY ∧ (s.takeOver r).shown = s.shown ∧ (s.takeOver r).defaultsX = s.defaultsX ∧
    (s.takeOver r).defaultsY = s.defaultsY ∧ (s.takeOver r).dirty = s.dirty ∧ (s.takeOver r).catchUp = s.catchUp ∧
    (s.takeOver r).leftTable = s.leftTable ∧ (s.takeOver r).entryRecords = s.entryRecords ∧
    (s.takeOver r).glyphMemory = s.glyphMemory ∧ (s.takeOver r).arbiter = s.arbiter ∧ (s.takeOver r).bus = s.bus ∧
    (s.takeOver r).timer = s.timer ∧ (s.takeOver r).port = s.port ∧ (s.takeOver r).transaction = s.transaction ∧
    (s.takeOver r).dataOut = s.dataOut ∧ (s.takeOver r).events = s.events ∧ (s.takeOver r).counters = s.counters ∧
    (s.takeOver r).freeCount = s.freeCount ∧ (s.takeOver r).pending = s.pending := by simp [State.takeOver]

@[simp] theorem State.fetchAfter_keeps (s : State) (r : LocalRow) :
    (s.fetchAfter r).life = s.life ∧ (s.fetchAfter r).resetPinLow = s.resetPinLow ∧
    (s.fetchAfter r).straps = s.straps ∧ (s.fetchAfter r).config = s.config ∧
    (s.fetchAfter r).withdrawReason = s.withdrawReason ∧ (s.fetchAfter r).gen = s.gen ∧
    (s.fetchAfter r).roster = s.roster ∧ (s.fetchAfter r).presenceCount = s.presenceCount ∧
    (s.fetchAfter r).clashRecord = s.clashRecord ∧ (s.fetchAfter r).updateQueue = s.updateQueue ∧
    (s.fetchAfter r).applyEngine = s.applyEngine ∧ (s.fetchAfter r).bufferX = s.bufferX ∧
    (s.fetchAfter r).bufferY = s.bufferY ∧ (s.fetchAfter r).shown = s.shown ∧
    (s.fetchAfter r).defaultsX = s.defaultsX ∧ (s.fetchAfter r).defaultsY = s.defaultsY ∧
    (s.fetchAfter r).dirty = s.dirty ∧ (s.fetchAfter r).catchUp = s.catchUp ∧
    (s.fetchAfter r).leftTable = s.leftTable ∧ (s.fetchAfter r).entryRecords = s.entryRecords ∧
    (s.fetchAfter r).glyphMemory = s.glyphMemory ∧ (s.fetchAfter r).bus = s.bus ∧ (s.fetchAfter r).timer = s.timer ∧
    (s.fetchAfter r).port = s.port ∧ (s.fetchAfter r).transaction = s.transaction ∧
    (s.fetchAfter r).dataOut = s.dataOut ∧ (s.fetchAfter r).events = s.events ∧
    (s.fetchAfter r).counters = s.counters ∧ (s.fetchAfter r).freeCount = s.freeCount ∧
    (s.fetchAfter r).pending = s.pending := by
  simp only [State.fetchAfter]; (repeat' split) <;> simp

@[simp] theorem State.rowFetched_keeps (s : State) (acc : Access) :
    (s.rowFetched acc).life = s.life ∧ (s.rowFetched acc).resetPinLow = s.resetPinLow ∧
    (s.rowFetched acc).straps = s.straps ∧ (s.rowFetched acc).config = s.config ∧
    (s.rowFetched acc).withdrawReason = s.withdrawReason ∧ (s.rowFetched acc).gen = s.gen ∧
    (s.rowFetched acc).roster = s.roster ∧ (s.rowFetched acc).presenceCount = s.presenceCount ∧
    (s.rowFetched acc).clashRecord = s.clashRecord ∧ (s.rowFetched acc).updateQueue = s.updateQueue ∧
    (s.rowFetched acc).applyEngine = s.applyEngine ∧ (s.rowFetched acc).shown = s.shown ∧
    (s.rowFetched acc).defaultsX = s.defaultsX ∧ (s.rowFetched acc).defaultsY = s.defaultsY ∧
    (s.rowFetched acc).dirty = s.dirty ∧ (s.rowFetched acc).catchUp = s.catchUp ∧
    (s.rowFetched acc).leftTable = s.leftTable ∧ (s.rowFetched acc).entryRecords = s.entryRecords ∧
    (s.rowFetched acc).glyphMemory = s.glyphMemory ∧ (s.rowFetched acc).bus = s.bus ∧
    (s.rowFetched acc).timer = s.timer ∧ (s.rowFetched acc).port = s.port ∧
    (s.rowFetched acc).transaction = s.transaction ∧ (s.rowFetched acc).dataOut = s.dataOut ∧
    (s.rowFetched acc).events = s.events ∧ (s.rowFetched acc).counters = s.counters ∧
    (s.rowFetched acc).freeCount = s.freeCount ∧ (s.rowFetched acc).pending = s.pending := by
  simp only [State.rowFetched]; (repeat' split) <;> simp

@[simp] theorem State.displayRow_keeps (s : State) (r : LocalRow) :
    (s.displayRow r).life = s.life ∧ (s.displayRow r).resetPinLow = s.resetPinLow ∧
    (s.displayRow r).straps = s.straps ∧ (s.displayRow r).config = s.config ∧
    (s.displayRow r).withdrawReason = s.withdrawReason ∧ (s.displayRow r).gen = s.gen ∧
    (s.displayRow r).roster = s.roster ∧ (s.displayRow r).presenceCount = s.presenceCount ∧
    (s.displayRow r).clashRecord = s.clashRecord ∧ (s.displayRow r).updateQueue = s.updateQueue ∧
    (s.displayRow r).applyEngine = s.applyEngine ∧ (s.displayRow r).bufferX = s.bufferX ∧
    (s.displayRow r).bufferY = s.bufferY ∧ (s.displayRow r).shown = s.shown ∧
    (s.displayRow r).defaultsX = s.defaultsX ∧ (s.displayRow r).defaultsY = s.defaultsY ∧
    (s.displayRow r).dirty = s.dirty ∧ (s.displayRow r).catchUp = s.catchUp ∧
    (s.displayRow r).leftTable = s.leftTable ∧ (s.displayRow r).entryRecords = s.entryRecords ∧
    (s.displayRow r).glyphMemory = s.glyphMemory ∧ (s.displayRow r).bus = s.bus ∧ (s.displayRow r).timer = s.timer ∧
    (s.displayRow r).port = s.port ∧ (s.displayRow r).transaction = s.transaction ∧
    (s.displayRow r).dataOut = s.dataOut ∧ (s.displayRow r).freeCount = s.freeCount ∧
    (s.displayRow r).pending = s.pending := by
  simp only [State.displayRow]; (repeat' split) <;> simp

@[simp] theorem State.beginLine_keeps (s : State) (r : LocalRow) (l : Fin 16) :
    (s.beginLine r l).life = s.life ∧ (s.beginLine r l).resetPinLow = s.resetPinLow ∧
    (s.beginLine r l).straps = s.straps ∧ (s.beginLine r l).config = s.config ∧
    (s.beginLine r l).withdrawReason = s.withdrawReason ∧ (s.beginLine r l).gen = s.gen ∧
    (s.beginLine r l).roster = s.roster ∧ (s.beginLine r l).presenceCount = s.presenceCount ∧
    (s.beginLine r l).clashRecord = s.clashRecord ∧ (s.beginLine r l).updateQueue = s.updateQueue ∧
    (s.beginLine r l).applyEngine = s.applyEngine ∧ (s.beginLine r l).bufferX = s.bufferX ∧
    (s.beginLine r l).bufferY = s.bufferY ∧ (s.beginLine r l).shown = s.shown ∧
    (s.beginLine r l).defaultsX = s.defaultsX ∧ (s.beginLine r l).defaultsY = s.defaultsY ∧
    (s.beginLine r l).dirty = s.dirty ∧ (s.beginLine r l).catchUp = s.catchUp ∧
    (s.beginLine r l).leftTable = s.leftTable ∧ (s.beginLine r l).entryRecords = s.entryRecords ∧
    (s.beginLine r l).glyphMemory = s.glyphMemory ∧ (s.beginLine r l).arbiter = s.arbiter ∧
    (s.beginLine r l).bus = s.bus ∧ (s.beginLine r l).timer = s.timer ∧ (s.beginLine r l).port = s.port ∧
    (s.beginLine r l).transaction = s.transaction ∧ (s.beginLine r l).dataOut = s.dataOut ∧
    (s.beginLine r l).events = s.events ∧ (s.beginLine r l).counters = s.counters ∧
    (s.beginLine r l).freeCount = s.freeCount ∧ (s.beginLine r l).pending = s.pending := by
  simp only [State.beginLine]; (repeat' split) <;> simp

@[simp] theorem State.beginTail_keeps (s : State) :
    s.beginTail.life = s.life ∧ s.beginTail.resetPinLow = s.resetPinLow ∧ s.beginTail.straps = s.straps ∧
    s.beginTail.config = s.config ∧ s.beginTail.withdrawReason = s.withdrawReason ∧ s.beginTail.gen = s.gen ∧
    s.beginTail.roster = s.roster ∧ s.beginTail.presenceCount = s.presenceCount ∧
    s.beginTail.clashRecord = s.clashRecord ∧ s.beginTail.updateQueue = s.updateQueue ∧
    s.beginTail.applyEngine = s.applyEngine ∧ s.beginTail.bufferX = s.bufferX ∧ s.beginTail.bufferY = s.bufferY ∧
    s.beginTail.shown = s.shown ∧ s.beginTail.defaultsX = s.defaultsX ∧ s.beginTail.defaultsY = s.defaultsY ∧
    s.beginTail.dirty = s.dirty ∧ s.beginTail.catchUp = s.catchUp ∧ s.beginTail.leftTable = s.leftTable ∧
    s.beginTail.entryRecords = s.entryRecords ∧ s.beginTail.glyphMemory = s.glyphMemory ∧ s.beginTail.bus = s.bus ∧
    s.beginTail.timer = s.timer ∧ s.beginTail.port = s.port ∧ s.beginTail.transaction = s.transaction ∧
    s.beginTail.dataOut = s.dataOut ∧ s.beginTail.events = s.events ∧ s.beginTail.counters = s.counters ∧
    s.beginTail.freeCount = s.freeCount ∧ s.beginTail.pending = s.pending := by
  simp only [State.beginTail]; (repeat' split) <;> simp

@[simp] theorem State.standDown_keeps (s : State) :
    s.standDown.life = s.life ∧ s.standDown.resetPinLow = s.resetPinLow ∧ s.standDown.straps = s.straps ∧
    s.standDown.config = s.config ∧ s.standDown.withdrawReason = s.withdrawReason ∧ s.standDown.gen = s.gen ∧
    s.standDown.clashRecord = s.clashRecord ∧ s.standDown.bufferX = s.bufferX ∧ s.standDown.bufferY = s.bufferY ∧
    s.standDown.shown = s.shown ∧ s.standDown.defaultsX = s.defaultsX ∧ s.standDown.defaultsY = s.defaultsY ∧
    s.standDown.dirty = s.dirty ∧ s.standDown.leftTable = s.leftTable ∧ s.standDown.entryRecords = s.entryRecords ∧
    s.standDown.glyphMemory = s.glyphMemory ∧ s.standDown.timer = s.timer ∧ s.standDown.transaction = s.transaction ∧
    s.standDown.dataOut = s.dataOut ∧ s.standDown.counters = s.counters ∧ s.standDown.freeCount = s.freeCount ∧
    s.standDown.pending = s.pending := by simp [State.standDown]

@[simp] theorem State.enterDark_keeps (s : State) (st : StationState) (r : WithdrawReason) :
    (s.enterDark st r).resetPinLow = s.resetPinLow ∧ (s.enterDark st r).straps = s.straps ∧
    (s.enterDark st r).config = s.config ∧ (s.enterDark st r).gen = s.gen ∧
    (s.enterDark st r).clashRecord = s.clashRecord ∧ (s.enterDark st r).bufferX = s.bufferX ∧
    (s.enterDark st r).bufferY = s.bufferY ∧ (s.enterDark st r).shown = s.shown ∧
    (s.enterDark st r).defaultsX = s.defaultsX ∧ (s.enterDark st r).defaultsY = s.defaultsY ∧
    (s.enterDark st r).dirty = s.dirty ∧ (s.enterDark st r).leftTable = s.leftTable ∧
    (s.enterDark st r).entryRecords = s.entryRecords ∧ (s.enterDark st r).glyphMemory = s.glyphMemory ∧
    (s.enterDark st r).timer = s.timer ∧ (s.enterDark st r).transaction = s.transaction ∧
    (s.enterDark st r).dataOut = s.dataOut ∧ (s.enterDark st r).counters = s.counters ∧
    (s.enterDark st r).pending = s.pending := by
  simp only [State.enterDark]; (repeat' split) <;> simp

@[simp] theorem State.withdraw_keeps (s : State) (r : WithdrawReason) :
    (s.withdraw r).resetPinLow = s.resetPinLow ∧ (s.withdraw r).straps = s.straps ∧
    (s.withdraw r).config = s.config ∧ (s.withdraw r).gen = s.gen ∧ (s.withdraw r).clashRecord = s.clashRecord ∧
    (s.withdraw r).bufferX = s.bufferX ∧ (s.withdraw r).bufferY = s.bufferY ∧ (s.withdraw r).shown = s.shown ∧
    (s.withdraw r).defaultsX = s.defaultsX ∧ (s.withdraw r).defaultsY = s.defaultsY ∧
    (s.withdraw r).dirty = s.dirty ∧ (s.withdraw r).leftTable = s.leftTable ∧
    (s.withdraw r).entryRecords = s.entryRecords ∧ (s.withdraw r).glyphMemory = s.glyphMemory ∧
    (s.withdraw r).transaction = s.transaction ∧ (s.withdraw r).dataOut = s.dataOut ∧
    (s.withdraw r).counters = s.counters ∧ (s.withdraw r).pending = s.pending := by simp [State.withdraw]

@[simp] theorem State.becomeClashed_keeps (s : State) :
    s.becomeClashed.resetPinLow = s.resetPinLow ∧ s.becomeClashed.straps = s.straps ∧
    s.becomeClashed.config = s.config ∧ s.becomeClashed.gen = s.gen ∧ s.becomeClashed.clashRecord = s.clashRecord ∧
    s.becomeClashed.bufferX = s.bufferX ∧ s.becomeClashed.bufferY = s.bufferY ∧ s.becomeClashed.shown = s.shown ∧
    s.becomeClashed.defaultsX = s.defaultsX ∧ s.becomeClashed.defaultsY = s.defaultsY ∧
    s.becomeClashed.dirty = s.dirty ∧ s.becomeClashed.leftTable = s.leftTable ∧
    s.becomeClashed.entryRecords = s.entryRecords ∧ s.becomeClashed.glyphMemory = s.glyphMemory ∧
    s.becomeClashed.transaction = s.transaction ∧ s.becomeClashed.dataOut = s.dataOut ∧
    s.becomeClashed.counters = s.counters ∧ s.becomeClashed.pending = s.pending := by simp [State.becomeClashed]

@[simp] theorem State.enterListening_keeps (s : State) (r : StateReason) :
    (s.enterListening r).resetPinLow = s.resetPinLow ∧ (s.enterListening r).straps = s.straps ∧
    (s.enterListening r).config = s.config ∧ (s.enterListening r).withdrawReason = s.withdrawReason ∧
    (s.enterListening r).clashRecord = s.clashRecord ∧ (s.enterListening r).glyphMemory = s.glyphMemory ∧
    (s.enterListening r).port = s.port ∧ (s.enterListening r).transaction = s.transaction ∧
    (s.enterListening r).dataOut = s.dataOut ∧ (s.enterListening r).counters = s.counters ∧
    (s.enterListening r).freeCount = s.freeCount ∧ (s.enterListening r).pending = s.pending := by simp [State.enterListening]

@[simp] theorem State.enterLeaving_keeps (s : State) (o : LeavingOrigin) :
    (s.enterLeaving o).resetPinLow = s.resetPinLow ∧ (s.enterLeaving o).straps = s.straps ∧
    (s.enterLeaving o).config = s.config ∧ (s.enterLeaving o).withdrawReason = s.withdrawReason ∧
    (s.enterLeaving o).gen = s.gen ∧ (s.enterLeaving o).roster = s.roster ∧
    (s.enterLeaving o).presenceCount = s.presenceCount ∧ (s.enterLeaving o).clashRecord = s.clashRecord ∧
    (s.enterLeaving o).updateQueue = s.updateQueue ∧ (s.enterLeaving o).applyEngine = s.applyEngine ∧
    (s.enterLeaving o).bufferX = s.bufferX ∧ (s.enterLeaving o).bufferY = s.bufferY ∧
    (s.enterLeaving o).shown = s.shown ∧ (s.enterLeaving o).defaultsX = s.defaultsX ∧
    (s.enterLeaving o).defaultsY = s.defaultsY ∧ (s.enterLeaving o).dirty = s.dirty ∧
    (s.enterLeaving o).catchUp = s.catchUp ∧ (s.enterLeaving o).leftTable = s.leftTable ∧
    (s.enterLeaving o).entryRecords = s.entryRecords ∧ (s.enterLeaving o).glyphMemory = s.glyphMemory ∧
    (s.enterLeaving o).scan = s.scan ∧ (s.enterLeaving o).arbiter = s.arbiter ∧ (s.enterLeaving o).timer = s.timer ∧
    (s.enterLeaving o).port = s.port ∧ (s.enterLeaving o).transaction = s.transaction ∧
    (s.enterLeaving o).dataOut = s.dataOut ∧ (s.enterLeaving o).counters = s.counters ∧
    (s.enterLeaving o).freeCount = s.freeCount ∧ (s.enterLeaving o).pending = s.pending := by simp [State.enterLeaving]

@[simp] theorem State.restartTimer_keeps (s : State) :
    s.restartTimer.life = s.life ∧ s.restartTimer.resetPinLow = s.resetPinLow ∧ s.restartTimer.straps = s.straps ∧
    s.restartTimer.config = s.config ∧ s.restartTimer.withdrawReason = s.withdrawReason ∧
    s.restartTimer.gen = s.gen ∧ s.restartTimer.roster = s.roster ∧ s.restartTimer.presenceCount = s.presenceCount ∧
    s.restartTimer.clashRecord = s.clashRecord ∧ s.restartTimer.updateQueue = s.updateQueue ∧
    s.restartTimer.applyEngine = s.applyEngine ∧ s.restartTimer.bufferX = s.bufferX ∧
    s.restartTimer.bufferY = s.bufferY ∧ s.restartTimer.shown = s.shown ∧ s.restartTimer.defaultsX = s.defaultsX ∧
    s.restartTimer.defaultsY = s.defaultsY ∧ s.restartTimer.dirty = s.dirty ∧ s.restartTimer.catchUp = s.catchUp ∧
    s.restartTimer.leftTable = s.leftTable ∧ s.restartTimer.entryRecords = s.entryRecords ∧
    s.restartTimer.glyphMemory = s.glyphMemory ∧ s.restartTimer.scan = s.scan ∧ s.restartTimer.arbiter = s.arbiter ∧
    s.restartTimer.bus = s.bus ∧ s.restartTimer.port = s.port ∧ s.restartTimer.transaction = s.transaction ∧
    s.restartTimer.dataOut = s.dataOut ∧ s.restartTimer.events = s.events ∧ s.restartTimer.counters = s.counters ∧
    s.restartTimer.freeCount = s.freeCount ∧ s.restartTimer.pending = s.pending := by simp [State.restartTimer]

@[simp] theorem State.setBeaconPending_keeps (s : State) :
    s.setBeaconPending.life = s.life ∧ s.setBeaconPending.resetPinLow = s.resetPinLow ∧
    s.setBeaconPending.straps = s.straps ∧ s.setBeaconPending.config = s.config ∧
    s.setBeaconPending.withdrawReason = s.withdrawReason ∧ s.setBeaconPending.gen = s.gen ∧
    s.setBeaconPending.roster = s.roster ∧ s.setBeaconPending.presenceCount = s.presenceCount ∧
    s.setBeaconPending.clashRecord = s.clashRecord ∧ s.setBeaconPending.updateQueue = s.updateQueue ∧
    s.setBeaconPending.applyEngine = s.applyEngine ∧ s.setBeaconPending.bufferX = s.bufferX ∧
    s.setBeaconPending.bufferY = s.bufferY ∧ s.setBeaconPending.shown = s.shown ∧
    s.setBeaconPending.defaultsX = s.defaultsX ∧ s.setBeaconPending.defaultsY = s.defaultsY ∧
    s.setBeaconPending.dirty = s.dirty ∧ s.setBeaconPending.catchUp = s.catchUp ∧
    s.setBeaconPending.leftTable = s.leftTable ∧ s.setBeaconPending.entryRecords = s.entryRecords ∧
    s.setBeaconPending.glyphMemory = s.glyphMemory ∧ s.setBeaconPending.scan = s.scan ∧
    s.setBeaconPending.arbiter = s.arbiter ∧ s.setBeaconPending.timer = s.timer ∧ s.setBeaconPending.port = s.port ∧
    s.setBeaconPending.transaction = s.transaction ∧ s.setBeaconPending.dataOut = s.dataOut ∧
    s.setBeaconPending.events = s.events ∧ s.setBeaconPending.counters = s.counters ∧
    s.setBeaconPending.freeCount = s.freeCount ∧ s.setBeaconPending.pending = s.pending := by simp [State.setBeaconPending]

@[simp] theorem State.listeningExpiry_keeps (s : State) :
    s.listeningExpiry.life = s.life ∧ s.listeningExpiry.resetPinLow = s.resetPinLow ∧
    s.listeningExpiry.straps = s.straps ∧ s.listeningExpiry.config = s.config ∧
    s.listeningExpiry.withdrawReason = s.withdrawReason ∧ s.listeningExpiry.gen = s.gen ∧
    s.listeningExpiry.roster = s.roster ∧ s.listeningExpiry.presenceCount = s.presenceCount ∧
    s.listeningExpiry.clashRecord = s.clashRecord ∧ s.listeningExpiry.updateQueue = s.updateQueue ∧
    s.listeningExpiry.applyEngine = s.applyEngine ∧ s.listeningExpiry.bufferX = s.bufferX ∧
    s.listeningExpiry.bufferY = s.bufferY ∧ s.listeningExpiry.shown = s.shown ∧
    s.listeningExpiry.defaultsX = s.defaultsX ∧ s.listeningExpiry.defaultsY = s.defaultsY ∧
    s.listeningExpiry.dirty = s.dirty ∧ s.listeningExpiry.catchUp = s.catchUp ∧
    s.listeningExpiry.leftTable = s.leftTable ∧ s.listeningExpiry.entryRecords = s.entryRecords ∧
    s.listeningExpiry.glyphMemory = s.glyphMemory ∧ s.listeningExpiry.scan = s.scan ∧
    s.listeningExpiry.arbiter = s.arbiter ∧ s.listeningExpiry.port = s.port ∧
    s.listeningExpiry.transaction = s.transaction ∧ s.listeningExpiry.dataOut = s.dataOut ∧
    s.listeningExpiry.events = s.events ∧ s.listeningExpiry.counters = s.counters ∧
    s.listeningExpiry.freeCount = s.freeCount ∧ s.listeningExpiry.pending = s.pending := by
  simp only [State.listeningExpiry]; (repeat' split) <;> simp

@[simp] theorem State.takeBeacon_keeps (s : State) (m : BeaconFields) :
    (s.takeBeacon m).life = s.life ∧ (s.takeBeacon m).resetPinLow = s.resetPinLow ∧
    (s.takeBeacon m).straps = s.straps ∧ (s.takeBeacon m).config = s.config ∧
    (s.takeBeacon m).withdrawReason = s.withdrawReason ∧ (s.takeBeacon m).gen = s.gen ∧
    (s.takeBeacon m).roster = s.roster ∧ (s.takeBeacon m).presenceCount = s.presenceCount ∧
    (s.takeBeacon m).clashRecord = s.clashRecord ∧ (s.takeBeacon m).updateQueue = s.updateQueue ∧
    (s.takeBeacon m).applyEngine = s.applyEngine ∧ (s.takeBeacon m).bufferX = s.bufferX ∧
    (s.takeBeacon m).bufferY = s.bufferY ∧ (s.takeBeacon m).shown = s.shown ∧
    (s.takeBeacon m).defaultsX = s.defaultsX ∧ (s.takeBeacon m).defaultsY = s.defaultsY ∧
    (s.takeBeacon m).dirty = s.dirty ∧ (s.takeBeacon m).catchUp = s.catchUp ∧
    (s.takeBeacon m).leftTable = s.leftTable ∧ (s.takeBeacon m).entryRecords = s.entryRecords ∧
    (s.takeBeacon m).glyphMemory = s.glyphMemory ∧ (s.takeBeacon m).scan = s.scan ∧
    (s.takeBeacon m).arbiter = s.arbiter ∧ (s.takeBeacon m).port = s.port ∧
    (s.takeBeacon m).transaction = s.transaction ∧ (s.takeBeacon m).dataOut = s.dataOut ∧
    (s.takeBeacon m).events = s.events ∧ (s.takeBeacon m).counters = s.counters ∧
    (s.takeBeacon m).freeCount = s.freeCount ∧ (s.takeBeacon m).pending = s.pending := by simp [State.takeBeacon]

@[simp] theorem State.wallWork_keeps (s : State) (b : State) (st : StationState) (n : Station) (m : BeaconFields) :
    (s.wallWork b st n m).resetPinLow = s.resetPinLow ∧ (s.wallWork b st n m).straps = s.straps ∧
    (s.wallWork b st n m).config = s.config ∧ (s.wallWork b st n m).withdrawReason = s.withdrawReason ∧
    (s.wallWork b st n m).presenceCount = s.presenceCount ∧ (s.wallWork b st n m).clashRecord = s.clashRecord ∧
    (s.wallWork b st n m).applyEngine = s.applyEngine ∧ (s.wallWork b st n m).bufferX = s.bufferX ∧
    (s.wallWork b st n m).bufferY = s.bufferY ∧ (s.wallWork b st n m).shown = s.shown ∧
    (s.wallWork b st n m).defaultsX = s.defaultsX ∧ (s.wallWork b st n m).defaultsY = s.defaultsY ∧
    (s.wallWork b st n m).dirty = s.dirty ∧ (s.wallWork b st n m).catchUp = s.catchUp ∧
    (s.wallWork b st n m).leftTable = s.leftTable ∧ (s.wallWork b st n m).entryRecords = s.entryRecords ∧
    (s.wallWork b st n m).glyphMemory = s.glyphMemory ∧ (s.wallWork b st n m).scan = s.scan ∧
    (s.wallWork b st n m).arbiter = s.arbiter ∧ (s.wallWork b st n m).timer = s.timer ∧
    (s.wallWork b st n m).port = s.port ∧ (s.wallWork b st n m).transaction = s.transaction ∧
    (s.wallWork b st n m).dataOut = s.dataOut ∧ (s.wallWork b st n m).freeCount = s.freeCount ∧
    (s.wallWork b st n m).pending = s.pending := by simp [State.wallWork]

@[simp] theorem State.swap_keeps (s : State) :
    s.swap.life = s.life ∧ s.swap.resetPinLow = s.resetPinLow ∧ s.swap.straps = s.straps ∧ s.swap.config = s.config ∧
    s.swap.withdrawReason = s.withdrawReason ∧ s.swap.gen = s.gen ∧ s.swap.roster = s.roster ∧
    s.swap.presenceCount = s.presenceCount ∧ s.swap.clashRecord = s.clashRecord ∧
    s.swap.updateQueue = s.updateQueue ∧ s.swap.applyEngine = s.applyEngine ∧ s.swap.bufferX = s.bufferX ∧
    s.swap.bufferY = s.bufferY ∧ s.swap.dirty = s.dirty ∧ s.swap.catchUp = s.catchUp ∧
    s.swap.leftTable = s.leftTable ∧ s.swap.glyphMemory = s.glyphMemory ∧ s.swap.scan = s.scan ∧
    s.swap.arbiter = s.arbiter ∧ s.swap.bus = s.bus ∧ s.swap.timer = s.timer ∧ s.swap.port = s.port ∧
    s.swap.transaction = s.transaction ∧ s.swap.dataOut = s.dataOut ∧ s.swap.counters = s.counters ∧
    s.swap.freeCount = s.freeCount ∧ s.swap.pending = s.pending := by simp [State.swap]

@[simp] theorem State.swapIf_keeps (s : State) (b : Bool) :
    (s.swapIf b).life = s.life ∧ (s.swapIf b).resetPinLow = s.resetPinLow ∧ (s.swapIf b).straps = s.straps ∧
    (s.swapIf b).config = s.config ∧ (s.swapIf b).withdrawReason = s.withdrawReason ∧ (s.swapIf b).gen = s.gen ∧
    (s.swapIf b).roster = s.roster ∧ (s.swapIf b).presenceCount = s.presenceCount ∧
    (s.swapIf b).clashRecord = s.clashRecord ∧ (s.swapIf b).updateQueue = s.updateQueue ∧
    (s.swapIf b).applyEngine = s.applyEngine ∧ (s.swapIf b).bufferX = s.bufferX ∧ (s.swapIf b).bufferY = s.bufferY ∧
    (s.swapIf b).dirty = s.dirty ∧ (s.swapIf b).catchUp = s.catchUp ∧ (s.swapIf b).leftTable = s.leftTable ∧
    (s.swapIf b).glyphMemory = s.glyphMemory ∧ (s.swapIf b).scan = s.scan ∧ (s.swapIf b).arbiter = s.arbiter ∧
    (s.swapIf b).bus = s.bus ∧ (s.swapIf b).timer = s.timer ∧ (s.swapIf b).port = s.port ∧
    (s.swapIf b).transaction = s.transaction ∧ (s.swapIf b).dataOut = s.dataOut ∧
    (s.swapIf b).counters = s.counters ∧ (s.swapIf b).freeCount = s.freeCount ∧ (s.swapIf b).pending = s.pending := by
  simp only [State.swapIf]; (repeat' split) <;> simp

@[simp] theorem State.copyIf_keeps (s : State) (b p : Bool) :
    (s.copyIf b p).life = s.life ∧ (s.copyIf b p).resetPinLow = s.resetPinLow ∧ (s.copyIf b p).straps = s.straps ∧
    (s.copyIf b p).config = s.config ∧ (s.copyIf b p).withdrawReason = s.withdrawReason ∧
    (s.copyIf b p).gen = s.gen ∧ (s.copyIf b p).roster = s.roster ∧ (s.copyIf b p).presenceCount = s.presenceCount ∧
    (s.copyIf b p).clashRecord = s.clashRecord ∧ (s.copyIf b p).updateQueue = s.updateQueue ∧
    (s.copyIf b p).applyEngine = s.applyEngine ∧ (s.copyIf b p).bufferX = s.bufferX ∧
    (s.copyIf b p).bufferY = s.bufferY ∧ (s.copyIf b p).shown = s.shown ∧ (s.copyIf b p).defaultsX = s.defaultsX ∧
    (s.copyIf b p).defaultsY = s.defaultsY ∧ (s.copyIf b p).leftTable = s.leftTable ∧
    (s.copyIf b p).entryRecords = s.entryRecords ∧ (s.copyIf b p).glyphMemory = s.glyphMemory ∧
    (s.copyIf b p).scan = s.scan ∧ (s.copyIf b p).bus = s.bus ∧ (s.copyIf b p).timer = s.timer ∧
    (s.copyIf b p).port = s.port ∧ (s.copyIf b p).transaction = s.transaction ∧ (s.copyIf b p).dataOut = s.dataOut ∧
    (s.copyIf b p).events = s.events ∧ (s.copyIf b p).counters = s.counters ∧
    (s.copyIf b p).freeCount = s.freeCount ∧ (s.copyIf b p).pending = s.pending := by
  simp only [State.copyIf]; (repeat' split) <;> simp

@[simp] theorem State.tellPromotion_keeps (s : State) (st : StationState) (p : Bool) :
    (s.tellPromotion st p).life = s.life ∧ (s.tellPromotion st p).resetPinLow = s.resetPinLow ∧
    (s.tellPromotion st p).straps = s.straps ∧ (s.tellPromotion st p).config = s.config ∧
    (s.tellPromotion st p).withdrawReason = s.withdrawReason ∧ (s.tellPromotion st p).gen = s.gen ∧
    (s.tellPromotion st p).roster = s.roster ∧ (s.tellPromotion st p).presenceCount = s.presenceCount ∧
    (s.tellPromotion st p).clashRecord = s.clashRecord ∧ (s.tellPromotion st p).updateQueue = s.updateQueue ∧
    (s.tellPromotion st p).applyEngine = s.applyEngine ∧ (s.tellPromotion st p).bufferX = s.bufferX ∧
    (s.tellPromotion st p).bufferY = s.bufferY ∧ (s.tellPromotion st p).shown = s.shown ∧
    (s.tellPromotion st p).defaultsX = s.defaultsX ∧ (s.tellPromotion st p).defaultsY = s.defaultsY ∧
    (s.tellPromotion st p).dirty = s.dirty ∧ (s.tellPromotion st p).catchUp = s.catchUp ∧
    (s.tellPromotion st p).leftTable = s.leftTable ∧ (s.tellPromotion st p).entryRecords = s.entryRecords ∧
    (s.tellPromotion st p).glyphMemory = s.glyphMemory ∧ (s.tellPromotion st p).scan = s.scan ∧
    (s.tellPromotion st p).arbiter = s.arbiter ∧ (s.tellPromotion st p).bus = s.bus ∧
    (s.tellPromotion st p).timer = s.timer ∧ (s.tellPromotion st p).port = s.port ∧
    (s.tellPromotion st p).transaction = s.transaction ∧ (s.tellPromotion st p).dataOut = s.dataOut ∧
    (s.tellPromotion st p).counters = s.counters ∧ (s.tellPromotion st p).freeCount = s.freeCount ∧
    (s.tellPromotion st p).pending = s.pending := by
  simp only [State.tellPromotion]; (repeat' split) <;> simp

@[simp] theorem State.countPresence_keeps (s : State) (own promoted : Bool) :
    (s.countPresence own promoted).life = s.life ∧ (s.countPresence own promoted).resetPinLow = s.resetPinLow ∧
    (s.countPresence own promoted).straps = s.straps ∧ (s.countPresence own promoted).config = s.config ∧
    (s.countPresence own promoted).withdrawReason = s.withdrawReason ∧ (s.countPresence own promoted).gen = s.gen ∧
    (s.countPresence own promoted).roster = s.roster ∧ (s.countPresence own promoted).clashRecord = s.clashRecord ∧
    (s.countPresence own promoted).updateQueue = s.updateQueue ∧
    (s.countPresence own promoted).applyEngine = s.applyEngine ∧ (s.countPresence own promoted).bufferX = s.bufferX ∧
    (s.countPresence own promoted).bufferY = s.bufferY ∧ (s.countPresence own promoted).shown = s.shown ∧
    (s.countPresence own promoted).defaultsX = s.defaultsX ∧ (s.countPresence own promoted).defaultsY = s.defaultsY ∧
    (s.countPresence own promoted).dirty = s.dirty ∧ (s.countPresence own promoted).catchUp = s.catchUp ∧
    (s.countPresence own promoted).leftTable = s.leftTable ∧
    (s.countPresence own promoted).entryRecords = s.entryRecords ∧
    (s.countPresence own promoted).glyphMemory = s.glyphMemory ∧ (s.countPresence own promoted).scan = s.scan ∧
    (s.countPresence own promoted).arbiter = s.arbiter ∧ (s.countPresence own promoted).timer = s.timer ∧
    (s.countPresence own promoted).port = s.port ∧ (s.countPresence own promoted).transaction = s.transaction ∧
    (s.countPresence own promoted).dataOut = s.dataOut ∧ (s.countPresence own promoted).events = s.events ∧
    (s.countPresence own promoted).counters = s.counters ∧ (s.countPresence own promoted).freeCount = s.freeCount ∧
    (s.countPresence own promoted).pending = s.pending := by simp [State.countPresence]

@[simp] theorem State.newFrame_keeps (s : State) (swapped : Bool) :
    (s.newFrame swapped).life = s.life ∧ (s.newFrame swapped).resetPinLow = s.resetPinLow ∧
    (s.newFrame swapped).straps = s.straps ∧ (s.newFrame swapped).config = s.config ∧
    (s.newFrame swapped).withdrawReason = s.withdrawReason ∧ (s.newFrame swapped).gen = s.gen ∧
    (s.newFrame swapped).roster = s.roster ∧ (s.newFrame swapped).presenceCount = s.presenceCount ∧
    (s.newFrame swapped).clashRecord = s.clashRecord ∧ (s.newFrame swapped).updateQueue = s.updateQueue ∧
    (s.newFrame swapped).applyEngine = s.applyEngine ∧ (s.newFrame swapped).bufferX = s.bufferX ∧
    (s.newFrame swapped).bufferY = s.bufferY ∧ (s.newFrame swapped).shown = s.shown ∧
    (s.newFrame swapped).defaultsX = s.defaultsX ∧ (s.newFrame swapped).defaultsY = s.defaultsY ∧
    (s.newFrame swapped).dirty = s.dirty ∧ (s.newFrame swapped).catchUp = s.catchUp ∧
    (s.newFrame swapped).leftTable = s.leftTable ∧ (s.newFrame swapped).entryRecords = s.entryRecords ∧
    (s.newFrame swapped).glyphMemory = s.glyphMemory ∧ (s.newFrame swapped).bus = s.bus ∧
    (s.newFrame swapped).timer = s.timer ∧ (s.newFrame swapped).port = s.port ∧
    (s.newFrame swapped).transaction = s.transaction ∧ (s.newFrame swapped).dataOut = s.dataOut ∧
    (s.newFrame swapped).events = s.events ∧ (s.newFrame swapped).counters = s.counters ∧
    (s.newFrame swapped).pending = s.pending := by
  simp only [State.newFrame]; (repeat' split) <;> simp

@[simp] theorem State.contend_keeps (s : State) (others : List Key) :
    (s.contend others).life = s.life ∧ (s.contend others).resetPinLow = s.resetPinLow ∧
    (s.contend others).straps = s.straps ∧ (s.contend others).config = s.config ∧
    (s.contend others).withdrawReason = s.withdrawReason ∧ (s.contend others).gen = s.gen ∧
    (s.contend others).roster = s.roster ∧ (s.contend others).presenceCount = s.presenceCount ∧
    (s.contend others).clashRecord = s.clashRecord ∧ (s.contend others).updateQueue = s.updateQueue ∧
    (s.contend others).applyEngine = s.applyEngine ∧ (s.contend others).bufferX = s.bufferX ∧
    (s.contend others).bufferY = s.bufferY ∧ (s.contend others).shown = s.shown ∧
    (s.contend others).defaultsX = s.defaultsX ∧ (s.contend others).defaultsY = s.defaultsY ∧
    (s.contend others).dirty = s.dirty ∧ (s.contend others).catchUp = s.catchUp ∧
    (s.contend others).leftTable = s.leftTable ∧ (s.contend others).entryRecords = s.entryRecords ∧
    (s.contend others).glyphMemory = s.glyphMemory ∧ (s.contend others).scan = s.scan ∧
    (s.contend others).arbiter = s.arbiter ∧ (s.contend others).timer = s.timer ∧ (s.contend others).port = s.port ∧
    (s.contend others).transaction = s.transaction ∧ (s.contend others).dataOut = s.dataOut ∧
    (s.contend others).events = s.events ∧ (s.contend others).counters = s.counters ∧
    (s.contend others).freeCount = s.freeCount ∧ (s.contend others).pending = s.pending := by
  simp only [State.contend]; (repeat' split) <;> simp

@[simp] theorem State.driveSpoil_keeps (s : State) (r : Option SpoilReason) :
    (s.driveSpoil r).life = s.life ∧ (s.driveSpoil r).resetPinLow = s.resetPinLow ∧
    (s.driveSpoil r).straps = s.straps ∧ (s.driveSpoil r).config = s.config ∧
    (s.driveSpoil r).withdrawReason = s.withdrawReason ∧ (s.driveSpoil r).gen = s.gen ∧
    (s.driveSpoil r).roster = s.roster ∧ (s.driveSpoil r).presenceCount = s.presenceCount ∧
    (s.driveSpoil r).clashRecord = s.clashRecord ∧ (s.driveSpoil r).updateQueue = s.updateQueue ∧
    (s.driveSpoil r).applyEngine = s.applyEngine ∧ (s.driveSpoil r).bufferX = s.bufferX ∧
    (s.driveSpoil r).bufferY = s.bufferY ∧ (s.driveSpoil r).shown = s.shown ∧
    (s.driveSpoil r).defaultsX = s.defaultsX ∧ (s.driveSpoil r).defaultsY = s.defaultsY ∧
    (s.driveSpoil r).dirty = s.dirty ∧ (s.driveSpoil r).catchUp = s.catchUp ∧
    (s.driveSpoil r).leftTable = s.leftTable ∧ (s.driveSpoil r).entryRecords = s.entryRecords ∧
    (s.driveSpoil r).glyphMemory = s.glyphMemory ∧ (s.driveSpoil r).scan = s.scan ∧
    (s.driveSpoil r).arbiter = s.arbiter ∧ (s.driveSpoil r).timer = s.timer ∧ (s.driveSpoil r).port = s.port ∧
    (s.driveSpoil r).transaction = s.transaction ∧ (s.driveSpoil r).dataOut = s.dataOut ∧
    (s.driveSpoil r).events = s.events ∧ (s.driveSpoil r).freeCount = s.freeCount ∧
    (s.driveSpoil r).pending = s.pending := by
  simp only [State.driveSpoil]; (repeat' split) <;> simp

@[simp] theorem State.dropFeedHead_keeps (s : State) (m : FeedMessage) (rest : List FeedMessage) :
    (s.dropFeedHead m rest).life = s.life ∧ (s.dropFeedHead m rest).resetPinLow = s.resetPinLow ∧
    (s.dropFeedHead m rest).straps = s.straps ∧ (s.dropFeedHead m rest).config = s.config ∧
    (s.dropFeedHead m rest).withdrawReason = s.withdrawReason ∧ (s.dropFeedHead m rest).gen = s.gen ∧
    (s.dropFeedHead m rest).roster = s.roster ∧ (s.dropFeedHead m rest).presenceCount = s.presenceCount ∧
    (s.dropFeedHead m rest).clashRecord = s.clashRecord ∧ (s.dropFeedHead m rest).updateQueue = s.updateQueue ∧
    (s.dropFeedHead m rest).applyEngine = s.applyEngine ∧ (s.dropFeedHead m rest).bufferX = s.bufferX ∧
    (s.dropFeedHead m rest).bufferY = s.bufferY ∧ (s.dropFeedHead m rest).shown = s.shown ∧
    (s.dropFeedHead m rest).defaultsX = s.defaultsX ∧ (s.dropFeedHead m rest).defaultsY = s.defaultsY ∧
    (s.dropFeedHead m rest).dirty = s.dirty ∧ (s.dropFeedHead m rest).catchUp = s.catchUp ∧
    (s.dropFeedHead m rest).leftTable = s.leftTable ∧ (s.dropFeedHead m rest).entryRecords = s.entryRecords ∧
    (s.dropFeedHead m rest).glyphMemory = s.glyphMemory ∧ (s.dropFeedHead m rest).scan = s.scan ∧
    (s.dropFeedHead m rest).arbiter = s.arbiter ∧ (s.dropFeedHead m rest).timer = s.timer ∧
    (s.dropFeedHead m rest).port = s.port ∧ (s.dropFeedHead m rest).transaction = s.transaction ∧
    (s.dropFeedHead m rest).dataOut = s.dataOut ∧ (s.dropFeedHead m rest).freeCount = s.freeCount ∧
    (s.dropFeedHead m rest).pending = s.pending := by simp [State.dropFeedHead]

@[simp] theorem State.spoilFeedHead_keeps (s : State) (r : Option SpoilReason) :
    (s.spoilFeedHead r).life = s.life ∧ (s.spoilFeedHead r).resetPinLow = s.resetPinLow ∧
    (s.spoilFeedHead r).straps = s.straps ∧ (s.spoilFeedHead r).config = s.config ∧
    (s.spoilFeedHead r).withdrawReason = s.withdrawReason ∧ (s.spoilFeedHead r).gen = s.gen ∧
    (s.spoilFeedHead r).roster = s.roster ∧ (s.spoilFeedHead r).presenceCount = s.presenceCount ∧
    (s.spoilFeedHead r).clashRecord = s.clashRecord ∧ (s.spoilFeedHead r).updateQueue = s.updateQueue ∧
    (s.spoilFeedHead r).applyEngine = s.applyEngine ∧ (s.spoilFeedHead r).bufferX = s.bufferX ∧
    (s.spoilFeedHead r).bufferY = s.bufferY ∧ (s.spoilFeedHead r).shown = s.shown ∧
    (s.spoilFeedHead r).defaultsX = s.defaultsX ∧ (s.spoilFeedHead r).defaultsY = s.defaultsY ∧
    (s.spoilFeedHead r).dirty = s.dirty ∧ (s.spoilFeedHead r).catchUp = s.catchUp ∧
    (s.spoilFeedHead r).leftTable = s.leftTable ∧ (s.spoilFeedHead r).entryRecords = s.entryRecords ∧
    (s.spoilFeedHead r).glyphMemory = s.glyphMemory ∧ (s.spoilFeedHead r).scan = s.scan ∧
    (s.spoilFeedHead r).arbiter = s.arbiter ∧ (s.spoilFeedHead r).timer = s.timer ∧
    (s.spoilFeedHead r).port = s.port ∧ (s.spoilFeedHead r).transaction = s.transaction ∧
    (s.spoilFeedHead r).dataOut = s.dataOut ∧ (s.spoilFeedHead r).freeCount = s.freeCount ∧
    (s.spoilFeedHead r).pending = s.pending := by
  simp only [State.spoilFeedHead]; (repeat' split) <;> simp

@[simp] theorem State.endFlight_keeps (s : State) :
    s.endFlight.life = s.life ∧ s.endFlight.resetPinLow = s.resetPinLow ∧ s.endFlight.straps = s.straps ∧
    s.endFlight.config = s.config ∧ s.endFlight.withdrawReason = s.withdrawReason ∧ s.endFlight.gen = s.gen ∧
    s.endFlight.roster = s.roster ∧ s.endFlight.presenceCount = s.presenceCount ∧
    s.endFlight.clashRecord = s.clashRecord ∧ s.endFlight.updateQueue = s.updateQueue ∧
    s.endFlight.applyEngine = s.applyEngine ∧ s.endFlight.bufferX = s.bufferX ∧ s.endFlight.bufferY = s.bufferY ∧
    s.endFlight.shown = s.shown ∧ s.endFlight.defaultsX = s.defaultsX ∧ s.endFlight.defaultsY = s.defaultsY ∧
    s.endFlight.dirty = s.dirty ∧ s.endFlight.catchUp = s.catchUp ∧ s.endFlight.leftTable = s.leftTable ∧
    s.endFlight.entryRecords = s.entryRecords ∧ s.endFlight.glyphMemory = s.glyphMemory ∧ s.endFlight.scan = s.scan ∧
    s.endFlight.arbiter = s.arbiter ∧ s.endFlight.timer = s.timer ∧ s.endFlight.port = s.port ∧
    s.endFlight.transaction = s.transaction ∧ s.endFlight.dataOut = s.dataOut ∧ s.endFlight.events = s.events ∧
    s.endFlight.counters = s.counters ∧ s.endFlight.freeCount = s.freeCount ∧ s.endFlight.pending = s.pending := by simp [State.endFlight]

@[simp] theorem State.frameAccepted_keeps (s : State) (item : Option Item) :
    (s.frameAccepted item).life = s.life ∧ (s.frameAccepted item).resetPinLow = s.resetPinLow ∧
    (s.frameAccepted item).straps = s.straps ∧ (s.frameAccepted item).config = s.config ∧
    (s.frameAccepted item).withdrawReason = s.withdrawReason ∧ (s.frameAccepted item).gen = s.gen ∧
    (s.frameAccepted item).roster = s.roster ∧ (s.frameAccepted item).clashRecord = s.clashRecord ∧
    (s.frameAccepted item).updateQueue = s.updateQueue ∧ (s.frameAccepted item).applyEngine = s.applyEngine ∧
    (s.frameAccepted item).bufferX = s.bufferX ∧ (s.frameAccepted item).bufferY = s.bufferY ∧
    (s.frameAccepted item).shown = s.shown ∧ (s.frameAccepted item).defaultsX = s.defaultsX ∧
    (s.frameAccepted item).defaultsY = s.defaultsY ∧ (s.frameAccepted item).dirty = s.dirty ∧
    (s.frameAccepted item).catchUp = s.catchUp ∧ (s.frameAccepted item).leftTable = s.leftTable ∧
    (s.frameAccepted item).entryRecords = s.entryRecords ∧ (s.frameAccepted item).glyphMemory = s.glyphMemory ∧
    (s.frameAccepted item).scan = s.scan ∧ (s.frameAccepted item).arbiter = s.arbiter ∧
    (s.frameAccepted item).timer = s.timer ∧ (s.frameAccepted item).port = s.port ∧
    (s.frameAccepted item).transaction = s.transaction ∧ (s.frameAccepted item).dataOut = s.dataOut ∧
    (s.frameAccepted item).events = s.events ∧ (s.frameAccepted item).freeCount = s.freeCount ∧
    (s.frameAccepted item).pending = s.pending := by simp [State.frameAccepted]

@[simp] theorem State.heardFrame_keeps (s : State) (item : Option Item) (n : Station) :
    (s.heardFrame item n).life = s.life ∧ (s.heardFrame item n).resetPinLow = s.resetPinLow ∧
    (s.heardFrame item n).straps = s.straps ∧ (s.heardFrame item n).config = s.config ∧
    (s.heardFrame item n).withdrawReason = s.withdrawReason ∧ (s.heardFrame item n).gen = s.gen ∧
    (s.heardFrame item n).clashRecord = s.clashRecord ∧ (s.heardFrame item n).updateQueue = s.updateQueue ∧
    (s.heardFrame item n).applyEngine = s.applyEngine ∧ (s.heardFrame item n).bufferX = s.bufferX ∧
    (s.heardFrame item n).bufferY = s.bufferY ∧ (s.heardFrame item n).shown = s.shown ∧
    (s.heardFrame item n).defaultsX = s.defaultsX ∧ (s.heardFrame item n).defaultsY = s.defaultsY ∧
    (s.heardFrame item n).dirty = s.dirty ∧ (s.heardFrame item n).catchUp = s.catchUp ∧
    (s.heardFrame item n).leftTable = s.leftTable ∧ (s.heardFrame item n).entryRecords = s.entryRecords ∧
    (s.heardFrame item n).glyphMemory = s.glyphMemory ∧ (s.heardFrame item n).scan = s.scan ∧
    (s.heardFrame item n).arbiter = s.arbiter ∧ (s.heardFrame item n).timer = s.timer ∧
    (s.heardFrame item n).port = s.port ∧ (s.heardFrame item n).transaction = s.transaction ∧
    (s.heardFrame item n).dataOut = s.dataOut ∧ (s.heardFrame item n).events = s.events ∧
    (s.heardFrame item n).freeCount = s.freeCount ∧ (s.heardFrame item n).pending = s.pending := by simp [State.heardFrame]

@[simp] theorem State.acceptReady_keeps (s : State) (st : StationState) (n : Station) (g : Generation) :
    (s.acceptReady st n g).life = s.life ∧ (s.acceptReady st n g).resetPinLow = s.resetPinLow ∧
    (s.acceptReady st n g).straps = s.straps ∧ (s.acceptReady st n g).config = s.config ∧
    (s.acceptReady st n g).withdrawReason = s.withdrawReason ∧ (s.acceptReady st n g).roster = s.roster ∧
    (s.acceptReady st n g).presenceCount = s.presenceCount ∧ (s.acceptReady st n g).clashRecord = s.clashRecord ∧
    (s.acceptReady st n g).updateQueue = s.updateQueue ∧ (s.acceptReady st n g).applyEngine = s.applyEngine ∧
    (s.acceptReady st n g).bufferX = s.bufferX ∧ (s.acceptReady st n g).bufferY = s.bufferY ∧
    (s.acceptReady st n g).shown = s.shown ∧ (s.acceptReady st n g).defaultsX = s.defaultsX ∧
    (s.acceptReady st n g).defaultsY = s.defaultsY ∧ (s.acceptReady st n g).dirty = s.dirty ∧
    (s.acceptReady st n g).catchUp = s.catchUp ∧ (s.acceptReady st n g).leftTable = s.leftTable ∧
    (s.acceptReady st n g).entryRecords = s.entryRecords ∧ (s.acceptReady st n g).glyphMemory = s.glyphMemory ∧
    (s.acceptReady st n g).scan = s.scan ∧ (s.acceptReady st n g).arbiter = s.arbiter ∧
    (s.acceptReady st n g).bus = s.bus ∧ (s.acceptReady st n g).timer = s.timer ∧
    (s.acceptReady st n g).port = s.port ∧ (s.acceptReady st n g).transaction = s.transaction ∧
    (s.acceptReady st n g).dataOut = s.dataOut ∧ (s.acceptReady st n g).events = s.events ∧
    (s.acceptReady st n g).counters = s.counters ∧ (s.acceptReady st n g).freeCount = s.freeCount ∧
    (s.acceptReady st n g).pending = s.pending := by
  simp only [State.acceptReady]; (repeat' split) <;> simp

@[simp] theorem State.acceptSeal_keeps (s : State) (st : StationState) (n : Station) (g : Generation) (v : Bool) (c : Option StationSet) :
    (s.acceptSeal st n g v c).life = s.life ∧ (s.acceptSeal st n g v c).resetPinLow = s.resetPinLow ∧
    (s.acceptSeal st n g v c).straps = s.straps ∧ (s.acceptSeal st n g v c).config = s.config ∧
    (s.acceptSeal st n g v c).withdrawReason = s.withdrawReason ∧ (s.acceptSeal st n g v c).roster = s.roster ∧
    (s.acceptSeal st n g v c).presenceCount = s.presenceCount ∧
    (s.acceptSeal st n g v c).clashRecord = s.clashRecord ∧ (s.acceptSeal st n g v c).updateQueue = s.updateQueue ∧
    (s.acceptSeal st n g v c).applyEngine = s.applyEngine ∧ (s.acceptSeal st n g v c).bufferX = s.bufferX ∧
    (s.acceptSeal st n g v c).bufferY = s.bufferY ∧ (s.acceptSeal st n g v c).shown = s.shown ∧
    (s.acceptSeal st n g v c).defaultsX = s.defaultsX ∧ (s.acceptSeal st n g v c).defaultsY = s.defaultsY ∧
    (s.acceptSeal st n g v c).dirty = s.dirty ∧ (s.acceptSeal st n g v c).catchUp = s.catchUp ∧
    (s.acceptSeal st n g v c).leftTable = s.leftTable ∧ (s.acceptSeal st n g v c).entryRecords = s.entryRecords ∧
    (s.acceptSeal st n g v c).glyphMemory = s.glyphMemory ∧ (s.acceptSeal st n g v c).scan = s.scan ∧
    (s.acceptSeal st n g v c).arbiter = s.arbiter ∧ (s.acceptSeal st n g v c).timer = s.timer ∧
    (s.acceptSeal st n g v c).port = s.port ∧ (s.acceptSeal st n g v c).transaction = s.transaction ∧
    (s.acceptSeal st n g v c).dataOut = s.dataOut ∧ (s.acceptSeal st n g v c).freeCount = s.freeCount ∧
    (s.acceptSeal st n g v c).pending = s.pending := by
  simp only [State.acceptSeal]; (repeat' split) <;> simp

@[simp] theorem State.acceptGlyph_keeps (s : State) (set : BitVec 2) (code : BitVec 7) (first : Nat) (p : List Byte) :
    (s.acceptGlyph set code first p).life = s.life ∧ (s.acceptGlyph set code first p).resetPinLow = s.resetPinLow ∧
    (s.acceptGlyph set code first p).straps = s.straps ∧ (s.acceptGlyph set code first p).config = s.config ∧
    (s.acceptGlyph set code first p).withdrawReason = s.withdrawReason ∧
    (s.acceptGlyph set code first p).gen = s.gen ∧ (s.acceptGlyph set code first p).roster = s.roster ∧
    (s.acceptGlyph set code first p).presenceCount = s.presenceCount ∧
    (s.acceptGlyph set code first p).clashRecord = s.clashRecord ∧
    (s.acceptGlyph set code first p).updateQueue = s.updateQueue ∧
    (s.acceptGlyph set code first p).applyEngine = s.applyEngine ∧
    (s.acceptGlyph set code first p).bufferX = s.bufferX ∧ (s.acceptGlyph set code first p).bufferY = s.bufferY ∧
    (s.acceptGlyph set code first p).shown = s.shown ∧ (s.acceptGlyph set code first p).defaultsX = s.defaultsX ∧
    (s.acceptGlyph set code first p).defaultsY = s.defaultsY ∧ (s.acceptGlyph set code first p).dirty = s.dirty ∧
    (s.acceptGlyph set code first p).catchUp = s.catchUp ∧ (s.acceptGlyph set code first p).leftTable = s.leftTable ∧
    (s.acceptGlyph set code first p).entryRecords = s.entryRecords ∧ (s.acceptGlyph set code first p).scan = s.scan ∧
    (s.acceptGlyph set code first p).arbiter = s.arbiter ∧ (s.acceptGlyph set code first p).bus = s.bus ∧
    (s.acceptGlyph set code first p).timer = s.timer ∧ (s.acceptGlyph set code first p).port = s.port ∧
    (s.acceptGlyph set code first p).transaction = s.transaction ∧
    (s.acceptGlyph set code first p).dataOut = s.dataOut ∧ (s.acceptGlyph set code first p).events = s.events ∧
    (s.acceptGlyph set code first p).counters = s.counters ∧
    (s.acceptGlyph set code first p).freeCount = s.freeCount ∧ (s.acceptGlyph set code first p).pending = s.pending := by simp [State.acceptGlyph]

@[simp] theorem State.synchronise_keeps (s : State) :
    s.synchronise.life = s.life ∧ s.synchronise.resetPinLow = s.resetPinLow ∧ s.synchronise.straps = s.straps ∧
    s.synchronise.config = s.config ∧ s.synchronise.withdrawReason = s.withdrawReason ∧ s.synchronise.gen = s.gen ∧
    s.synchronise.roster = s.roster ∧ s.synchronise.presenceCount = s.presenceCount ∧
    s.synchronise.clashRecord = s.clashRecord ∧ s.synchronise.updateQueue = s.updateQueue ∧
    s.synchronise.applyEngine = s.applyEngine ∧ s.synchronise.bufferX = s.bufferX ∧
    s.synchronise.bufferY = s.bufferY ∧ s.synchronise.shown = s.shown ∧ s.synchronise.defaultsX = s.defaultsX ∧
    s.synchronise.defaultsY = s.defaultsY ∧ s.synchronise.dirty = s.dirty ∧ s.synchronise.catchUp = s.catchUp ∧
    s.synchronise.leftTable = s.leftTable ∧ s.synchronise.entryRecords = s.entryRecords ∧
    s.synchronise.glyphMemory = s.glyphMemory ∧ s.synchronise.scan = s.scan ∧ s.synchronise.arbiter = s.arbiter ∧
    s.synchronise.timer = s.timer ∧ s.synchronise.port = s.port ∧ s.synchronise.transaction = s.transaction ∧
    s.synchronise.dataOut = s.dataOut ∧ s.synchronise.events = s.events ∧ s.synchronise.counters = s.counters ∧
    s.synchronise.freeCount = s.freeCount ∧ s.synchronise.pending = s.pending := by
  simp only [State.synchronise]; (repeat' split) <;> simp

end Sys2Proof.Machine
end

