-- ==== Sys2Proof/Laws/Memory.lean ====
section
/-! SUPPORT. Sparse memory: a write keeps the canonical form, a read gives the last value written, two canonical
memories that read alike are equal. -/

namespace Sys2Proof.Machine

variable {α : Type}

@[simp] theorem Memory.read_nil (d : α) (a : Nat) : Memory.read d [] a = d := rfl

/-- An address below every listed one reads as the default. -/
theorem Memory.read_below (d : α) (m : List (Nat × α)) (a : Nat) (h : ∀ e ∈ m, a < e.1) : Memory.read d m a = d := by
  induction m with
  | nil => rfl
  | cons e m ih =>
    obtain ⟨b, w⟩ := e
    have hb : a < b := h (b, w) (by simp)
    rw [Memory.read, if_neg (by omega)]
    exact ih fun e he => h e (by simp [he])

variable [DecidableEq α]

/-- The canonical form of a non-empty memory. -/
theorem Memory.wf_cons (d : α) (a : Nat) (v : α) (m : List (Nat × α)) :
    Memory.wf d ((a, v) :: m) = true ↔ v ≠ d ∧ (∀ e ∈ m, a < e.1) ∧ Memory.wf d m = true := by
  simp [Memory.wf, and_assoc]

/-- A write lists no address that was not listed or written. -/
theorem Memory.write_above (d : α) (m : List (Nat × α)) (a : Nat) (v : α) (b : Nat) (hm : ∀ e ∈ m, b < e.1)
    (hb : b < a) : ∀ e ∈ Memory.write d m a v, b < e.1 := by
  induction m with
  | nil =>
    intro e he
    simp only [Memory.write] at he
    split at he <;> simp_all
  | cons x m ih =>
    obtain ⟨c, w⟩ := x
    intro e he
    simp only [Memory.write] at he
    have hc : b < c := hm (c, w) (by simp)
    have hm' : ∀ e ∈ m, b < e.1 := fun e h => hm e (by simp [h])
    repeat' split at he
    all_goals try simp only [List.mem_cons] at he
    · rcases he with rfl | he
      · exact hc
      · exact hm' e he
    · rcases he with rfl | rfl | he
      · exact hb
      · exact hc
      · exact hm' e he
    · exact hm' e he
    · rcases he with rfl | he
      · exact hb
      · exact hm' e he
    · rcases he with rfl | he
      · exact hc
      · exact ih hm' e he

/-- A write keeps the canonical form. -/
theorem Memory.wf_write (d : α) (m : List (Nat × α)) (a : Nat) (v : α) (h : Memory.wf d m = true) :
    Memory.wf d (Memory.write d m a v) = true := by
  induction m with
  | nil =>
    simp only [Memory.write]
    split <;> simp_all [Memory.wf]
  | cons x m ih =>
    obtain ⟨c, w⟩ := x
    rw [Memory.wf_cons] at h
    obtain ⟨hw, hlt, hm⟩ := h
    simp only [Memory.write]
    repeat' split
    · exact (Memory.wf_cons ..).2 ⟨hw, hlt, hm⟩
    · rename_i hac hv
      refine (Memory.wf_cons ..).2 ⟨hv, ?_, (Memory.wf_cons ..).2 ⟨hw, hlt, hm⟩⟩
      intro e he
      rcases List.mem_cons.1 he with rfl | he
      · exact hac
      · exact lt_trans hac (hlt e he)
    · exact hm
    · rename_i hac hv
      subst hac
      exact (Memory.wf_cons ..).2 ⟨hv, hlt, hm⟩
    · exact (Memory.wf_cons ..).2 ⟨hw, Memory.write_above d m a v c hlt (by omega), ih hm⟩

/-- The address written reads as the value written. -/
theorem Memory.read_write_same (d : α) (m : List (Nat × α)) (a : Nat) (v : α) (h : Memory.wf d m = true) :
    Memory.read d (Memory.write d m a v) a = v := by
  induction m with
  | nil =>
    simp only [Memory.write]
    split <;> simp_all [Memory.read]
  | cons x m ih =>
    obtain ⟨c, w⟩ := x
    rw [Memory.wf_cons] at h
    obtain ⟨hw, hlt, hm⟩ := h
    simp only [Memory.write]
    repeat' split
    · rename_i hac hv
      rw [hv, Memory.read_below]
      intro e he
      rcases List.mem_cons.1 he with rfl | he
      · exact hac
      · exact lt_trans hac (hlt e he)
    · simp [Memory.read]
    · rename_i hac hv
      subst hac
      rw [hv, Memory.read_below d m a hlt]
    · simp [Memory.read]
    · rename_i hac hne
      rw [Memory.read, if_neg hne]
      exact ih hm

/-- Every other address reads as before. -/
theorem Memory.read_write_other (d : α) (m : List (Nat × α)) (a b : Nat) (v : α) (hab : b ≠ a)
    (h : Memory.wf d m = true) : Memory.read d (Memory.write d m a v) b = Memory.read d m b := by
  induction m with
  | nil =>
    simp only [Memory.write]
    split <;> simp_all [Memory.read]
  | cons x m ih =>
    obtain ⟨c, w⟩ := x
    rw [Memory.wf_cons] at h
    obtain ⟨hw, hlt, hm⟩ := h
    simp only [Memory.write]
    repeat' split
    · rfl
    · simp [Memory.read, hab]
    · rename_i hac hv
      subst hac
      simp [Memory.read, hab]
    · rename_i hac hv
      subst hac
      simp [Memory.read, hab]
    · simp only [Memory.read]
      split
      · rfl
      · exact ih hm

/-- Writing several values keeps the canonical form. -/
theorem Memory.wf_writeAll (d : α) (vs : List α) (m : List (Nat × α)) (a : Nat) (h : Memory.wf d m = true) :
    Memory.wf d (Memory.writeAll d m a vs) = true := by
  induction vs generalizing m a with
  | nil => exact h
  | cons v vs ih => exact ih _ _ (Memory.wf_write d m a v h)

/-- What an address reads as after values are written from `a` on: the value written there, or what it read as
before. -/
theorem Memory.read_writeAll (d : α) (vs : List α) (m : List (Nat × α)) (a b : Nat) (h : Memory.wf d m = true) :
    Memory.read d (Memory.writeAll d m a vs) b =
      if a ≤ b ∧ b < a + vs.length then vs.getD (b - a) d else Memory.read d m b := by
  induction vs generalizing m a with
  | nil => simp [Memory.writeAll]
  | cons v vs ih =>
    rw [Memory.writeAll, ih _ _ (Memory.wf_write d m a v h)]
    by_cases hb : b = a
    · subst hb
      rw [if_neg (by omega), Memory.read_write_same d m b v h, if_pos (by simp)]
      simp
    · rw [Memory.read_write_other d m a b v hb h]
      by_cases hin : a + 1 ≤ b ∧ b < a + 1 + vs.length
      · rw [if_pos hin, if_pos (by simp only [List.length_cons]; omega)]
        obtain ⟨k, hk⟩ : ∃ k, b - a = k + 1 := ⟨b - a - 1, by omega⟩
        have hk' : b - (a + 1) = k := by omega
        rw [hk, hk']
        simp
      · rw [if_neg hin, if_neg (by simp only [List.length_cons]; omega)]

omit [DecidableEq α] in
/-- The address of a tile position determines the position. -/
theorem Pos.address_inj (p q : Pos) : p.address = q.address ↔ p = q := by
  constructor
  · intro h
    obtain ⟨⟨r, hr⟩, ⟨c, hc⟩⟩ := p
    obtain ⟨⟨r', hr'⟩, ⟨c', hc'⟩⟩ := q
    simp only [Pos.address] at h
    have h1 : r = r' := by omega
    have h2 : c = c' := by omega
    subst h1; subst h2; rfl
  · rintro rfl; rfl

/-- A cell write leaves its record at its position of its buffer, and every other cell of both buffers as it was. -/
theorem State.readCell_writeCell (s : State) (b b' : BufferName) (p p' : Pos) (c : CellRecord)
    (hx : Memory.wf blankCell s.bufferX = true) (hy : Memory.wf blankCell s.bufferY = true) :
    (s.writeCell b p c).readCell b' p' = if b' = b ∧ p' = p then c else s.readCell b' p' := by
  by_cases hp : p' = p
  · subst hp
    cases b <;> cases b' <;>
      simp [State.writeCell, State.readCell, State.buffer, Memory.read_write_same, hx, hy]
  · have ha : p'.address ≠ p.address := fun h => hp ((Pos.address_inj _ _).1 h)
    cases b <;> cases b' <;>
      simp [State.writeCell, State.readCell, State.buffer, Memory.read_write_other, hx, hy, ha, hp]

end Sys2Proof.Machine
end

