-- ==== Sys2Proof/Laws/Step.lean ====
section
/-! SUPPORT. Every step is one of a few moves: to show that a property is kept by `step`, show it for each move. -/

namespace Sys2Proof.Machine

/-- Every command answers a next state. -/
theorem exec_answers (c : Instr) (s : State) : ∃ t, exec c s = .next t := by
  cases c <;> simp only [exec] <;> (first | exact ⟨_, rfl⟩ | skip)
  case configurationReadEnd => unfold execConfigurationReadEnd; split <;> exact ⟨_, rfl⟩
  case frameTimerExpiry => unfold execFrameTimerExpiry; split <;> exact ⟨_, rfl⟩
  case listeningWindow => unfold execListeningWindow; split <;> exact ⟨_, rfl⟩
  case quietOver => unfold execQuietOver; split <;> exact ⟨_, rfl⟩
  case idlePoint => unfold execIdlePoint; split <;> exact ⟨_, rfl⟩
  case clash => unfold execClash; split <;> exact ⟨_, rfl⟩
  case flipTimeout => unfold execFlipTimeout; split <;> exact ⟨_, rfl⟩
  case silenceTimeout => unfold execSilenceTimeout; split <;> exact ⟨_, rfl⟩
  case presenceInterval => unfold execPresenceInterval; split <;> exact ⟨_, rfl⟩
  case deaf => unfold execDeaf; split <;> exact ⟨_, rfl⟩
  case leftUnheard => unfold execLeftUnheard; split <;> exact ⟨_, rfl⟩
  case feedDropped => unfold execFeedDropped; split <;> exact ⟨_, rfl⟩
  case tileStep => unfold execTileStep; split <;> exact ⟨_, rfl⟩
  case catchUpRead => unfold execCatchUpRead; split <;> exact ⟨_, rfl⟩
  case catchUpWrite => unfold execCatchUpWrite; split <;> exact ⟨_, rfl⟩
  case rowFetch => unfold execRowFetch; split <;> exact ⟨_, rfl⟩
  case rowDisplay =>
    unfold execRowDisplay; split
    · split <;> exact ⟨_, rfl⟩
    · exact ⟨_, rfl⟩
  case dotLine =>
    unfold execDotLine; split
    · split <;> exact ⟨_, rfl⟩
    · exact ⟨_, rfl⟩
  case tail => unfold execTail; split <;> exact ⟨_, rfl⟩
  case submit => unfold execSubmit; split <;> exact ⟨_, rfl⟩
  case readCell => unfold execReadCell; split <;> exact ⟨_, rfl⟩
  case feedReadComplete => unfold execFeedReadComplete; split <;> exact ⟨_, rfl⟩
  case readRoster => unfold execReadRoster; split <;> exact ⟨_, rfl⟩
  case collect => unfold execCollect; split <;> exact ⟨_, rfl⟩
  case unknownCommand => unfold execUnknownCommand; split <;> exact ⟨_, rfl⟩

/-- A property is kept by every move a command is made of. -/
structure KeptByMoves (P : State → Prop) : Prop where
  start : ∀ s life straps glyphs, P s → glyphs = [] ∨ glyphs = s.glyphMemory →
    life = .heldInReset ∨ life = .readingConfiguration → P (s.atStart life straps glyphs)
  pin : ∀ s low, P s → P { s with resetPinLow := low }
  free : ∀ s n, P s → P { s with freeCount := n }
  endRead : ∀ s read, P s → s.life = .readingConfiguration → P (s.endRead read)
  expire : ∀ s, P s → s.timerRuns = true → P s.expire
  synchronise : ∀ s, P s → P s.synchronise
  contend : ∀ s others, P s → s.atIdlePoint = true → P (s.contend others)
  clash : ∀ s cause, P s → s.clashPossible cause = true → P s.becomeClashed
  frame : ∀ s cls f, P s → P (s.endFrame cls f)
  tileStep : ∀ s acc, P s → s.accessOf .apply true = some acc → P (s.tileStep acc)
  catchUpRead : ∀ s acc, P s → s.accessOf .catchUp false = some acc → P (s.catchUpRead acc)
  catchUpWrite : ∀ s acc, P s → s.accessOf .catchUp true = some acc → P (s.catchUpWrite acc)
  rowFetched : ∀ s acc, P s → s.accessOf .rowFetch false = some acc → P (s.rowFetched acc)
  feedRead : ∀ s acc, P s → s.accessOf .feedRead false = some acc → P (s.feedReadDone acc)
  displayRow : ∀ s r, P s → s.scan.nextRow = some r → P (s.displayRow r)
  beginLine : ∀ s r line, P s → s.scan.nextLine = some (r, line) → P (s.beginLine r line)
  beginTail : ∀ s, P s → P s.beginTail
  transaction : ∀ s tr bytes, P s → P { s with transaction := tr, dataOut := bytes }
  port : ∀ s p, P s → P { s with port := p }
  events : ∀ s, P s → P { s with events := ⟨s.events.records.tail, false⟩ }
  submit : ∀ s cls payload, P s → P (s.submit cls payload)
  readCell : ∀ s role row col, P s → s.port = .free → P (s.readCellCommand role row col)
  counters : ∀ s, P s → P { s with counters := Counters.zero }
  restart : ∀ s st, P s → s.life = .running st → P (s.restartCommand st)
  losePower : ∀ s, P s → P s.losePower
  pending : ∀ s q, P s → P { s with pending := q }

theorem KeptByMoves.assertSelect {P : State → Prop} (k : KeptByMoves P) (s : State) (h : P s) : P s.assertSelect := by
  unfold State.assertSelect
  split
  · exact k.transaction _ _ _ h
  · exact h

theorem KeptByMoves.releaseSelect {P : State → Prop} (k : KeptByMoves P) (s : State) (more : List Byte) (h : P s) :
    P (s.releaseSelect more) := by
  exact k.transaction _ _ _ h

theorem KeptByMoves.command {P : State → Prop} (k : KeptByMoves P) (s : State) (edge : SelectEdge)
    (effect : StationState → State → State) (h : P s)
    (he : ∀ st t, t.life = .running st → t.port = .free → P t → P (effect st t)) : P (s.command edge effect) := by
  cases edge
  · exact k.assertSelect s h
  · have hs : P (s.releaseSelect []) := k.releaseSelect s [] h
    unfold State.command
    simp only []
    split
    · rename_i st hst
      unfold State.takesCommand at hst
      split at hst
      · rename_i st' hl hp
        split at hst
        · cases hst
        · cases hst
          exact he _ _ (by simpa using hl) (by simpa using hp) hs
      · cases hst
    · exact hs

/-- A property kept by the moves is kept by every command. -/
theorem KeptByMoves.exec {P : State → Prop} (k : KeptByMoves P) (c : Instr) {s t : State} (h : P s)
    (he : exec c s = .next t) : P t := by
  cases c <;> simp only [Machine.exec] at he
  case powerOn straps =>
    cases he
    unfold State.powerOn
    split
    · exact k.start _ _ _ _ h (.inl rfl) (.inl rfl)
    · exact k.start _ _ _ _ h (.inl rfl) (.inr rfl)
  case resetPinLow w =>
    cases he
    have hp : P { s with resetPinLow := true } := k.pin _ _ h
    unfold State.resetLow
    simp only []
    split
    · exact hp
    · split
      · exact k.start _ _ _ _ hp (.inr rfl) (.inl rfl)
      · exact k.free _ (s.freeCount + 1) hp
  case resetPinHigh straps =>
    cases he
    have hp : P { s with resetPinLow := false } := k.pin _ _ h
    unfold State.resetHigh
    simp only []
    split
    · exact k.start _ _ _ _ hp (.inr rfl) (.inr rfl)
    · exact hp
  case configurationReadEnd read =>
    unfold execConfigurationReadEnd at he
    split at he <;> cases he
    · exact k.endRead _ _ h (by assumption)
    · exact h
  case frameTimerExpiry =>
    unfold execFrameTimerExpiry at he
    split at he <;> cases he
    · exact k.expire _ h (by assumption)
    · exact h
  case listeningWindow =>
    unfold execListeningWindow at he
    split at he <;> cases he
    · exact k.expire _ h (by simp_all)
    · exact h
  case quietOver =>
    unfold execQuietOver at he
    split at he <;> cases he
    · exact k.expire _ h (by simp_all)
    · exact h
  case frameSynchronisation => cases he; exact k.synchronise _ h
  case idlePoint others =>
    unfold execIdlePoint at he
    split at he <;> cases he
    · exact k.contend _ _ h (by assumption)
    · exact h
  case clash cause =>
    unfold execClash at he
    split at he <;> cases he
    · exact k.clash _ _ h (by assumption)
    · exact h
  case beacon | ready | sealFrame | join | presence | leave | update | glyph | invalidClassFrame =>
    cases he; exact k.frame _ _ _ h
  case flipTimeout =>
    unfold execFlipTimeout at he
    split at he <;> cases he
    · exact k.frame _ _ _ h
    · exact h
  case silenceTimeout =>
    unfold execSilenceTimeout at he
    split at he <;> cases he
    · exact k.frame _ _ _ h
    · exact h
  case presenceInterval =>
    unfold execPresenceInterval at he
    split at he <;> cases he
    · exact k.frame _ _ _ h
    · exact h
  case deaf =>
    unfold execDeaf at he
    split at he <;> cases he
    · exact k.frame _ _ _ h
    · exact h
  case leftUnheard =>
    unfold execLeftUnheard at he
    split at he <;> cases he
    · exact k.frame _ _ _ h
    · exact h
  case feedDropped =>
    unfold execFeedDropped at he
    split at he <;> cases he
    · exact k.frame _ _ _ h
    · exact h
  case tileStep =>
    unfold execTileStep at he
    split at he <;> cases he
    · exact k.tileStep _ _ h (by assumption)
    · exact h
  case catchUpRead =>
    unfold execCatchUpRead at he
    split at he <;> cases he
    · exact k.catchUpRead _ _ h (by assumption)
    · exact h
  case catchUpWrite =>
    unfold execCatchUpWrite at he
    split at he <;> cases he
    · exact k.catchUpWrite _ _ h (by assumption)
    · exact h
  case rowFetch =>
    unfold execRowFetch at he
    split at he <;> cases he
    · exact k.rowFetched _ _ h (by assumption)
    · exact h
  case rowDisplay =>
    unfold execRowDisplay at he
    split at he
    · split at he <;> cases he
      · exact k.displayRow _ _ h (by assumption)
      · exact h
    · cases he; exact h
  case dotLine =>
    unfold execDotLine at he
    split at he
    · split at he <;> cases he
      · exact k.beginLine _ _ _ h (by assumption)
      · exact h
    · cases he; exact h
  case tail =>
    unfold execTail at he
    split at he <;> cases he
    · exact k.beginTail _ h
    · exact h
  case status => cases he; exact k.command _ _ _ h fun _ _ _ _ h => k.port _ _ h
  case nextEvent => cases he; exact k.command _ _ _ h fun _ t _ _ h => k.port _ _ (k.events t h)
  case submit =>
    unfold execSubmit at he
    split at he <;> cases he
    · exact k.command _ _ _ h fun _ _ _ _ h => k.submit _ _ _ h
    · exact k.command _ _ _ h fun _ _ _ _ h => h
  case readCell =>
    unfold execReadCell at he
    split at he <;> cases he
    · exact k.command _ _ _ h fun _ _ _ hp h => k.readCell _ _ _ _ h hp
    · exact k.command _ _ _ h fun _ _ _ _ h => h
  case feedReadComplete =>
    unfold execFeedReadComplete at he
    split at he <;> cases he
    · exact k.feedRead _ _ h (by assumption)
    · exact h
  case readRoster =>
    unfold execReadRoster at he
    split at he <;> cases he
    · refine k.command _ _ _ h fun _ t _ _ h => ?_
      unfold State.readRosterCommand
      split <;> exact k.port _ _ h
    · exact k.command _ _ _ h fun _ _ _ _ h => h
  case readCounters => cases he; exact k.command _ _ _ h fun _ _ _ _ h => k.port _ _ h
  case clearCounters => cases he; exact k.command _ _ _ h fun _ t _ _ h => k.port _ _ (k.counters t h)
  case restart => cases he; exact k.command _ _ _ h fun _ _ hl _ h => k.restart _ _ h hl
  case collect =>
    unfold execCollect at he
    split at he <;> cases he
    · exact k.assertSelect _ h
    · unfold State.collect
      split
      · exact k.port _ _ (k.releaseSelect _ _ h)
      · exact k.releaseSelect _ _ h
  case unknownCommand =>
    unfold execUnknownCommand at he
    split at he <;> cases he
    · exact h
    · exact k.command _ _ _ h fun _ _ _ _ h => k.port _ _ h
  case lossOfPower => cases he; exact k.losePower _ h

/-- A property kept by the moves is kept by every step. -/
theorem KeptByMoves.step {P : State → Prop} (k : KeptByMoves P) {s t : State} (h : P s) (he : step s = .next t) :
    P t := by
  unfold Machine.step at he
  split at he
  · cases he; exact h
  · rename_i c rest _
    exact k.exec c (k.pending s rest h) he

end Sys2Proof.Machine
end

