-- ==== Sys2Proof/Laws/Frame.lean ====
section
/-! SUPPORT. What the end of a frame can do (R142 to R145, R154 to R156): eight outcomes. -/

namespace Sys2Proof.Machine

/-- The outcomes of the end of a frame. -/
inductive FrameEnds (s : State) (cls : BitVec 3) (f : BusFrame) : State → Prop
  | unread : s.reads = false → FrameEnds s cls f s
  | clash : s.reads = true → s.ownership cls f = .clash → FrameEnds s cls f s.becomeClashed
  | outside : s.participates = false → FrameEnds s cls f s.endFlight
  | spoiled (st : StationState) (reason : Option SpoilReason) : s.life = .running st → st.participates = true →
      s.reads = true → s.ownership cls f ≠ .clash → s.judge cls f = reason →
      (reason = none → f.spoiledByOther = true) →
      FrameEnds s cls f (s.endFlight.frameSpoiled (s.ownership cls f).item reason)
  | accepted (st : StationState) (msg : Message) : s.life = .running st → st.participates = true →
      s.reads = true → s.ownership cls f ≠ .clash → s.judge cls f = none → parseMessage cls f.payload = some msg →
      f.spoiledByOther = false →
      FrameEnds s cls f ((s.afterShare cls f).acceptMessage st (s.ownership cls f).item f.sender msg)
  | listenSpoiled : s.life = .running .listening → s.reads = true → s.ownership cls f ≠ .clash →
      FrameEnds s cls f (s.endFlight.attemptSpoiled (s.ownership cls f).item none)
  | listenAdopted (m : BeaconFields) : s.life = .running .listening → s.reads = true → s.ownership cls f ≠ .clash →
      s.judge cls f = none → parseMessage cls f.payload = some (.beacon m) →
      FrameEnds s cls f ((s.endFlight.frameAccepted (s.ownership cls f).item).adopt m)
  | listenIgnored : s.life = .running .listening → FrameEnds s cls f s.endFlight

/-- The item in flight plays no part in the judgement. -/
theorem State.judge_endFlight (s : State) (cls : BitVec 3) (f : BusFrame) : s.endFlight.judge cls f = s.judge cls f :=
  rfl

/-- A frame with no spoil reason has a payload that fits its class (R143). -/
theorem State.judge_none_parses (s : State) (cls : BitVec 3) (f : BusFrame) (h : s.judge cls f = none) :
    ∃ msg, parseMessage cls f.payload = some msg := by
  unfold State.judge at h
  split at h
  · cases h
  · split at h
    · cases h
    · exact ⟨_, by assumption⟩
    · exact ⟨_, by assumption⟩

theorem State.judgeFrame_ends (s : State) (st : StationState) (item : Option Item) (cls : BitVec 3) (f : BusFrame) :
    (∃ reason, s.judge cls f = reason ∧ (reason = none → f.spoiledByOther = true) ∧
      s.judgeFrame st item cls f = s.frameSpoiled item reason) ∨
    (∃ msg, s.judge cls f = none ∧ parseMessage cls f.payload = some msg ∧ f.spoiledByOther = false ∧
      s.judgeFrame st item cls f = (s.heardFrame item f.sender).acceptMessage st item f.sender msg) := by
  unfold State.judgeFrame
  split
  · rename_i msg hj hp
    cases hs : f.spoiledByOther
    · exact .inr ⟨msg, hj, hp, rfl, by simp⟩
    · exact .inl ⟨none, hj, fun _ => rfl, by simp⟩
  · rename_i x1 x2 hne
    refine .inl ⟨s.judge cls f, rfl, ?_, rfl⟩
    intro hj
    obtain ⟨msg, hm⟩ := s.judge_none_parses cls f hj
    exact absurd hm (hne msg hj)

/-- Every end of a frame is one of the outcomes. -/
theorem State.endFrame_ends (s : State) (cls : BitVec 3) (f : BusFrame) : FrameEnds s cls f (s.endFrame cls f) := by
  unfold State.endFrame
  split
  · rename_i st hl
    by_cases hr : s.reads = true
    · rw [if_pos hr]
      by_cases hc : s.ownership cls f = .clash
      · rw [hc]
        exact .clash hr hc
      · have key : ∀ st', s.life = .running st' → st'.participates = true →
            FrameEnds s cls f (s.endFlight.judgeFrame st' (s.ownership cls f).item cls f) := by
          intro st' hl' hp'
          rcases s.endFlight.judgeFrame_ends st' (s.ownership cls f).item cls f with ⟨r, hj, hs, he⟩ | ⟨msg, hj, hp, hs, he⟩
          · rw [he]
            exact .spoiled st' r hl' hp' hr hc hj hs
          · rw [he]
            exact .accepted st' msg hl' hp' hr hc hj hp hs
        have listen : s.life = .running .listening →
            FrameEnds s cls f (s.endFlight.listenFrame (s.ownership cls f).item cls f) := by
          intro hl'
          unfold State.listenFrame
          split
          · rename_i m hj hp
            split
            · exact .listenSpoiled hl' hr hc
            · exact .listenAdopted m hl' hr hc hj hp
          · split
            · exact .listenSpoiled hl' hr hc
            · exact .listenIgnored hl'
        have outside : s.participates = false → FrameEnds s cls f s.endFlight := .outside
        generalize ho : s.ownership cls f = o at *
        cases o with
        | clash => exact absurd rfl hc
        | own item =>
          cases st with
          | joining => exact key _ hl rfl
          | member => exact key _ hl rfl
          | leaving _ => exact key _ hl rfl
          | listening => exact listen hl
          | halted => exact outside (by simp [State.participates, hl, StationState.participates])
          | withdrawn => exact outside (by simp [State.participates, hl, StationState.participates])
          | clashed => exact outside (by simp [State.participates, hl, StationState.participates])
        | foreign =>
          cases st with
          | joining => exact key _ hl rfl
          | member => exact key _ hl rfl
          | leaving _ => exact key _ hl rfl
          | listening => exact listen hl
          | halted => exact outside (by simp [State.participates, hl, StationState.participates])
          | withdrawn => exact outside (by simp [State.participates, hl, StationState.participates])
          | clashed => exact outside (by simp [State.participates, hl, StationState.participates])
    · rw [if_neg hr]
      exact .unread (by simpa using hr)
  · exact .unread (by simp_all [State.reads])
  · exact .unread (by simp_all [State.reads])
  · exact .unread (by simp_all [State.reads])

/-- An accepted frame: `endFrame` is the share of every frame, then the effect of its message. -/
theorem State.Accepts.endFrame {s : State} {st : StationState} {cls : BitVec 3} {f : BusFrame} {msg : Message}
    (h : s.Accepts st cls f msg) :
    s.endFrame cls f = (s.afterShare cls f).acceptMessage st (s.ownership cls f).item f.sender msg := by
  have hr : s.reads = true := by
    have := h.inWall
    unfold State.reads
    rw [h.running]
    cases st <;> simp_all [h.synchronised, StationState.readsKeys, StationState.participates]
  have hj : s.endFlight.judge cls f = none := by
    rw [s.judge_endFlight]
    unfold State.judge
    rw [if_neg (by simp [h.checkGood]), h.layout]
    cases msg with
    | update u =>
      have := h.room u rfl
      simp only
      rw [if_neg]
      simp only [Bool.and_eq_true, decide_eq_true_eq, not_and, not_le]
      exact this
    | _ => rfl
  have key : s.endFlight.judgeFrame st (s.ownership cls f).item cls f =
      (s.afterShare cls f).acceptMessage st (s.ownership cls f).item f.sender msg := by
    unfold State.judgeFrame
    rw [hj, h.layout]
    simp [h.unspoiled, State.afterShare]
  have hw := h.inWall
  unfold State.endFrame
  rw [h.running]
  simp only [hr, if_true]
  have hc := h.noClash
  generalize ho : s.ownership cls f = o at *
  cases o <;> first | exact absurd rfl hc | skip
  all_goals cases st <;> first | exact key | simp [StationState.participates] at hw

/-- A spoiled frame: `endFrame` is the outcome of the spoil. -/
theorem State.Spoiled.endFrame {s : State} {st : StationState} {cls : BitVec 3} {f : BusFrame}
    {reason : Option SpoilReason} (h : s.Spoiled st cls f reason) :
    s.endFrame cls f = s.endFlight.frameSpoiled (s.ownership cls f).item reason := by
  have hr : s.reads = true := by
    have := h.inWall
    unfold State.reads
    rw [h.running]
    cases st <;> simp_all [h.synchronised, StationState.readsKeys, StationState.participates]
  have key : s.endFlight.judgeFrame st (s.ownership cls f).item cls f =
      s.endFlight.frameSpoiled (s.ownership cls f).item reason := by
    rcases s.endFlight.judgeFrame_ends st (s.ownership cls f).item cls f with ⟨r, hj, _, he⟩ | ⟨msg, hj, _, hs, _⟩
    · rw [he, ← hj, s.judge_endFlight, h.judged]
    · rw [s.judge_endFlight, h.judged] at hj
      rw [h.spoiled hj] at hs
      cases hs
  have hw := h.inWall
  unfold State.endFrame
  rw [h.running]
  simp only [hr, if_true]
  have hc := h.noClash
  generalize ho : s.ownership cls f = o at *
  cases o <;> first | exact absurd rfl hc | skip
  all_goals cases st <;> first | exact key | simp [StationState.participates] at hw

end Sys2Proof.Machine
end

