-- ==== Sys2Proof/Laws/Ops.lean ====
section
/-! SUPPORT. The spec lemmas of the shared operations: tables and sets of stations, the event queue, the dirty list,
the left-zone lists, the steps of apply that make no access, the heads an idle engine takes, the record after a change
of the roster, the grant of the page memory arbiter, feed transactions. -/

namespace Sys2Proof.Machine

/-! ### Tables and sets -/

@[simp] theorem getElem_tabulate {α : Type} {n : Nat} (f : Fin n → α) (i : Nat) (h : i < n) :
    (tabulate f)[i] = f ⟨i, h⟩ := by
  simp [tabulate]

@[simp] theorem getFin_tabulate {α : Type} {n : Nat} (f : Fin n → α) (i : Fin n) : (tabulate f)[i] = f i :=
  getElem_tabulate f i.val i.isLt

/-- Two tables that agree at every index are equal. -/
theorem vector_ext_fin {α : Type} {n : Nat} (v w : Vector α n) (h : ∀ i : Fin n, v[i] = w[i]) : v = w :=
  Vector.ext fun i hi => h ⟨i, hi⟩

/-- One set is contained in another. -/
theorem stationSubset_iff (a b : StationSet) :
    stationSubset a b = true ↔ ∀ n : Station, a[n] = true → b[n] = true := by
  simp only [stationSubset, List.all_eq_true, List.mem_finRange, Bool.or_eq_true, Bool.not_eq_true', forall_const]
  refine forall_congr' fun n => ?_
  cases a[n] <;> simp

/-- A station is in both sets. -/
@[simp] theorem getFin_stationInter (a b : StationSet) (n : Station) : (stationInter a b)[n] = (a[n] && b[n]) := by
  simp [stationInter]

/-- The element of a table after one element is replaced. -/
theorem getFin_set {α : Type} {n : Nat} (v : Vector α n) (i j : Fin n) (x : α) :
    (v.set i x)[j] = if i = j then x else v[j] := by
  simp only [Fin.getElem_fin, Vector.getElem_set, Fin.ext_iff]

/-! ### The event queue (R194) -/

/-- A posting never takes the queue above its capacity. -/
theorem EventQueue.post_length (q : EventQueue) (fn : FrameNumber) (e : Event) (h : q.records.length ≤ 32) :
    (q.post fn e).records.length ≤ 32 := by
  unfold EventQueue.post
  split
  · simp; omega
  · exact h

theorem EventQueue.postAll_length (q : EventQueue) (fn : FrameNumber) (es : List Event)
    (h : q.records.length ≤ 32) : (q.postAll fn es).records.length ≤ 32 := by
  induction es generalizing q with
  | nil => exact h
  | cons e es ih => exact ih _ (q.post_length fn e h)

/-- A posted STATE event is the latest record, or it was dropped at a full queue. -/
theorem EventQueue.post_endsWithState (q : EventQueue) (fn : FrameNumber) (st : StationState) (reason : StateReason) :
    (q.post fn (.state st reason)).endsWithState fn st := by
  unfold EventQueue.post EventQueue.endsWithState
  split
  · exact .inl ⟨reason, by simp⟩
  · exact .inr ⟨rfl, by simp only; omega⟩

/-! ### The dirty list (R72) -/

/-- A posting keeps the dirty list's form. -/
theorem DirtyList.post_formed (d : DirtyList) (p : Pos) (hl : d.positions.length ≤ 128) (hn : d.positions.Nodup)
    (ho : d.overflow = true → d.positions = []) :
    (d.post p).positions.length ≤ 128 ∧ (d.post p).positions.Nodup ∧
      ((d.post p).overflow = true → (d.post p).positions = []) := by
  unfold DirtyList.post
  split
  · exact ⟨hl, hn, ho⟩
  · rename_i h
    simp only [Bool.or_eq_true, decide_eq_true_eq, not_or] at h
    split
    · refine ⟨by simp; omega, ?_, fun hov => absurd hov h.1⟩
      rw [List.nodup_append]
      refine ⟨hn, by simp, ?_⟩
      intro a ha b hb hab
      simp only [List.mem_singleton] at hb
      subst hb; subst hab
      exact h.2 ha
    · simp

/-! ### The left-zone lists (R85 to R89) -/

theorem mem_insertColumn (c : Nat) (z : ZoneRecord) (l : List (Nat × ZoneRecord)) (e : Nat × ZoneRecord)
    (h : e ∈ insertColumn c z l) : e = (c, z) ∨ e ∈ l := by
  induction l with
  | nil => simpa [insertColumn] using h
  | cons x l ih =>
    obtain ⟨b, w⟩ := x
    simp only [insertColumn] at h
    split at h
    · simpa using h
    · split at h
      · rcases List.mem_cons.1 h with rfl | h
        · exact .inl rfl
        · exact .inr (by simp [h])
      · rcases List.mem_cons.1 h with rfl | h
        · exact .inr (by simp)
        · rcases ih h with rfl | h
          · exact .inl rfl
          · exact .inr (by simp [h])

/-- An insertion keeps the ascending order. -/
theorem insertColumn_ascending (c : Nat) (z : ZoneRecord) (l : List (Nat × ZoneRecord))
    (h : l.Pairwise fun a b => a.1 < b.1) : (insertColumn c z l).Pairwise fun a b => a.1 < b.1 := by
  induction l with
  | nil => simp [insertColumn]
  | cons x l ih =>
    obtain ⟨b, w⟩ := x
    rw [List.pairwise_cons] at h
    simp only [insertColumn]
    split
    · rename_i hcb
      rw [List.pairwise_cons]
      refine ⟨?_, List.pairwise_cons.2 h⟩
      intro e he
      rcases List.mem_cons.1 he with rfl | he
      · exact hcb
      · exact lt_trans hcb (h.1 e he)
    · split
      · rename_i hcb
        subst hcb
        exact List.pairwise_cons.2 ⟨h.1, h.2⟩
      · rename_i h1 h2
        refine List.pairwise_cons.2 ⟨?_, ih h.2⟩
        intro e he
        rcases mem_insertColumn c z l e he with rfl | he
        · simp only; omega
        · exact h.1 e he

theorem length_insertColumn (c : Nat) (z : ZoneRecord) (l : List (Nat × ZoneRecord)) :
    (insertColumn c z l).length ≤ l.length + 1 := by
  induction l with
  | nil => simp [insertColumn]
  | cons x l ih =>
    obtain ⟨b, w⟩ := x
    simp only [insertColumn]
    split
    · simp
    · split
      · simp
      · simp; exact ih

/-- A left step of a column below the tile keeps the form of R85. -/
theorem LeftRow.write_formed (row : LeftRow) (l c : Nat) (cell : CellRecord) (h : row.Formed l) (hc : c < l) :
    (row.write c cell).Formed l := by
  unfold LeftRow.write
  split
  · exact h
  · rename_i hb
    cases cell with
    | glyph g =>
      refine ⟨le_trans (List.length_filter_le _ _) h.size, h.ascending.filter _, ?_, ?_⟩
      · intro e he
        exact h.below e (List.mem_filter.1 he).1
      · intro f hf
        exact ⟨(h.floor f hf).1, fun e he => (h.floor f hf).2 e (List.mem_filter.1 he).1⟩
    | zone z =>
      have hasc := insertColumn_ascending c z.zone row.entries h.ascending
      have hbelow : ∀ e ∈ insertColumn c z.zone row.entries, e.1 < l := by
        intro e he
        rcases mem_insertColumn _ _ _ _ he with rfl | he
        · exact hc
        · exact h.below e he
      have hfloor : ∀ f, row.floor = some f → f < l ∧ ∀ e ∈ insertColumn c z.zone row.entries, f < e.1 := by
        intro f hf
        refine ⟨(h.floor f hf).1, ?_⟩
        intro e he
        rcases mem_insertColumn _ _ _ _ he with rfl | he
        · simp only [LeftRow.belowFloor, hf, decide_eq_true_eq, not_le] at hb
          exact hb
        · exact (h.floor f hf).2 e he
      have hlen := length_insertColumn c z.zone row.entries
      have hsize := h.size
      simp only [LeftRow.trim]
      split
      · rename_i hle
        exact ⟨hle, hasc, hbelow, hfloor⟩
      · rename_i hgt
        split
        · rename_i heq
          rw [heq] at hgt
          simp at hgt
        · rename_i k w rest heq
          rw [heq] at hasc hbelow hlen
          rw [List.pairwise_cons] at hasc
          refine ⟨?_, hasc.2, fun e he => hbelow e (by simp [he]), ?_⟩
          · simp only [List.length_cons] at hlen
            simp only
            omega
          · intro f hf
            simp only [Option.some.injEq] at hf
            subst hf
            exact ⟨hbelow (k, w) (by simp), fun e he => hasc.1 e he⟩

/-- An empty list without a floor has the form of R85. -/
theorem LeftRow.empty_formed (l : Nat) : LeftRow.empty.Formed l := by
  constructor <;> simp [LeftRow.empty]

/-- What an insertion at a column leaves in an ascending list: the new entry, and the entries of other columns. -/
theorem mem_insertColumn_iff (c : Nat) (z : ZoneRecord) (l : List (Nat × ZoneRecord)) (e : Nat × ZoneRecord)
    (h : l.Pairwise fun a b => a.1 < b.1) : e ∈ insertColumn c z l ↔ e = (c, z) ∨ e ∈ l ∧ e.1 ≠ c := by
  induction l with
  | nil => simp [insertColumn]
  | cons x l ih =>
    obtain ⟨b, w⟩ := x
    rw [List.pairwise_cons] at h
    have later : ∀ e ∈ l, b < e.1 := h.1
    simp only [insertColumn]
    split
    · rename_i hcb
      refine ⟨fun he => ?_, fun he => ?_⟩
      · rcases List.mem_cons.1 he with rfl | he
        · exact .inl rfl
        · refine .inr ⟨he, ?_⟩
          rcases List.mem_cons.1 he with rfl | he
          · simp only; omega
          · have := later e he; omega
      · rcases he with rfl | he
        · exact List.mem_cons_self
        · exact List.mem_cons_of_mem _ he.1
    · split
      · rename_i hcb
        subst hcb
        refine ⟨fun he => ?_, fun he => ?_⟩
        · rcases List.mem_cons.1 he with rfl | he
          · exact .inl rfl
          · have := later e he
            exact .inr ⟨List.mem_cons_of_mem _ he, by omega⟩
        · rcases he with rfl | ⟨he, hne⟩
          · exact List.mem_cons_self
          · rcases List.mem_cons.1 he with rfl | he
            · exact absurd rfl hne
            · exact List.mem_cons_of_mem _ he
      · rename_i h1 h2
        rw [List.mem_cons, ih h.2]
        refine ⟨fun he => ?_, fun he => ?_⟩
        · rcases he with rfl | rfl | he
          · exact .inr ⟨List.mem_cons_self, by simp only; omega⟩
          · exact .inl rfl
          · exact .inr ⟨List.mem_cons_of_mem _ he.1, he.2⟩
        · rcases he with rfl | ⟨he, hne⟩
          · exact .inr (.inl rfl)
          · rcases List.mem_cons.1 he with rfl | he
            · exact .inl rfl
            · exact .inr (.inr ⟨he, hne⟩)

/-- An insertion makes the list one longer, unless it replaces the record of its column. -/
theorem length_insertColumn_eq (c : Nat) (z : ZoneRecord) (l : List (Nat × ZoneRecord))
    (h : l.Pairwise fun a b => a.1 < b.1) :
    (insertColumn c z l).length = if ∃ e ∈ l, e.1 = c then l.length else l.length + 1 := by
  induction l with
  | nil => simp [insertColumn]
  | cons x l ih =>
    obtain ⟨b, w⟩ := x
    rw [List.pairwise_cons] at h
    have later : ∀ e ∈ l, b < e.1 := h.1
    simp only [insertColumn]
    split
    · rename_i hcb
      rw [if_neg]
      · rfl
      · rintro ⟨e, he, hec⟩
        rcases List.mem_cons.1 he with rfl | he
        · simp only at hec; omega
        · have := later e he; omega
    · split
      · rename_i hcb
        rw [if_pos ⟨(b, w), List.mem_cons_self, hcb.symm⟩]; rfl
      · rename_i h1 h2
        rw [List.length_cons, ih h.2, List.length_cons]
        have : (∃ e ∈ (b, w) :: l, e.1 = c) ↔ ∃ e ∈ l, e.1 = c := by
          refine ⟨?_, fun ⟨e, he, hec⟩ => ⟨e, List.mem_cons_of_mem _ he, hec⟩⟩
          rintro ⟨e, he, hec⟩
          rcases List.mem_cons.1 he with rfl | he
          · exact absurd hec.symm h2
          · exact ⟨e, he, hec⟩
        simp only [this]
        split <;> rfl

/-- A left step is what R87 to R89 say, on a list that has the form of R85. -/
theorem LeftRow.write_stepsTo (row : LeftRow) (l c : Nat) (cell : CellRecord) (h : row.Formed l) :
    row.StepsTo c cell (row.write c cell) := by
  have above : (∀ f, row.floor = some f → f < c) → row.belowFloor c = false := by
    intro hf
    unfold LeftRow.belowFloor
    split
    · have := hf _ (by assumption)
      simp only [decide_eq_false_iff_not]; omega
    · rfl
  have written : ∀ z : ZoneCell, (∀ f, row.floor = some f → f < c) →
      row.write c (.zone z) = LeftRow.trim { row with entries := insertColumn c z.zone row.entries } := by
    intro z hf
    simp [LeftRow.write, above hf]
  have hasc (z : ZoneCell) := insertColumn_ascending c z.zone row.entries h.ascending
  have hmem (z : ZoneCell) (e) := mem_insertColumn_iff c z.zone row.entries e h.ascending
  have hlen (z : ZoneCell) := length_insertColumn_eq c z.zone row.entries h.ascending
  refine ⟨?_, ?_, ?_, ?_, ?_⟩
  · rintro ⟨f, hf, hc⟩
    simp [LeftRow.write, LeftRow.belowFloor, hf, hc]
  · rintro z rfl hf hroom
    rw [written z hf]
    have hle : (insertColumn c z.zone row.entries).length ≤ 16 := by
      rw [hlen z]
      have := h.size
      rcases hroom with hr | hr
      · split <;> omega
      · rw [if_pos hr]; exact this
    rw [LeftRow.trim, if_pos hle]
    exact ⟨rfl, hmem z⟩
  · rintro z rfl hf hfull hnew
    rw [written z hf]
    have h17 : (insertColumn c z.zone row.entries).length = 17 := by
      rw [hlen z, if_neg (fun ⟨e, he, hec⟩ => hnew e he hec), hfull]
    have hgt : ¬ (insertColumn c z.zone row.entries).length ≤ 16 := by omega
    simp only [LeftRow.trim, hgt, if_false]
    split
    · rename_i heq
      rw [heq] at h17; simp at h17
    · rename_i k w rest heq
      have ha := hasc z
      rw [heq, List.pairwise_cons] at ha
      rw [heq, List.length_cons] at h17
      have hin : ∀ e, e ∈ (k, w) :: rest ↔ e = (c, z.zone) ∨ e ∈ row.entries ∧ e.1 ≠ c := fun e => heq ▸ hmem z e
      refine ⟨k, rfl, by simp only; omega, ?_, ?_⟩
      · rcases (hin (k, w)).1 List.mem_cons_self with e | e
        · exact .inl (congrArg Prod.fst e)
        · exact .inr ⟨(k, w), e.1, rfl⟩
      · intro e
        refine ⟨fun he => ⟨ha.1 e he, ?_⟩, fun ⟨hk, he⟩ => ?_⟩
        · rcases (hin e).1 (List.mem_cons_of_mem _ he) with rfl | he
          · exact .inl rfl
          · exact .inr he.1
        · have : e ∈ (k, w) :: rest := (hin e).2 (he.imp id fun hm => ⟨hm, hnew e hm⟩)
          rcases List.mem_cons.1 this with rfl | this
          · simp only at hk; omega
          · exact this
  · rintro g rfl hf
    simp [LeftRow.write, above hf]
  · unfold LeftRow.write
    split
    · exact h.ascending
    · cases cell with
      | glyph g => exact h.ascending.filter _
      | zone z =>
        simp only [LeftRow.trim]
        split
        · exact hasc z
        · split
          · exact hasc z
          · rename_i heq
            have := hasc z
            rw [heq, List.pairwise_cons] at this
            exact this.2

/-! ### The steps between two writes of apply (R57, R59, R60) -/

/-- A left step of an entry names a column below the tile (R47, R57). -/
theorem Update.left_lt (p : Straps) (columns : Nat) (u : Update) (r : LocalRow) (c : Nat) (cell : CellRecord)
    (h : .left r c cell ∈ u.steps p columns) : c < leftEdge p := by
  unfold Update.steps at h
  split at h
  · cases h
  · simp only [List.mem_append, List.mem_map] at h
    rcases h with h | ⟨⟨k, d⟩, _, ht⟩
    · cases u <;> simp at h
    · simp only [targetStep, regionOf] at ht
      split at ht
      · cases ht
      · cases ht
        rename_i heq
        split at heq
        · assumption
        · split at heq <;> cases heq
      · cases ht

/-- A run of steps that make no access, done in front of others: the engine is at the others, and the station is as
the steps leave it (R57, R59, R60). The left steps name columns below the tile. -/
theorem State.runSteps_quiet (quiet more : List ApplyStep) (s : State) (n : Nat) (hf : s.LeftTableFormed)
    (hl : ∀ r c d, .left r c d ∈ quiet → c < leftEdge s.straps) (hq : ∀ p c, .tile p c ∉ quiet) :
    ∃ t, State.StepsQuietly quiet s t ∧ s.runSteps (quiet ++ more) n = t.runSteps more (n + quiet.length) ∧
      t.LeftTableFormed ∧
      t = { s with leftTable := t.leftTable, defaultsX := t.defaultsX, defaultsY := t.defaultsY } := by
  induction quiet generalizing s n with
  | nil => exact ⟨s, rfl, rfl, hf, rfl⟩
  | cons st rest ih =>
    have hl' : ∀ r c d, .left r c d ∈ rest → c < leftEdge s.straps :=
      fun r c d hm => hl r c d (List.mem_cons_of_mem _ hm)
    have hq' : ∀ p c, .tile p c ∉ rest := fun p c hm => hq p c (List.mem_cons_of_mem _ hm)
    have hn : n + (st :: rest).length = n + 1 + rest.length := by simp only [List.length_cons]; omega
    rw [hn]
    cases st with
    | tile p c => exact absurd List.mem_cons_self (hq p c)
    | right =>
      obtain ⟨t, h1, h2, h3, h4⟩ := ih s (n + 1) hf hl' hq'
      exact ⟨t, h1, h2, h3, h4⟩
    | left r col c =>
      have hc := hl r col c List.mem_cons_self
      have hf' : ({ s with leftTable := s.leftTable.set r (s.leftTable[r].write col c) } : State).LeftTableFormed := by
        intro k
        simp only [getFin_set]
        split
        · exact LeftRow.write_formed _ _ _ _ (hf r) hc
        · exact hf k
      obtain ⟨t, h1, h2, h3, h4⟩ := ih _ (n + 1) hf' hl' hq'
      exact ⟨t, ⟨_, LeftRow.write_stepsTo _ _ _ _ (hf r), h1⟩, h2, h3, h4⟩
    | leftClear r =>
      have hf' : ({ s with leftTable := s.leftTable.set r LeftRow.empty } : State).LeftTableFormed := by
        intro k
        simp only [getFin_set]
        split
        · exact LeftRow.empty_formed _
        · exact hf k
      obtain ⟨t, h1, h2, h3, h4⟩ := ih _ (n + 1) hf' hl' hq'
      exact ⟨t, h1, h2, h3, h4⟩
    | rowDefault r d =>
      have e : s.setBuildingDefault r d = { s with
          defaultsX := (s.setBuildingDefault r d).defaultsX, defaultsY := (s.setBuildingDefault r d).defaultsY } := by
        unfold State.setBuildingDefault; cases s.shown <;> rfl
      have hst : (s.setBuildingDefault r d).straps = s.straps := by rw [e]
      obtain ⟨t, h1, h2, h3, h4⟩ :=
        ih (s.setBuildingDefault r d) (n + 1) (by rw [e]; exact hf) (by rw [hst]; exact hl') hq'
      refine ⟨t, ?_, h2, h3, ?_⟩
      · unfold State.StepsQuietly
        unfold State.setBuildingDefault at h1
        exact h1
      · rw [h4, e]

/-- Steps that make no access leave the same left-zone table behind at stations with the same table (R92). -/
theorem State.StepsQuietly.sameLeft {steps : List ApplyStep} {s u s' : State} (h : State.StepsQuietly steps s u)
    (hl : s'.leftTable = s.leftTable) : ∃ u', State.StepsQuietly steps s' u' ∧ u'.leftTable = u.leftTable := by
  induction steps generalizing s s' with
  | nil => cases h; exact ⟨s', rfl, hl⟩
  | cons st rest ih =>
    cases st with
    | tile p c => exact h.elim
    | right => exact ih (s := s) h hl
    | left r col c =>
      obtain ⟨row, h1, h2⟩ := h
      obtain ⟨u', h3, h4⟩ := ih h2 (s' := { s' with leftTable := s'.leftTable.set r row }) (by simp only [hl])
      exact ⟨u', ⟨row, by rw [hl]; exact h1, h3⟩, h4⟩
    | leftClear r =>
      exact ih (s := { s with leftTable := s.leftTable.set r { entries := [], floor := none } }) h (by simp only [hl])
    | rowDefault r d =>
      unfold State.StepsQuietly at h ⊢
      refine ih h ?_
      cases s.shown <;> cases s'.shown <;> exact hl

/-- Two runs of steps that make no access, one after the other. -/
theorem State.StepsQuietly.append {a b : List ApplyStep} {s t u : State} (h1 : State.StepsQuietly a s t)
    (h2 : State.StepsQuietly b t u) : State.StepsQuietly (a ++ b) s u := by
  induction a generalizing s with
  | nil => cases h1; exact h2
  | cons st rest ih =>
    cases st with
    | tile p c => exact h1.elim
    | right => exact ih (s := s) h1
    | left r col c => obtain ⟨row, h3, h4⟩ := h1; exact ⟨row, h3, ih h4⟩
    | leftClear r => exact ih (s := { s with leftTable := s.leftTable.set r { entries := [], floor := none } }) h1
    | rowDefault r d => unfold State.StepsQuietly at h1; exact ih h1

/-- The steps of an entry up to its first write, if it makes one. -/
theorem ApplyStep.splitQuiet (l : List ApplyStep) : ∃ quiet more, l = quiet ++ more ∧ (∀ p c, .tile p c ∉ quiet) ∧
    (more = [] ∨ ∃ p c rest, more = .tile p c :: rest) := by
  induction l with
  | nil => exact ⟨[], [], rfl, nofun, .inl rfl⟩
  | cons st rest ih =>
    obtain ⟨quiet, more, h1, h2, h3⟩ := ih
    cases st with
    | tile p c => exact ⟨[], .tile p c :: rest, rfl, nofun, .inr ⟨p, c, rest, rfl⟩⟩
    | right => exact ⟨.right :: quiet, more, by rw [h1]; rfl, by simpa using h2, h3⟩
    | left r k c => exact ⟨.left r k c :: quiet, more, by rw [h1]; rfl, by simpa using h2, h3⟩
    | leftClear r => exact ⟨.leftClear r :: quiet, more, by rw [h1]; rfl, by simpa using h2, h3⟩
    | rowDefault r d => exact ⟨.rowDefault r d :: quiet, more, by rw [h1]; rfl, by simpa using h2, h3⟩

/-- What an idle engine makes of a queue of Current entries: those in front that make no access are done, the next one is
the entry being applied, at its first write, whose request is issued (R55, R58, R61). -/
theorem State.takeHeads_current (s : State) (q : List UpdateEntry) (hf : s.LeftTableFormed)
    (hq : ∀ e ∈ q, e.epoch = .current) : ∃ done quiet u,
      q = done ++ (s.takeHeads q).updateQueue ∧
      State.StepsQuietly (done.flatMap (fun e => e.update.steps s.straps s.wallColumns) ++ quiet) s u ∧
      (s.takeHeads q).leftTable = u.leftTable ∧
      ((s.takeHeads q).updateQueue = [] → (s.takeHeads q).applyEngine = .idle ∧ quiet = []) ∧
      ∀ e rest, (s.takeHeads q).updateQueue = e :: rest → ∃ p c more,
        e.update.steps s.straps s.wallColumns = quiet ++ .tile p c :: more ∧
        (s.takeHeads q).applyEngine = .applying quiet.length ∧
        (s.takeHeads q).arbiter = s.arbiter.issue .apply ⟨p, .building, some c⟩ := by
  induction q generalizing s with
  | nil => exact ⟨[], [], s, rfl, rfl, rfl, fun _ => ⟨rfl, rfl⟩, nofun⟩
  | cons e rest ih =>
    obtain ⟨quiet, more, h1, h2, h3⟩ := ApplyStep.splitQuiet (e.update.steps s.straps s.wallColumns)
    have hl : ∀ r c d, .left r c d ∈ quiet → c < leftEdge s.straps := fun r c d hm =>
      Update.left_lt s.straps s.wallColumns e.update r c d (by rw [h1]; exact List.mem_append_left _ hm)
    obtain ⟨t, ht1, ht2, ht3, ht4⟩ := State.runSteps_quiet quiet more s 0 hf hl h2
    rw [← h1, Nat.zero_add] at ht2
    have hw : t.wallColumns = s.wallColumns := by rw [ht4]; rfl
    have hs : t.straps = s.straps := by rw [ht4]
    have ha : t.arbiter = s.arbiter := by rw [ht4]
    have he : e.epoch = .current := hq e List.mem_cons_self
    rcases h3 with rfl | ⟨p, c, tail, rfl⟩
    · have hrun : s.takeHeads (e :: rest) = t.takeHeads rest := by
        simp only [State.takeHeads, if_pos he, ht2, State.runSteps]
      obtain ⟨done, q2, u, g1, g2, g3, g4, g5⟩ := ih t ht3 fun x hx => hq x (List.mem_cons_of_mem _ hx)
      rw [hw, hs] at g2
      simp only [hw, hs, ha] at g5
      rw [hrun]
      refine ⟨e :: done, q2, u, by rw [List.cons_append, ← g1], ?_, g3, g4, g5⟩
      rw [List.flatMap_cons, h1, List.append_nil, List.append_assoc]
      exact ht1.append g2
    · have hrun : s.takeHeads (e :: rest) = { t with
          arbiter := t.arbiter.issue .apply ⟨p, .building, some c⟩
          updateQueue := e :: rest, applyEngine := .applying quiet.length } := by
        simp only [State.takeHeads, if_pos he, ht2, State.runSteps]
      rw [hrun]
      refine ⟨[], quiet, t, rfl, ht1, rfl, nofun, fun e' rest' h => ?_⟩
      cases h
      exact ⟨p, c, tail, h1, rfl, by rw [ha]⟩

/-! ### The record after a change of the roster (R7, R11, R16) -/

/-- A record settled for a roster is what R7, R11, R12 and R16 say. -/
theorem GenerationRecord.settle_follows (s t : State) (st : StationState) (g : GenerationRecord)
    (hb : g.baseline = s.gen.baseline) (hr : g.readySet = s.gen.readySet) (hl : t.life = .running st)
    (hg : ∃ a, t.gen = { g.settle st t.station t.roster with announced := a }) : s.RecordFollows t := by
  obtain ⟨a, hg⟩ := hg
  have hin : ∀ n : Station, t.gen.inBaseline n = true ↔
      s.gen.inBaseline n = true ∧ t.roster[n].state ≠ .absent ∧ t.roster[n].state ≠ .silent := by
    intro n
    rw [hg]
    simp only [GenerationRecord.settle, GenerationRecord.inBaseline, hb]
    cases s.gen.baseline <;> simp [baselineKept]
  have hreq : t.requirementSet =
      Machine.requirementSet t.roster { g with baseline := g.baseline.map (baselineKept t.roster) } := by
    unfold State.requirementSet Machine.requirementSet
    rw [hg]
    rfl
  refine ⟨?_, hin, fun n => ?_, ?_⟩
  · rw [hg]
    simp only [GenerationRecord.settle, hb, Option.isSome_map]
  · rw [hreq, hg]
    simp only [GenerationRecord.settle, getFin_stationInter, hr, Bool.and_eq_true]
  · have hfo : t.following = isFollowing st t.station t.roster t.gen := by
      unfold State.following
      rw [hl]
    have harm : t.gen.armed = (!isFollowing st t.station t.roster t.gen && computedArmed t.roster t.gen) := by
      rw [hg]
      rfl
    rw [harm, ← hfo, computedArmed, Bool.and_eq_true, Bool.and_eq_true, Bool.not_eq_true', stationSubset_iff]
    rfl

/-- A change of the roster of a running station is what R7, R11, R12 and R16 say. -/
theorem State.changeRoster_follows (s : State) (st : StationState) (r : Roster) (h : s.life = .running st) :
    s.RecordFollows (s.changeRoster st r) := by
  refine GenerationRecord.settle_follows s _ st s.gen rfl rfl (by simpa using h) ⟨(s.changeRoster st r).gen.announced, ?_⟩
  unfold State.changeRoster State.evaluateReady
  simp only []
  split <;> rfl

/-! ### The grant (R131) -/

/-- The grant with no access in progress: the granted request is the highest of those waiting, its role resolved by the
shown pointer; the others go on waiting; with none waiting nothing is granted. -/
theorem Arbiter.grant_highest (a : Arbiter) (shown : BufferName) (scanFirst : Bool) (hn : a.access = none) :
    (∀ g, (a.grant shown scanFirst).access = some g → g.abandoned = false ∧ g.blanked = false ∧
      ∀ r, (a.grant shown scanFirst).waiting r ≠ none → g.requester.place scanFirst < r.place scanFirst) ∧
    ((a.grant shown scanFirst).access = none → ∀ r, (a.grant shown scanFirst).waiting r = none) ∧
    ∀ r q, a.waiting r = some q → (a.grant shown scanFirst).waiting r = some q ∨
      (a.grant shown scanFirst).access = some ⟨r, shown.ofRole q.role, q.pos, q.write, false, false⟩ := by
  obtain ⟨rf, fr, ap, cu, ac⟩ := a
  simp only at hn
  subst hn
  cases scanFirst <;> cases rf <;> cases fr <;> cases ap <;> cases cu <;>
    refine ⟨?_, ?_, ?_⟩ <;>
    simp [Arbiter.grant, Arbiter.grantTo, Arbiter.setWaiting, Arbiter.waiting, grantOrder] <;>
    intro r <;> cases r <;> simp [Requester.place]

/-- A grant keeps the access in progress, and every waiting request still asks (R130, R131). -/
theorem State.grant_arbiterKeeps (s : State) :
    s.ArbiterKeeps s.grant false ∧ ∀ q, s.arbiter.rowFetch = some q → s.grant.asks .rowFetch q := by
  obtain ⟨⟨rf, fr, ap, cu, ac⟩, hs⟩ : ∃ a, s.arbiter = a := ⟨_, rfl⟩
  have hg : s.grant.arbiter = Arbiter.grant ⟨rf, fr, ap, cu, ac⟩ s.shown s.scanFirst := by
    unfold State.grant; rw [hs]
  have hsh : s.grant.shown = s.shown := rfl
  refine ⟨⟨?_, ?_, ?_, ?_, ?_⟩, ?_⟩ <;> simp only [State.asks, hg, hs, hsh] <;>
    cases s.scanFirst <;> cases ac <;> cases rf <;> cases fr <;> cases ap <;> cases cu <;>
    simp [Arbiter.grant, Arbiter.grantTo, Arbiter.setWaiting, Arbiter.waiting, grantOrder]

/-- So does the grant at which the row fetch and a writing engine may have issued requests together (R132). -/
theorem State.grantRace_arbiterKeeps (s : State) :
    s.ArbiterKeeps s.grantRace false ∧ ∀ q, s.arbiter.rowFetch = some q → s.grantRace.asks .rowFetch q := by
  unfold State.grantRace
  split
  · rename_i h
    obtain ⟨⟨rf, fr, ap, cu, ac⟩, hs⟩ : ∃ a, s.arbiter = a := ⟨_, rfl⟩
    rw [hs] at h ⊢
    refine ⟨⟨?_, ?_, ?_, ?_, ?_⟩, ?_⟩ <;> simp only [State.asks, hs] <;>
      cases Config.fetchIssuedFirst s.freeCount <;> cases ac <;> cases rf <;> cases fr <;> cases ap <;> cases cu <;>
      simp [Arbiter.grantTo, Arbiter.setWaiting, Arbiter.waiting] at h ⊢
  · exact s.grant_arbiterKeeps

/-! ### Feed transactions (R183, R184) -/

/-- A release shifts out the byte sampled at the assertion. -/
theorem State.releaseSelect_powered (s : State) (more : List Byte) (h : s.powered = true) :
    s.releaseSelect more = { s with transaction := none, dataOut := s.shownByte :: more } := by
  unfold State.releaseSelect State.shiftOut State.shownByte State.inTransaction State.beginning
  rw [if_pos h, if_pos h]
  cases s.transaction <;> rfl

/-- Without power a release ends the transaction, and nothing is shifted out. -/
theorem State.releaseSelect_unpowered (s : State) (more : List Byte) (h : s.powered = false) :
    s.releaseSelect more = { s with transaction := none } := by
  unfold State.releaseSelect State.shiftOut
  rw [h]
  rfl

/-- A transaction that is released at a Free port of a running station has its command's effect. -/
theorem State.command_free (s : State) (st : StationState) (effect : StationState → State → State) (h : s.isFree st) :
    s.command .released effect = effect st s.discarded := by
  obtain ⟨hl, hp, ht⟩ := h
  have hpow : s.powered = true := by simp [State.powered, hl]
  have hab : s.inTransaction.abandoned = false := by
    unfold State.inTransaction
    cases e : s.transaction with
    | none => simp [State.beginning, hpow, hl, Life.isRunning]
    | some tr => exact ht tr e
  have hn : s.takesCommand = some st := by simp [State.takesCommand, hl, hp, hab]
  simp only [State.command, hn, s.releaseSelect_powered [] hpow]
  rfl

/-- A transaction that is released at any other station with power is discarded. -/
theorem State.command_discarded (s : State) (effect : StationState → State → State) (hpow : s.powered = true)
    (h : ∀ st, ¬ s.isFree st) : s.command .released effect = s.discarded := by
  have hn : s.takesCommand = none := by
    unfold State.takesCommand
    split
    · rename_i st hl hp
      cases ha : s.inTransaction.abandoned
      · refine absurd ⟨hl, hp, fun tr e => ?_⟩ (h st)
        rw [State.inTransaction, e] at ha
        exact ha
      · rfl
    · rfl
  simp only [State.command, hn, s.releaseSelect_powered [] hpow]
  rfl

/-- Without power a released transaction has no effect but its end. -/
theorem State.command_unpowered (s : State) (effect : StationState → State → State) (h : s.powered = false) :
    s.command .released effect = { s with transaction := none } := by
  have hl : s.life = .unpowered := by simpa [State.powered] using h
  simp only [State.command, State.takesCommand, hl, s.releaseSelect_unpowered [] h]

end Sys2Proof.Machine
end

