-- ==== Sys2Proof/Tests/Slice0.lean ====
section
/-! SUPPORT. Tests: ill-formed commands, the layouts, the manual's own examples, and for every statement a concrete
state that meets its hypotheses. -/

namespace Sys2Proof.Tests

set_option Elab.async false

open Sys2Proof.Machine

/-! ### Ill-formed commands -/

theorem test_wellFormed_refuses_long_payload :
    Instr.wellFormed (.beacon ⟨1, List.replicate 64 0, 0, false⟩) = false ∧
    Instr.wellFormed (.beacon ⟨1, List.replicate 63 0, 0, false⟩) = true := by decide

theorem test_wellFormed_refuses_other_subtypes :
    Instr.wellFormed (.join ⟨1, [2, 2], 0, false⟩) = false ∧ Instr.wellFormed (.join ⟨1, [3], 0, false⟩) = false ∧
    Instr.wellFormed (.presence ⟨1, [3], 0, false⟩) = false ∧ Instr.wellFormed (.leave ⟨1, [2, 2], 0, false⟩) = false ∧
    Instr.wellFormed (.leftUnheard ⟨1, [], 0, false⟩) = false := by decide

theorem test_wellFormed_refuses_feed_class :
    Instr.wellFormed (.feedDropped 3 ⟨1, [], 0, false⟩) = false ∧
    Instr.wellFormed (.feedDropped 4 ⟨1, [], 0, false⟩) = true := by decide

theorem test_wellFormed_refuses_defined_code :
    Instr.wellFormed (.unknownCommand 0x08 .asserted) = false ∧
    Instr.wellFormed (.unknownCommand 0x80 .released) = false ∧
    Instr.wellFormed (.unknownCommand 0x09 .released) = true := by decide

/-! ### Layouts (13_formats.md) -/

theorem test_blank_cell_bits : blankCell.bits = 0x1070 ∧ blankCell.kindByte = 0 := by decide

theorem test_zone_cell_bits :
    CellRecord.ofBits true 0x20 0xB3 = some (.zone ⟨5, ⟨4, true, true⟩⟩) ∧ CellRecord.ofBits true 0x21 0xB3 = none := by
  decide

/-- The check of READY of generation 1 from station 9, computed apart from the model. -/
theorem test_frame_check : frameCheck ⟨1, 9⟩ [1] = 0x6591 := by decide +kernel

theorem test_update_layouts :
    parseUpdate [0x00, 3, 40, 0x10, 0x70] = some (.cell 3 40 blankCell) ∧
    parseUpdate [0x01, 3, 40, 0x20, 0x00] = some (.cell 3 40 (.zone ⟨0, ⟨0, false, false⟩⟩)) ∧
    parseUpdate [0x22, 0, 9, 0, 1, 0x20, 0x00, 0x10, 0x70] =
      some (.run 0 9 [.zone ⟨0, ⟨0, false, false⟩⟩, blankCell]) ∧
    parseUpdate [0x22, 0, 9, 0, 4, 0x20, 0x00, 0x10, 0x70] = none ∧
    parseUpdate [0x41, 5, 0, 0, 0x10, 0x70] = some (.fill 5 0 256 blankCell) ∧
    parseUpdate [0x40, 5, 0, 0, 0x10, 0x70] = none ∧
    parseUpdate [0x60, 7, 0x1F] = some (.rowdef 7 ⟨7, true, true⟩) ∧ parseUpdate [0x60, 7, 0x20] = none ∧
    parseUpdate [0x80, 7, 0x04, 0x10, 0x70] = some (.rowclear 7 ⟨1, false, false⟩ blankCell) ∧
    parseUpdate [0xA0] = none := by decide +kernel

theorem test_message_layouts :
    parseMessage 0 [0x01, 0x02, 7, 3] = some (.beacon ⟨0x0102, 7, true, true⟩) ∧ parseMessage 0 [0, 0, 0, 4] = none ∧
    parseMessage 1 [9] = some (.ready 9) ∧ parseMessage 2 [9, 1] = some (.sealing 9 true none) ∧
    parseMessage 2 [9, 2] = none ∧ parseMessage 3 [1, 2, 1, 20] = some (.join 2 1 20) ∧
    parseMessage 3 [2, 2] = some (.presence true) ∧ parseMessage 3 [2, 3] = none ∧ parseMessage 3 [3] = some .leave ∧
    parseMessage 5 [0x4F, 0x41, 0, 0xFF] = some (.glyph 1 0x41 15 [0xFF]) ∧
    parseMessage 5 [0x4F, 0x41, 0, 0xFF, 0xFF] = none ∧ parseMessage 6 [] = none := by decide +kernel

theorem test_seal_baseline_bits :
    (baselineOfBytes [0x02, 0, 0, 0, 0, 0, 0, 0x80])[(1 : Station)] = true ∧
    (baselineOfBytes [0x02, 0, 0, 0, 0, 0, 0, 0x80])[(63 : Station)] = true ∧
    (baselineOfBytes [0x02, 0, 0, 0, 0, 0, 0, 0x80])[(0 : Station)] = false := by decide +kernel

/-! ### The manual's examples -/

/-- Three stations at one idle point (09_the_wall_bus.md): READY of 9 wins, then PRESENCE of 5, then UPDATE of 2. -/
theorem test_three_stations_contend :
    losesArbitration (keyBits ⟨1, 9⟩) ([⟨3, 5⟩, ⟨4, 2⟩].map keyBits) = false ∧
    losesArbitration (keyBits ⟨3, 5⟩) ([⟨1, 9⟩, ⟨4, 2⟩].map keyBits) = true ∧
    losesArbitration (keyBits ⟨4, 2⟩) ([⟨1, 9⟩, ⟨3, 5⟩].map keyBits) = true ∧
    losesArbitration (keyBits ⟨3, 5⟩) ([⟨4, 2⟩].map keyBits) = false := by decide +kernel

/-- U1 of the example of 03_the_update_queue_and_apply_engine.md: FILL, row 5, column 20, count 60, on a wall 96 wide. -/
def u1 : Update := .fill 5 20 60 (.zone ⟨0, ⟨2, false, false⟩⟩)

/-- U2 of the example: RUN, row 5, column 90, ten glyph cells. -/
def u2 : Update := .run 5 90 (List.replicate 10 blankCell)

theorem test_example_filter :
    (u1.clip 96 12).map (Update.queuedAt ⟨0, 0⟩ 96) = some true ∧
    (u2.clip 96 12).map (Update.queuedAt ⟨0, 0⟩ 96) = some false ∧
    (u2.clip 96 12).map (Update.queuedAt ⟨1, 0⟩ 96) = some false ∧
    (u2.clip 96 12).map (Update.queuedAt ⟨2, 0⟩ 96) = some true ∧
    (Update.cell 14 10 blankCell).clip 96 12 = none := by decide +kernel

/-- A RUN loses the cells beyond the right edge, a FILL's count is reduced, on a wall 64 wide. -/
theorem test_clip :
    (Update.run 3 60 (List.replicate 16 blankCell)).clip 64 12 = some (.run 3 60 (List.replicate 4 blankCell)) ∧
    (Update.fill 3 63 256 blankCell).clip 64 12 = some (.fill 3 63 1 blankCell) ∧
    (Update.run 3 64 [blankCell]).clip 64 12 = none := by decide +kernel

/-- Applying U1 at station 2: the 16 rightmost zone cells stay, the floor is column 47. -/
theorem test_example_left_list :
    let row := (List.range 44).foldl (fun (row : LeftRow) k => row.write (20 + k) (.zone ⟨0, ⟨2, false, false⟩⟩)) LeftRow.empty
    row.entries.map Prod.fst = (List.range 16).map (· + 48) ∧ row.floor = some 47 := by decide +kernel

/-- One row composed (07_scan_and_composition.md): the zone states in force and the solid cells of the example, with glyph
memory empty. -/
theorem test_example_row_composed :
    let glyphCell (code : BitVec 7) (fg : Colour) (size : GlyphSize) (invert flash : Bool) : Option CellRecord :=
      some (.glyph ⟨0, code, fg, size, invert, flash⟩)
    let cells : List (Option CellRecord) :=
      [glyphCell 0x41 7 .normal false false, some (.zone ⟨2, ⟨1, false, true⟩⟩), glyphCell 0x42 6 .normal false false,
        glyphCell 0x43 6 .normal true false, glyphCell 0x44 3 .normal false true, some (.zone ⟨5, ⟨0, false, false⟩⟩)]
    let dots := ((⟨[], false, false, true, 3, 15⟩ : LineContext).compose 0 ⟨4, true, false⟩ cells).1
    dots = List.replicate 8 4 ++ List.replicate 8 4 ++ List.replicate 8 6 ++ List.replicate 8 1 ++ List.replicate 8 3
      ++ List.replicate 8 5 := by decide +kernel

/-! ### Small states -/

/-- A frame with a good check that no other station spoils. -/
def frame (cls : BitVec 3) (sender : Station) (payload : List Byte) : BusFrame :=
  ⟨sender, payload, frameCheck ⟨cls, sender⟩ payload, false⟩

/-- Station 1 (tile column 1, L = 32) of a wall 2 by 1 with period 20, synchronised, frame number 5, in a state. -/
def running (st : StationState) : State :=
  { State.reset with
    life := .running st, straps := ⟨1, 0⟩, config := some ⟨2, 1, 20, true, false⟩
    bus := { BusInterface.atStart with synchronised := true }, timer := ⟨.running 20, 5, 0, 0⟩ }

/-- The station with some roster entries set. -/
def withEntries (s : State) (entries : List (Station × RosterEntry)) : State :=
  { s with roster := entries.foldl (fun r e => r.set e.1 e.2) s.roster }

/-- The set of the stations named. -/
def stations (ns : List Station) : StationSet := ns.foldl (fun (s : StationSet) (n : Station) => s.set n true) (Vector.replicate 64 false)

/-- A Member among two, the other one silent for 46 beacons. -/
def member : State := withEntries (running .member) [(1, ⟨.member, 0, none⟩), (2, ⟨.member, 46, none⟩)]

/-- A Member with B sealed, READY of `ready` accepted; READY was announced. -/
def sealedMember (ready : List Station) (age : Nat) (armed : Bool) : State :=
  { member with gen := { member.gen with
      isSealed := true, sealer := some 2, readySet := stations ready, armed := armed, sealAge := age, announced := true
      revealBuilding := true } }

/-- A Joining station named in the baseline of a sealed generation, READY accepted of all. -/
def joiner : State :=
  withEntries { running .joining with gen := { (running .joining).gen with
      isSealed := true, sealer := some 2, baseline := some (stations [1]), readySet := stations [1], armed := true
      announced := true } } [(1, ⟨.joining, 0, some 3⟩)]

/-- The station sending the frame of an item. -/
def sending (s : State) (item : Item) (cls : BitVec 3) (payload : List Byte) : State :=
  { s with bus := { s.bus with inFlight := some ⟨item, cls, payload, frameCheck ⟨cls, 1⟩ payload⟩ } }

/-- A check of `State.Accepts`. -/
def acceptsNow (s : State) (st : StationState) (cls : BitVec 3) (f : BusFrame) (msg : Message) : Bool :=
  decide (s.life = .running st) && st.participates && s.bus.synchronised && decide (s.ownership cls f ≠ .clash)
    && decide (f.check = frameCheck ⟨cls, f.sender⟩ f.payload) && decide (parseMessage cls f.payload = some msg)
    && decide (s.updateQueue.length < 96) && !f.spoiledByOther

theorem accepts_of_now {s : State} {st : StationState} {cls : BitVec 3} {f : BusFrame} {msg : Message}
    (h : acceptsNow s st cls f msg = true) : s.Accepts st cls f msg := by
  simp only [acceptsNow, Bool.and_eq_true, decide_eq_true_eq, Bool.not_eq_true'] at h
  obtain ⟨⟨⟨⟨⟨⟨⟨h1, h2⟩, h3⟩, h4⟩, h5⟩, h6⟩, h7⟩, h8⟩ := h
  exact ⟨h1, h2, h3, h4, h5, h6, fun _ _ _ => h7, h8⟩

/-- A check of `State.Spoiled`. -/
def spoiledNow (s : State) (st : StationState) (cls : BitVec 3) (f : BusFrame) (reason : Option SpoilReason) : Bool :=
  decide (s.life = .running st) && st.participates && s.bus.synchronised && decide (s.ownership cls f ≠ .clash)
    && decide (s.judge cls f = reason) && (reason.isSome || f.spoiledByOther)

theorem spoiled_of_now {s : State} {st : StationState} {cls : BitVec 3} {f : BusFrame} {reason : Option SpoilReason}
    (h : spoiledNow s st cls f reason = true) : s.Spoiled st cls f reason := by
  simp only [spoiledNow, Bool.and_eq_true, decide_eq_true_eq, Bool.or_eq_true] at h
  obtain ⟨⟨⟨⟨⟨h1, h2⟩, h3⟩, h4⟩, h5⟩, h6⟩ := h
  refine ⟨h1, h2, h3, h4, h5, fun hn => ?_⟩
  rcases h6 with h | h
  · rw [hn] at h; cases h
  · exact h

/-- A check of `State.RecordAgrees`. -/
def recordAgreesNow (s : State) : Bool :=
  decide ((s.gen.sealer.isSome = true → s.gen.isSealed = true) ∧ (s.gen.baseline.isSome = true → s.gen.isSealed = true) ∧
    (s.gen.armed = true → s.gen.isSealed = true) ∧
    (∀ n : Station, s.gen.inBaseline n = true → s.roster[n].state = .joining ∨ s.roster[n].state = .member) ∧
    (∀ n : Station, s.gen.readySet[n] = true → s.requirementSet[n] = true) ∧
    s.gen.armed = (!s.following && computedArmed s.roster s.gen) ∧ s.life ≠ .running .listening)

theorem record_of_now {s : State} (h : recordAgreesNow s = true) : s.RecordAgrees := by
  obtain ⟨h1, h2, h3, h4, h5, h6, h7⟩ := of_decide_eq_true h
  exact ⟨h1, h2, h3, fun _ => h4, fun _ => h5, fun _ => h6, fun hl => absurd hl h7⟩

/-- A check of `State.OwnEntryAgrees` of a station that sends nothing. -/
def ownAgreesNow (s : State) : Bool :=
  decide ((s.roster[s.station].state = .member ↔ s.draws = true) ∧ s.roster[s.station].state ≠ .silent ∧
    s.participates = true ∧ (s.bus.joinPending = true → s.roster[s.station].state = .absent) ∧
    s.bus.inFlight = none ∧ ∀ m ∈ s.bus.feedQueue, submitTakes m.cls = true)

theorem own_of_now {s : State} (h : ownAgreesNow s = true) : s.OwnEntryAgrees := by
  obtain ⟨h1, h2, h3, h4, h5, h6⟩ := of_decide_eq_true h
  refine ⟨fun _ => h1, fun _ => h2, fun _ h => ?_, fun _ h => ⟨h3, h4 h⟩, fun _ m hm => ?_, fun _ m hm => ?_, h6⟩
  · rw [h3] at h; cases h
  · rw [h5] at hm; cases hm
  · rw [h5] at hm; cases hm

theorem leftTable_empty_formed {s : State} (h : ∀ r : LocalRow, s.leftTable[r] = LeftRow.empty) : s.LeftTableFormed :=
  fun r => (h r).symm ▸ LeftRow.empty_formed _

theorem arbiter_of_idle {s : State} (h : s.arbiter = ⟨none, none, none, none, none⟩) : s.ArbiterFormed := by
  constructor <;> simp [h]

/-- `State.ReadyFormed` of a station with no READY pending and nothing in flight. -/
theorem readyFormed_of_now {s : State} (hp : s.bus.readyPending = none) (hf : s.bus.inFlight = none)
    (ha : s.gen.announced = true → s.gen.isSealed = true ∧ s.currentWork = false ∧ s.catchUp = .idle)
    (ho : s.gen.readySet[s.station] = true → s.gen.announced = true) : s.ReadyFormed := by
  refine ⟨fun h => (ha h).1, fun _ h => (ha h).2, fun _ g h => ?_, fun _ m h => ?_, fun _ => ho⟩
  · rw [hp] at h; cases h
  · rw [hf] at h; cases h

/-! ### Hypotheses met: steps and invariants -/

theorem witness_StepRunsFrontCommand :
    { member with pending := [Instr.status .released] }.pending = Instr.status .released :: [] ∧ State.reset.pending = [] := ⟨rfl, rfl⟩

/-- The Member, with a command waiting, meets every invariant, owes no READY, and a step answers. -/
theorem witness_StepKeeps :
    let s := { member with pending := [Instr.status .released] }
    s.MemoriesCanonical ∧ s.CapacitiesKept ∧ s.CountsInRange ∧ s.LeftTableFormed ∧ s.EpochsOrdered ∧ s.RecordAgrees ∧
    s.OwnEntryAgrees ∧ s.ReadyFormed ∧ s.ArbiterFormed ∧ s.readyCondition = false ∧ s.gen.announced = false ∧
    ∃ t, step s = .next t := by
  refine ⟨⟨rfl, rfl, rfl, rfl⟩, ?_, ?_, ?_, ?_, record_of_now (by decide +kernel), own_of_now (by decide +kernel), ?_, ?_,
    by decide +kernel, rfl, ⟨_, rfl⟩⟩
  · exact ⟨by decide, by decide, by decide, by decide, by decide, by decide⟩
  · exact ⟨by decide, by decide, by decide, by decide, by decide, by decide, by decide +kernel, by decide +kernel,
      by decide +kernel, rfl⟩
  · intro r
    have h : ∀ k : LocalRow, member.leftTable[k] = LeftRow.empty := by decide +kernel
    exact (h r).symm ▸ LeftRow.empty_formed _
  · exact ⟨by decide, by decide, fun h => absurd rfl h, by decide, by decide⟩
  · exact readyFormed_of_now rfl rfl (by decide) (by decide +kernel)
  · exact arbiter_of_idle rfl

theorem witness_StationState :
    member.OwnEntryAgrees ∧ member.life = .running .member ∧
    (∃ t, exec (.restart .released) member = .next t ∧ t.life = .running (.leaving .fromMember)) ∧
    StationState.sameState .member (.leaving .fromMember) = false ∧
    StationState.mayBecome .member (.leaving .fromMember) = true :=
  ⟨own_of_now (by decide +kernel), rfl, ⟨_, rfl, rfl⟩, rfl, rfl⟩

/-! ### Hypotheses met: starts and the timer -/

theorem witness_StartsGiveStartValues :
    member.powered = true ∧ 10 ≤ 10 ∧ 9 < 10 ∧ { member with life := .unpowered }.powered = false ∧
    { member with life := .heldInReset }.life = .heldInReset ∧ member.life ≠ .heldInReset := by decide

/-- A good record at both ends of its ranges, and one record for each test that can fail. -/
theorem witness_ConfigurationRead :
    State.reset.life = .readingConfiguration ∧
    judgeRead ⟨0, 0⟩ (.answered 1 1 10 0 (configCheck 1 1 10 0)) = .good ⟨1, 1, 10, false, false⟩ ∧
    judgeRead ⟨7, 7⟩ (.answered 8 8 50 3 (configCheck 8 8 50 3)) = .good ⟨8, 8, 50, true, true⟩ ∧
    judgeRead ⟨0, 0⟩ (.answered 1 1 10 0 0) = .bad .configurationCheck ∧
    judgeRead ⟨0, 0⟩ (.answered 1 1 51 0 (configCheck 1 1 51 0)) = .bad .configurationRange ∧
    judgeRead ⟨0, 0⟩ (.answered 1 1 50 4 (configCheck 1 1 50 4)) = .bad .configurationRange ∧
    judgeRead ⟨1, 0⟩ (.answered 1 1 10 0 (configCheck 1 1 10 0)) = .outside ⟨1, 1, 10, false, false⟩ := by
  decide +kernel

/-- A running station with its expiry counts set. -/
def counting (st : StationState) (listening quiet : Nat) : State :=
  { running st with timer := ⟨.running 20, 5, listening, quiet⟩ }

theorem witness_Expiry :
    (counting .member 0 0).timerRuns = true ∧ (counting .member 0 0).participates = true ∧
    (counting .clashed 0 0).timerRuns = true ∧ (counting .listening 1 0).timer.listeningExpiries < 2 ∧
    2 ≤ (counting .listening 2 0).timer.listeningExpiries ∧ 2 ≤ (counting .listening 3 0).timer.listeningExpiries ∧
    (counting .withdrawn 0 6).timer.quietExpiries < 7 ∧ 7 ≤ (counting .withdrawn 0 7).timer.quietExpiries ∧
    (counting .listening 2 0).timerRuns = true ∧ (counting .withdrawn 0 7).timerRuns = true ∧
    State.reset.timerRuns = false := by decide

/-! ### Hypotheses met: sending and clash -/

/-- Frames at stations that do not read them, and at a station in Withdrawn. -/
theorem witness_SynchronisationAndUnreadFrames :
    let f := frame 0 2 [0, 6, 0, 0]
    (running .clashed).life = .running .clashed ∧ (running .halted).life = .running .halted ∧
    carriedFrame (.beacon f) = some (0, f) ∧ carriedFrame (.deaf 4 f) = some (4, f) ∧
    carriedFrame (.invalidClassFrame true f) = some (7, f) ∧ State.reset.bus.synchronised = false ∧
    (∀ st, State.reset.life ≠ .running st) ∧ (running .withdrawn).life = .running .withdrawn ∧
    (running .withdrawn).bus.synchronised = true ∧ f.sender ≠ (running .withdrawn).station ∧
    namesCase (.beacon f) = false ∧ namesCase (.deaf 4 f) = true :=
  ⟨rfl, rfl, rfl, rfl, rfl, rfl, nofun, rfl, rfl, by decide, rfl, rfl⟩

/-- A Member with PRESENCE pending and the same with nothing to send, against a higher, a lower and an equal key. -/
theorem witness_IdlePoint :
    let s := { member with bus := { member.bus with presencePending := true } }
    s.bus.synchronised = true ∧ s.bus.inFlight = none ∧
    (sendOrder.find? fun i => i.allowedIn .member && s.bus.holds i) = some .presence ∧
    (sendOrder.find? fun i => i.allowedIn .member && member.bus.holds i) = none ∧
    keyValue ⟨(s.frameOf .presence).cls, s.station⟩ = 193 ∧ keyValue ⟨3, 0⟩ < 193 ∧ 193 ≤ keyValue ⟨3, 1⟩ := by
  decide +kernel

theorem witness_FramesCarrySendersState :
    member.config = some ⟨2, 1, 20, true, false⟩ ∧ (running .listening).life = .running .listening ∧
    member.participates = true ∧ { member.bus with readyPending := some 1 }.readyPending = some 1 ∧
    [newMessage 4 [0xA0]] = newMessage 4 [0xA0] :: [] := by decide

theorem witness_Clash :
    let s := sending member .presence 3 [2, 2]
    s.life = .running .member ∧ StationState.readsKeys .member = true ∧ s.bus.synchronised = true ∧
    (ClashCause.readback = .readback ↔ s.bus.inFlight.isSome = true) ∧
    (ClashCause.foreignKey = .readback ↔ member.bus.inFlight.isSome = true) ∧
    (frame 4 1 [0xA0]).sender = member.station ∧ member.bus.inFlight = none := by decide

/-! ### Hypotheses met: accepted frames -/

theorem witness_AcceptanceShare :
    member.ownership 1 (frame 1 2 [1]) = .foreign ∧
    (sending member .ready 1 [1]).ownership 1 (frame 1 1 [1]) = .own .ready := by decide +kernel

/-- READY of the last station armed waits for, and READY of the wrong generation. -/
theorem witness_ReadyJoinsReadySet :
    let s := sealedMember [1] 0 false
    s.RecordAgrees ∧ s.Accepts .member 1 (frame 1 2 [1]) (.ready 1) ∧ s.Accepts .member 1 (frame 1 2 [2]) (.ready 2) ∧
    s.gen.isSealed = true ∧ s.requirementSet[(2 : Station)] = true :=
  ⟨record_of_now (by decide +kernel), accepts_of_now (by decide +kernel), accepts_of_now (by decide +kernel),
    by decide +kernel, by decide +kernel⟩

/-- A SEAL that is taken, without and with a baseline set, at a station that then owes READY and at one that does not,
and SEALs that are ignored. -/
theorem witness_Seal :
    let f := frame 2 2 [1, 1]
    let g := frame 2 2 [1, 2, 2, 0, 0, 0, 0, 0, 0, 0]
    member.Accepts .member 2 f (.sealing 1 true none) ∧
    member.Accepts .member 2 g (.sealing 1 false (some (baselineOfBytes [2, 0, 0, 0, 0, 0, 0, 0]))) ∧
    member.gen.isSealed = false ∧ (1 : Generation) = member.gen.shown + 1 ∧
    member.requirementSet[member.station] = true ∧ member.currentWork = false ∧ member.catchUp = .idle ∧
    { member with catchUp := CatchUp.tile ⟨0, 0⟩ .readOutstanding }.catchUp ≠ .idle ∧
    (sealedMember [] 0 false).Accepts .member 2 f (.sealing 1 true none) ∧
    member.Accepts .member 2 (frame 2 2 [2, 0]) (.sealing 2 false none) :=
  ⟨accepts_of_now (by decide +kernel), accepts_of_now (by decide +kernel), by decide, by decide, by decide +kernel,
    by decide, by decide, by decide, accepts_of_now (by decide +kernel), accepts_of_now (by decide +kernel)⟩

theorem witness_Join :
    member.Accepts .member 3 (frame 3 3 [1, 2, 1, 20]) (.join 2 1 20) ∧
    member.Accepts .member 3 (frame 3 3 [1, 2, 1, 21]) (.join 2 1 21) ∧
    member.config = some ⟨2, 1, 20, true, false⟩ :=
  ⟨accepts_of_now (by decide +kernel), accepts_of_now (by decide +kernel), by decide⟩

theorem witness_Presence :
    member.RecordAgrees ∧ member.readyCondition = false ∧
    member.Accepts .member 3 (frame 3 3 [2, 2]) (.presence true) ∧ member.roster[(3 : Station)].state = .absent ∧
    member.Accepts .member 3 (frame 3 3 [2, 1]) (.presence false) ∧
    member.Accepts .member 3 (frame 3 2 [2, 2]) (.presence true) ∧ member.roster[(2 : Station)].state ≠ .absent :=
  ⟨record_of_now (by decide +kernel), by decide +kernel, accepts_of_now (by decide +kernel), by decide +kernel,
    accepts_of_now (by decide +kernel), accepts_of_now (by decide +kernel), by decide +kernel⟩

theorem witness_Leave :
    let s := sending { member with life := .running (.leaving .fromMember) } .leave 3 [3]
    member.Accepts .member 3 (frame 3 2 [3]) .leave ∧ (2 : Station) ≠ member.station ∧
    s.Accepts (.leaving .fromMember) 3 (frame 3 1 [3]) .leave ∧ s.ownership 3 (frame 3 1 [3]) = .own .leave :=
  ⟨accepts_of_now (by decide +kernel), by decide, accepts_of_now (by decide +kernel), by decide +kernel⟩

/-- A CELL of this tile, at wall row 3, column 40. -/
def cellFrame : BusFrame := frame 4 2 [0, 3, 40, 0x10, 0x70]

theorem witness_UpdateQueued :
    let u := Update.cell 3 40 blankCell
    let busy := { member with updateQueue := [⟨.current, u⟩], applyEngine := .applying 0 }
    let copying := { member with catchUp := .tile ⟨0, 0⟩ .readOutstanding }
    let after := sealedMember [1] 0 false
    busy.ArbiterFormed ∧ busy.readyCondition = false ∧ busy.Accepts .member 4 cellFrame (.update u) ∧
    busy.filtered u = some u ∧ busy.applyEngine ≠ .idle ∧
    copying.ArbiterFormed ∧ copying.readyCondition = false ∧ copying.Accepts .member 4 cellFrame (.update u) ∧
    copying.catchUp ≠ .idle ∧
    after.ArbiterFormed ∧ after.readyCondition = false ∧ after.Accepts .member 4 cellFrame (.update u) ∧
    after.gen.isSealed = true ∧ after.currentWork = false ∧
    member.Accepts .member 4 (frame 4 2 [0, 12, 40, 0x10, 0x70]) (.update (.cell 12 40 blankCell)) ∧
    member.filtered (.cell 12 40 blankCell) = none :=
  ⟨arbiter_of_idle rfl, by decide +kernel, accepts_of_now (by decide +kernel), by decide +kernel,
    by decide, arbiter_of_idle rfl, by decide +kernel, accepts_of_now (by decide +kernel),
    by decide, arbiter_of_idle rfl, by decide +kernel, accepts_of_now (by decide +kernel),
    by decide, by decide, accepts_of_now (by decide +kernel), by decide +kernel⟩

theorem witness_UpdateTakenAtOnce :
    let u := Update.cell 3 40 blankCell
    member.Accepts .member 4 cellFrame (.update u) ∧ member.filtered u = some u ∧ member.updateQueue = [] ∧
    member.applyEngine = .idle ∧ member.catchUp = .idle ∧ member.gen.isSealed = false ∧
    member.arbiter = ⟨none, none, none, none, none⟩ ∧
    u.steps member.straps member.wallColumns = [.tile ⟨3, 8⟩ blankCell] ∧
    member.Accepts .member 4 (frame 4 2 [0x60, 11, 0x1F]) (.update (.rowdef 11 ⟨7, true, true⟩)) ∧
    11 = topEdge member.straps + (11 : LocalRow).val ∧ 11 < member.wallRows :=
  ⟨accepts_of_now (by decide +kernel), by decide +kernel, by decide, by decide, by decide, by decide, by decide,
    by decide +kernel, accepts_of_now (by decide +kernel), by decide, by decide⟩

/-- A zone cell in columns 20 to 33 of wall row 3: 12 left steps, then two in the tile; an entry of left steps alone; one
with such an entry before it that the engine is applying; and a ROWCLEAR of each kind of cell. -/
theorem witness_LeftAndDefaultSteps :
    let z : CellRecord := .zone ⟨0, ⟨2, false, false⟩⟩
    let u := Update.fill 3 20 14 z
    let short := Update.fill 3 20 3 z
    let e : UpdateEntry := ⟨.current, .run 3 32 [blankCell]⟩
    let s := { member with
      updateQueue := [e, ⟨.current, u⟩], applyEngine := .applying 0
      arbiter := { member.arbiter with access := some ⟨.apply, .y, ⟨3, 0⟩, some blankCell, false, false⟩ } }
    let quiet := (List.range 12).map fun k => ApplyStep.left 3 (20 + k) z
    member.LeftTableFormed ∧ member.ArbiterFormed ∧ u.row = topEdge member.straps + (3 : LocalRow).val ∧
    member.Accepts .member 4 (frame 4 2 [0x42, 3, 20, 14, 0x20, 0x08]) (.update u) ∧ member.filtered u = some u ∧
    u.steps member.straps member.wallColumns = quiet ++ [.tile ⟨3, 0⟩ z, .tile ⟨3, 1⟩ z] ∧
    (∀ p c, ApplyStep.tile p c ∉ quiet) ∧
    member.filtered short = some short ∧ short.steps member.straps member.wallColumns = quiet.take 3 ++ [] ∧
    s.completes .apply ⟨.apply, .y, ⟨3, 0⟩, some blankCell, false, false⟩ (some blankCell) ∧
    s.participates = true ∧ s.catchUp = .idle ∧
    (e.update.steps s.straps s.wallColumns).drop 1 = [] ++ [] ∧
    member.Accepts .member 4 (frame 4 2 [0x81, 3, 0, 0x20, 0x08]) (.update (.rowclear 3 ⟨0, false, false⟩ z)) ∧
    member.Accepts .member 4 (frame 4 2 [0x80, 11, 0x1F, 0x10, 0x70])
      (.update (.rowclear 11 ⟨7, true, true⟩ blankCell)) ∧
    leftEdge member.straps < member.wallColumns := by
  refine ⟨leftTable_empty_formed (by decide +kernel), arbiter_of_idle rfl, by decide, accepts_of_now (by decide +kernel),
    by decide +kernel, by decide +kernel, fun p c h => ?_, by decide +kernel, by decide +kernel, ⟨by decide, rfl, rfl, rfl⟩, by decide,
    by decide, by decide +kernel, accepts_of_now (by decide +kernel), accepts_of_now (by decide +kernel), by decide⟩
  obtain ⟨k, _, hk⟩ := List.mem_map.1 h
  cases hk

theorem witness_Glyph :
    member.MemoriesCanonical ∧
    member.Accepts .member 5 (frame 5 2 [0x4E, 0x41, 0, 0xFF, 0x81]) (.glyph 1 0x41 14 [0xFF, 0x81]) :=
  ⟨⟨rfl, rfl, rfl, rfl⟩, accepts_of_now (by decide +kernel)⟩

/-! ### Hypotheses met: beacons -/

theorem witness_BeaconAdopted :
    let s := running .listening
    let f := frame 0 2 [0, 9, 7, 3]
    s.bus.synchronised = true ∧ s.ownership 0 f ≠ .clash ∧ (∀ sent, s.bus.inFlight = some sent → sent.item = .beacon) ∧
    f.check = frameCheck ⟨0, f.sender⟩ f.payload ∧ parseMessage 0 f.payload = some (.beacon ⟨9, 7, true, true⟩) ∧
    f.spoiledByOther = false ∧ f.sender ≠ s.station ∧ s.judge 0 (frame 0 2 [0, 9, 7, 4]) ≠ none ∧
    { f with spoiledByOther := true }.spoiledByOther = true ∧
    ∀ m, parseMessage 1 [7] ≠ some (.beacon m) := by
  refine ⟨by decide, by decide +kernel, nofun, by decide +kernel, by decide +kernel, by decide, by decide, by decide +kernel,
    by decide, fun m => ?_⟩
  rw [show parseMessage 1 [7] = some (.ready 7) from by decide +kernel]
  exact nofun

/-- The own first BEACON in Listening, spoiled by another station, and one that fails the station's own judgement. -/
theorem witness_OwnFirstBeacon :
    let own (payload : List Byte) := sending (running .listening) .beacon 0 payload
    let spoiled : BusFrame := { frame 0 1 [0, 0, 0, 0] with spoiledByOther := true }
    (running .listening).bus.synchronised = true ∧ (own [0, 0, 0, 0]).ownership 0 spoiled = .own .beacon ∧
    spoiled.spoiledByOther = true ∧ (own [0, 0, 0, 4]).ownership 0 (frame 0 1 [0, 0, 0, 4]) = .own .beacon ∧
    (frame 0 1 [0, 0, 0, 4]).spoiledByOther = false ∧ (own [0, 0, 0, 4]).judge 0 (frame 0 1 [0, 0, 0, 4]) ≠ none := by
  decide +kernel

/-- A BEACON of station 2 with frame number 6, S = 0, sealed, and this armed. -/
def beaconFrame (armed : Bool) : BusFrame := frame 0 2 [0, 6, 0, if armed then 3 else 1]

/-- The content of `beaconFrame`. -/
def beaconMessage (armed : Bool) : BeaconFields := ⟨6, 0, true, armed⟩

/-- A following station that flips while it applies an entry, a Next entry behind it. -/
def applyingFollower : State :=
  { joiner with
    gen := { joiner.gen with baseline := none, readySet := stations [], armed := false }
    updateQueue := [⟨.current, .cell 3 40 blankCell⟩, ⟨.next, .rowdef 4 ⟨1, false, false⟩⟩], applyEngine := .applying 0
    arbiter := { joiner.arbiter with access := some ⟨.apply, .y, ⟨3, 8⟩, some blankCell, false, false⟩ } }

theorem applyingFollower_formed : applyingFollower.ArbiterFormed := by
  constructor <;> simp [applyingFollower, joiner, withEntries, running, State.reset, Arbiter.atStart]

/-- The flip of an applying station that does not swap, and of a Member with a Next entry and with a dirty position. -/
theorem witness_FlipWithQueue :
    let s := { sealedMember [1, 2] 4 true with updateQueue := [⟨.next, .cell 3 40 blankCell⟩] }
    let copying := { s with dirty := ⟨[⟨2, 3⟩], false⟩ }
    (applyingFollower.OwnEntryAgrees ∧ applyingFollower.LeftTableFormed ∧ applyingFollower.ArbiterFormed ∧
      applyingFollower.Accepts .joining 0 (beaconFrame true) (.beacon (beaconMessage true)) ∧
      applyingFollower.AgreesWith 2 (beaconMessage true) ∧ applyingFollower.armedAt (beaconMessage true) = true ∧
      applyingFollower.catchUp = .idle ∧ applyingFollower.applyEngine ≠ .idle) ∧
    (s.OwnEntryAgrees ∧ s.LeftTableFormed ∧ s.ArbiterFormed ∧ s.Accepts .member 0 (beaconFrame true) (.beacon (beaconMessage true)) ∧
      s.AgreesWith 2 (beaconMessage true) ∧ s.applyEngine = .idle) ∧
    copying.ArbiterFormed ∧ copying.Accepts .member 0 (beaconFrame true) (.beacon (beaconMessage true)) :=
  ⟨⟨own_of_now (by decide +kernel), leftTable_empty_formed (by decide +kernel), applyingFollower_formed, accepts_of_now (by decide +kernel),
      ⟨by decide, by decide, by decide +kernel⟩, by decide +kernel, rfl, by decide⟩,
    ⟨own_of_now (by decide +kernel), leftTable_empty_formed (by decide +kernel), arbiter_of_idle rfl,
      accepts_of_now (by decide +kernel), ⟨by decide, by decide, by decide +kernel⟩, rfl⟩,
    arbiter_of_idle rfl, accepts_of_now (by decide +kernel)⟩

/-- A station displaying row 3, the page memory reading for the fetch of row 4 and a feed read waiting. -/
def readingPages (s : State) : State :=
  { s with
    scan := { s.scan with phase := .row 3 4, lineBegun := true, kind := .drawing, fetch := .fetching 4 7 }
    port := .working .shown ⟨0, 0⟩
    arbiter := ⟨none, some ⟨⟨0, 0⟩, .shown, none⟩, none, none, some ⟨.rowFetch, .x, ⟨4, 7⟩, none, false, false⟩⟩ }

theorem readingPages_formed (s : State) : (readingPages s).ArbiterFormed := by
  constructor <;> simp [readingPages]

/-- A flip at a Member, its page memory idle and busy, and at a station in Joining that the baseline names, and at one it
does not name. -/
theorem witness_Flip :
    let s := sealedMember [1, 2] 4 true
    let follower := { joiner with gen := { joiner.gen with baseline := none, readySet := stations [], armed := false } }
    (s.ArbiterFormed ∧ (readingPages s).ArbiterFormed ∧ joiner.ArbiterFormed ∧ follower.ArbiterFormed ∧
      (readingPages s).Accepts .member 0 (beaconFrame true) (.beacon (beaconMessage true))) ∧
    (s.OwnEntryAgrees ∧ s.Accepts .member 0 (beaconFrame true) (.beacon (beaconMessage true)) ∧
      s.AgreesWith 2 (beaconMessage true) ∧ s.armedAt (beaconMessage true) = true ∧ s.catchUp = .idle ∧
      s.roster[s.station].silence < 47 ∧ StationState.draws .member = true) ∧
    (joiner.OwnEntryAgrees ∧ joiner.LeftTableFormed ∧ joiner.Accepts .joining 0 (beaconFrame true) (.beacon (beaconMessage true)) ∧
      joiner.AgreesWith 2 (beaconMessage true) ∧ joiner.armedAt (beaconMessage true) = true ∧
      joiner.roster[joiner.station].state = .joining ∧ joiner.gen.inBaseline joiner.station = true) ∧
    (follower.OwnEntryAgrees ∧ follower.Accepts .joining 0 (beaconFrame true) (.beacon (beaconMessage true)) ∧
      follower.AgreesWith 2 (beaconMessage true) ∧ follower.armedAt (beaconMessage true) = true ∧
      follower.gen.inBaseline follower.station = false) :=
  ⟨⟨arbiter_of_idle rfl, readingPages_formed _, arbiter_of_idle rfl, arbiter_of_idle rfl,
      accepts_of_now (by decide +kernel)⟩,
    ⟨own_of_now (by decide +kernel), accepts_of_now (by decide +kernel),
      ⟨by decide, by decide, by decide +kernel⟩, by decide +kernel, by decide, by decide +kernel, by decide⟩,
    ⟨own_of_now (by decide +kernel), leftTable_empty_formed (by decide +kernel), accepts_of_now (by decide +kernel),
      ⟨by decide, by decide, by decide +kernel⟩, by decide +kernel, by decide +kernel, by decide +kernel⟩,
    own_of_now (by decide +kernel), accepts_of_now (by decide +kernel),
      ⟨by decide, by decide, by decide +kernel⟩, by decide +kernel, by decide +kernel⟩

/-- B sealed for 30 beacons, one station not ready; in the active part of a drawing frame and in its lead. -/
theorem witness_BeaconWithoutFlip :
    let s := sealedMember [1] 30 false
    let drawing := { s with scan := { s.scan with kind := .drawing, phase := .row 3 4, lineBegun := true } }
    s.RecordAgrees ∧ s.EpochsOrdered ∧ s.ArbiterFormed ∧ s.readyCondition = false ∧
    s.Accepts .member 0 (beaconFrame false) (.beacon (beaconMessage false)) ∧ s.AgreesWith 2 (beaconMessage false) ∧
    s.armedAt (beaconMessage false) = false ∧ s.gen.sealAge < 31 ∧
    (∀ n : Station, n ≠ 2 → s.roster[n].isLive = true → s.roster[n].silence < 47) ∧
    drawing.Accepts .member 0 (beaconFrame false) (.beacon (beaconMessage false)) ∧
    drawing.scan.phase.isActive = true ∧ s.scan.phase.isActive = false ∧ (readingPages s).ArbiterFormed ∧
    (readingPages s).Accepts .member 0 (beaconFrame false) (.beacon (beaconMessage false)) ∧
    (readingPages s).scan.phase.isActive = true :=
  ⟨record_of_now (by decide +kernel), ⟨by decide, by decide, fun h => absurd rfl h, by decide, by decide⟩,
    arbiter_of_idle rfl, by decide +kernel, accepts_of_now (by decide +kernel),
    ⟨by decide, by decide, by decide +kernel⟩, by decide +kernel, by decide, by decide +kernel,
    accepts_of_now (by decide +kernel), by decide, by decide, readingPages_formed _, accepts_of_now (by decide +kernel),
    by decide⟩

theorem witness_OutOfStep :
    member.Accepts .member 0 (beaconFrame false) (.beacon (beaconMessage false)) ∧ (2 : Station) ≠ member.station ∧
    ¬ member.AgreesWith 2 (beaconMessage false) :=
  ⟨accepts_of_now (by decide +kernel), by decide, fun h => absurd h.isSealed (by decide)⟩

/-- Seal age 31 with station 2 lagging, and with the station itself lagging. -/
theorem witness_FlipTimeout :
    let s := sealedMember [1] 31 false
    let own := sealedMember [2] 31 false
    s.CountsInRange ∧ s.ArbiterFormed ∧ s.Accepts .member 0 (beaconFrame false) (.beacon (beaconMessage false)) ∧
    s.AgreesWith 2 (beaconMessage false) ∧ s.armedAt (beaconMessage false) = false ∧ s.gen.isSealed = true ∧
    31 ≤ s.gen.sealAge ∧ s.roster[s.station].silence < 47 ∧ s.lags s.station = false ∧ s.lags 2 = true ∧
    own.Accepts .member 0 (beaconFrame false) (.beacon (beaconMessage false)) ∧
    own.AgreesWith 2 (beaconMessage false) ∧ (2 : Station) ≠ own.station ∧
    own.roster[own.station].isLive = true ∧ own.armedAt (beaconMessage false) = false ∧ own.lags own.station = true :=
  ⟨⟨by decide, by decide, by decide, by decide, by decide, by decide, by decide +kernel, by decide +kernel,
      by decide +kernel, rfl⟩,
    arbiter_of_idle rfl, accepts_of_now (by decide +kernel), ⟨by decide, by decide, by decide +kernel⟩, by decide +kernel,
    by decide, by decide, by decide +kernel, by decide +kernel, by decide +kernel, accepts_of_now (by decide +kernel),
    ⟨by decide, by decide, by decide +kernel⟩, by decide, by decide +kernel, by decide +kernel, by decide +kernel⟩

/-- Station 2 unheard for 47 beacons, and the station itself unheard for 47 beacons of others. -/
theorem witness_SilenceTimeout :
    let s := withEntries member [(2, ⟨.member, 47, none⟩)]
    let own := withEntries member [(1, ⟨.member, 47, none⟩)]
    let f := frame 0 3 [0, 6, 0, 0]
    let m : BeaconFields := ⟨6, 0, false, false⟩
    s.ArbiterFormed ∧ s.Accepts .member 0 f (.beacon m) ∧ s.AgreesWith 3 m ∧ s.armedAt m = false ∧
    s.gen.isSealed = false ∧ (2 : Station) ≠ f.sender ∧ s.roster[(2 : Station)].isLive = true ∧ 47 ≤ s.roster[(2 : Station)].silence ∧
    s.roster[s.station].silence < 47 ∧
    own.Accepts .member 0 f (.beacon m) ∧ own.AgreesWith 3 m ∧ 47 ≤ own.roster[own.station].silence :=
  ⟨arbiter_of_idle rfl, accepts_of_now (by decide +kernel), ⟨by decide, by decide, by decide +kernel⟩, by decide +kernel,
    by decide, by decide, by decide +kernel, by decide +kernel, by decide +kernel, accepts_of_now (by decide +kernel),
    ⟨by decide, by decide, by decide +kernel⟩, by decide +kernel⟩

/-- A Member unheard for 47 beacons of others, with armed in force: it flips and goes Silent at one acceptance. -/
def silencedAtFlip : State :=
  let s := sealedMember [1, 2] 4 true
  { withEntries s [(1, ⟨.member, 47, none⟩)] with bus := { s.bus with feedQueue := [newMessage 4 []] } }

/-- The cases of a withdrawal for silence: at a flip, and where catch-up delays it. -/
theorem witness_SilentOwnEntry :
    let delayed := { silencedAtFlip with catchUp := .tile ⟨0, 0⟩ .readOutstanding }
    silencedAtFlip.Accepts .member 0 (beaconFrame true) (.beacon (beaconMessage true)) ∧
    silencedAtFlip.AgreesWith 2 (beaconMessage true) ∧ (2 : Station) ≠ silencedAtFlip.station ∧
    silencedAtFlip.roster[silencedAtFlip.station].isLive = true ∧
    47 ≤ silencedAtFlip.roster[silencedAtFlip.station].silence ∧ silencedAtFlip.armedAt (beaconMessage true) = true ∧
    silencedAtFlip.catchUp = .idle ∧ delayed.catchUp ≠ .idle ∧
    delayed.Accepts .member 0 (beaconFrame true) (.beacon (beaconMessage true)) ∧ delayed.AgreesWith 2 (beaconMessage true) :=
  ⟨accepts_of_now (by decide +kernel), ⟨by decide, by decide, by decide +kernel⟩, by decide, by decide +kernel,
    by decide +kernel, by decide +kernel, rfl, by decide, accepts_of_now (by decide +kernel),
    ⟨by decide, by decide, by decide +kernel⟩⟩

theorem witness_PresenceInterval :
    let s := { member with presenceCount := 15 }
    let f := frame 0 2 [0, 6, 0, 0]
    let m : BeaconFields := ⟨6, 0, false, false⟩
    s.Accepts .member 0 f (.beacon m) ∧ s.AgreesWith 2 m ∧ f.sender ≠ s.station ∧ 15 ≤ s.presenceCount ∧
    s.bus.presencePending = false ∧ s.roster[s.station].silence < 47 ∧ s.gen.isSealed = false :=
  ⟨accepts_of_now (by decide +kernel), ⟨by decide, by decide, by decide +kernel⟩, by decide, by decide, by decide,
    by decide +kernel, by decide⟩

/-! ### Hypotheses met: spoiled frames -/

/-- A frame with a wrong check, and a good one that another station spoils. -/
theorem witness_Spoil :
    let bad : BusFrame := { frame 1 2 [1] with check := 0 }
    let other : BusFrame := { frame 1 2 [1] with spoiledByOther := true }
    let full := { member with updateQueue := List.replicate 96 ⟨.current, .cell 3 40 blankCell⟩ }
    let deaf := { member with bus := { member.bus with consecutiveSpoils := 31 } }
    member.Spoiled .member 1 bad (some .check) ∧ member.Spoiled .member 1 (frame 1 2 []) (some .format) ∧
    full.Spoiled .member 4 cellFrame (some .queueFull) ∧ member.Spoiled .member 1 other none ∧
    member.bus.consecutiveSpoils < 31 ∧ deaf.Spoiled .member 1 other none ∧ deaf.bus.consecutiveSpoils = 31 ∧
    member.ownership 1 bad ≠ .own .leave ∧ member.ownership 1 bad ≠ .own .feed ∧
    (sending member .presence 3 [2, 2]).Spoiled .member 3 { frame 3 1 [2, 2] with spoiledByOther := true } none ∧
    (frame 7 2 []).check = frameCheck ⟨7, 2⟩ [] ∧ deaf.Spoiled .member 1 bad (some .check) :=
  ⟨spoiled_of_now (by decide +kernel), spoiled_of_now (by decide +kernel), spoiled_of_now (by decide +kernel),
    spoiled_of_now (by decide +kernel), by decide, spoiled_of_now (by decide +kernel), by decide, by decide +kernel,
    by decide +kernel, spoiled_of_now (by decide +kernel), by decide +kernel, spoiled_of_now (by decide +kernel)⟩

/-- A LEAVE spoiled with 3 and with 2 attempts counted, by another station and by the station itself. -/
theorem witness_LeaveSpoiled :
    let s := sending { member with life := .running (.leaving .fromMember) } .leave 3 [3]
    let f : BusFrame := { frame 3 1 [3] with spoiledByOther := true }
    let fourth := { s with bus := { s.bus with leaveAttempts := 3 } }
    let third := { s with bus := { s.bus with leaveAttempts := 2 } }
    fourth.Spoiled (.leaving .fromMember) 3 f none ∧ fourth.ownership 3 f = .own .leave ∧
    third.Spoiled (.leaving .fromMember) 3 f none ∧ third.ownership 3 f = .own .leave ∧
    third.bus.leaveAttempts < 3 ∧ third.bus.consecutiveSpoils ≤ 31 ∧
    (let own := { third with bus := { third.bus with inFlight := some ⟨.leave, 3, [3], 0⟩ } }
     own.Spoiled (.leaving .fromMember) 3 ⟨1, [3], 0, false⟩ (some .check) ∧
       own.ownership 3 ⟨1, [3], 0, false⟩ = .own .leave ∧ own.bus.consecutiveSpoils < 31) :=
  ⟨spoiled_of_now (by decide +kernel), by decide +kernel, spoiled_of_now (by decide +kernel), by decide +kernel,
    by decide, by decide, spoiled_of_now (by decide +kernel), by decide +kernel, by decide⟩

/-- A feed message spoiled by another station with 15 and with 14 attempts counted, and one the station itself spoils. -/
theorem witness_FeedSpoiled :
    let s (attempts : Nat) (payload : List Byte) : State :=
      let t := sending member .feed 4 payload
      { t with bus := { t.bus with feedQueue := [⟨4, payload, attempts⟩] } }
    let f (payload : List Byte) : BusFrame := { frame 4 1 payload with spoiledByOther := true }
    (s 15 [0x60, 7, 0]).Spoiled .member 4 (f [0x60, 7, 0]) none ∧
    (s 15 [0x60, 7, 0]).ownership 4 (f [0x60, 7, 0]) = .own .feed ∧
    (s 14 [0x60, 7, 0]).Spoiled .member 4 (f [0x60, 7, 0]) none ∧
    (s 0 [0xA0]).Spoiled .member 4 (frame 4 1 [0xA0]) (some .format) ∧
    (s 0 [0xA0]).ownership 4 (frame 4 1 [0xA0]) = .own .feed ∧ (s 0 [0xA0]).bus.consecutiveSpoils < 31 :=
  ⟨spoiled_of_now (by decide +kernel), by decide +kernel, spoiled_of_now (by decide +kernel),
    spoiled_of_now (by decide +kernel), by decide +kernel, by decide⟩

/-! ### Hypotheses met: page memory and display -/

/-- The Member with an access in progress. -/
def accessing (acc : Access) : State := { member with arbiter := { member.arbiter with access := some acc } }

theorem witness_TileStep :
    let acc : Access := ⟨.apply, .y, ⟨3, 8⟩, some blankCell, false, false⟩
    let e : UpdateEntry := ⟨.current, .fill 3 40 2 blankCell⟩
    let s := { accessing acc with updateQueue := [e], applyEngine := .applying 0 }
    s.MemoriesCanonical ∧ s.completes .apply acc (some blankCell) ∧ s.applyEngine = .applying 0 ∧
    (e.update.steps s.straps s.wallColumns).drop 1 = [.tile ⟨3, 9⟩ blankCell] ∧
    (e.update.steps s.straps s.wallColumns).drop 2 = [] ∧
    (accessing { acc with abandoned := true, blanked := true }).completes .apply
      { acc with abandoned := true, blanked := true } (some blankCell) :=
  ⟨⟨rfl, rfl, rfl, rfl⟩, ⟨by decide, rfl, rfl, rfl⟩, rfl, by decide +kernel, by decide +kernel,
    ⟨by decide, rfl, rfl, rfl⟩⟩

theorem witness_CatchUp :
    let read : Access := ⟨.catchUp, .x, ⟨0, 0⟩, none, false, false⟩
    let write : Access := ⟨.catchUp, .y, ⟨0, 0⟩, some blankCell, false, false⟩
    let copying (acc : Access) (c : CatchUp) : State := { accessing acc with catchUp := c }
    (copying read (.list ⟨0, 0⟩ [] .readOutstanding)).completes .catchUp read none ∧
    (copying read (.tile ⟨0, 0⟩ .readOutstanding)).completes .catchUp read none ∧
    (accessing { read with abandoned := true }).completes .catchUp { read with abandoned := true } none ∧
    (copying write (.list ⟨0, 0⟩ [⟨0, 1⟩] (.writeOutstanding blankCell))).completes .catchUp write (some blankCell) ∧
    (copying write (.list ⟨0, 0⟩ [] (.writeOutstanding blankCell))).completes .catchUp write (some blankCell) ∧
    (copying write (.tile ⟨0, 31⟩ (.writeOutstanding blankCell))).MemoriesCanonical ∧
    (⟨1, 0⟩ : Pos).address = (⟨0, 31⟩ : Pos).address + 1 ∧
    (accessing { write with abandoned := true }).completes .catchUp { write with abandoned := true } (some blankCell) ∧
    (accessing { write with abandoned := true, blanked := true }).completes .catchUp
      { write with abandoned := true, blanked := true } (some blankCell) :=
  ⟨⟨by decide, rfl, rfl, rfl⟩, ⟨by decide, rfl, rfl, rfl⟩, ⟨by decide, rfl, rfl, rfl⟩, ⟨by decide, rfl, rfl, rfl⟩,
    ⟨by decide, rfl, rfl, rfl⟩, ⟨rfl, rfl, rfl, rfl⟩, by decide, ⟨by decide, rfl, rfl, rfl⟩,
    ⟨by decide, rfl, rfl, rfl⟩⟩

/-- The Member applying the cell of `cellFrame`, with the other requests given waiting behind its write. -/
def contended (scanFirst : Bool) (fetch read copy : Option Request) : State :=
  { accessing ⟨.apply, .y, ⟨3, 8⟩, some blankCell, false, false⟩ with
    config := some ⟨2, 1, 20, true, scanFirst⟩, updateQueue := [⟨.current, .cell 3 40 blankCell⟩]
    applyEngine := .applying 0, catchUp := .tile ⟨0, 0⟩ .readOutstanding
    arbiter := ⟨fetch, read, none, copy, some ⟨.apply, .y, ⟨3, 8⟩, some blankCell, false, false⟩⟩ }

theorem witness_CompletionGrantsHighest :
    let q : Request := ⟨⟨0, 0⟩, .shown, none⟩
    let s := contended false (some q) (some q) (some q)
    s.ArbiterFormed ∧ s.powered = true ∧
    s.arbiter.access = some ⟨.apply, .y, ⟨3, 8⟩, some blankCell, false, false⟩ ∧
    (∃ t, exec .tileStep s = .next t) ∧ member.arbiter = ⟨none, none, none, none, none⟩ ∧
    (1 : Byte) = (if Role.building = .shown then 0 else 1) ∧ (31 : Byte).toNat = (31 : LocalColumn).val := by
  refine ⟨?_, by decide, rfl, ⟨_, rfl⟩, rfl, by decide, by decide⟩
  constructor <;> simp [contended, member, accessing, withEntries, running, State.reset]

theorem witness_RowFetch :
    let acc : Access := ⟨.rowFetch, .x, ⟨0, 31⟩, none, false, false⟩
    let fetching (col : LocalColumn) : State :=
      { accessing acc with scan := { member.scan with kind := .drawing, fetch := .fetching 0 col } }
    (fetching 30).completes .rowFetch acc none ∧ (fetching 30).scan.fetch = .fetching 0 30 ∧
    (31 : LocalColumn).val = (30 : LocalColumn).val + 1 ∧ (fetching 31).completes .rowFetch acc none ∧
    (accessing { acc with abandoned := true }).completes .rowFetch { acc with abandoned := true } none :=
  ⟨⟨by decide, rfl, rfl, rfl⟩, rfl, rfl, ⟨by decide, rfl, rfl, rfl⟩, ⟨by decide, rfl, rfl, rfl⟩⟩

/-- The Member's scan engine in a phase of a frame of a kind. -/
def scanning (phase : ScanPhase) (begun : Bool) (kind : FrameKind) : State :=
  { member with scan := { member.scan with phase := phase, lineBegun := begun, kind := kind } }

/-- Row 3 at its last dot line, row 4 not fetched: its read in progress, or the request given waiting behind a catch-up
read. -/
def underrunning (fetch : Option Request) : State :=
  let s := scanning (.row 3 15) true .drawing
  { s with
    scan := { s.scan with fetch := .fetching 4 7 }
    arbiter := { readingPages s |>.arbiter with
      rowFetch := fetch
      access := some ⟨if fetch.isSome then .catchUp else .rowFetch, .x, ⟨4, 7⟩, none, false, false⟩ } }

theorem witness_RowDisplayAndTail :
    (scanning .lead false .drawing).rowIsNext 0 ∧ (scanning (.row 10 15) true .drawing).rowIsNext 11 ∧
    (scanning .lead false .dark).rowIsNext 0 ∧ (scanning .lead false .drawing).powered = true ∧
    (scanning (.row 11 15) true .drawing).scan.phase = .row 11 15 ∧
    (scanning (.row 11 15) true .dark).scan.lineBegun = true ∧
    (∃ c : LocalColumn, (scanning .lead false .drawing).scan.rowBuffer[c] = none) ∧
    (underrunning none).rowIsNext 4 ∧ (underrunning (some ⟨⟨4, 7⟩, .shown, none⟩)).rowIsNext 4 :=
  ⟨.inl ⟨rfl, rfl⟩, .inr ⟨10, rfl, rfl, rfl⟩, .inl ⟨rfl, rfl⟩, by decide, rfl, rfl, ⟨0, by decide +kernel⟩,
    .inr ⟨3, rfl, rfl, rfl⟩, .inr ⟨3, rfl, rfl, rfl⟩⟩

theorem witness_DotLine :
    (scanning (.row 0 0) false .drawing).lineIsNext 0 0 ∧ (scanning (.row 11 14) true .drawing).lineIsNext 11 15 ∧
    (scanning (.row 0 0) true .dark).lineIsNext 0 1 ∧ (scanning (.row 0 0) false .drawing).powered = true :=
  ⟨.inl ⟨rfl, rfl⟩, .inr ⟨14, rfl, rfl, rfl⟩, .inr ⟨0, rfl, rfl, rfl⟩, by decide⟩

/-! ### Hypotheses met: the feed port -/

/-- A Free port, and a port that is not, that a start runs at, and that a start came over the transaction of. -/
theorem witness_SelectSamplesPortByte :
    member.isFree .member ∧ (∀ st, ¬ { member with port := PortState.ready .cleared }.isFree st) ∧
    (∀ st, ¬ State.reset.isFree st) ∧ (∀ st, ¬ { member with transaction := some ⟨0, false, true⟩ }.isFree st) ∧
    feedEdge (.status .asserted) = some .asserted ∧ feedEdge (.unknownCommand 9 .released) = some .released ∧
    isCollect (.unknownCommand 9 .released) = false ∧ member.transaction = none ∧
    { member with transaction := some ⟨0, false, false⟩ }.transaction ≠ none ∧
    { member with life := .unpowered }.powered = false ∧ { member with life := .unpowered }.transaction = none ∧
    definedCommandCode 9 = false ∧
    [1, 2].length < 3 ∧ [2, 3, 0, 0].length < 2 + (([2, 3, 0, 0] : List Byte).getD 1 0).toNat :=
  ⟨⟨rfl, rfl, nofun⟩, fun _ h => (nomatch h.2.1), fun _ h => (nomatch h.1), fun _ h => (nomatch h.2.2 _ rfl), rfl, rfl,
    rfl, rfl, nofun, by decide, rfl, by decide, by decide, by decide⟩

theorem witness_NextEvent :
    { member with events := ⟨[⟨5, .underrun⟩], true⟩ }.events.records = ⟨5, .underrun⟩ :: [] ∧
    member.events.records = [] := ⟨rfl, rfl⟩

/-- A length of 40 and of 41, 15 and 16 messages held. -/
theorem witness_Submit :
    (List.replicate 40 (0 : Byte)).length = (40 : Byte).toNat ∧ (List.replicate 41 (0 : Byte)).length = (41 : Byte).toNat ∧
    ¬ ((3 : Byte).extractLsb' 0 3 = 2 ∨ (3 : Byte).extractLsb' 0 3 = 4 ∨ (3 : Byte).extractLsb' 0 3 = 5) ∧
    (0xFC : Byte).extractLsb' 0 3 = 4 ∧ (List.replicate 15 (newMessage 4 [])).length < 16 ∧
    16 ≤ (List.replicate 16 (newMessage 4 [])).length := by decide

theorem witness_ReadCell :
    2 ≤ (2 : Byte).toNat ∧ 12 ≤ (12 : Byte).toNat ∧ 32 ≤ (32 : Byte).toNat ∧ (31 : Byte).toNat = (31 : LocalColumn).val ∧
    (let acc : Access := ⟨.feedRead, .x, ⟨0, 0⟩, none, false, false⟩
     { accessing acc with port := .working .shown ⟨0, 0⟩ }.completes .feedRead acc none) ∧
    (let acc : Access := ⟨.feedRead, .x, ⟨0, 0⟩, none, true, false⟩
     { accessing acc with port := .working .shown ⟨0, 0⟩ }.completes .feedRead acc none) :=
  ⟨by decide, by decide, by decide, by decide, ⟨by decide, rfl, rfl, rfl⟩, ⟨by decide, rfl, rfl, rfl⟩⟩

theorem witness_Restart :
    (running .halted).isFree .halted ∧ (running .joining).isFree .joining ∧ (running .listening).isFree .listening ∧
    (running .clashed).isFree .clashed ∧ (running .withdrawn).isFree .withdrawn ∧
    (running (.leaving .fromJoining)).isFree (.leaving .fromJoining) :=
  ⟨⟨rfl, rfl, nofun⟩, ⟨rfl, rfl, nofun⟩, ⟨rfl, rfl, nofun⟩, ⟨rfl, rfl, nofun⟩, ⟨rfl, rfl, nofun⟩, ⟨rfl, rfl, nofun⟩⟩

/-- A response found Ready at the assertion, and one that came only after it. -/
theorem witness_Collect :
    member.powered = true ∧ Response.cleared.bytes.length ≤ 1 ∧ 0 < Response.cleared.bytes.length ∧
    (∀ r, member.port ≠ .ready r) ∧
    (∃ tr : Transaction, some (⟨0x80, true, false⟩ : Transaction) = some tr ∧ tr.ready = true ∧ tr.abandoned = false) ∧
    (∃ tr, { member with port := .ready .cleared, transaction := some ⟨0, false, false⟩ }.transaction = some tr ∧
      (tr.ready = false ∨ tr.abandoned = true)) :=
  ⟨by decide, by decide, by decide, fun _ => nofun, ⟨_, rfl, rfl, rfl⟩, ⟨_, rfl, .inl rfl⟩⟩

/-- The bytes of transactions: each defined code, the codes beside them, and a SUBMIT with its arguments. -/
theorem test_transaction_bytes :
    commandOfBytes .released [0x80, 0, 0] = some (.collect 2 .released) ∧
    commandOfBytes .asserted [0x01] = some (.status .asserted) ∧
    commandOfBytes .released [0x03, 4, 1, 0xA0] = some (.submit [4, 1, 0xA0] .released) ∧
    commandOfBytes .released [0x08] = some (.restart .released) ∧
    commandOfBytes .released [0x00] = some (.unknownCommand 0 .released) ∧
    commandOfBytes .released [0x09] = some (.unknownCommand 9 .released) ∧
    feedEdge (.collect 2 .released) = some .released ∧
    (40 : Nat) < (List.replicate 41 (0 : Byte)).length := by decide

/-! ### Small steps -/

/-- The state after a command. -/
def after (c : Instr) (s : State) : State :=
  match exec c s with
  | .next t => t
  | .fault _ => s
  | .refused _ => s

theorem test_read_then_listening :
    let t := after (.configurationReadEnd (.answered 2 1 20 1 (configCheck 2 1 20 1))) State.reset
    t.life = .running .listening ∧ t.timer.frameTimer = .running 20 ∧
      t.events.records = [⟨0, .state .listening .start⟩] := by decide +kernel

theorem test_beacon_adopted :
    let t := after (.beacon (frame 0 2 [0, 9, 7, 3])) (running .listening)
    t.life = .running .joining ∧ t.gen.shown = 8 ∧ t.gen.isSealed = false ∧ t.timer.frameNumber = 9 ∧
      t.bus.joinPending = true := by decide +kernel

theorem test_flip_swaps :
    let t := after (.beacon (beaconFrame true)) (sealedMember [1, 2] 4 true)
    t.gen.shown = 1 ∧ t.gen.isSealed = false ∧ t.gen.revealShown = true ∧ t.shown = .y ∧ t.scan.kind = .drawing ∧
      t.events.records = [⟨6, .flip 1⟩] := by decide +kernel

theorem test_joiner_promoted :
    let t := after (.beacon (beaconFrame true)) joiner
    t.life = .running .member ∧ t.roster[(1 : Station)].state = .member ∧ t.bus.presencePending = true ∧
      t.events.records = [⟨6, .flip 1⟩, ⟨6, .roster 1 .member⟩, ⟨6, .state .member .promoted⟩] := by decide +kernel

theorem test_flip_timeout_silences :
    let t := after (.flipTimeout (frame 0 3 [0, 6, 0, 1])) (sealedMember [1] 31 false)
    t.roster[(2 : Station)].state = .silent ∧ t.roster[(2 : Station)].silence = 47 ∧ t.gen.armed = true ∧
      t.events.records = [⟨6, .flipTimeout 1 1⟩, ⟨6, .roster 2 .silent⟩] := by decide +kernel

theorem test_cell_written_and_posted :
    let t := after (.update cellFrame) member
    let u := after .tileStep t
    t.applyEngine = .applying 0 ∧
      t.arbiter.access = some ⟨.apply, .y, ⟨3, 8⟩, some blankCell, false, false⟩ ∧
      u.applyEngine = .idle ∧ u.updateQueue = [] ∧ u.dirty.positions = [⟨3, 8⟩] := by decide +kernel

/-- Which request a completion grants, by the order in force and by what waits. -/
theorem test_grant_order :
    let q : Option Request := some ⟨⟨0, 0⟩, .shown, none⟩
    let granted (s : State) := (after .tileStep s).arbiter.access.map Access.requester
    granted (contended false q q q) = some .feedRead ∧ granted (contended true q q q) = some .rowFetch ∧
    granted (contended false q none q) = some .catchUp ∧ granted (contended false q none none) = some .rowFetch ∧
    granted (contended true none none none) = none := by decide +kernel

/-- ROWCLEAR with a zone cell leaves the last 16 columns left of the tile and a floor below them; a left step at the
floor changes nothing, one above it replaces the lowest. -/
theorem test_rowclear_left_list :
    let z (b : BitVec 3) : CellRecord := .zone ⟨0, ⟨b, false, false⟩⟩
    let t := after (.update (frame 4 2 [0x81, 3, 0, 0x20, 0x08])) member
    let row := t.leftTable[(3 : LocalRow)]
    row.entries.map Prod.fst = (List.range 16).map (· + 16) ∧ row.floor = some 15 ∧ row.write 15 (z 1) = row ∧
    ((row.write 20 blankCell).write 20 (z 1)).floor = some 15 ∧
    (after (.update (frame 4 2 [0x80, 3, 0, 0x10, 0x70])) member).leftTable[(3 : LocalRow)] = ⟨[], none⟩ ∧
    t.applyEngine = .applying 34 ∧ t.defaultsY[(3 : LocalRow)] = ⟨0, false, false⟩ := by decide +kernel

/-- A Member with B sealed that an apply completion makes owe READY has it pending with g = B. -/
theorem test_ready_set_pending :
    let s := contended false none none none
    let t := after .tileStep { s with
      catchUp := .idle, gen := { s.gen with isSealed := true, sealer := some 2 } }
    t.gen.announced = true ∧ t.bus.readyPending = some 1 ∧ t.readyCondition = false := by decide +kernel

/-- The first dot lines of a frame: each ends with its line strobe, and the frame strobe is driven in the lead. -/
theorem test_strobes :
    let lead := scanning .lead false .dark
    let first := after .dotLine (after .rowDisplay lead)
    let second := after .dotLine first
    lead.frameStrobe = true ∧ first.frameStrobe = false ∧ first.scan.lineStrobes = 0 ∧
    second.scan.lineStrobes = 1 ∧ second.scan.phase = .row 0 1 ∧
    (after .lossOfPower second).scan.lineStrobes = 0 ∧ (after .lossOfPower second).frameStrobe = false := by
  decide +kernel

/-- An event posted between the assertion and the release: the port byte is the one of the assertion, the response shows
the record. A response that comes after the assertion of a collect transaction is not collected by it. -/
theorem test_port_byte_sampled :
    let s := after (.nextEvent .asserted) member
    let t := after (.nextEvent .released) { s with events := ⟨[⟨5, .underrun⟩], false⟩ }
    let late := after (.collect 1 .released) { after (.collect 1 .asserted) member with port := .ready .cleared }
    s.dataOut = [0] ∧ t.dataOut = [0] ∧ t.port = .ready (.nextEvent (some ⟨5, .underrun⟩) false) ∧
    t.transaction = none ∧ late.dataOut = [0, 0xFF] ∧ late.port = .ready .cleared ∧
    (after (.collect 1 .released) late).dataOut = [0x80, 0] := by decide +kernel

/-- The select released without power ends the transaction: the next assertion samples anew and its command is taken. One
that stays asserted over the outage, and one asserted in it, is discarded. -/
theorem test_select_over_outage :
    let off := after .lossOfPower (after (.status .asserted) member)
    let on (s : State) := { after (.powerOn ⟨1, 0⟩) s with life := .running .halted }
    let told (s : State) := { s with events := ⟨[⟨0, .underrun⟩], false⟩ }
    let released := after (.status .released) (after (.status .asserted) (told (on (after (.status .released) off))))
    let held := after (.status .released) (on off)
    let early := after (.status .released) (on (after (.status .asserted) (after (.status .released) off)))
    released.dataOut = [1] ∧ released.port ≠ .free ∧ held.port = .free ∧ held.transaction = none ∧
    early.port = .free ∧ early.dataOut = [0] := by decide +kernel

/-- A READY accepted stays through another station's JOIN, and goes with the LEAVE of its station. -/
theorem test_ready_set_kept :
    let s := sealedMember [1, 2] 4 true
    let joined := after (.join (frame 3 3 [1, 2, 1, 20])) s
    let left := after (.leave (frame 3 2 [3])) s
    joined.gen.readySet[(2 : Station)] = true ∧ joined.gen.armed = true ∧ left.gen.readySet[(2 : Station)] = false ∧
    left.gen.readySet[(1 : Station)] = true ∧ left.gen.armed = true := by decide +kernel

/-- A flip at a following station in the middle of an entry: the entry and its step go on, the entry behind is Current. -/
theorem test_flip_keeps_entry :
    let t := after (.beacon (beaconFrame true)) applyingFollower
    t.gen.shown = 1 ∧ t.applyEngine = .applying 0 ∧ t.arbiter.access = applyingFollower.arbiter.access ∧
    t.updateQueue = [⟨.current, .cell 3 40 blankCell⟩, ⟨.current, .rowdef 4 ⟨1, false, false⟩⟩] := by decide +kernel

/-- At a swap the row fetch's read is given up and the waiting feed read still asks for the shown role. -/
theorem test_swap_keeps_waiting_read :
    let t := after (.beacon (beaconFrame true)) (readingPages (sealedMember [1, 2] 4 true))
    t.shown = .y ∧ t.arbiter = ⟨some ⟨⟨0, 0⟩, .shown, none⟩, some ⟨⟨0, 0⟩, .shown, none⟩, none, none,
      some ⟨.rowFetch, .x, ⟨4, 7⟩, none, true, false⟩⟩ := by decide +kernel

/-- An underrun gives up the read of the row not fetched, and withdraws its waiting request. -/
theorem test_underrun_arbiter :
    let read := after .rowDisplay (underrunning none)
    let waiting := after .rowDisplay (underrunning (some ⟨⟨4, 7⟩, .shown, none⟩))
    read.arbiter = ⟨some ⟨⟨5, 0⟩, .shown, none⟩, some ⟨⟨0, 0⟩, .shown, none⟩, none, none,
      some ⟨.rowFetch, .x, ⟨4, 7⟩, none, true, false⟩⟩ ∧
    waiting.arbiter = ⟨some ⟨⟨5, 0⟩, .shown, none⟩, some ⟨⟨0, 0⟩, .shown, none⟩, none, none,
      some ⟨.catchUp, .x, ⟨4, 7⟩, none, false, false⟩⟩ := by decide +kernel

/-- A station made Silent at a flip records the flip before it withdraws. -/
theorem test_silenced_at_flip :
    let t := after (.beacon (beaconFrame true)) silencedAtFlip
    t.life = .running .withdrawn ∧ t.gen.shown = 1 ∧ t.gen.isSealed = false ∧ t.gen.revealShown = true ∧
    t.events.records = [⟨6, .flip 1⟩, ⟨6, .roster 1 .silent⟩, ⟨6, .feedFlushed 1⟩,
      ⟨6, .state .withdrawn (.withdraw .silenced)⟩] := by decide +kernel

/-- A feed read waiting, and one in progress, at the entry to Listening and still at a later clash (log 37). -/
theorem test_read_over_two_entries :
    let listening (arb : Arbiter) : State :=
      let s := { running .withdrawn with port := .working .shown ⟨0, 0⟩, arbiter := arb }.enterListening .quietOver
      { s with bus := { s.bus with synchronised := true } }
    let waiting := after (.clash .foreignKey) (listening ⟨none, some ⟨⟨0, 0⟩, .shown, none⟩, none, none,
      some ⟨.apply, .y, ⟨3, 8⟩, some blankCell, true, false⟩⟩)
    let reading := after (.clash .foreignKey) (listening ⟨none, none, none, none,
      some ⟨.feedRead, .x, ⟨0, 0⟩, none, false, false⟩⟩)
    waiting.life = .running .clashed ∧ waiting.port = .ready .refused ∧ waiting.arbiter.feedRead = none ∧
    reading.port = .working .shown ⟨0, 0⟩ ∧ (after .feedReadComplete reading).port = .ready .refused := by decide +kernel

theorem test_status_bytes :
    let t := after (.status .released) member
    t.dataOut = [0] ∧
      (match t.port with | .ready r => r.bytes | _ => []) = [0, 1, 3, 0, 0, 0, 0, 2, 0, 0, 0, 0] := by decide +kernel

theorem test_clash_flushes :
    let t := after (.clash .foreignKey) { member with bus := { member.bus with feedQueue := [newMessage 4 []] } }
    t.life = .running .clashed ∧ t.bus.feedQueue = [] ∧
      t.events.records = [⟨5, .feedFlushed 1⟩, ⟨5, .state .clashed (.withdraw .clash)⟩] := by decide +kernel

end Sys2Proof.Tests
end

section
/-! SUPPORT. Generation control at an accepted frame (R6 to R16): the conditions read only the states of the roster's
entries, a record that agrees with its roster is settled by evaluating armed alone, and what READY and SEAL then do. -/

namespace Sys2Proof.Machine

/-! ### Conditions over the states of the entries (R9, R12) -/

theorem requirementSet_congr {r r' : Roster} (h : ∀ n : Station, r'[n].state = r[n].state) (g : GenerationRecord) :
    requirementSet r' g = requirementSet r g := by
  simp only [requirementSet, h]

theorem isFollowing_congr {r r' : Roster} (h : ∀ n : Station, r'[n].state = r[n].state) (st : StationState)
    (own : Station) (g : GenerationRecord) : isFollowing st own r' g = isFollowing st own r g := by
  simp only [isFollowing, requirementSet_congr h]

theorem baselineTaken_congr {r r' : Roster} (h : ∀ n : Station, r'[n].state = r[n].state) (b : StationSet) :
    baselineTaken r' b = baselineTaken r b := by
  simp only [baselineTaken, h]

theorem State.following_running {s : State} {st : StationState} (h : s.life = .running st) :
    s.following = isFollowing st s.station s.roster s.gen := by
  simp only [State.following, h]

theorem getFin_stationSetEmpty (n : Station) : StationSet.empty[n] = false := by
  simp [StationSet.empty]

/-- The share of every accepted frame touches a silence count, never the state of an entry (R30). -/
theorem State.afterShare_entryState (s : State) (cls : BitVec 3) (f : BusFrame) (n : Station) :
    (s.afterShare cls f).roster[n].state = s.roster[n].state := by
  change (rosterHeard s.roster f.sender)[n].state = s.roster[n].state
  rw [rosterHeard, getFin_set]
  split
  case isTrue h => rw [h]
  case isFalse => rfl

theorem State.afterShare_requirementSet (s : State) (cls : BitVec 3) (f : BusFrame) (g : GenerationRecord) :
    Machine.requirementSet (s.afterShare cls f).roster g = Machine.requirementSet s.roster g :=
  requirementSet_congr (s.afterShare_entryState cls f) g

/-! ### A settled record (R7, R11, R16) -/

theorem baselineKept_of_live {r : Roster} {b : StationSet}
    (h : ∀ n : Station, b[n] = true → r[n].state = .joining ∨ r[n].state = .member) : baselineKept r b = b := by
  refine vector_ext_fin _ _ fun n => ?_
  rw [baselineKept, getFin_tabulate]
  cases hb : b[n]
  · rfl
  · rcases h n hb with hs | hs <;> rw [hs] <;> rfl

theorem stationInter_of_subset {a b : StationSet} (h : ∀ n : Station, a[n] = true → b[n] = true) :
    stationInter a b = a := by
  refine vector_ext_fin _ _ fun n => ?_
  rw [getFin_stationInter]
  cases ha : a[n]
  · rfl
  · rw [h n ha, Bool.and_self]

/-- The record with armed evaluated (R12, R16). -/
def GenerationRecord.withArmed (g : GenerationRecord) (st : StationState) (own : Station) (r : Roster) :
    GenerationRecord :=
  { g with armed := !isFollowing st own r g && computedArmed r g }

theorem GenerationRecord.withArmed_armed_iff (g : GenerationRecord) (st : StationState) (own : Station) (r : Roster) :
    (g.withArmed st own r).armed = true ↔ isFollowing st own r g = false ∧
      g.isSealed = true ∧ ∀ n : Station, (Machine.requirementSet r g)[n] = true → g.readySet[n] = true := by
  rw [GenerationRecord.withArmed, Bool.and_eq_true, Bool.not_eq_true', computedArmed, Bool.and_eq_true,
    stationSubset_iff]

/-- Settling evaluates armed and nothing else when no station has to leave the baseline or the ready set. -/
theorem GenerationRecord.settle_of_agrees (g : GenerationRecord) (st : StationState) (own : Station) (r : Roster)
    (hbase : ∀ n : Station, g.inBaseline n = true → r[n].state = .joining ∨ r[n].state = .member)
    (hready : ∀ n : Station, g.readySet[n] = true → (Machine.requirementSet r g)[n] = true) :
    g.settle st own r = g.withArmed st own r := by
  have hkept : g.baseline.map (baselineKept r) = g.baseline := by
    cases hb : g.baseline with
    | none => rfl
    | some b =>
      have hlive : baselineKept r b = b := baselineKept_of_live fun n hn => hbase n (by simpa [inBaseline, hb] using hn)
      rw [Option.map_some, hlive]
  simp only [GenerationRecord.settle, GenerationRecord.withArmed, hkept, stationInter_of_subset hready]

/-! ### READY accepted (R10) -/

/-- The record with a station added to the ready set. -/
def GenerationRecord.withReady (g : GenerationRecord) (sender : Station) : GenerationRecord :=
  { g with readySet := g.readySet.set sender true }

theorem GenerationRecord.withReady_readySet_iff (g : GenerationRecord) (sender n : Station) :
    (g.withReady sender).readySet[n] = true ↔ g.readySet[n] = true ∨ n = sender := by
  rw [GenerationRecord.withReady, getFin_set]
  split
  case isTrue h => simp only [h, or_true]
  case isFalse h => simp only [Ne.symm h, or_false]

theorem State.acceptReady_of_taken (s : State) (st : StationState) (sender : Station) (g : Generation)
    (hbase : ∀ n : Station, s.gen.inBaseline n = true → s.roster[n].state = .joining ∨ s.roster[n].state = .member)
    (hready : ∀ n : Station, s.gen.readySet[n] = true → s.requirementSet[n] = true)
    (hsealed : s.gen.isSealed = true) (hg : g = s.gen.building) (hreq : s.requirementSet[sender] = true) :
    s.acceptReady st sender g = { s with gen := (s.gen.withReady sender).withArmed st s.station s.roster } := by
  have hjoined : ∀ n : Station, (s.gen.withReady sender).readySet[n] = true → s.requirementSet[n] = true := by
    intro n hn
    rcases (s.gen.withReady_readySet_iff sender n).mp hn with h | rfl
    · exact hready n h
    · exact hreq
  have hsettle := (s.gen.withReady sender).settle_of_agrees st s.station s.roster hbase hjoined
  rw [State.acceptReady, if_pos (by simp only [hsealed, hg, hreq, decide_true, Bool.and_self]), ← hsettle]
  rfl

theorem State.acceptReady_of_not_taken (s : State) (st : StationState) (sender : Station) (g : Generation)
    (h : ¬ (s.gen.isSealed = true ∧ g = s.gen.building ∧ s.requirementSet[sender] = true)) :
    s.acceptReady st sender g = s := by
  rw [State.acceptReady, if_neg (by simpa only [Bool.and_eq_true, decide_eq_true_eq, and_assoc] using h)]

/-! ### READY of this station (R13) -/

theorem State.readyCondition_iff {s : State} {st : StationState} (h : s.life = .running st) :
    s.readyCondition = true ↔ (st = .joining ∨ st = .member) ∧ s.requirementSet[s.station] = true ∧
      s.gen.isSealed = true ∧ s.currentWork = false ∧ s.catchUp = .idle ∧ s.gen.announced = false := by
  simp only [State.readyCondition, h, Life.running.injEq, Bool.and_eq_true, Bool.or_eq_true, decide_eq_true_eq,
    Bool.not_eq_true', and_assoc]

/-- Evaluating READY touches announced and the pending READY alone. -/
theorem State.evaluateReady_frame (s : State) :
    s.evaluateReady = { s with
      gen := s.evaluateReady.gen, bus := { s.bus with readyPending := s.evaluateReady.bus.readyPending } } := by
  unfold State.evaluateReady
  split <;> rfl

@[simp] theorem State.evaluateReady_gen_keeps (s : State) :
    s.evaluateReady.gen.shown = s.gen.shown ∧ s.evaluateReady.gen.isSealed = s.gen.isSealed ∧
    s.evaluateReady.gen.sealer = s.gen.sealer ∧ s.evaluateReady.gen.baseline = s.gen.baseline ∧
    s.evaluateReady.gen.revealBuilding = s.gen.revealBuilding ∧
    s.evaluateReady.gen.revealShown = s.gen.revealShown ∧ s.evaluateReady.gen.readySet = s.gen.readySet ∧
    s.evaluateReady.gen.armed = s.gen.armed ∧ s.evaluateReady.gen.sealAge = s.gen.sealAge := by
  unfold State.evaluateReady
  split <;> simp

theorem State.evaluateReady_requirementSet (s : State) : s.evaluateReady.requirementSet = s.requirementSet := by
  unfold State.evaluateReady
  split <;> rfl

theorem State.evaluateReady_following (s : State) : s.evaluateReady.following = s.following := by
  unfold State.evaluateReady
  split <;> rfl

theorem State.evaluateReady_of_condition {s : State} (h : s.readyCondition = true) :
    s.evaluateReady.gen.announced = true ∧ s.evaluateReady.bus.readyPending = some s.gen.building := by
  rw [State.evaluateReady, if_pos h]
  exact ⟨rfl, rfl⟩

theorem State.evaluateReady_of_not_condition {s : State} (h : s.readyCondition ≠ true) : s.evaluateReady = s :=
  if_neg h

/-! ### SEAL accepted (R6 to R8) -/

/-- The station with a SEAL taken, before READY is evaluated: the new record with armed evaluated, and SEAL_TAKEN
posted. -/
def State.sealTaken (s : State) (st : StationState) (sender : Station) (g : Generation) (reveal : Bool)
    (carried : Option StationSet) : State :=
  { s with
    gen := (s.gen.takeSeal s.roster sender reveal carried).withArmed st s.station s.roster
    events := s.events.post s.timer.frameNumber (.sealTaken g sender) }

/-- The baseline set a SEAL forms holds Joining stations only (R7). -/
theorem GenerationRecord.takeSeal_inBaseline (g : GenerationRecord) (r : Roster) (sender : Station) (reveal : Bool)
    (carried : Option StationSet) (n : Station) (h : (g.takeSeal r sender reveal carried).inBaseline n = true) :
    r[n].state = .joining := by
  cases carried with
  | none => cases h
  | some named =>
    have hn : (baselineTaken r named)[n] = true := h
    rw [baselineTaken, getFin_tabulate, Bool.and_eq_true, decide_eq_true_eq] at hn
    exact hn.2

theorem State.acceptSeal_of_taken (s : State) (st : StationState) (sender : Station) (g : Generation) (reveal : Bool)
    (carried : Option StationSet) (hsealed : s.gen.isSealed = false) (hg : g = s.gen.building) :
    s.acceptSeal st sender g reveal carried = (s.sealTaken st sender g reveal carried).evaluateReady := by
  rw [State.acceptSeal, if_pos (by simp only [hsealed, hg, decide_true, Bool.not_false, Bool.and_self]),
    GenerationRecord.settle_of_agrees]
  · rfl
  · exact fun n hn => .inl (s.gen.takeSeal_inBaseline _ _ _ _ n hn)
  · intro n hn
    exact absurd hn (by rw [GenerationRecord.takeSeal, getFin_stationSetEmpty]; exact Bool.false_ne_true)

theorem State.acceptSeal_of_ignored (s : State) (st : StationState) (sender : Station) (g : Generation) (reveal : Bool)
    (carried : Option StationSet) (h : s.gen.isSealed = true ∨ g ≠ s.gen.building) :
    s.acceptSeal st sender g reveal carried =
      { s with counters := { s.counters with sealsIgnored := rise s.counters.sealsIgnored } }.post
        (.sealIgnored g sender) := by
  rw [State.acceptSeal, if_neg]
  simp only [Bool.and_eq_true, Bool.not_eq_true', decide_eq_true_eq, not_and_or, Bool.not_eq_false]
  exact h

/-- Armed after a SEAL is taken: the ready set is empty, so no station may be required (R16). -/
theorem State.sealTaken_armed_iff {s : State} {st : StationState} (hrun : s.life = .running st) (sender : Station)
    (g : Generation) (reveal : Bool) (carried : Option StationSet) :
    let v := s.sealTaken st sender g reveal carried
    v.gen.armed = true ↔ v.following = false ∧ ∀ n : Station, v.requirementSet[n] = false := by
  intro v
  have hready : ∀ n : Station, (s.gen.takeSeal s.roster sender reveal carried).readySet[n] = false :=
    getFin_stationSetEmpty
  have hsealed : (s.gen.takeSeal s.roster sender reveal carried).isSealed = true := rfl
  have harmed := (s.gen.takeSeal s.roster sender reveal carried).withArmed_armed_iff st s.station s.roster
  simp only [hready, hsealed, Bool.false_eq_true, imp_false, Bool.not_eq_true, true_and] at harmed
  rw [State.following_running (s := v) hrun]
  exact harmed

/-- The conditions of R13 once a SEAL is taken: B is sealed, and what the SEAL leaves alone is as it was before. -/
theorem State.sealTaken_readyCondition_iff {s : State} {st : StationState} (hrun : s.life = .running st)
    (sender : Station) (g : Generation) (reveal : Bool) (carried : Option StationSet) :
    let v := s.sealTaken st sender g reveal carried
    v.readyCondition = true ↔ (st = .joining ∨ st = .member) ∧ v.requirementSet[s.station] = true ∧
      s.currentWork = false ∧ s.catchUp = .idle ∧ s.gen.announced = false := by
  intro v
  rw [State.readyCondition_iff (s := v) hrun]
  exact and_congr_right fun _ => and_congr_right fun _ => and_iff_right rfl

end Sys2Proof.Machine
end

section
/-! PROOFS. The generations and the flip: an accepted READY and an accepted SEAL (R6 to R8, R10). -/

namespace Sys2Proof.Proofs

open Sys2Proof.Machine

theorem exec_ready_accepted {s : State} {st : StationState} {f : BusFrame} {g : Generation}
    (h : s.Accepts st 1 f (.ready g)) :
    exec (.ready f) s = .next ((s.afterShare 1 f).acceptReady st f.sender g) := by
  change Host.Outcome.next (s.endFrame 1 f) = _
  rw [h.endFrame]
  rfl

theorem exec_seal_accepted {s : State} {st : StationState} {f : BusFrame} {g : Generation} {reveal : Bool}
    {carried : Option StationSet} (h : s.Accepts st 2 f (.sealing g reveal carried)) :
    exec (.sealFrame f) s = .next ((s.afterShare 2 f).acceptSeal st f.sender g reveal carried) := by
  change Host.Outcome.next (s.endFrame 2 f) = _
  rw [h.endFrame]
  rfl

/-- Settles O27: the record agrees with its roster, so settling it after the sender has joined evaluates armed alone. -/
theorem readyJoinsReadySet : Obligations.ReadyJoinsReadySet := by
  intro s st f g hrec hacc u taken
  have hpart : s.participates = true := by rw [State.participates, hacc.running]; exact hacc.inWall
  have hstate : ∀ n : Station, u.roster[n].state = s.roster[n].state := s.afterShare_entryState 1 f
  have hreqs : u.requirementSet = s.requirementSet := s.afterShare_requirementSet 1 f s.gen
  refine ⟨fun ⟨hsealed, hg, hreq⟩ => ?_, fun hnot => ?_⟩
  · have hjoin := u.acceptReady_of_taken st f.sender g (fun n hn => by rw [hstate]; exact hrec.baselineLive hpart n hn)
      (fun n hn => by rw [hreqs]; exact hrec.ready hpart n hn) hsealed hg (by rw [hreqs]; exact hreq)
    refine ⟨_, exec_ready_accepted hacc, ?_⟩
    rw [hjoin]
    refine ⟨rfl, s.gen.withReady_readySet_iff f.sender, ?_⟩
    have harmed := (s.gen.withReady f.sender).withArmed_armed_iff st s.station u.roster
    simp only [s.gen.withReady_readySet_iff f.sender, isFollowing_congr hstate, requirementSet_congr hstate] at harmed
    rw [State.following_running hacc.running]
    exact harmed.trans (and_congr_right fun _ => and_iff_right hsealed)
  · rw [exec_ready_accepted hacc, u.acceptReady_of_not_taken st f.sender g (by rw [hreqs]; exact hnot)]

/-- Settles O28: a taken SEAL is the new record followed by the evaluation of READY, an ignored one only counts. -/
theorem sealTakenOrIgnored : Obligations.SealTakenOrIgnored := by
  refine ⟨?_, ?_⟩
  · intro s st f g reveal carried hacc hsealed hg u
    have hstate : ∀ n : Station, u.roster[n].state = s.roster[n].state := s.afterShare_entryState 2 f
    let v := u.sealTaken st f.sender g reveal carried
    have hexec : exec (.sealFrame f) s = .next v.evaluateReady := by
      rw [exec_seal_accepted hacc, u.acceptSeal_of_taken st f.sender g reveal carried hsealed hg]
    obtain ⟨hshown, hnowSealed, hsealer, hbase, hreveal, hrevealShown, hready, harmed, hage⟩ :=
      v.evaluateReady_gen_keeps
    have hset : v.gen.baseline = carried.map (baselineTaken s.roster) := by
      rw [← funext (baselineTaken_congr hstate)]
      rfl
    rw [hset] at hbase
    refine ⟨_, hexec, v.evaluateReady_frame, hshown, hnowSealed, hsealer, hreveal, hrevealShown, hage,
      fun n => ?_, ?_, ?_, ?_, ?_⟩
    · rw [hready]
      exact getFin_stationSetEmpty n
    · rintro rfl
      exact hbase
    · rintro named rfl
      refine ⟨_, hbase, fun n => ?_⟩
      rw [baselineTaken, getFin_tabulate, Bool.and_eq_true, decide_eq_true_eq]
    · rw [harmed, v.evaluateReady_following, v.evaluateReady_requirementSet]
      exact State.sealTaken_armed_iff (s := u) hacc.running f.sender g reveal carried
    · intro owed
      have howed : owed ↔ v.readyCondition = true := by
        simp only [owed, v.evaluateReady_requirementSet]
        exact (State.sealTaken_readyCondition_iff (s := u) hacc.running f.sender g reveal carried).symm
      refine ⟨fun h => ?_, fun h => ?_⟩
      · rw [hg]
        exact State.evaluateReady_of_condition (howed.mp h)
      · rw [State.evaluateReady_of_not_condition fun hc => h (howed.mpr hc)]
        exact ⟨rfl, rfl⟩
  · intro s st f g reveal carried hacc hign u
    rw [exec_seal_accepted hacc, u.acceptSeal_of_ignored st f.sender g reveal carried hign]
    rfl

end Sys2Proof.Proofs
end

section
/-! SUPPORT. Glyph memory (R102 to R105): where the lines of a glyph stand, what an accepted GLYPH makes of every line,
and what an accepted frame's share and layout say about it. -/

namespace Sys2Proof.Machine

/-- The addresses of up to 16 lines from `first` on that stay within one glyph are addresses of that glyph alone. -/
theorem glyphAddress_mem_lines_iff {first n : Nat} (hfit : first + n ≤ 16) (set set' : BitVec 2)
    (code code' : BitVec 7) (line : Fin 16) :
    (glyphAddress set code first ≤ glyphAddress set' code' line.val ∧
      glyphAddress set' code' line.val < glyphAddress set code first + n) ↔
    set' = set ∧ code' = code ∧ first ≤ line.val ∧ line.val < first + n := by
  have hline := line.isLt
  have hcode := code.isLt
  have hcode' := code'.isLt
  simp only [glyphAddress]
  constructor
  · rintro ⟨hlow, hhigh⟩
    have hset : set'.toNat = set.toNat := by omega
    have hcodes : code'.toNat = code.toNat := by omega
    exact ⟨BitVec.eq_of_toNat_eq hset, BitVec.eq_of_toNat_eq hcodes, by omega, by omega⟩
  · rintro ⟨rfl, rfl, hlow, hhigh⟩
    omega

/-- Every glyph line after consecutive lines of one glyph are written: the pattern written there, or as before. -/
theorem glyphLine_writeAll {m : List Host.Cell} (hm : Memory.wf (0 : Byte) m = true) {first : Nat}
    {patterns : List Byte} (hfit : first + patterns.length ≤ 16) (set set' : BitVec 2) (code code' : BitVec 7)
    (line : Fin 16) :
    glyphLine (Memory.writeAll 0 m (glyphAddress set code first) patterns) set' code' line.val =
      if set' = set ∧ code' = code ∧ first ≤ line.val ∧ line.val < first + patterns.length then
        patterns.getD (line.val - first) 0
      else glyphLine m set' code' line.val := by
  simp only [glyphLine, Memory.read_writeAll (0 : Byte) patterns m _ _ hm, glyphAddress_mem_lines_iff hfit]
  refine if_ctx_congr Iff.rfl ?_ fun _ => rfl
  rintro ⟨rfl, rfl, -, -⟩
  rw [glyphAddress, glyphAddress, Nat.add_sub_add_left]

/-- A GLYPH that parses names no line beyond 15 (R104). -/
theorem parseGlyph_lines_fit {payload : List Byte} {set : BitVec 2} {code : BitVec 7} {first : Nat}
    {patterns : List Byte} (h : parseGlyph payload = some (.glyph set code first patterns)) :
    first + patterns.length ≤ 16 := by
  unfold parseGlyph at h
  split at h
  case h_1 =>
    obtain ⟨⟨-, -, -, -, -, hfit⟩, hmsg⟩ := Option.ite_none_right_eq_some.mp h
    cases hmsg
    exact hfit
  case h_2 => cases h

theorem State.Accepts.glyph_lines_fit {s : State} {st : StationState} {f : BusFrame} {set : BitVec 2}
    {code : BitVec 7} {first : Nat} {patterns : List Byte} (h : s.Accepts st 5 f (.glyph set code first patterns)) :
    first + patterns.length ≤ 16 :=
  parseGlyph_lines_fit h.layout

@[simp] theorem State.afterShare_glyphMemory (s : State) (cls : BitVec 3) (f : BusFrame) :
    (s.afterShare cls f).glyphMemory = s.glyphMemory := by
  simp [State.afterShare]

end Sys2Proof.Machine
end

section
/-! PROOFS. Glyph memory: an accepted GLYPH (R104, R105). -/

namespace Sys2Proof.Proofs

open Sys2Proof.Machine

theorem exec_glyph_accepted {s : State} {st : StationState} {f : BusFrame} {set : BitVec 2} {code : BitVec 7}
    {first : Nat} {patterns : List Byte} (h : s.Accepts st 5 f (.glyph set code first patterns)) :
    exec (.glyph f) s = .next ((s.afterShare 5 f).acceptGlyph set code first patterns) := by
  change Host.Outcome.next (s.endFrame 5 f) = _
  rw [h.endFrame]
  rfl

/-- Settles O35: the layout keeps the written lines within the named glyph, so their addresses are no other glyph's. -/
theorem glyphWritesLines : Obligations.GlyphWritesLines := by
  intro s st f set code first patterns hcanon hacc
  refine ⟨_, exec_glyph_accepted hacc, rfl, fun set' code' line => ?_⟩
  rw [State.acceptGlyph, s.afterShare_glyphMemory 5 f]
  exact glyphLine_writeAll hcanon.glyphs hacc.glyph_lines_fit set set' code code' line

end Sys2Proof.Proofs
end

section
/-! SUPPORT. What the operations over State set: one lemma for each operation, one equation for each field it changes, next
to the `_keeps` lemmas, which say what it leaves alone. -/

namespace Sys2Proof.Machine

/-! ### The scan engine (R110, R114) -/

@[simp] theorem ScanEngine.stopLine_keeps (sc : ScanEngine) (sent : Nat) :
    (sc.stopLine sent).phase = sc.phase ∧ (sc.stopLine sent).lineBegun = sc.lineBegun ∧
    (sc.stopLine sent).kind = sc.kind ∧ (sc.stopLine sent).rowBuffer = sc.rowBuffer ∧
    (sc.stopLine sent).fetch = sc.fetch ∧ (sc.stopLine sent).displayRow = sc.displayRow ∧
    (sc.stopLine sent).zone = sc.zone ∧ (sc.stopLine sent).flashOn = sc.flashOn ∧
    (sc.stopLine sent).reveal = sc.reveal ∧ (sc.stopLine sent).concealEnable = sc.concealEnable ∧
    (sc.stopLine sent).underrun = sc.underrun ∧ (sc.stopLine sent).dots = sc.dots ∧
    (sc.stopLine sent).lineStrobes = sc.lineStrobes := by
  unfold ScanEngine.stopLine
  split
  · split <;> simp
  · simp
  · simp

/-- A line that is stopped reaches the panel in part, and nothing else changes (R111). -/
theorem ScanEngine.stopLine_frame (sc : ScanEngine) (sent : Nat) :
    sc.stopLine sent = { sc with panel := (sc.stopLine sent).panel } := by
  unfold ScanEngine.stopLine
  split
  · split <;> rfl
  · rfl
  · rfl

@[simp] theorem ScanEngine.endLine_keeps (sc : ScanEngine) :
    sc.endLine.phase = sc.phase ∧ sc.endLine.lineBegun = sc.lineBegun ∧ sc.endLine.kind = sc.kind ∧
    sc.endLine.rowBuffer = sc.rowBuffer ∧ sc.endLine.fetch = sc.fetch ∧ sc.endLine.displayRow = sc.displayRow ∧
    sc.endLine.zone = sc.zone ∧ sc.endLine.flashOn = sc.flashOn ∧ sc.endLine.reveal = sc.reveal ∧
    sc.endLine.concealEnable = sc.concealEnable ∧ sc.endLine.underrun = sc.underrun ∧
    sc.endLine.dots = sc.dots := by
  unfold ScanEngine.endLine
  split
  · split <;> simp
  · simp
  · simp

/-- The line strobes after the line that was sent has ended (R110). -/
theorem ScanEngine.endLine_lineStrobes (sc : ScanEngine) : sc.endLine.lineStrobes =
    if sc.phase.isActive = true ∧ sc.lineBegun = true then sc.lineStrobes + 1 else sc.lineStrobes := by
  unfold ScanEngine.endLine
  split
  · rename_i hp
    rw [hp]
    cases hb : sc.lineBegun <;> simp [ScanPhase.isActive]
  · rename_i hp
    rw [hp]
    simp [ScanPhase.isActive]
  · rename_i hp
    rw [hp]
    simp [ScanPhase.isActive]

/-- The scan engine of a new display frame (R111, R115). -/
theorem State.beginFrame_scan (s : State) (kind : FrameKind) : (s.beginFrame kind).scan =
    { s.scan.frameBegun kind s.timer.frameNumber s.gen.revealShown s.concealEnable with
      panel := (s.scan.stopLine (Config.dotsSentBeforeStop s.freeCount)).panel } := by
  unfold State.beginFrame
  rw [ScanEngine.stopLine_frame]
  rfl

@[simp] theorem State.abandonFetch_scan (s : State) :
    s.abandonFetch.scan = { s.scan with rowBuffer := unfetched, fetch := .idle } := rfl

@[simp] theorem State.abandonFetch_arbiter (s : State) : s.abandonFetch.arbiter = s.arbiter.withdraw .rowFetch := rfl

@[simp] theorem State.beginFetch_scan (s : State) (r : LocalRow) :
    (s.beginFetch r).scan = { s.scan with rowBuffer := unfetched, fetch := .fetching r 0 } := rfl

@[simp] theorem State.beginFetch_arbiter (s : State) (r : LocalRow) :
    (s.beginFetch r).arbiter = s.arbiter.issue .rowFetch ⟨⟨r, 0⟩, .shown, none⟩ := rfl

/-- The display of a row leaves the phase, the strobes and the panel to the line before it (R110, R117). -/
@[simp] theorem State.noteUnderrun_clock (s : State) :
    s.noteUnderrun.scan.phase = s.scan.phase ∧ s.noteUnderrun.scan.lineStrobes = s.scan.lineStrobes ∧
    s.noteUnderrun.scan.panel = s.scan.panel := by
  unfold State.noteUnderrun
  split <;> simp [State.countUnderrun]

@[simp] theorem State.takeOver_clock (s : State) (r : LocalRow) :
    (s.takeOver r).scan.phase = s.scan.phase ∧ (s.takeOver r).scan.lineStrobes = s.scan.lineStrobes ∧
    (s.takeOver r).scan.panel = s.scan.panel := ⟨rfl, rfl, rfl⟩

@[simp] theorem State.fetchAfter_clock (s : State) (r : LocalRow) :
    (s.fetchAfter r).scan.phase = s.scan.phase ∧ (s.fetchAfter r).scan.lineStrobes = s.scan.lineStrobes ∧
    (s.fetchAfter r).scan.panel = s.scan.panel := by
  unfold State.fetchAfter
  split <;> simp

/-- The row fetch begins again at the new display frame (R118). -/
def State.fetchesAgain (s : State) (swapped : Bool) : Bool := s.draws && (swapped || s.scan.phase.isActive)

/-- The new display frame, with or without a new row fetch (R111, R118). -/
theorem State.newFrame_eq (s : State) (swapped : Bool) : s.newFrame swapped =
    if s.fetchesAgain swapped then ((s.beginFrame s.frameKind).abandonFetch).beginFetch 0
    else s.beginFrame s.frameKind := rfl

/-- The scan engine of the new display frame of a beacon acceptance (R111, R115, R118). -/
theorem State.newFrame_scan (s : State) (swapped : Bool) : (s.newFrame swapped).scan =
    { s.scan.frameBegun s.frameKind s.timer.frameNumber s.gen.revealShown s.concealEnable with
      rowBuffer := if s.fetchesAgain swapped then unfetched else s.scan.rowBuffer
      fetch := if s.fetchesAgain swapped then .fetching 0 0 else s.scan.fetch
      panel := (s.scan.stopLine (Config.dotsSentBeforeStop s.freeCount)).panel } := by
  rw [State.newFrame_eq]
  split
  · rw [State.beginFetch_scan, State.abandonFetch_scan, State.beginFrame_scan]
  · rw [State.beginFrame_scan]
    rfl

theorem State.newFrame_arbiter (s : State) (swapped : Bool) : (s.newFrame swapped).arbiter =
    if s.fetchesAgain swapped then (s.arbiter.withdraw .rowFetch).issue .rowFetch ⟨⟨0, 0⟩, .shown, none⟩
    else s.arbiter := by
  rw [State.newFrame_eq]
  split
  · simp
  · simp

/-! ### Entries to Withdrawn and Clashed (R157, R179, R181) -/

@[simp] theorem State.enterDark_sets (s : State) (st : StationState) (reason : WithdrawReason) :
    (s.enterDark st reason).life = .running st ∧ (s.enterDark st reason).withdrawReason = reason ∧
    (s.enterDark st reason).roster = rosterCleared ∧ (s.enterDark st reason).presenceCount = 0 ∧
    (s.enterDark st reason).updateQueue = [] ∧ (s.enterDark st reason).applyEngine = .idle ∧
    (s.enterDark st reason).catchUp = .idle ∧
    (s.enterDark st reason).arbiter = s.arbiter.withdrawEngines.withdraw .feedRead ∧
    (s.enterDark st reason).bus = { BusInterface.atStart with synchronised := s.bus.synchronised } ∧
    (s.enterDark st reason).port = (if s.arbiter.feedRead.isSome then .ready .refused else s.port) ∧
    (s.enterDark st reason).events = (s.events.postAll s.timer.frameNumber
      (flushEvents s.bus.feedQueue.length)).post s.timer.frameNumber (.state st (.withdraw reason)) := by
  unfold State.enterDark
  dsimp only
  split <;> simp [State.standDown]

/-- The scan engine at an entry to Withdrawn or Clashed: the row fetch is given up, and a station that leaves a drawing
state begins a dark frame (R113, R117). -/
theorem State.enterDark_scan (s : State) (st : StationState) (reason : WithdrawReason) :
    (s.enterDark st reason).scan =
      if s.draws then
        { s.scan.frameBegun .dark s.timer.frameNumber s.gen.revealShown s.concealEnable with
          rowBuffer := unfetched, fetch := .idle
          panel := ({ s.scan with rowBuffer := unfetched, fetch := .idle }.stopLine
            (Config.dotsSentBeforeStop s.freeCount)).panel }
      else { s.scan with rowBuffer := unfetched, fetch := .idle } := by
  unfold State.enterDark
  dsimp only
  split
  · rw [State.beginFrame_scan]
    rfl
  · rfl

@[simp] theorem State.withdraw_sets (s : State) (reason : WithdrawReason) :
    (s.withdraw reason).life = .running .withdrawn ∧ (s.withdraw reason).withdrawReason = reason ∧
    (s.withdraw reason).roster = rosterCleared ∧ (s.withdraw reason).presenceCount = 0 ∧
    (s.withdraw reason).updateQueue = [] ∧ (s.withdraw reason).applyEngine = .idle ∧
    (s.withdraw reason).catchUp = .idle ∧
    (s.withdraw reason).scan = (s.enterDark .withdrawn reason).scan ∧
    (s.withdraw reason).arbiter = s.arbiter.withdrawEngines.withdraw .feedRead ∧
    (s.withdraw reason).bus = { BusInterface.atStart with synchronised := s.bus.synchronised } ∧
    (s.withdraw reason).timer = { s.timer with quietExpiries := 0 } ∧
    (s.withdraw reason).port = (if s.arbiter.feedRead.isSome then .ready .refused else s.port) ∧
    (s.withdraw reason).events = (s.events.postAll s.timer.frameNumber
      (flushEvents s.bus.feedQueue.length)).post s.timer.frameNumber (.state .withdrawn (.withdraw reason)) := by
  simp [State.withdraw]

@[simp] theorem State.becomeClashed_sets (s : State) :
    s.becomeClashed.life = .running .clashed ∧ s.becomeClashed.withdrawReason = .clash ∧
    s.becomeClashed.roster = rosterCleared ∧ s.becomeClashed.presenceCount = 0 ∧
    s.becomeClashed.updateQueue = [] ∧ s.becomeClashed.applyEngine = .idle ∧ s.becomeClashed.catchUp = .idle ∧
    s.becomeClashed.scan = (s.enterDark .clashed .clash).scan ∧
    s.becomeClashed.arbiter = s.arbiter.withdrawEngines.withdraw .feedRead ∧
    s.becomeClashed.bus = { BusInterface.atStart with synchronised := s.bus.synchronised } ∧
    s.becomeClashed.timer =
      { s.timer with quietExpiries := if s.participates then 0 else s.timer.quietExpiries } ∧
    s.becomeClashed.port = (if s.arbiter.feedRead.isSome then .ready .refused else s.port) ∧
    s.becomeClashed.events = (s.events.postAll s.timer.frameNumber
      (flushEvents s.bus.feedQueue.length)).post s.timer.frameNumber (.state .clashed (.withdraw .clash)) := by
  simp [State.becomeClashed]

/-! ### Entry to Listening (R175) -/

@[simp] theorem State.enterListening_sets (s : State) (reason : StateReason) :
    (s.enterListening reason).life = .running .listening ∧
    (s.enterListening reason).gen = { GenerationRecord.atStart with shown := s.gen.shown } ∧
    (s.enterListening reason).roster = rosterCleared ∧ (s.enterListening reason).presenceCount = 0 ∧
    (s.enterListening reason).updateQueue = [] ∧ (s.enterListening reason).applyEngine = .idle ∧
    (s.enterListening reason).bufferX = [] ∧ (s.enterListening reason).bufferY = [] ∧
    (s.enterListening reason).shown = .x ∧
    (s.enterListening reason).defaultsX = Vector.replicate 12 blankDefault ∧
    (s.enterListening reason).defaultsY = Vector.replicate 12 blankDefault ∧
    (s.enterListening reason).dirty = ⟨[], false⟩ ∧ (s.enterListening reason).catchUp = .idle ∧
    (s.enterListening reason).leftTable = Vector.replicate 12 LeftRow.empty ∧
    (s.enterListening reason).entryRecords = Vector.replicate 12 EntryRecord.blank ∧
    (s.enterListening reason).scan = { s.scan with rowBuffer := unfetched, fetch := .idle } ∧
    (s.enterListening reason).arbiter = s.arbiter.withdrawEngines.blank ∧
    (s.enterListening reason).bus = { BusInterface.atStart with feedQueue := s.bus.feedQueue } ∧
    (s.enterListening reason).timer = { s.timer with listeningExpiries := 0 } ∧
    (s.enterListening reason).events = s.events.post s.timer.frameNumber (.state .listening reason) := by
  refine ⟨?_, ?_, ?_, ?_, ?_, ?_, ?_, ?_, ?_, ?_, ?_, ?_, ?_, ?_, ?_, ?_, ?_, ?_, ?_, ?_⟩ <;> rfl

/-! ### Starts (R182) -/

@[simp] theorem State.atStart_keeps (s : State) (life : Life) (straps : Straps) (glyphs : List Host.Cell) :
    (s.atStart life straps glyphs).resetPinLow = s.resetPinLow ∧
    (s.atStart life straps glyphs).dataOut = s.dataOut ∧ (s.atStart life straps glyphs).pending = s.pending :=
  ⟨rfl, rfl, rfl⟩

@[simp] theorem State.atStart_sets (s : State) (life : Life) (straps : Straps) (glyphs : List Host.Cell) :
    (s.atStart life straps glyphs).life = life ∧ (s.atStart life straps glyphs).straps = straps ∧
    (s.atStart life straps glyphs).config = none ∧ (s.atStart life straps glyphs).withdrawReason = .none ∧
    (s.atStart life straps glyphs).gen = GenerationRecord.atStart ∧
    (s.atStart life straps glyphs).roster = rosterCleared ∧
    (s.atStart life straps glyphs).presenceCount = 0 ∧ (s.atStart life straps glyphs).clashRecord = none ∧
    (s.atStart life straps glyphs).updateQueue = [] ∧ (s.atStart life straps glyphs).applyEngine = .idle ∧
    (s.atStart life straps glyphs).bufferX = [] ∧ (s.atStart life straps glyphs).bufferY = [] ∧
    (s.atStart life straps glyphs).shown = .x ∧
    (s.atStart life straps glyphs).defaultsX = Vector.replicate 12 blankDefault ∧
    (s.atStart life straps glyphs).defaultsY = Vector.replicate 12 blankDefault ∧
    (s.atStart life straps glyphs).dirty = ⟨[], false⟩ ∧ (s.atStart life straps glyphs).catchUp = .idle ∧
    (s.atStart life straps glyphs).leftTable = Vector.replicate 12 LeftRow.empty ∧
    (s.atStart life straps glyphs).entryRecords = Vector.replicate 12 EntryRecord.blank ∧
    (s.atStart life straps glyphs).glyphMemory = glyphs ∧
    (s.atStart life straps glyphs).scan =
      ScanEngine.atStart (s.scan.stopLine (Config.dotsSentBeforeStop s.freeCount)).panel ∧
    (s.atStart life straps glyphs).arbiter = Arbiter.atStart ∧
    (s.atStart life straps glyphs).bus = BusInterface.atStart ∧
    (s.atStart life straps glyphs).timer = ⟨.stopped, 0, 0, 0⟩ ∧ (s.atStart life straps glyphs).port = .free ∧
    (s.atStart life straps glyphs).events = ⟨[], false⟩ ∧
    (s.atStart life straps glyphs).counters = Counters.zero := by
  refine ⟨?_, ?_, ?_, ?_, ?_, ?_, ?_, ?_, ?_, ?_, ?_, ?_, ?_, ?_, ?_, ?_, ?_, ?_, ?_, ?_, ?_, ?_, ?_, ?_, ?_, ?_, ?_⟩ <;>
    rfl

/-! ### A beacon acceptance (R164) -/

@[simp] theorem State.takeBeacon_sets (s : State) (m : BeaconFields) :
    (s.takeBeacon m).timer = { s.timer with frameTimer := .running s.period, frameNumber := m.frameNumber } ∧
    (s.takeBeacon m).bus = { s.bus with beaconPending := false } := ⟨rfl, rfl⟩

@[simp] theorem State.adopt_keeps (s : State) (m : BeaconFields) :
    (s.adopt m).resetPinLow = s.resetPinLow ∧ (s.adopt m).straps = s.straps ∧ (s.adopt m).config = s.config ∧
    (s.adopt m).withdrawReason = s.withdrawReason ∧ (s.adopt m).roster = s.roster ∧
    (s.adopt m).presenceCount = s.presenceCount ∧ (s.adopt m).clashRecord = s.clashRecord ∧
    (s.adopt m).updateQueue = s.updateQueue ∧ (s.adopt m).applyEngine = s.applyEngine ∧
    (s.adopt m).bufferX = s.bufferX ∧ (s.adopt m).bufferY = s.bufferY ∧ (s.adopt m).shown = s.shown ∧
    (s.adopt m).defaultsX = s.defaultsX ∧ (s.adopt m).defaultsY = s.defaultsY ∧ (s.adopt m).dirty = s.dirty ∧
    (s.adopt m).catchUp = s.catchUp ∧ (s.adopt m).leftTable = s.leftTable ∧
    (s.adopt m).entryRecords = s.entryRecords ∧ (s.adopt m).glyphMemory = s.glyphMemory ∧
    (s.adopt m).port = s.port ∧ (s.adopt m).transaction = s.transaction ∧ (s.adopt m).dataOut = s.dataOut ∧
    (s.adopt m).counters = s.counters ∧ (s.adopt m).pending = s.pending := by
  simp [State.adopt]

@[simp] theorem State.adopt_sets (s : State) (m : BeaconFields) :
    (s.adopt m).life = .running .joining ∧
    (s.adopt m).gen = { s.gen with
      shown := if m.armed then m.shown + 1 else m.shown, isSealed := !m.armed && m.isSealed } ∧
    (s.adopt m).bus = { s.bus with beaconPending := false, joinPending := true } ∧
    (s.adopt m).timer = { s.timer with
      frameTimer := .running s.period, frameNumber := m.frameNumber, listeningExpiries := 0 } ∧
    (s.adopt m).events = s.events.post m.frameNumber (.state .joining .adopted) := by
  simp [State.adopt, State.post]

/-- The dark frame an adoption begins (R166). -/
theorem State.adopt_scan (s : State) (m : BeaconFields) : (s.adopt m).scan =
    { s.scan.frameBegun .dark m.frameNumber s.gen.revealShown s.concealEnable with
      panel := (s.scan.stopLine (Config.dotsSentBeforeStop s.freeCount)).panel } := by
  unfold State.adopt
  rw [State.newFrame_scan]
  rfl

theorem State.adopt_arbiter (s : State) (m : BeaconFields) : (s.adopt m).arbiter = s.arbiter := by
  unfold State.adopt
  rw [State.newFrame_arbiter]
  rfl

/-! ### What the moves outside the wall bus can do -/

@[simp] theorem State.halt_keeps (s : State) (config : Option ConfigRecord) (reason : WithdrawReason) :
    (s.halt config reason).resetPinLow = s.resetPinLow ∧ (s.halt config reason).straps = s.straps ∧
    (s.halt config reason).gen = s.gen ∧ (s.halt config reason).roster = s.roster ∧
    (s.halt config reason).presenceCount = s.presenceCount ∧
    (s.halt config reason).clashRecord = s.clashRecord ∧ (s.halt config reason).updateQueue = s.updateQueue ∧
    (s.halt config reason).applyEngine = s.applyEngine ∧ (s.halt config reason).bufferX = s.bufferX ∧
    (s.halt config reason).bufferY = s.bufferY ∧ (s.halt config reason).shown = s.shown ∧
    (s.halt config reason).defaultsX = s.defaultsX ∧ (s.halt config reason).defaultsY = s.defaultsY ∧
    (s.halt config reason).dirty = s.dirty ∧ (s.halt config reason).catchUp = s.catchUp ∧
    (s.halt config reason).leftTable = s.leftTable ∧ (s.halt config reason).entryRecords = s.entryRecords ∧
    (s.halt config reason).glyphMemory = s.glyphMemory ∧ (s.halt config reason).scan = s.scan ∧
    (s.halt config reason).arbiter = s.arbiter ∧ (s.halt config reason).bus = s.bus ∧
    (s.halt config reason).timer = s.timer ∧ (s.halt config reason).port = s.port ∧
    (s.halt config reason).transaction = s.transaction ∧ (s.halt config reason).dataOut = s.dataOut ∧
    (s.halt config reason).counters = s.counters ∧ (s.halt config reason).freeCount = s.freeCount ∧
    (s.halt config reason).pending = s.pending := by
  simp [State.halt]

@[simp] theorem State.halt_sets (s : State) (config : Option ConfigRecord) (reason : WithdrawReason) :
    (s.halt config reason).life = .running .halted ∧ (s.halt config reason).config = config ∧
    (s.halt config reason).withdrawReason = reason ∧
    (s.halt config reason).events = s.events.post s.timer.frameNumber (.state .halted (.withdraw reason)) := by
  simp [State.halt, State.post]

@[simp] theorem State.enterLeaving_sets (s : State) (origin : LeavingOrigin) :
    (s.enterLeaving origin).life = .running (.leaving origin) ∧
    (s.enterLeaving origin).bus = { s.bus with leavePending := true, leaveAttempts := 0 } ∧
    (s.enterLeaving origin).events =
      s.events.post s.timer.frameNumber (.state (.leaving origin) .restart) := by
  simp [State.enterLeaving, State.post]

/-- The configuration read ends in Listening or in Halted (R172). -/
theorem State.endRead_cases (s : State) (read : ConfigurationRead) :
    (∃ config ms, s.endRead read = State.enterListening
      { s with
        config := config, withdrawReason := .none, timer := { s.timer with frameTimer := .running ms } } .start) ∨
    ∃ config reason, s.endRead read = s.halt config reason := by
  unfold State.endRead
  split
  · exact .inl ⟨_, _, rfl⟩
  · exact .inr ⟨_, _, rfl⟩
  · exact .inr ⟨_, _, rfl⟩

/-- An expiry counts in the timer and may set BEACON pending, in a state that sends beacons; the eighth in Withdrawn
enters Listening (R161, R162, R180). -/
theorem State.expire_cases (s : State) : ∃ timer : BeaconTimer, timer.frameNumber = s.timer.frameNumber ∧
    (timer.listeningExpiries = s.timer.listeningExpiries ∨ timer.listeningExpiries ≤ 3) ∧
    (timer.quietExpiries = s.timer.quietExpiries ∨ timer.quietExpiries ≤ 8) ∧
    ((∃ asks, s.expire = { s with timer := timer, bus := { s.bus with beaconPending := asks } }) ∨
      s.life = .running .withdrawn ∧ s.expire = State.enterListening { s with timer := timer } .quietOver) := by
  unfold State.expire
  dsimp only
  split
  · unfold State.listeningExpiry
    refine ⟨{ s.restartTimer.timer with listeningExpiries := min 3 (s.timer.listeningExpiries + 1) }, rfl,
      .inr (by simp only; omega), .inl rfl, .inl ?_⟩
    dsimp only
    split
    · exact ⟨true, rfl⟩
    · exact ⟨s.bus.beaconPending, rfl⟩
  · rename_i hl
    unfold State.quietExpiry
    refine ⟨{ s.restartTimer.timer with quietExpiries := min 8 (s.timer.quietExpiries + 1) }, rfl, .inl rfl,
      .inr (by simp only; omega), ?_⟩
    dsimp only
    split
    · exact .inr ⟨hl, rfl⟩
    · exact .inl ⟨s.bus.beaconPending, rfl⟩
  iterate 3 exact ⟨s.restartTimer.timer, rfl, .inl rfl, .inl rfl, .inl ⟨true, rfl⟩⟩
  all_goals exact ⟨s.restartTimer.timer, rfl, .inl rfl, .inl rfl, .inl ⟨s.bus.beaconPending, rfl⟩⟩

/-- A synchronisation sets the bit of the interface and nothing else; in some states it does nothing (R139). -/
theorem State.synchronise_cases (s : State) :
    s.synchronise = s ∨ s.synchronise = { s with bus := { s.bus with synchronised := true } } := by
  unfold State.synchronise
  split
  · exact .inl rfl
  iterate 6 exact .inr rfl
  all_goals exact .inl rfl

/-- A SUBMIT is answered, and a message of a class it takes may join a feed queue that has room (R190). -/
theorem State.submit_cases (s : State) (cls : BitVec 3) (payload : List Byte) :
    (∃ r, s.submit cls payload = s.respond r) ∨
    (submitTakes cls = true ∧ payload.length ≤ 40 ∧ s.bus.feedQueue.length < 16 ∧
      ∃ r, s.submit cls payload = State.respond
        { s with bus := { s.bus with feedQueue := s.bus.feedQueue ++ [newMessage cls payload] } } r) := by
  unfold State.submit
  split
  · exact .inl ⟨_, rfl⟩
  · split
    · exact .inl ⟨_, rfl⟩
    · split
      · exact .inl ⟨_, rfl⟩
      · rename_i hcls hlen hfull
        exact .inr ⟨by simpa using hcls, by omega, by omega, _, rfl⟩

/-- A READ CELL is answered with BADARG, or its read is requested (R187). -/
theorem State.readCellCommand_cases (s : State) (role row col : Byte) :
    s.readCellCommand role row col = s.respond .badArg ∨
    ∃ r p, s.readCellCommand role row col = State.grant
      { s with port := .working r p, arbiter := s.arbiter.issue .feedRead ⟨p, r, none⟩ } := by
  unfold State.readCellCommand
  split
  · exact .inl rfl
  · exact .inr ⟨_, _, rfl⟩

/-- A RESTART is answered, at most with an entry to Leaving or to Listening before it (R178, R193). -/
theorem State.restartCommand_cases (s : State) (st : StationState) : ∃ r,
    s.restartCommand st = s.respond r ∨
    (st = .joining ∧ s.restartCommand st = (s.enterLeaving .fromJoining).respond r) ∨
    (st = .member ∧ s.restartCommand st = (s.enterLeaving .fromMember).respond r) ∨
    ((st = .listening ∨ st = .withdrawn ∨ st = .clashed) ∧
      s.restartCommand st = (s.enterListening .restart).respond r) := by
  cases st with
  | halted | leaving _ => exact ⟨_, .inl rfl⟩
  | joining => exact ⟨_, .inr (.inl ⟨rfl, rfl⟩)⟩
  | member => exact ⟨_, .inr (.inr (.inl ⟨rfl, rfl⟩))⟩
  | listening | withdrawn | clashed => exact ⟨_, .inr (.inr (.inr ⟨by simp, rfl⟩))⟩

/-! ### What the completion of an access can do (R58, R76, R116, R136) -/

/-- The station after an apply write, before the engine goes on: the position is posted (R65). -/
def State.tileWritten (s : State) (acc : Access) : State :=
  { s.finishAccess acc with dirty := s.dirty.post acc.pos }

/-- A write completes for an engine that is gone, or the engine goes on (R58, R136). -/
theorem State.tileStep_cases (s : State) (acc : Access) :
    (acc.abandoned = true ∨ s.applyEngine = .idle) ∧ s.tileStep acc = (s.finishAccess acc).grant ∨
    ∃ n, acc.abandoned = false ∧ s.applyEngine = .applying n ∧
      s.tileStep acc = (((s.tileWritten acc).continueEntry n).evaluateReady).grant := by
  have he : (s.finishAccess acc).applyEngine = s.applyEngine := by simp
  have hd : (s.finishAccess acc).dirty = s.dirty := by simp
  unfold State.tileStep State.tileWritten
  dsimp only
  rw [he, hd]
  split
  · rename_i hab
    exact .inl ⟨.inl hab, rfl⟩
  · rename_i hab
    split
    · rename_i hidle
      exact .inl ⟨.inr hidle, rfl⟩
    · rename_i n hn
      exact .inr ⟨n, by simpa using hab, hn, rfl⟩

/-- The station after a catch-up read, before the grant: the record is held and its write requested (R76). -/
def State.copyRead (s : State) (acc : Access) : State :=
  { s.finishAccess acc with
    catchUp := s.catchUp.withRecord (s.readCell acc.buffer acc.pos)
    arbiter := (s.finishAccess acc).arbiter.issue .catchUp ⟨acc.pos, .building, some (s.readCell acc.buffer acc.pos)⟩ }

theorem State.catchUpRead_cases (s : State) (acc : Access) :
    acc.abandoned = true ∧ s.catchUpRead acc = (s.finishAccess acc).grant ∨
    acc.abandoned = false ∧ s.catchUpRead acc = (s.copyRead acc).grant := by
  have hc : (s.finishAccess acc).catchUp = s.catchUp := by simp
  unfold State.catchUpRead State.copyRead
  dsimp only
  rw [hc]
  split
  · rename_i hab
    exact .inl ⟨hab, rfl⟩
  · rename_i hab
    exact .inr ⟨by simpa using hab, rfl⟩

theorem State.catchUpWrite_cases (s : State) (acc : Access) :
    acc.abandoned = true ∧ s.catchUpWrite acc = (s.finishAccess acc).grant ∨
    acc.abandoned = false ∧ s.catchUpWrite acc =
      ((((s.finishAccess acc).requestCopy s.catchUp.advance).resumeApply).evaluateReady).grant := by
  have hc : (s.finishAccess acc).catchUp = s.catchUp := by simp
  unfold State.catchUpWrite
  dsimp only
  rw [hc]
  split
  · rename_i hab
    exact .inl ⟨hab, rfl⟩
  · rename_i hab
    exact .inr ⟨by simpa using hab, rfl⟩

/-- What arbiter and scan engine make of a row fetch read; everything else is the end of its access (R116). -/
theorem State.rowFetched_cases (s : State) (acc : Access) :
    (acc.abandoned = true ∨ s.scan.fetch = .idle) ∧ s.rowFetched acc = (s.finishAccess acc).grant ∨
    ∃ r col, acc.abandoned = false ∧ s.scan.fetch = .fetching r col ∧
      ((∃ h : col.val + 1 < 32, s.rowFetched acc = State.grant { s.finishAccess acc with
        scan := { s.scan with
          rowBuffer := s.scan.rowBuffer.set col (some (s.readCell acc.buffer acc.pos))
          fetch := .fetching r ⟨col.val + 1, h⟩ }
        arbiter := (s.finishAccess acc).arbiter.issue .rowFetch ⟨⟨r, ⟨col.val + 1, h⟩⟩, .shown, none⟩ }) ∨
      ¬ col.val + 1 < 32 ∧ s.rowFetched acc = State.grant { s.finishAccess acc with
          scan := { s.scan with
            rowBuffer := s.scan.rowBuffer.set col (some (s.readCell acc.buffer acc.pos)), fetch := .idle } }) := by
  have hsc : (s.finishAccess acc).scan = s.scan := by simp
  unfold State.rowFetched
  dsimp only
  rw [hsc]
  split
  · rename_i hab
    exact .inl ⟨.inl hab, rfl⟩
  · rename_i hab
    have hab' : acc.abandoned = false := by simpa using hab
    split
    · rename_i hidle
      exact .inl ⟨.inr hidle, rfl⟩
    · rename_i r col hf
      refine .inr ⟨r, col, hab', hf, ?_⟩
      split
      · rename_i h
        exact .inl ⟨h, rfl⟩
      · rename_i h
        exact .inr ⟨h, rfl⟩

/-! ### What each accepted message is handed to (R145) -/

section Messages
variable (s : State) (st : StationState) (item : Option Item) (sender : Station)

@[simp] theorem State.acceptMessage_beacon (m : BeaconFields) :
    s.acceptMessage st item sender (.beacon m) = s.acceptBeacon st item.isSome sender m := rfl

@[simp] theorem State.acceptMessage_ready (g : Generation) :
    s.acceptMessage st item sender (.ready g) = s.acceptReady st sender g := rfl

@[simp] theorem State.acceptMessage_sealing (g : Generation) (reveal : Bool) (carried : Option StationSet) :
    s.acceptMessage st item sender (.sealing g reveal carried) = s.acceptSeal st sender g reveal carried := rfl

@[simp] theorem State.acceptMessage_join (width height period : Byte) :
    s.acceptMessage st item sender (.join width height period) = s.acceptJoin st sender width height period := rfl

@[simp] theorem State.acceptMessage_presence (isMember : Bool) :
    s.acceptMessage st item sender (.presence isMember) =
      if isMember then s.changeRoster st (rosterPresence s.roster sender) else s := rfl

@[simp] theorem State.acceptMessage_leave :
    s.acceptMessage st item sender .leave =
      if item.isSome then (s.changeRoster st (rosterLeave s.roster sender)).withdraw .left
      else s.changeRoster st (rosterLeave s.roster sender) := rfl

@[simp] theorem State.acceptMessage_update (u : Update) :
    s.acceptMessage st item sender (.update u) = s.acceptUpdate u := rfl

@[simp] theorem State.acceptMessage_glyph (set : BitVec 2) (code : BitVec 7) (first : Nat) (patterns : List Byte) :
    s.acceptMessage st item sender (.glyph set code first patterns) = s.acceptGlyph set code first patterns := rfl

end Messages

end Sys2Proof.Machine
end

section
/-! SUPPORT. Every end of a frame is made of a few operations: to show that a property is kept by the end of every frame,
show it for each operation. -/

namespace Sys2Proof.Machine

/-- A property is kept by every operation the end of a frame is made of. -/
structure KeptByFrameOps (P : State → Prop) : Prop where
  clash : ∀ s, P s → P s.becomeClashed
  endFlight : ∀ s, P s → P s.endFlight
  spoiled : ∀ s item reason, P s → P (s.frameSpoiled item reason)
  attempt : ∀ s item, P s → P (s.attemptSpoiled item none)
  accepted : ∀ s item, P s → P (s.frameAccepted item)
  heard : ∀ s n, P s → P { s with roster := rosterHeard s.roster n }
  adopt : ∀ s m, P s → s.life = .running .listening → P (s.adopt m)
  takeBeacon : ∀ s m, P s → P (s.takeBeacon m)
  wallWork : ∀ s st sender m, P s → s.life = .running st → st.participates = true →
    P ((s.takeBeacon m).wallWork s st sender m)
  withdraw : ∀ s reason, P s → P (s.withdraw reason)
  newFrame : ∀ s swapped, P s → P (s.newFrame swapped)
  swap : ∀ s, P s → P s.swap
  countPresence : ∀ s own promoted, P s → P (s.countPresence own promoted)
  startCatchUp : ∀ s first, P s → P (s.startCatchUp first)
  resumeApply : ∀ s, P s → P s.resumeApply
  evaluateReady : ∀ s, P s → P s.evaluateReady
  post : ∀ s e, P s → P (s.post e)
  grantRace : ∀ s, P s → P s.grantRace
  grant : ∀ s, P s → P s.grant
  ready : ∀ s st sender g, P s → s.life = .running st → st.participates = true → P (s.acceptReady st sender g)
  sealing : ∀ s st sender g reveal carried, P s → s.life = .running st → st.participates = true →
    P (s.acceptSeal st sender g reveal carried)
  joined : ∀ s st sender fn, P s → s.life = .running st → st.participates = true →
    P (s.changeRoster st (rosterJoin s.roster sender fn))
  present : ∀ s st sender, P s → s.life = .running st → st.participates = true → s.roster[sender].silence = 0 →
    P (s.changeRoster st (rosterPresence s.roster sender))
  left : ∀ s st sender, P s → s.life = .running st → st.participates = true →
    P (s.changeRoster st (rosterLeave s.roster sender))
  asked : ∀ s, P s → P { s with bus := { s.bus with presencePending := true } }
  configClash : ∀ s sender, P s → P { s with clashRecord := some sender }
  queued : ∀ s v, P s → s.updateQueue.length < 96 → P { s with updateQueue := s.updateQueue ++ [s.newEntry v] }
  passed : ∀ s c, P s → P { s with counters := c }
  glyph : ∀ s set code first patterns, P s → P (s.acceptGlyph set code first patterns)

variable {P : State → Prop}

theorem KeptByFrameOps.acceptBeacon (k : KeptByFrameOps P) {s : State} {st : StationState} (h : P s)
    (hl : s.life = .running st) (hw : st.participates = true) (own : Bool) (sender : Station) (m : BeaconFields) :
    P (s.acceptBeacon st own sender m) := by
  unfold State.acceptBeacon State.actOnBeacon
  have hworked := k.wallWork s st sender m h hl hw
  split
  · split
    · exact k.newFrame _ _ (k.withdraw _ _ hworked)
    · have hswapped : ∀ u b, P u → P (State.swapIf u b) := fun u b hu => by
        unfold State.swapIf; split
        · exact k.swap u hu
        · exact hu
      have hcopied : ∀ u b first, P u → P (State.copyIf u b first) := fun u b first hu => by
        unfold State.copyIf; split
        · exact k.startCatchUp u first hu
        · exact hu
      have htold : ∀ u b, P u → P (State.tellPromotion u st b) := fun u b hu => by
        unfold State.tellPromotion; split
        · exact k.post u _ hu
        · exact hu
      exact k.grantRace _ (htold _ _ (k.evaluateReady _ (k.resumeApply _ (hcopied _ _ _ (k.newFrame _ _
        (k.countPresence _ _ _ (hswapped _ _ hworked)))))))
  · exact k.newFrame _ _ (k.withdraw _ _ (k.takeBeacon _ _ h))

theorem KeptByFrameOps.acceptJoin (k : KeptByFrameOps P) {s : State} {st : StationState} (h : P s)
    (hl : s.life = .running st) (hw : st.participates = true) (sender : Station) (width height period : Byte) :
    P (s.acceptJoin st sender width height period) := by
  unfold State.acceptJoin
  have hjoined := k.joined s st sender s.timer.frameNumber h hl hw
  split
  · dsimp only
    split
    · exact k.asked _ hjoined
    · exact hjoined
  · exact k.post _ _ (k.configClash s sender h)

theorem KeptByFrameOps.acceptUpdate (k : KeptByFrameOps P) {s : State} (h : P s) (u : Update)
    (hroom : (s.filtered u).isSome = true → s.updateQueue.length < 96) : P (s.acceptUpdate u) := by
  unfold State.acceptUpdate
  split
  · rename_i v hv
    exact k.grant _ (k.evaluateReady _ (k.resumeApply _ (k.queued s v h (hroom (by rw [hv]; rfl)))))
  · exact k.passed _ _ h

/-- The effect of an accepted message, at a station that has heard its sender and has room for an UPDATE. -/
theorem KeptByFrameOps.acceptMessage (k : KeptByFrameOps P) {s : State} {st : StationState} {sender : Station}
    {msg : Message} (h : P s) (hl : s.life = .running st) (hw : st.participates = true)
    (hheard : s.roster[sender].silence = 0)
    (hroom : ∀ u, msg = .update u → (s.filtered u).isSome = true → s.updateQueue.length < 96) (item : Option Item) :
    P (s.acceptMessage st item sender msg) := by
  cases msg with
  | beacon m => exact k.acceptBeacon h hl hw _ _ _
  | ready g => exact k.ready s st sender g h hl hw
  | sealing g reveal carried => exact k.sealing s st sender g reveal carried h hl hw
  | join width height period => exact k.acceptJoin h hl hw _ _ _ _
  | presence isMember =>
    cases isMember
    · exact h
    · exact k.present s st sender h hl hw hheard
  | leave =>
    have hleft := k.left s st sender h hl hw
    cases item
    · exact hleft
    · exact k.withdraw _ _ hleft
  | update u => exact k.acceptUpdate h u (hroom u rfl)
  | glyph set code first patterns => exact k.glyph _ _ _ _ _ h

/-- A frame that gives no spoil reason leaves room for the UPDATE it carries (R143). -/
theorem State.judge_none_room {s : State} {cls : BitVec 3} {f : BusFrame} {u : Update} (h : s.judge cls f = none)
    (hp : parseMessage cls f.payload = some (.update u)) (hf : (s.filtered u).isSome = true) :
    s.updateQueue.length < 96 := by
  unfold State.judge at h
  split at h
  · cases h
  · rw [hp] at h
    simpa [hf] using h

/-- A frame's share leaves the sender's silence count at 0 (R30). -/
theorem State.afterShare_silence (s : State) (cls : BitVec 3) (f : BusFrame) :
    (s.afterShare cls f).roster[f.sender].silence = 0 := by
  simp only [State.afterShare, State.heardFrame, rosterHeard, getFin_set, if_true]

/-- A property kept by the operations is kept by the end of every frame. -/
theorem KeptByFrameOps.endFrame (k : KeptByFrameOps P) {s : State} (h : P s) (cls : BitVec 3) (f : BusFrame) :
    P (s.endFrame cls f) := by
  have hend := s.endFrame_ends cls f
  generalize s.endFrame cls f = t at hend
  cases hend with
  | unread => exact h
  | clash => exact k.clash _ h
  | outside | listenIgnored => exact k.endFlight _ h
  | spoiled => exact k.spoiled _ _ _ (k.endFlight _ h)
  | listenSpoiled => exact k.attempt _ _ (k.endFlight _ h)
  | listenAdopted m hl => exact k.adopt _ _ (k.accepted _ _ (k.endFlight _ h)) (by simpa using hl)
  | accepted st msg hl hw _ _ hj hp =>
    refine k.acceptMessage (k.heard _ _ (k.accepted _ _ (k.endFlight _ h))) (by simpa using hl) hw
      (s.afterShare_silence cls f) ?_ _
    rintro u rfl hu
    exact State.judge_none_room hj hp hu

/-- The outcome of an own attempt keeps what its parts keep (R151 to R153). -/
theorem State.attemptSpoiled_keeps {Q : State → Prop} (counted : ∀ s c, Q s → Q { s with counters := c })
    (leave : ∀ s, Q s → Q s.spoilLeave) (feed : ∀ s reason, Q s → Q (s.spoilFeedHead reason)) (s : State)
    (item : Option Item) (reason : Option SpoilReason) (h : Q s) : Q (s.attemptSpoiled item reason) := by
  cases item with
  | none => exact h
  | some item =>
    cases item with
    | leave => exact leave _ (counted _ _ h)
    | feed => exact feed _ _ (counted _ _ h)
    | beacon | ready | join | presence => exact counted _ _ h

/-- A spoiled frame keeps what its parts keep (R144, R146). -/
theorem State.frameSpoiled_keeps {Q : State → Prop} (drive : ∀ s reason, Q s → Q (s.driveSpoil reason))
    (attempt : ∀ s item reason, Q s → Q (s.attemptSpoiled item reason))
    (withdraw : ∀ s reason, Q s → Q (s.withdraw reason)) (s : State) (item : Option Item)
    (reason : Option SpoilReason) (h : Q s) : Q (s.frameSpoiled item reason) := by
  unfold State.frameSpoiled State.deafCheck
  have hattempt := attempt _ item reason (drive s reason h)
  split
  · exact withdraw _ _ hattempt
  · exact hattempt

end Sys2Proof.Machine
end

section
/-! SUPPORT. Which operations touch a sparse memory (R67, R102, R110): the canonical form is kept by each. -/

namespace Sys2Proof.Machine

theorem ScanEngine.stopLine_panel_wf (sc : ScanEngine) (sent : Nat) (h : Memory.wf darkLine sc.panel = true) :
    Memory.wf darkLine (sc.stopLine sent).panel = true := by
  unfold ScanEngine.stopLine
  split
  · split
    · exact Memory.wf_write _ _ _ _ h
    · exact h
  · exact h
  · exact h

theorem ScanEngine.endLine_panel_wf (sc : ScanEngine) (h : Memory.wf darkLine sc.panel = true) :
    Memory.wf darkLine sc.endLine.panel = true := by
  unfold ScanEngine.endLine
  split
  · split
    · exact Memory.wf_write _ _ _ _ h
    · exact h
  · exact h
  · exact h

/-- The canonical forms hold of a station with the same memories. -/
theorem State.MemoriesCanonical.congr {s t : State} (h : s.MemoriesCanonical)
    (x : t.bufferX = s.bufferX := by simp) (y : t.bufferY = s.bufferY := by simp)
    (glyphs : t.glyphMemory = s.glyphMemory := by simp) (panel : t.scan.panel = s.scan.panel := by simp) :
    t.MemoriesCanonical :=
  ⟨x ▸ h.x, y ▸ h.y, glyphs ▸ h.glyphs, panel ▸ h.panel⟩

/-- A scan engine whose panel keeps the form may take the place of another. -/
theorem State.MemoriesCanonical.setScan {s : State} (h : s.MemoriesCanonical) {sc : ScanEngine}
    (hp : Memory.wf darkLine sc.panel = true) : State.MemoriesCanonical { s with scan := sc } :=
  ⟨h.x, h.y, h.glyphs, hp⟩

namespace State.MemoriesCanonical

variable {s : State} (h : s.MemoriesCanonical)
include h

theorem writeCell (b : BufferName) (p : Pos) (c : CellRecord) : (s.writeCell b p c).MemoriesCanonical := by
  cases b
  · exact ⟨Memory.wf_write _ _ _ _ h.x, h.y, h.glyphs, h.panel⟩
  · exact ⟨h.x, Memory.wf_write _ _ _ _ h.y, h.glyphs, h.panel⟩

theorem finishAccess (acc : Access) : (s.finishAccess acc).MemoriesCanonical := by
  have hfree : State.MemoriesCanonical { s with arbiter := { s.arbiter with access := none } } := h.congr
  unfold State.finishAccess
  dsimp only
  split
  · split
    · exact hfree
    · exact hfree.writeCell _ _ _
  · exact hfree

theorem beginFrame (kind : FrameKind) : (s.beginFrame kind).MemoriesCanonical :=
  ⟨h.x, h.y, h.glyphs, ScanEngine.stopLine_panel_wf _ _ h.panel⟩

theorem newFrame (swapped : Bool) : (s.newFrame swapped).MemoriesCanonical :=
  ⟨by simpa using h.x, by simpa using h.y, by simpa using h.glyphs, by
    rw [State.newFrame_scan]; exact ScanEngine.stopLine_panel_wf _ _ h.panel⟩

theorem enterDark (st : StationState) (reason : WithdrawReason) : (s.enterDark st reason).MemoriesCanonical := by
  refine ⟨by simpa using h.x, by simpa using h.y, by simpa using h.glyphs, ?_⟩
  rw [State.enterDark_scan]
  split
  · exact ScanEngine.stopLine_panel_wf _ _ h.panel
  · exact h.panel

theorem withdraw (reason : WithdrawReason) : (s.withdraw reason).MemoriesCanonical :=
  (h.enterDark .withdrawn reason).congr

theorem spoilLeave : s.spoilLeave.MemoriesCanonical := by
  unfold State.spoilLeave
  split
  · exact h.congr
  · exact State.MemoriesCanonical.withdraw h.congr _

theorem attemptSpoiled (item : Option Item) (reason : Option SpoilReason) :
    (s.attemptSpoiled item reason).MemoriesCanonical :=
  State.attemptSpoiled_keeps (fun _ _ h => h.congr) (fun _ h => h.spoilLeave) (fun _ _ h => h.congr) s item reason h

theorem adopt (m : BeaconFields) : (s.adopt m).MemoriesCanonical :=
  ⟨by simpa using h.x, by simpa using h.y, by simpa using h.glyphs, by
    rw [State.adopt_scan]; exact ScanEngine.stopLine_panel_wf _ _ h.panel⟩

theorem enterListening (reason : StateReason) : (s.enterListening reason).MemoriesCanonical :=
  ⟨rfl, rfl, h.glyphs, h.panel⟩

theorem respond (r : Response) : (s.respond r).MemoriesCanonical := h.congr

omit h in
/-- Each operation of a frame's end leaves the memories alone, or writes them by `Memory.write`. -/
theorem keptByFrameOps : KeptByFrameOps State.MemoriesCanonical where
  clash _ h := (h.enterDark .clashed .clash).congr
  endFlight _ h := h.congr
  spoiled := State.frameSpoiled_keeps (fun _ _ h => h.congr) (fun _ _ _ h => h.attemptSpoiled _ _)
    (fun _ _ h => h.withdraw _)
  attempt _ _ h := h.attemptSpoiled _ _
  accepted _ _ h := h.congr
  heard _ _ h := h.congr
  adopt _ _ h _ := h.adopt _
  takeBeacon _ _ h := h.congr
  wallWork _ _ _ _ h _ _ := h.congr
  withdraw _ _ h := h.withdraw _
  newFrame _ _ h := h.newFrame _
  swap _ h := h.congr
  countPresence _ _ _ h := h.congr
  startCatchUp _ _ h := h.congr
  resumeApply _ h := h.congr
  evaluateReady _ h := h.congr
  post _ _ h := h.congr
  grantRace _ h := h.congr
  grant _ h := h.congr
  ready _ _ _ _ h _ _ := h.congr
  sealing _ _ _ _ _ _ h _ _ := h.congr
  joined _ _ _ _ h _ _ := h.congr
  present _ _ _ h _ _ _ := h.congr
  left _ _ _ h _ _ := h.congr
  asked _ h := h.congr
  configClash _ _ h := h.congr
  queued _ _ h _ := h.congr
  passed _ _ h := h.congr
  glyph _ _ _ _ _ h := ⟨h.x, h.y, Memory.wf_writeAll _ _ _ _ h.glyphs, h.panel⟩

omit h in
theorem keptByMoves : KeptByMoves State.MemoriesCanonical where
  start s life straps glyphs h hg _ := by
    refine ⟨rfl, rfl, ?_, ScanEngine.stopLine_panel_wf _ _ h.panel⟩
    rcases hg with rfl | rfl
    · rfl
    · exact h.glyphs
  pin _ _ h := h.congr
  free _ _ h := h.congr
  endRead s read h _ := by
    obtain ⟨config, ms, he⟩ | ⟨config, reason, he⟩ := s.endRead_cases read
    · rw [he]; exact State.MemoriesCanonical.enterListening h.congr _
    · rw [he]; exact h.congr
  expire s h _ := by
    obtain ⟨timer, -, -, -, ⟨asks, he⟩ | ⟨-, he⟩⟩ := s.expire_cases
    · rw [he]; exact h.congr
    · rw [he]; exact State.MemoriesCanonical.enterListening h.congr _
  synchronise _ h := h.congr
  contend _ _ h _ := h.congr
  clash _ _ h _ := keptByFrameOps.clash _ h
  frame _ cls f h := keptByFrameOps.endFrame h cls f
  tileStep s acc h _ := by
    have ht := h.finishAccess acc
    obtain ⟨-, he⟩ | ⟨n, -, -, he⟩ := s.tileStep_cases acc <;> rw [he]
    · exact ht.congr
    · have hw : (s.tileWritten acc).MemoriesCanonical := ⟨ht.x, ht.y, ht.glyphs, ht.panel⟩
      exact hw.congr
  catchUpRead s acc h _ := by
    have ht := h.finishAccess acc
    obtain ⟨-, he⟩ | ⟨-, he⟩ := s.catchUpRead_cases acc <;> rw [he]
    · exact ht.congr
    · have hc : (s.copyRead acc).MemoriesCanonical := ⟨ht.x, ht.y, ht.glyphs, ht.panel⟩
      exact hc.congr
  catchUpWrite s acc h _ := by
    have ht := h.finishAccess acc
    obtain ⟨-, he⟩ | ⟨-, he⟩ := s.catchUpWrite_cases acc <;> rw [he] <;> exact ht.congr
  rowFetched s acc h _ := by
    have ht := h.finishAccess acc
    obtain ⟨-, he⟩ | ⟨r, col, -, -, ⟨_, he⟩ | ⟨-, he⟩⟩ := s.rowFetched_cases acc <;> rw [he] <;> exact ht.congr
  feedRead s acc h _ := by
    have ht := h.finishAccess acc
    unfold State.feedReadDone
    exact ht.congr
  displayRow s r h _ := by
    have hrow : (s.enterRow r).MemoriesCanonical := h.setScan (ScanEngine.endLine_panel_wf _ h.panel)
    unfold State.displayRow
    split
    · exact hrow.congr
    · exact hrow
  beginLine s r line h _ := by
    have hpanel := ScanEngine.endLine_panel_wf _ h.panel
    unfold State.beginLine
    dsimp only
    split <;> exact h.setScan hpanel
  beginTail s h := by
    have htail : s.enterTail.MemoriesCanonical := h.setScan (ScanEngine.endLine_panel_wf _ h.panel)
    unfold State.beginTail
    split
    · exact htail.congr
    · exact htail
  transaction _ _ _ h := h.congr
  port _ _ h := h.congr
  events _ h := h.congr
  submit s cls payload h := by
    obtain ⟨r, he⟩ | ⟨-, -, -, r, he⟩ := s.submit_cases cls payload <;> rw [he] <;> exact h.congr
  readCell s role row col h _ := by
    obtain he | ⟨r, p, he⟩ := s.readCellCommand_cases role row col <;> rw [he] <;> exact h.congr
  counters _ h := h.congr
  restart s st h _ := by
    obtain ⟨r, he | ⟨-, he⟩ | ⟨-, he⟩ | ⟨-, he⟩⟩ := s.restartCommand_cases st <;> rw [he]
    · exact h.congr
    · exact h.congr
    · exact h.congr
    · exact (h.enterListening _).respond r
  losePower s h := ⟨h.x, h.y, h.glyphs, ScanEngine.stopLine_panel_wf _ _ h.panel⟩
  pending _ _ h := h.congr

end State.MemoriesCanonical
end Sys2Proof.Machine
end

section
/-! PROOFS. The sparse memories keep their canonical form. -/

namespace Sys2Proof.Proofs

open Sys2Proof.Machine

/-- Settles O4: every move writes a memory by `Memory.write`, which keeps the form, or leaves it alone. -/
theorem stepKeepsMemoriesCanonical : Obligations.StepKeepsMemoriesCanonical :=
  fun _ _ h hstep => State.MemoriesCanonical.keptByMoves.step h hstep

end Sys2Proof.Proofs
end

section
/-! SUPPORT. What keeps the left-zone lists formed (R85): the steps of apply between its writes. -/

namespace Sys2Proof.Machine

namespace State.LeftTableFormed

/-- The form of the lists holds of a station with the same lists and straps. -/
theorem congr {s t : State} (h : s.LeftTableFormed) (left : t.leftTable = s.leftTable := by simp)
    (straps : t.straps = s.straps := by simp) : t.LeftTableFormed := by
  unfold State.LeftTableFormed
  rw [left, straps]
  exact h

/-- Empty lists have the form at every left edge. -/
theorem of_empty {t : State} (left : t.leftTable = Vector.replicate 12 LeftRow.empty) : t.LeftTableFormed := by
  intro r
  rw [left, Fin.getElem_fin, Vector.getElem_replicate]
  exact LeftRow.empty_formed _

theorem setRow {s : State} (h : s.LeftTableFormed) (r : LocalRow) {row : LeftRow}
    (hrow : row.Formed (leftEdge s.straps)) :
    State.LeftTableFormed { s with leftTable := s.leftTable.set r row } := by
  intro k
  simp only [getFin_set]
  split
  · exact hrow
  · exact h k

theorem doStep {s : State} (h : s.LeftTableFormed) (a : ApplyStep)
    (hleft : ∀ r col c, a = .left r col c → col < leftEdge s.straps) : (s.doStep a).LeftTableFormed := by
  cases a with
  | left r col c => exact h.setRow r (LeftRow.write_formed _ _ _ _ (h r) (hleft r col c rfl))
  | leftClear r => exact h.setRow r (LeftRow.empty_formed _)
  | rowDefault r d => exact State.LeftTableFormed.congr h (by simp [State.doStep]) (by simp [State.doStep])
  | right | tile _ _ => exact h

theorem runSteps {s : State} (h : s.LeftTableFormed) (steps : List ApplyStep) (n : Nat)
    (hleft : ∀ r col c, .left r col c ∈ steps → col < leftEdge s.straps) :
    (s.runSteps steps n).1.LeftTableFormed := by
  induction steps generalizing s n with
  | nil => exact h
  | cons a rest ih =>
    have hrest : ∀ r col c, .left r col c ∈ rest → col < leftEdge (s.doStep a).straps := fun r col c hm => by
      rw [(s.doStep_keeps a).2.2.1]
      exact hleft r col c (List.mem_cons_of_mem _ hm)
    have hstep := h.doStep a fun r col c ha => hleft r col c (by rw [ha]; exact List.mem_cons_self)
    cases a with
    | tile p c => exact h
    | left | right | rowDefault | leftClear => exact ih hstep (n + 1) hrest

/-- The steps of an entry name left columns only below the tile, so they keep the form (R47, R57). -/
theorem entrySteps {s : State} (h : s.LeftTableFormed) (u : Update) (k n : Nat) :
    (s.runSteps ((u.steps s.straps s.wallColumns).drop k) n).1.LeftTableFormed :=
  h.runSteps _ _ fun r col c hm => Update.left_lt _ _ _ r col c (List.mem_of_mem_drop hm)

theorem takeHeads {s : State} (h : s.LeftTableFormed) (q : List UpdateEntry) : (s.takeHeads q).LeftTableFormed := by
  induction q generalizing s with
  | nil => exact h
  | cons e rest ih =>
    have hrun := h.entrySteps e.update 0 0
    rw [List.drop_zero] at hrun
    unfold State.takeHeads
    split
    · split
      · rename_i hsteps
        rw [hsteps] at hrun
        exact ih hrun
      · rename_i hsteps
        rw [hsteps] at hrun
        exact hrun
    · exact h

theorem resumeApply {s : State} (h : s.LeftTableFormed) : s.resumeApply.LeftTableFormed := by
  unfold State.resumeApply
  split
  · exact h.takeHeads _
  · exact h

theorem continueEntry {s : State} (h : s.LeftTableFormed) (n : Nat) : (s.continueEntry n).LeftTableFormed := by
  unfold State.continueEntry
  split
  · exact h
  · rename_i e rest _
    have hrun := h.entrySteps e.update (n + 1) (n + 1)
    split
    · rename_i t hsteps
      rw [hsteps] at hrun
      exact resumeApply (s := { t with updateQueue := rest, applyEngine := .idle }) hrun
    · rename_i t _ hsteps
      rw [hsteps] at hrun
      exact hrun

theorem withdraw {s : State} (h : s.LeftTableFormed) (reason : WithdrawReason) :
    (s.withdraw reason).LeftTableFormed := h.congr

theorem attemptSpoiled {s : State} (h : s.LeftTableFormed) (item : Option Item) (reason : Option SpoilReason) :
    (s.attemptSpoiled item reason).LeftTableFormed := by
  refine State.attemptSpoiled_keeps (fun _ _ h => h.congr) (fun u h => ?_) (fun _ _ h => h.congr) s item reason h
  unfold State.spoilLeave
  split
  · exact h.congr
  · exact State.LeftTableFormed.withdraw h.congr _

theorem keptByFrameOps : KeptByFrameOps State.LeftTableFormed where
  clash _ h := h.congr
  endFlight _ h := h.congr
  spoiled := State.frameSpoiled_keeps (fun _ _ h => h.congr) (fun _ _ _ h => h.attemptSpoiled _ _)
    (fun _ _ h => h.withdraw _)
  attempt _ _ h := h.attemptSpoiled _ _
  accepted _ _ h := h.congr
  heard _ _ h := h.congr
  adopt _ _ h _ := h.congr
  takeBeacon _ _ h := h.congr
  wallWork _ _ _ _ h _ _ := h.congr
  withdraw _ _ h := h.withdraw _
  newFrame _ _ h := h.congr
  swap _ h := h.congr
  countPresence _ _ _ h := h.congr
  startCatchUp _ _ h := h.congr
  resumeApply _ h := h.resumeApply
  evaluateReady _ h := h.congr
  post _ _ h := h.congr
  grantRace _ h := h.congr
  grant _ h := h.congr
  ready _ _ _ _ h _ _ := h.congr
  sealing _ _ _ _ _ _ h _ _ := h.congr
  joined _ _ _ _ h _ _ := h.congr
  present _ _ _ h _ _ _ := h.congr
  left _ _ _ h _ _ := h.congr
  asked _ h := h.congr
  configClash _ _ h := h.congr
  queued _ _ h _ := h.congr
  passed _ _ h := h.congr
  glyph _ _ _ _ _ h := h.congr

theorem keptByMoves : KeptByMoves State.LeftTableFormed where
  start _ _ _ _ _ _ _ := of_empty rfl
  pin _ _ h := h.congr
  free _ _ h := h.congr
  endRead s read h _ := by
    obtain ⟨config, ms, he⟩ | ⟨config, reason, he⟩ := s.endRead_cases read <;> rw [he]
    · exact of_empty rfl
    · exact h.congr
  expire s h _ := by
    obtain ⟨timer, -, -, -, ⟨asks, he⟩ | ⟨-, he⟩⟩ := s.expire_cases <;> rw [he]
    · exact h.congr
    · exact of_empty rfl
  synchronise _ h := h.congr
  contend _ _ h _ := h.congr
  clash _ _ h _ := h.congr
  frame _ cls f h := keptByFrameOps.endFrame h cls f
  tileStep s acc h _ := by
    obtain ⟨-, he⟩ | ⟨n, -, -, he⟩ := s.tileStep_cases acc <;> rw [he]
    · exact h.congr
    · have ht : (s.tileWritten acc).LeftTableFormed := h.congr (by simp [State.tileWritten]) (by simp [State.tileWritten])
      exact (ht.continueEntry n).congr
  catchUpRead s acc h _ := by
    obtain ⟨-, he⟩ | ⟨-, he⟩ := s.catchUpRead_cases acc <;> rw [he]
    · exact h.congr
    · exact h.congr (by simp [State.copyRead]) (by simp [State.copyRead])
  catchUpWrite s acc h _ := by
    obtain ⟨-, he⟩ | ⟨-, he⟩ := s.catchUpWrite_cases acc <;> rw [he]
    · exact h.congr
    · have ht : ((s.finishAccess acc).requestCopy s.catchUp.advance).LeftTableFormed := h.congr
      exact ht.resumeApply.congr
  rowFetched _ _ h _ := h.congr
  feedRead s acc h _ := by
    unfold State.feedReadDone
    exact h.congr
  displayRow _ _ h _ := h.congr
  beginLine _ _ _ h _ := h.congr
  beginTail _ h := h.congr
  transaction _ _ _ h := h.congr
  port _ _ h := h.congr
  events _ h := h.congr
  submit s cls payload h := by
    obtain ⟨r, he⟩ | ⟨-, -, -, r, he⟩ := s.submit_cases cls payload <;> rw [he] <;> exact h.congr
  readCell s role row col h _ := by
    obtain he | ⟨r, p, he⟩ := s.readCellCommand_cases role row col <;> rw [he] <;> exact h.congr
  counters _ h := h.congr
  restart s st h _ := by
    obtain ⟨r, he | ⟨-, he⟩ | ⟨-, he⟩ | ⟨-, he⟩⟩ := s.restartCommand_cases st <;> rw [he]
    · exact h.congr
    · exact h.congr
    · exact h.congr
    · exact of_empty rfl
  losePower _ h := h.congr rfl rfl
  pending _ _ h := h.congr

end State.LeftTableFormed
end Sys2Proof.Machine
end

section
/-! PROOFS. The left-zone lists keep their form. -/

namespace Sys2Proof.Proofs

open Sys2Proof.Machine

/-- Settles O7: the lists change by the steps of apply, which keep the form row by row, or become empty. -/
theorem stepKeepsLeftTableFormed : Obligations.StepKeepsLeftTableFormed :=
  fun _ _ h hstep => State.LeftTableFormed.keptByMoves.step h hstep

end Sys2Proof.Proofs
end

section
/-! SUPPORT. What keeps the capacities: postings, the feed queue, the update queue (R49, R72, R148, R194). -/

namespace Sys2Proof.Machine

/-! ### The update queue only loses entries in the apply engine (R61) -/

theorem State.takeHeads_queue_length (s : State) (q : List UpdateEntry) :
    (s.takeHeads q).updateQueue.length ≤ q.length := by
  induction q generalizing s with
  | nil => exact le_rfl
  | cons e rest ih =>
    unfold State.takeHeads
    split
    · split
      · exact le_trans (ih _) (by simp)
      · exact le_rfl
    · exact le_rfl

theorem State.resumeApply_queue_length (s : State) : s.resumeApply.updateQueue.length ≤ s.updateQueue.length := by
  unfold State.resumeApply
  split
  · exact s.takeHeads_queue_length _
  · exact le_rfl

theorem State.continueEntry_queue_length (s : State) (n : Nat) :
    (s.continueEntry n).updateQueue.length ≤ s.updateQueue.length := by
  unfold State.continueEntry
  split
  · exact le_rfl
  · rename_i e rest hq
    rw [hq]
    split
    · exact le_trans (State.resumeApply_queue_length _) (by simp)
    · exact le_rfl

/-! ### Which postings the operations make (R194) -/

theorem EventQueue.postAll_append (q : EventQueue) (fn : FrameNumber) (a b : List Event) :
    q.postAll fn (a ++ b) = (q.postAll fn a).postAll fn b := by
  induction a generalizing q with
  | nil => rfl
  | cons e a ih => exact ih _

/-- The last event posted is posted onto the others. -/
theorem EventQueue.postAll_concat (q : EventQueue) (fn : FrameNumber) (a : List Event) (e : Event) :
    q.postAll fn (a ++ [e]) = (q.postAll fn a).post fn e := by
  rw [EventQueue.postAll_append]
  rfl

namespace State.CapacitiesKept

/-- The capacities hold of a station with the same feed queue, an update queue that is not longer, a dirty list of the
same form, and an event queue within its capacity. -/
theorem congr {s t : State} (h : s.CapacitiesKept)
    (events : t.events = s.events ∨ t.events.records.length ≤ 32 := by simp)
    (feed : t.bus.feedQueue = s.bus.feedQueue ∨ t.bus.feedQueue = s.bus.feedQueue.tail ∨ t.bus.feedQueue = [] := by simp)
    (updates : t.updateQueue = s.updateQueue ∨ t.updateQueue.length ≤ s.updateQueue.length := by simp)
    (dirty : t.dirty = s.dirty ∨ t.dirty = ⟨[], false⟩ := by simp) : t.CapacitiesKept where
  events := by
    rcases events with he | he
    · rw [he]; exact h.events
    · exact he
  feed := by
    rcases feed with hf | hf | hf <;> rw [hf]
    · exact h.feed
    · exact le_trans (by simp) h.feed
    · simp
  messages m hm := by
    rcases feed with hf | hf | hf <;> rw [hf] at hm
    · exact h.messages m hm
    · exact h.messages m (List.mem_of_mem_tail hm)
    · cases hm
  updates := by
    rcases updates with hu | hu
    · rw [hu]; exact h.updates
    · exact le_trans hu h.updates
  dirty := by
    rcases dirty with hd | hd <;> rw [hd]
    · exact h.dirty
    · simp
  overflow := by
    rcases dirty with hd | hd <;> rw [hd]
    · exact h.overflow
    · simp

variable {s : State} (h : s.CapacitiesKept)
include h

theorem post (e : Event) : (s.post e).CapacitiesKept := h.congr (.inr (EventQueue.post_length _ _ _ h.events))

theorem withdraw (reason : WithdrawReason) : (s.withdraw reason).CapacitiesKept :=
  h.congr (.inr (by simpa using EventQueue.post_length _ _ _ (EventQueue.postAll_length _ _ _ h.events)))
    (by simp [BusInterface.atStart])

theorem becomeClashed : s.becomeClashed.CapacitiesKept :=
  h.congr (.inr (by simpa using EventQueue.post_length _ _ _ (EventQueue.postAll_length _ _ _ h.events)))
    (by simp [BusInterface.atStart])

theorem enterListening (reason : StateReason) : (s.enterListening reason).CapacitiesKept :=
  h.congr (.inr (by simpa using EventQueue.post_length _ _ _ h.events))

theorem evaluateReady : s.evaluateReady.CapacitiesKept :=
  h.congr (feed := .inl (by unfold State.evaluateReady; split <;> rfl))

theorem changeRoster (st : StationState) (r : Roster) : (s.changeRoster st r).CapacitiesKept := by
  refine State.CapacitiesKept.evaluateReady (h.congr (.inr ?_) (.inl rfl) (.inl rfl) (.inl rfl))
  exact EventQueue.postAll_length _ _ _ h.events

theorem setGen (g : GenerationRecord) : State.CapacitiesKept { s with gen := g } :=
  ⟨h.events, h.feed, h.messages, h.updates, h.dirty, h.overflow⟩

theorem setCounters (c : Counters) : State.CapacitiesKept { s with counters := c } :=
  ⟨h.events, h.feed, h.messages, h.updates, h.dirty, h.overflow⟩

/-- A feed queue of messages within the limits of R148 may take the place of another. -/
theorem setFeed {q : List FeedMessage} (hlen : q.length ≤ 16)
    (hq : ∀ m ∈ q, submitTakes m.cls = true ∧ m.payload.length ≤ 40 ∧ m.attempts ≤ 15) :
    State.CapacitiesKept { s with bus := { s.bus with feedQueue := q } } :=
  ⟨h.events, hlen, hq, h.updates, h.dirty, h.overflow⟩

/-- A spoiled head is dropped at its 16th attempt (R153). -/
theorem spoilFeedHead (reason : Option SpoilReason) : (s.spoilFeedHead reason).CapacitiesKept := by
  unfold State.spoilFeedHead
  split
  · exact h
  · rename_i m rest hq
    have hfeed := h.feed
    have hmessages := h.messages
    rw [hq] at hfeed hmessages
    split
    · have hrest := h.setFeed (q := rest) (le_trans (by simp) hfeed) fun x hx => hmessages x (List.mem_cons_of_mem _ hx)
      exact (hrest.setCounters _).post _
    · rename_i hkeep
      refine h.setFeed hfeed fun x hx => ?_
      rcases List.mem_cons.1 hx with rfl | hx
      · have hm := hmessages m List.mem_cons_self
        simp only [FeedMessage.dropsAt, Bool.or_eq_true, decide_eq_true_eq, not_or] at hkeep
        exact ⟨hm.1, hm.2.1, by simp only; omega⟩
      · exact hmessages x (List.mem_cons_of_mem _ hx)

theorem driveSpoil (reason : Option SpoilReason) : (s.driveSpoil reason).CapacitiesKept :=
  h.congr (feed := .inl (by unfold State.driveSpoil; split <;> rfl))

theorem attemptSpoiled (item : Option Item) (reason : Option SpoilReason) :
    (s.attemptSpoiled item reason).CapacitiesKept := by
  refine State.attemptSpoiled_keeps (fun _ _ h => h.congr) (fun u h => ?_) (fun _ _ h => h.spoilFeedHead _) s item reason h
  unfold State.spoilLeave
  split
  · exact h.congr
  · exact State.CapacitiesKept.withdraw (h.congr (t := { u with bus := { u.bus with leavePending := false } })) _

theorem resumeApply : s.resumeApply.CapacitiesKept := h.congr (updates := .inr s.resumeApply_queue_length)

theorem swap : s.swap.CapacitiesKept := h.congr (.inr (EventQueue.postAll_length _ _ _ h.events))

theorem startCatchUp (first : Bool) : (s.startCatchUp first).CapacitiesKept := by
  refine h.congr (dirty := .inr ?_)
  simp [State.startCatchUp]

omit h in
theorem keptByFrameOps : KeptByFrameOps State.CapacitiesKept where
  clash _ h := h.becomeClashed
  endFlight _ h := h.congr (feed := .inl rfl)
  spoiled := State.frameSpoiled_keeps (fun _ _ h => h.driveSpoil _) (fun _ _ _ h => h.attemptSpoiled _ _)
    (fun _ _ h => h.withdraw _)
  attempt _ _ h := h.attemptSpoiled _ _
  accepted s item h := by
    refine h.congr (feed := ?_)
    rcases item with _ | _ | _ | _ | _ | _ | _ <;> simp [State.frameAccepted, BusInterface.sentAccepted]
  heard _ _ h := h.congr
  adopt s m h _ := h.congr (.inr (by simpa using EventQueue.post_length _ _ _ h.events))
  takeBeacon _ _ h := h.congr
  wallWork s st sender m h _ _ := by
    refine h.congr (.inr (EventQueue.postAll_length _ _ _ h.events)) (.inl rfl) (.inr ?_)
    unfold State.wallWork
    dsimp only
    split <;> simp [epochsCurrent]
  withdraw _ _ h := h.withdraw _
  newFrame _ _ h := h.congr
  swap _ h := h.swap
  countPresence _ _ _ h := h.congr (feed := .inl rfl)
  startCatchUp _ _ h := h.startCatchUp _
  resumeApply _ h := h.resumeApply
  evaluateReady _ h := h.evaluateReady
  post _ _ h := h.post _
  grantRace _ h := h.congr
  grant _ h := h.congr
  ready _ _ _ _ h _ _ := h.congr
  sealing s st sender g reveal carried h _ _ := by
    unfold State.acceptSeal
    split
    · exact ((h.setGen _).post _).evaluateReady
    · exact (h.setCounters _).post _
  joined _ _ _ _ h _ _ := h.changeRoster _ _
  present _ _ _ h _ _ _ := h.changeRoster _ _
  left _ _ _ h _ _ := h.changeRoster _ _
  asked _ h := h.congr
  configClash _ _ h := h.congr
  queued s v h hroom := ⟨h.events, h.feed, h.messages, by simp; omega, h.dirty, h.overflow⟩
  passed _ _ h := h.congr
  glyph _ _ _ _ _ h := h.congr

theorem finishAccess (acc : Access) : (s.finishAccess acc).CapacitiesKept := h.congr

theorem tileWritten (acc : Access) : (s.tileWritten acc).CapacitiesKept := by
  obtain ⟨hlen, hnodup, hover⟩ := s.dirty.post_formed acc.pos h.dirty.1 h.dirty.2 h.overflow
  have ht := h.finishAccess acc
  exact ⟨ht.events, ht.feed, ht.messages, ht.updates, ⟨hlen, hnodup⟩, hover⟩

omit h in
theorem keptByMoves : KeptByMoves State.CapacitiesKept where
  start s life straps glyphs h _ _ :=
    h.congr (.inr (Nat.zero_le 32)) (.inr (.inr rfl)) (.inr (Nat.zero_le s.updateQueue.length)) (.inr rfl)
  pin _ _ h := h.congr
  free _ _ h := h.congr
  endRead s read h _ := by
    obtain ⟨config, ms, he⟩ | ⟨config, reason, he⟩ := s.endRead_cases read <;> rw [he]
    · exact State.CapacitiesKept.enterListening (h.congr (t := { s with
        config := config, withdrawReason := .none, timer := { s.timer with frameTimer := .running ms } })) _
    · exact h.congr (.inr (by simpa using EventQueue.post_length _ _ _ h.events))
  expire s h _ := by
    obtain ⟨timer, -, -, -, ⟨asks, he⟩ | ⟨-, he⟩⟩ := s.expire_cases <;> rw [he]
    · exact h.congr
    · exact State.CapacitiesKept.enterListening (h.congr (t := { s with timer := timer })) _
  synchronise s h := h.congr (feed := .inl (by unfold State.synchronise; split <;> rfl))
  contend s others h _ := by
    refine h.congr (feed := .inl ?_)
    unfold State.contend
    split
    · rfl
    · dsimp only
      split <;> rfl
  clash _ _ h _ := h.becomeClashed
  frame _ cls f h := keptByFrameOps.endFrame h cls f
  tileStep s acc h _ := by
    obtain ⟨-, he⟩ | ⟨n, -, -, he⟩ := s.tileStep_cases acc <;> rw [he]
    · exact h.congr
    · have hc : ((s.tileWritten acc).continueEntry n).CapacitiesKept :=
        (h.tileWritten acc).congr (updates := .inr (State.continueEntry_queue_length _ n))
      exact hc.evaluateReady.congr
  catchUpRead s acc h _ := by
    obtain ⟨-, he⟩ | ⟨-, he⟩ := s.catchUpRead_cases acc <;> rw [he]
    · exact h.congr
    · have hc : (s.copyRead acc).CapacitiesKept := by
        have ht := h.finishAccess acc
        exact ⟨ht.events, ht.feed, ht.messages, ht.updates, ht.dirty, ht.overflow⟩
      exact hc.congr
  catchUpWrite s acc h _ := by
    obtain ⟨-, he⟩ | ⟨-, he⟩ := s.catchUpWrite_cases acc <;> rw [he]
    · exact h.congr
    · have ht : ((s.finishAccess acc).requestCopy s.catchUp.advance).CapacitiesKept := h.congr
      exact ht.resumeApply.evaluateReady.congr
  rowFetched _ _ h _ := h.congr
  feedRead s acc h _ := by
    unfold State.feedReadDone
    exact h.congr
  displayRow s r h _ := by
    have hrow : (s.enterRow r).CapacitiesKept := h.congr
    have hnote : ∀ u : State, u.CapacitiesKept → u.noteUnderrun.CapacitiesKept := fun u hu => by
      refine hu.congr (.inr ?_)
      unfold State.noteUnderrun State.countUnderrun
      split
      · dsimp only
        split
        · exact hu.events
        · exact EventQueue.post_length _ _ _ hu.events
      · exact hu.events
    unfold State.displayRow
    split
    · exact (hnote _ hrow).congr
    · exact hrow
  beginLine _ _ _ h _ := h.congr
  beginTail _ h := h.congr
  transaction _ _ _ h := h.congr
  port _ _ h := h.congr
  events s h := h.congr (.inr (le_trans (by simp) h.events))
  submit s cls payload h := by
    obtain ⟨r, he⟩ | ⟨hcls, hlen, hroom, r, he⟩ := s.submit_cases cls payload <;> rw [he]
    · exact h.congr
    · refine State.CapacitiesKept.congr (s := { s with
        bus := { s.bus with feedQueue := s.bus.feedQueue ++ [newMessage cls payload] } })
        (h.setFeed (by simp; omega) fun m hm => ?_)
      rcases List.mem_append.1 hm with hm | hm
      · exact h.messages m hm
      · rw [List.mem_singleton.1 hm]
        exact ⟨hcls, hlen, Nat.zero_le 15⟩
  readCell s role row col h _ := by
    obtain he | ⟨r, p, he⟩ := s.readCellCommand_cases role row col <;> rw [he] <;> exact h.congr
  counters _ h := h.congr
  restart s st h _ := by
    have hleaving : ∀ origin, (s.enterLeaving origin).CapacitiesKept := fun origin =>
      h.congr (.inr (by simpa using EventQueue.post_length _ _ _ h.events))
    obtain ⟨r, he | ⟨-, he⟩ | ⟨-, he⟩ | ⟨-, he⟩⟩ := s.restartCommand_cases st <;> rw [he]
    · exact h.congr
    · exact (hleaving .fromJoining).congr
    · exact (hleaving .fromMember).congr
    · exact (h.enterListening .restart).congr
  losePower s h := h.congr (.inl rfl) (.inl rfl) (.inl rfl) (.inl rfl)
  pending _ _ h := h.congr

end State.CapacitiesKept
end Sys2Proof.Machine
end

section
/-! PROOFS. Every queue keeps its capacity. -/

namespace Sys2Proof.Proofs

open Sys2Proof.Machine

/-- Settles O5: each queue grows only where its capacity was tested, and the other moves shorten it or leave it. -/
theorem stepKeepsCapacities : Obligations.StepKeepsCapacities :=
  fun _ _ h hstep => State.CapacitiesKept.keptByMoves.step h hstep

end Sys2Proof.Proofs
end

section
/-! SUPPORT. What one command can do: every effect of a command, with the conditions under which it occurs. -/

namespace Sys2Proof.Machine

/-- The effects of a command on a station. -/
inductive Effect (s : State) : State → Prop
  | none : Effect s s
  | start (low : Bool) (life : Life) (straps : Straps) (glyphs : List Host.Cell) :
      life = .heldInReset ∨ life = .readingConfiguration → glyphs = [] ∨ glyphs = s.glyphMemory →
      Effect s (State.atStart { s with resetPinLow := low } life straps glyphs)
  | pin (low : Bool) (n : Nat) : Effect s { s with resetPinLow := low, freeCount := n }
  | endRead (read : ConfigurationRead) : s.life = .readingConfiguration → Effect s (s.endRead read)
  | expire : s.timerRuns = true → Effect s s.expire
  | synchronise : Effect s s.synchronise
  | contend (others : List Key) : s.atIdlePoint = true → Effect s (s.contend others)
  | clash (cause : ClashCause) : s.clashPossible cause = true → Effect s s.becomeClashed
  | frame (cls : BitVec 3) (f : BusFrame) : Effect s (s.endFrame cls f)
  | tileStep (acc : Access) : s.accessOf .apply true = some acc → Effect s (s.tileStep acc)
  | catchUpRead (acc : Access) : s.accessOf .catchUp false = some acc → Effect s (s.catchUpRead acc)
  | catchUpWrite (acc : Access) : s.accessOf .catchUp true = some acc → Effect s (s.catchUpWrite acc)
  | rowFetched (acc : Access) : s.accessOf .rowFetch false = some acc → Effect s (s.rowFetched acc)
  | feedReadDone (acc : Access) : s.accessOf .feedRead false = some acc → Effect s (s.feedReadDone acc)
  | displayRow (r : LocalRow) : s.powered = true → s.scan.nextRow = some r → Effect s (s.displayRow r)
  | beginLine (r : LocalRow) (line : Fin 16) : s.powered = true → s.scan.nextLine = some (r, line) →
      Effect s (s.beginLine r line)
  | beginTail : s.powered = true → s.scan.lastLine = true → Effect s s.beginTail
  | report (tr : Option Transaction) (bytes : List Byte) (p : PortState) (c : Counters) :
      Effect s { s with transaction := tr, dataOut := bytes, port := p, counters := c }
  | nextEvent (tr : Option Transaction) (bytes : List Byte) (p : PortState) :
      Effect s { s with
        transaction := tr, dataOut := bytes, port := p, events := ⟨s.events.records.tail, false⟩ }
  | submit (tr : Option Transaction) (bytes : List Byte) (cls : BitVec 3) (payload : List Byte) :
      Effect s (State.submit { s with transaction := tr, dataOut := bytes } cls payload)
  | readCell (tr : Option Transaction) (bytes : List Byte) (role row col : Byte) :
      Effect s (State.readCellCommand { s with transaction := tr, dataOut := bytes } role row col)
  | restart (tr : Option Transaction) (bytes : List Byte) (st : StationState) : s.life = .running st →
      Effect s (State.restartCommand { s with transaction := tr, dataOut := bytes } st)
  | losePower : Effect s s.losePower

/-- An edge of a transaction that changes nothing but the transaction, the bytes shifted out and the port. -/
theorem Effect.ofTransaction (s : State) (tr : Option Transaction) (bytes : List Byte) (p : PortState) :
    Effect s { s with transaction := tr, dataOut := bytes, port := p } := .report tr bytes p s.counters

theorem Effect.assertSelect (s : State) : Effect s s.assertSelect := by
  unfold State.assertSelect
  split
  · exact .ofTransaction s _ _ s.port
  · exact .none

/-- One edge of a command transaction: its effect, if it is taken, or the transaction alone. -/
theorem Effect.command (s : State) (edge : SelectEdge) (effect : StationState → State → State)
    (h : ∀ st tr bytes, s.life = .running st →
      Effect s (effect st { s with transaction := tr, dataOut := bytes })) : Effect s (s.command edge effect) := by
  cases edge with
  | asserted => exact .assertSelect s
  | released =>
    unfold State.command
    dsimp only
    split
    · rename_i st hst
      refine h st _ _ ?_
      unfold State.takesCommand at hst
      split at hst
      · rename_i hl _
        split at hst
        · cases hst
        · cases hst
          exact hl
      · cases hst
    · exact .ofTransaction s _ _ s.port

/-- A command whose event occurs under a condition only, and else leaves the state as it is. -/
theorem Effect.ofIte {s t u : State} {p : Prop} [Decidable p] (h : p → Effect s u)
    (ht : (if p then Host.Outcome.next u else Host.Outcome.next s : Host.Outcome State Fault Refusal) = .next t) :
    Effect s t := by
  split at ht <;> cases ht
  · exact h ‹_›
  · exact .none

/-- A command at which an access completes, and which else leaves the state as it is. -/
theorem Effect.ofAccess {s t : State} {r : Requester} {writes : Bool} {u : Access → State}
    (h : ∀ acc, s.accessOf r writes = some acc → Effect s (u acc))
    (ht : (match s.accessOf r writes with
      | some acc => Host.Outcome.next (u acc)
      | Option.none => Host.Outcome.next s : Host.Outcome State Fault Refusal) = .next t) : Effect s t := by
  split at ht <;> cases ht
  · exact h _ ‹_›
  · exact .none

/-- Every command has one of the effects. -/
theorem exec_effect {c : Instr} {s t : State} (he : exec c s = .next t) : Effect s t := by
  cases c <;> simp only [exec] at he
  case powerOn straps =>
    cases he
    unfold State.powerOn
    split
    · exact .start s.resetPinLow _ _ _ (.inl rfl) (.inl rfl)
    · exact .start s.resetPinLow _ _ _ (.inr rfl) (.inl rfl)
  case resetPinLow width =>
    cases he
    unfold State.resetLow
    dsimp only
    split
    · exact .pin true s.freeCount
    · split
      · exact .start true _ _ _ (.inl rfl) (.inr rfl)
      · exact .pin true (s.freeCount + 1)
  case resetPinHigh straps =>
    cases he
    unfold State.resetHigh
    dsimp only
    split
    · exact .start false _ _ _ (.inr rfl) (.inr rfl)
    · exact .pin false s.freeCount
  case configurationReadEnd read => exact .ofIte (.endRead read) he
  case frameTimerExpiry => exact .ofIte .expire he
  case listeningWindow => exact .ofIte (fun h => .expire (by simp_all)) he
  case quietOver => exact .ofIte (fun h => .expire (by simp_all)) he
  case frameSynchronisation => cases he; exact .synchronise
  case idlePoint others => exact .ofIte (.contend others) he
  case clash cause => exact .ofIte (.clash cause) he
  case beacon | ready | sealFrame | join | presence | leave | update | glyph | invalidClassFrame =>
    cases he; exact .frame _ _
  case flipTimeout | silenceTimeout | presenceInterval | deaf | leftUnheard | feedDropped =>
    exact .ofIte (fun _ => .frame _ _) he
  case tileStep => exact .ofAccess .tileStep he
  case catchUpRead => exact .ofAccess .catchUpRead he
  case catchUpWrite => exact .ofAccess .catchUpWrite he
  case rowFetch => exact .ofAccess .rowFetched he
  case feedReadComplete => exact .ofAccess .feedReadDone he
  case rowDisplay =>
    unfold execRowDisplay at he
    split at he
    · exact .ofIte (fun h => .displayRow _ h ‹_›) he
    · cases he; exact .none
  case dotLine =>
    unfold execDotLine at he
    split at he
    · exact .ofIte (fun h => .beginLine _ _ h ‹_›) he
    · cases he; exact .none
  case tail => exact .ofIte (fun h => .beginTail (by simp_all) (by simp_all)) he
  case status | readCounters => cases he; exact .command _ _ _ fun _ _ _ _ => .ofTransaction s _ _ _
  case clearCounters => cases he; exact .command _ _ _ fun _ _ _ _ => .report _ _ _ _
  case nextEvent => cases he; exact .command _ _ _ fun _ _ _ _ => .nextEvent _ _ _
  case submit args edge =>
    unfold execSubmit at he
    split at he <;> cases he
    · exact .command _ _ _ fun _ _ _ _ => .submit _ _ _ _
    · exact .command _ _ _ fun _ _ _ _ => .ofTransaction s _ _ s.port
  case readCell args edge =>
    unfold execReadCell at he
    split at he <;> cases he
    · exact .command _ _ _ fun _ _ _ _ => .readCell _ _ _ _ _
    · exact .command _ _ _ fun _ _ _ _ => .ofTransaction s _ _ s.port
  case readRoster args edge =>
    unfold execReadRoster at he
    split at he <;> cases he
    · refine .command _ _ _ fun _ _ _ _ => ?_
      unfold State.readRosterCommand
      split <;> exact .ofTransaction s _ _ _
    · exact .command _ _ _ fun _ _ _ _ => .ofTransaction s _ _ s.port
  case restart => cases he; exact .command _ _ _ fun _ _ _ hl => .restart _ _ _ hl
  case collect clocked edge =>
    unfold execCollect at he
    split at he <;> cases he
    · exact .assertSelect s
    · unfold State.collect
      dsimp only
      split
      · exact .ofTransaction s _ _ _
      · exact .ofTransaction s _ _ s.port
  case unknownCommand code edge =>
    unfold execUnknownCommand at he
    split at he <;> cases he
    · exact .none
    · exact .command _ _ _ fun _ _ _ _ => .ofTransaction s _ _ _
  case lossOfPower => cases he; exact .losePower

/-- A step leaves the station alone, or is the effect of the front command with the rest of the queue. -/
theorem step_effect {s t : State} (he : step s = .next t) : t = s ∨ ∃ q, Effect { s with pending := q } t := by
  unfold step at he
  split at he
  · cases he
    exact .inl rfl
  · exact .inr ⟨_, exec_effect he⟩

end Sys2Proof.Machine
end

section
/-! SUPPORT. What keeps the counts in their range (R21, R36, R41, R110, R146, R152, R159). -/

namespace Sys2Proof.Machine

/-! ### Roster entries (R30 to R38) -/

/-- The silence count of an entry is in range, and a join frame is present exactly while it is Joining. -/
structure RosterEntry.Counted (e : RosterEntry) : Prop where
  silence : e.silence ≤ 48
  heard : e.state = .joining ∨ e.state = .member → e.silence < 48
  joinFrame : e.joinFrame.isSome = true ↔ e.state = .joining

/-- Every entry of a roster is counted. -/
def Roster.Counted (r : Roster) : Prop := ∀ n : Station, r[n].Counted

@[simp] theorem getFin_rosterCleared (n : Station) : rosterCleared[n] = RosterEntry.cleared := by
  simp [rosterCleared]

theorem Roster.counted_cleared : Roster.Counted rosterCleared := fun n => by
  rw [getFin_rosterCleared]
  exact ⟨Nat.zero_le 48, by simp [RosterEntry.cleared], by simp [RosterEntry.cleared]⟩

/-- A roster with one entry replaced. -/
theorem Roster.Counted.set {r : Roster} (h : Roster.Counted r) (n : Station) {e : RosterEntry} (he : e.Counted) :
    Roster.Counted (r.set n e) := fun k => by
  rw [getFin_set]
  split
  · exact he
  · exact h k

theorem RosterEntry.Counted.promoted {e : RosterEntry} (h : e.Counted) (hj : e.state = .joining) :
    RosterEntry.Counted { e with state := .member, joinFrame := none } :=
  ⟨h.silence, fun _ => h.heard (.inl hj), by simp⟩

theorem RosterEntry.Counted.counted {e : RosterEntry} (h : e.Counted) (isSender : Bool) :
    (e.counted isSender).Counted := by
  unfold RosterEntry.counted
  split
  · exact ⟨Nat.zero_le 48, fun _ => Nat.zero_lt_succ 47, h.joinFrame⟩
  · split
    · rename_i hlive
      have hlt := h.heard hlive
      split
      · rename_i hnext
        exact ⟨le_of_lt hnext, fun _ => hnext, h.joinFrame⟩
      · exact ⟨hlt, by simp, by simp⟩
    · exact h

theorem RosterEntry.Counted.silenced {e : RosterEntry} (h : e.Counted) :
    RosterEntry.Counted { e with state := .silent, joinFrame := none } :=
  ⟨h.silence, by simp, by simp⟩

theorem Roster.Counted.heard {r : Roster} (h : Roster.Counted r) (n : Station) :
    Roster.Counted (rosterHeard r n) :=
  h.set n ⟨Nat.zero_le 48, fun _ => Nat.zero_lt_succ 47, (h n).joinFrame⟩

theorem Roster.Counted.join {r : Roster} (h : Roster.Counted r) (n : Station) (fn : FrameNumber) :
    Roster.Counted (rosterJoin r n fn) :=
  h.set n ⟨Nat.zero_le 48, fun _ => Nat.zero_lt_succ 47, by simp⟩

theorem Roster.Counted.leave {r : Roster} (h : Roster.Counted r) (n : Station) :
    Roster.Counted (rosterLeave r n) :=
  h.set n ⟨(h n).silence, by simp, by simp⟩

/-- A PRESENCE comes from a station that has just been heard (R30, R34). -/
theorem Roster.Counted.presence {r : Roster} (h : Roster.Counted r) (n : Station) (hn : r[n].silence = 0) :
    Roster.Counted (rosterPresence r n) := by
  unfold rosterPresence
  split
  · exact h.set n ⟨(h n).silence, fun _ => by rw [hn]; exact Nat.zero_lt_succ 47, by simp⟩
  · exact h

theorem Roster.Counted.promote {r : Roster} (h : Roster.Counted r) (baseline : Option StationSet) :
    Roster.Counted (rosterPromote r baseline) := fun n => by
  rw [rosterPromote, getFin_tabulate]
  split
  · rename_i hj
    exact (h n).promoted hj.1
  · exact h n

theorem Roster.Counted.count {r : Roster} (h : Roster.Counted r) (sender : Station) :
    Roster.Counted (rosterCount r sender) := fun n => by
  rw [rosterCount, getFin_tabulate]
  exact (h n).counted _

theorem Roster.Counted.timeOut {r : Roster} (h : Roster.Counted r) (names : StationSet) :
    Roster.Counted (rosterTimeOut r names) := fun n => by
  rw [rosterTimeOut, getFin_tabulate]
  split
  · exact (h n).silenced
  · exact h n

theorem State.rosterAt_counted {s : State} (h : Roster.Counted s.roster) (sender : Station) (m : BeaconFields) :
    Roster.Counted (s.rosterAt sender m) := by
  have hpromoted : Roster.Counted (if s.flipsAt m then rosterPromote s.roster s.gen.baseline else s.roster) := by
    split
    · exact h.promote _
    · exact h
  unfold State.rosterAt
  dsimp only
  split
  · exact (hpromoted.count sender).timeOut _
  · exact hpromoted.count sender

/-! ### The record (R1, R21) -/

@[simp] theorem GenerationRecord.settle_keeps (g : GenerationRecord) (st : StationState) (own : Station) (r : Roster) :
    (g.settle st own r).shown = g.shown ∧ (g.settle st own r).isSealed = g.isSealed ∧
    (g.settle st own r).sealer = g.sealer ∧ (g.settle st own r).revealBuilding = g.revealBuilding ∧
    (g.settle st own r).revealShown = g.revealShown ∧ (g.settle st own r).sealAge = g.sealAge ∧
    (g.settle st own r).announced = g.announced := ⟨rfl, rfl, rfl, rfl, rfl, rfl, rfl⟩

theorem State.recordAt_sealAge {s : State} (h : s.gen.sealAge ≤ 32) (m : BeaconFields) :
    (s.recordAt m).sealAge ≤ 32 := by
  unfold State.recordAt GenerationRecord.aged
  split
  · exact Nat.zero_le 32
  · split
    · exact h
    · split
      · rename_i hage
        simp only [Bool.and_eq_true, decide_eq_true_eq] at hage
        exact hage.2
      · exact h

/-! ### The counts apart from the line strobes -/

/-- The counts of `State.CountsInRange`, the line strobes apart, with the most consecutive spoils there may be: 31, and 32
only until the station withdraws as deaf (R146). -/
structure State.CountsBounded (s : State) (most : Nat) : Prop where
  spoils : s.bus.consecutiveSpoils ≤ most
  leave : s.bus.leaveAttempts ≤ 3
  presence : s.presenceCount ≤ 16
  sealAge : s.gen.sealAge ≤ 32
  listening : s.timer.listeningExpiries ≤ 3
  quiet : s.timer.quietExpiries ≤ 8
  roster : Roster.Counted s.roster

theorem State.countsInRange_iff (s : State) :
    s.CountsInRange ↔ s.CountsBounded 31 ∧ s.scan.lineStrobes = s.scan.phase.linesBefore := by
  refine ⟨fun h => ⟨⟨h.spoils, h.leave, h.presence, h.sealAge, h.listening, h.quiet, fun n => ?_⟩, h.strobes⟩, ?_⟩
  · exact ⟨h.silence n, h.heard n, h.joinFrame n⟩
  · rintro ⟨h, hstrobes⟩
    exact ⟨h.spoils, h.leave, h.presence, h.sealAge, h.listening, h.quiet, fun n => (h.roster n).silence,
      fun n => (h.roster n).heard, fun n => (h.roster n).joinFrame, hstrobes⟩

namespace State.CountsBounded

/-- The bounds hold of a station whose counts are the same or bounded anew. -/
theorem congr {s t : State} {most : Nat} (h : s.CountsBounded most)
    (spoils : t.bus.consecutiveSpoils = s.bus.consecutiveSpoils ∨ t.bus.consecutiveSpoils = 0 := by simp)
    (leave : t.bus.leaveAttempts = s.bus.leaveAttempts ∨ t.bus.leaveAttempts ≤ 3 := by simp)
    (presence : t.presenceCount = s.presenceCount ∨ t.presenceCount ≤ 16 := by simp)
    (sealAge : t.gen.sealAge = s.gen.sealAge ∨ t.gen.sealAge ≤ 32 := by simp)
    (listening : t.timer.listeningExpiries = s.timer.listeningExpiries ∨ t.timer.listeningExpiries ≤ 3 := by simp)
    (quiet : t.timer.quietExpiries = s.timer.quietExpiries ∨ t.timer.quietExpiries ≤ 8 := by simp)
    (roster : t.roster = s.roster ∨ Roster.Counted t.roster := by simp) : t.CountsBounded most where
  spoils := by
    rcases spoils with e | e <;> rw [e]
    · exact h.spoils
    · exact Nat.zero_le most
  leave := leave.elim (fun e => e ▸ h.leave) id
  presence := presence.elim (fun e => e ▸ h.presence) id
  sealAge := sealAge.elim (fun e => e ▸ h.sealAge) id
  listening := listening.elim (fun e => e ▸ h.listening) id
  quiet := quiet.elim (fun e => e ▸ h.quiet) id
  roster := roster.elim (fun e => e ▸ h.roster) id

variable {s : State} {most : Nat} (h : s.CountsBounded most)
include h

theorem enterListening (reason : StateReason) : (s.enterListening reason).CountsBounded most :=
  h.congr (spoils := .inr rfl) (leave := .inr (Nat.zero_le 3)) (sealAge := .inr (Nat.zero_le 32))
    (roster := .inr Roster.counted_cleared)

/-- A station that withdraws leaves no spoil counted (R157). -/
theorem withdraw (reason : WithdrawReason) (most' : Nat) : (s.withdraw reason).CountsBounded most' :=
  ⟨by simp [BusInterface.atStart], by simp [BusInterface.atStart], by simp, by simpa using h.sealAge,
    by simpa using h.listening, by simp, by simpa using Roster.counted_cleared⟩

theorem becomeClashed : s.becomeClashed.CountsBounded most := by
  refine h.congr (spoils := .inr (by simp [BusInterface.atStart])) (leave := .inr (by simp [BusInterface.atStart]))
    (quiet := ?_) (roster := .inr (by simpa using Roster.counted_cleared))
  simp only [State.becomeClashed_sets]
  split
  · exact .inr (Nat.zero_le 8)
  · exact .inl rfl

theorem evaluateReady : s.evaluateReady.CountsBounded most := by
  refine h.congr (.inl ?_) (.inl ?_)
  all_goals unfold State.evaluateReady; split <;> rfl

theorem changeRoster (st : StationState) {r : Roster} (hr : Roster.Counted r) :
    (s.changeRoster st r).CountsBounded most :=
  State.CountsBounded.evaluateReady
    (h.congr (.inl rfl) (.inl rfl) (.inl rfl) (.inl rfl) (.inl rfl) (.inl rfl) (.inr hr))

/-- The fourth spoiled attempt of a LEAVE is not counted: the station withdraws (R152). -/
theorem attemptSpoiled (item : Option Item) (reason : Option SpoilReason) :
    (s.attemptSpoiled item reason).CountsBounded most := by
  refine State.attemptSpoiled_keeps (Q := fun u => u.CountsBounded most) (fun _ _ h => h.congr) (fun u h => ?_)
    (fun u reason h => ?_) s item reason h
  · unfold State.spoilLeave
    split
    · rename_i hlt
      exact h.congr (leave := .inr (by simp only; omega))
    · exact State.CountsBounded.withdraw (h.congr (t := { u with bus := { u.bus with leavePending := false } })) _ _
  · unfold State.spoilFeedHead
    split
    · exact h
    · split
      · exact h.congr (.inl rfl) (.inl rfl)
      · exact h.congr

/-- A spoil is one more at the most, and the 32nd withdraws the station (R146). -/
theorem driveSpoil (reason : Option SpoilReason) : (s.driveSpoil reason).CountsBounded (most + 1) := by
  unfold State.driveSpoil
  split
  · exact ⟨Nat.le_succ_of_le h.spoils, h.leave, h.presence, h.sealAge, h.listening, h.quiet, h.roster⟩
  · exact ⟨Nat.succ_le_succ h.spoils, h.leave, h.presence, h.sealAge, h.listening, h.quiet, h.roster⟩

omit h in
theorem frameSpoiled {s : State} (h : s.CountsBounded 31) (item : Option Item) (reason : Option SpoilReason) :
    (s.frameSpoiled item reason).CountsBounded 31 := by
  have hattempt := (h.driveSpoil reason).attemptSpoiled item reason
  unfold State.frameSpoiled State.deafCheck
  split
  · exact hattempt.withdraw _ _
  · exact ⟨by omega, hattempt.leave, hattempt.presence, hattempt.sealAge, hattempt.listening, hattempt.quiet,
      hattempt.roster⟩

omit h in
theorem keptByFrameOps : KeptByFrameOps fun s => s.CountsBounded 31 where
  clash _ h := h.becomeClashed
  endFlight _ h := h.congr (.inl rfl) (.inl rfl)
  spoiled _ _ _ h := h.frameSpoiled _ _
  attempt _ _ h := h.attemptSpoiled _ _
  accepted s item h := by
    refine h.congr (.inr rfl) (.inl ?_) ?_
    · rcases item with _ | _ | _ | _ | _ | _ | _ <;> rfl
    · unfold State.frameAccepted
      dsimp only
      split
      · exact .inr (Nat.zero_le 16)
      · exact .inl rfl
  heard _ _ h := h.congr (roster := .inr (h.roster.heard _))
  adopt _ _ h _ := h.congr
  takeBeacon _ _ h := h.congr
  wallWork s st sender m h _ _ := by
    refine h.congr (.inl rfl) (.inl rfl) (sealAge := .inr ?_) (roster := .inr (State.rosterAt_counted h.roster _ _))
    exact State.recordAt_sealAge h.sealAge m
  withdraw _ _ h := h.withdraw _ _
  newFrame _ _ h := h.congr
  swap _ h := h.congr
  countPresence s own promoted h := by
    refine h.congr (.inl rfl) (.inl rfl) (.inr ?_)
    unfold State.countPresence
    dsimp only
    split <;> omega
  startCatchUp _ _ h := h.congr
  resumeApply _ h := h.congr
  evaluateReady _ h := h.evaluateReady
  post _ _ h := h.congr
  grantRace _ h := h.congr
  grant _ h := h.congr
  ready s st sender g h _ _ := by
    refine h.congr (sealAge := .inl ?_)
    unfold State.acceptReady
    split <;> rfl
  sealing s st sender g reveal carried h _ _ := by
    unfold State.acceptSeal
    split
    · refine State.CountsBounded.evaluateReady (h.congr (.inl rfl) (.inl rfl) (sealAge := .inr ?_))
      exact Nat.zero_le 32
    · exact h.congr
  joined s st sender fn h _ _ := h.changeRoster _ (h.roster.join _ _)
  present s st sender h _ _ hs := h.changeRoster _ (h.roster.presence _ hs)
  left s st sender h _ _ := h.changeRoster _ (h.roster.leave _)
  asked _ h := h.congr
  configClash _ _ h := h.congr
  queued _ _ h _ := h.congr
  passed _ _ h := h.congr
  glyph _ _ _ _ _ h := h.congr

omit h in
theorem keptByMoves : KeptByMoves fun s => s.CountsBounded 31 where
  start s life straps glyphs h _ _ :=
    h.congr (.inr rfl) (.inr (Nat.zero_le 3)) (.inr (Nat.zero_le 16)) (.inr (Nat.zero_le 32)) (.inr (Nat.zero_le 3))
      (.inr (Nat.zero_le 8)) (.inr Roster.counted_cleared)
  pin _ _ h := h.congr
  free _ _ h := h.congr
  endRead s read h _ := by
    obtain ⟨config, ms, he⟩ | ⟨config, reason, he⟩ := s.endRead_cases read <;> rw [he]
    · exact State.CountsBounded.enterListening (h.congr (t := { s with
        config := config, withdrawReason := .none, timer := { s.timer with frameTimer := .running ms } })) _
    · exact h.congr
  expire s h _ := by
    obtain ⟨timer, -, hlisten, hquiet, he⟩ := s.expire_cases
    have ht : State.CountsBounded { s with timer := timer } 31 := h.congr (listening := hlisten) (quiet := hquiet)
    obtain ⟨asks, he⟩ | ⟨-, he⟩ := he <;> rw [he]
    · exact ht.congr
    · exact ht.enterListening _
  synchronise s h := by
    obtain he | he := s.synchronise_cases <;> rw [he]
    · exact h
    · exact h.congr
  contend s others h _ := by
    unfold State.contend
    split
    · exact h
    · dsimp only
      split
      · exact h
      · exact h.congr
  clash _ _ h _ := h.becomeClashed
  frame _ cls f h := keptByFrameOps.endFrame h cls f
  tileStep s acc h _ := by
    obtain ⟨-, he⟩ | ⟨n, -, -, he⟩ := s.tileStep_cases acc <;> rw [he]
    · exact h.congr
    · have ht : (s.tileWritten acc).CountsBounded 31 := by
        unfold State.tileWritten
        exact h.congr
      exact (ht.congr (t := (s.tileWritten acc).continueEntry n)).evaluateReady.congr
  catchUpRead s acc h _ := by
    obtain ⟨-, he⟩ | ⟨-, he⟩ := s.catchUpRead_cases acc <;> rw [he]
    · exact h.congr
    · unfold State.copyRead
      exact h.congr
  catchUpWrite s acc h _ := by
    obtain ⟨-, he⟩ | ⟨-, he⟩ := s.catchUpWrite_cases acc <;> rw [he]
    · exact h.congr
    · have ht : ((s.finishAccess acc).requestCopy s.catchUp.advance).resumeApply.CountsBounded 31 := h.congr
      exact ht.evaluateReady.congr
  rowFetched _ _ h _ := h.congr
  feedRead s acc h _ := by
    unfold State.feedReadDone
    exact h.congr
  displayRow _ _ h _ := h.congr
  beginLine _ _ _ h _ := h.congr
  beginTail _ h := h.congr
  transaction _ _ _ h := h.congr
  port _ _ h := h.congr
  events _ h := h.congr
  submit s cls payload h := by
    obtain ⟨r, he⟩ | ⟨-, -, -, r, he⟩ := s.submit_cases cls payload <;> rw [he] <;> exact h.congr
  readCell s role row col h _ := by
    obtain he | ⟨r, p, he⟩ := s.readCellCommand_cases role row col <;> rw [he] <;> exact h.congr
  counters _ h := h.congr
  restart s st h _ := by
    obtain ⟨r, he | ⟨-, he⟩ | ⟨-, he⟩ | ⟨-, he⟩⟩ := s.restartCommand_cases st <;> rw [he]
    · exact h.congr
    · exact h.congr
    · exact h.congr
    · exact (h.enterListening .restart).congr
  losePower s h := by
    unfold State.losePower
    exact h.congr
  pending _ _ h := h.congr

end State.CountsBounded
end Sys2Proof.Machine
end

section
/-! SUPPORT. The line strobes of a frame are as many as the dot lines before its phase (R110). -/

namespace Sys2Proof.Machine

/-- The line strobes sent in the frame are those of the dot lines before its phase (R110). -/
def State.StrobesCounted (s : State) : Prop := s.scan.lineStrobes = s.scan.phase.linesBefore

namespace State.StrobesCounted

theorem congr {s t : State} (h : s.StrobesCounted) (phase : t.scan.phase = s.scan.phase := by simp)
    (strobes : t.scan.lineStrobes = s.scan.lineStrobes := by simp) : t.StrobesCounted := by
  unfold State.StrobesCounted
  rw [phase, strobes]
  exact h

/-- A frame that begins has sent no strobe (R110, R111). -/
theorem of_lead {t : State} (phase : t.scan.phase = .lead) (strobes : t.scan.lineStrobes = 0) : t.StrobesCounted := by
  unfold State.StrobesCounted
  rw [phase, strobes]
  rfl

theorem enterDark {s : State} (h : s.StrobesCounted) (st : StationState) (reason : WithdrawReason) :
    (s.enterDark st reason).StrobesCounted := by
  have hscan := s.enterDark_scan st reason
  split at hscan
  · exact of_lead (by rw [hscan]; rfl) (by rw [hscan]; rfl)
  · exact h.congr (by rw [hscan]) (by rw [hscan])

theorem withdraw {s : State} (h : s.StrobesCounted) (reason : WithdrawReason) :
    (s.withdraw reason).StrobesCounted := (h.enterDark .withdrawn reason).congr

theorem attemptSpoiled {s : State} (h : s.StrobesCounted) (item : Option Item) (reason : Option SpoilReason) :
    (s.attemptSpoiled item reason).StrobesCounted := by
  refine State.attemptSpoiled_keeps (fun _ _ h => h.congr) (fun u h => ?_) (fun _ _ h => h.congr) s item reason h
  unfold State.spoilLeave
  split
  · exact h.congr
  · exact State.StrobesCounted.withdraw h _

theorem newFrame (s : State) (swapped : Bool) : (s.newFrame swapped).StrobesCounted :=
  of_lead (by rw [State.newFrame_scan]; rfl) (by rw [State.newFrame_scan]; rfl)

theorem keptByFrameOps : KeptByFrameOps State.StrobesCounted where
  clash _ h := (h.enterDark .clashed .clash).congr
  endFlight _ h := h.congr
  spoiled := State.frameSpoiled_keeps (fun _ _ h => h.congr) (fun _ _ _ h => h.attemptSpoiled _ _)
    (fun _ _ h => h.withdraw _)
  attempt _ _ h := h.attemptSpoiled _ _
  accepted _ _ h := h.congr
  heard _ _ h := h.congr
  adopt s m _ _ := of_lead (by rw [State.adopt_scan]; rfl) (by rw [State.adopt_scan]; rfl)
  takeBeacon _ _ h := h.congr
  wallWork _ _ _ _ h _ _ := h.congr
  withdraw _ _ h := h.withdraw _
  newFrame s swapped _ := newFrame s swapped
  swap _ h := h.congr
  countPresence _ _ _ h := h.congr
  startCatchUp _ _ h := h.congr
  resumeApply _ h := h.congr
  evaluateReady _ h := h.congr
  post _ _ h := h.congr
  grantRace _ h := h.congr
  grant _ h := h.congr
  ready _ _ _ _ h _ _ := h.congr
  sealing _ _ _ _ _ _ h _ _ := h.congr
  joined _ _ _ _ h _ _ := h.congr
  present _ _ _ h _ _ _ := h.congr
  left _ _ _ h _ _ := h.congr
  asked _ h := h.congr
  configClash _ _ h := h.congr
  queued _ _ h _ := h.congr
  passed _ _ h := h.congr
  glyph _ _ _ _ _ h := h.congr

/-- Display of a row begins after the 16 lines of the row before it (R110). -/
theorem displayRow {s : State} (h : s.StrobesCounted) {r : LocalRow} (hr : s.scan.nextRow = some r) :
    (s.displayRow r).StrobesCounted := by
  have hrow : (s.enterRow r).StrobesCounted := by
    unfold State.StrobesCounted State.enterRow at *
    unfold ScanEngine.nextRow at hr
    dsimp only
    rw [ScanEngine.endLine_lineStrobes, h]
    split at hr
    · rename_i hp
      cases hr
      rw [hp]
      rfl
    · rename_i q line hp
      split at hr
      · split at hr
        · rename_i hlast
          cases hr
          simp only [Bool.and_eq_true, decide_eq_true_eq] at hlast
          rw [hp, if_pos ⟨rfl, hlast.2⟩]
          simp only [ScanPhase.linesBefore, hlast.1, Fin.val_zero]
          omega
        · cases hr
      · cases hr
    · cases hr
  unfold State.displayRow
  split
  · exact hrow.congr
  · exact hrow

/-- A dot line begins after those before it in its row (R110). -/
theorem beginLine {s : State} (h : s.StrobesCounted) {r : LocalRow} {line : Fin 16}
    (hr : s.scan.nextLine = some (r, line)) : (s.beginLine r line).StrobesCounted := by
  have hlines : s.scan.endLine.lineStrobes = (ScanPhase.row r line).linesBefore := by
    unfold ScanEngine.nextLine at hr
    rw [ScanEngine.endLine_lineStrobes, h]
    split at hr
    · rename_i q k hp
      rw [hp]
      split at hr
      · rename_i hbegun
        split at hr
        · cases hr
          rw [if_pos ⟨rfl, hbegun⟩]
          simp only [ScanPhase.linesBefore]
          omega
        · cases hr
      · rename_i hbegun
        cases hr
        rw [if_neg fun hb => hbegun hb.2]
    · cases hr
    · cases hr
  unfold State.beginLine
  dsimp only
  split <;> exact hlines

/-- The tail begins after all 192 lines (R110). -/
theorem beginTail {s : State} (h : s.StrobesCounted) (hlast : s.scan.lastLine = true) :
    s.beginTail.StrobesCounted := by
  have htail : s.enterTail.StrobesCounted := by
    simp only [ScanEngine.lastLine, Bool.and_eq_true, decide_eq_true_eq] at hlast
    unfold State.StrobesCounted State.enterTail at *
    dsimp only
    rw [ScanEngine.endLine_lineStrobes, h, hlast.1, if_pos ⟨rfl, hlast.2⟩]
    rfl
  unfold State.beginTail
  split
  · exact htail.congr
  · exact htail

/-- The phase and the strobes move together in every effect. -/
theorem effect {s t : State} (h : s.StrobesCounted) (he : Effect s t) : t.StrobesCounted := by
  cases he with
  | none => exact h
  | start => exact of_lead rfl rfl
  | pin | synchronise | report | nextEvent | contend => exact h.congr
  | feedReadDone acc =>
    unfold State.feedReadDone
    exact h.congr
  | endRead read =>
    obtain ⟨config, ms, he⟩ | ⟨config, reason, he⟩ := s.endRead_cases read <;> rw [he] <;> exact h.congr
  | expire => obtain ⟨timer, -, -, -, ⟨asks, he⟩ | ⟨-, he⟩⟩ := s.expire_cases <;> rw [he] <;> exact h.congr
  | clash => exact keptByFrameOps.clash s h
  | frame cls f => exact keptByFrameOps.endFrame h cls f
  | tileStep acc =>
    obtain ⟨-, he⟩ | ⟨n, -, -, he⟩ := s.tileStep_cases acc <;> rw [he]
    · exact h.congr
    · exact h.congr (by simp [State.tileWritten]) (by simp [State.tileWritten])
  | catchUpRead acc =>
    obtain ⟨-, he⟩ | ⟨-, he⟩ := s.catchUpRead_cases acc <;> rw [he]
    · exact h.congr
    · exact h.congr (by simp [State.copyRead]) (by simp [State.copyRead])
  | catchUpWrite acc => obtain ⟨-, he⟩ | ⟨-, he⟩ := s.catchUpWrite_cases acc <;> rw [he] <;> exact h.congr
  | rowFetched acc =>
    obtain ⟨-, he⟩ | ⟨r, col, -, -, ⟨_, he⟩ | ⟨-, he⟩⟩ := s.rowFetched_cases acc <;> rw [he] <;> exact h.congr
  | displayRow r _ hr => exact h.displayRow hr
  | beginLine r line _ hr => exact h.beginLine hr
  | beginTail _ hlast => exact h.beginTail hlast
  | submit tr bytes cls payload =>
    obtain ⟨r, he⟩ | ⟨-, -, -, r, he⟩ := State.submit_cases { s with transaction := tr, dataOut := bytes } cls payload
      <;> rw [he] <;> exact h.congr
  | readCell tr bytes role row col =>
    obtain he | ⟨r, p, he⟩ := State.readCellCommand_cases { s with transaction := tr, dataOut := bytes } role row col
      <;> rw [he] <;> exact h.congr
  | restart tr bytes st =>
    obtain ⟨r, he | ⟨-, he⟩ | ⟨-, he⟩ | ⟨-, he⟩⟩ :=
      State.restartCommand_cases { s with transaction := tr, dataOut := bytes } st <;> rw [he] <;> exact h.congr
  | losePower => exact of_lead rfl rfl

end State.StrobesCounted
end Sys2Proof.Machine
end

section
/-! PROOFS. Every count stays in its range. -/

namespace Sys2Proof.Proofs

open Sys2Proof.Machine

/-- Settles O6: the counts are bounded where they rise, and the strobes follow the phase. -/
theorem stepKeepsCountsInRange : Obligations.StepKeepsCountsInRange := by
  intro s t h hstep
  obtain ⟨hbounds, hstrobes⟩ := s.countsInRange_iff.1 h
  refine t.countsInRange_iff.2 ⟨State.CountsBounded.keptByMoves.step hbounds hstep, ?_⟩
  obtain rfl | ⟨q, he⟩ := step_effect hstep
  · exact hstrobes
  · exact State.StrobesCounted.effect (s := { s with pending := q }) hstrobes he

end Sys2Proof.Proofs
end

section
/-! SUPPORT. What keeps the generation record in agreement with the roster (R3, R7, R11, R12, R16). -/

namespace Sys2Proof.Machine

/-! ### What the conditions of generation control depend on -/

theorem State.participates_congr {s t : State} (life : t.life = s.life) : t.participates = s.participates := by
  unfold State.participates
  rw [life]

theorem State.station_congr {s t : State} (straps : t.straps = s.straps) : t.station = s.station := by
  unfold State.station
  rw [straps]

theorem State.requirementSet_congr {s t : State} (roster : t.roster = s.roster) (isSealed : t.gen.isSealed = s.gen.isSealed)
    (baseline : t.gen.baseline = s.gen.baseline) : t.requirementSet = s.requirementSet := by
  unfold State.requirementSet Machine.requirementSet GenerationRecord.inBaseline
  rw [roster, isSealed, baseline]

theorem State.participates_running {s : State} {st : StationState} (h : s.life = .running st) :
    s.participates = st.participates := by
  simp only [State.participates, h]

/-- A station that takes part runs in Joining, Member or Leaving. -/
theorem State.running_of_participates {s : State} (h : s.participates = true) :
    ∃ st, s.life = .running st ∧ st.participates = true := by
  unfold State.participates at h
  split at h
  case h_1 st hl => exact ⟨st, hl, h⟩
  all_goals cases h

/-- A station that takes part has power and is not in Listening. -/
theorem StationState.ne_listening_of_participates {st : StationState} (h : st.participates = true) :
    st ≠ .listening := by
  rintro rfl
  cases h

namespace State.RecordAgrees

/-- The agreement holds of a station with the same life, record, roster and number. -/
theorem congr {s t : State} (h : s.RecordAgrees) (life : t.life = s.life := by simp) (gen : t.gen = s.gen := by simp)
    (roster : t.roster = s.roster := by simp) (straps : t.straps = s.straps := by simp) : t.RecordAgrees := by
  have hpart := State.participates_congr life
  have hreq : t.requirementSet = s.requirementSet := State.requirementSet_congr roster (by rw [gen]) (by rw [gen])
  have hfollow : t.following = s.following := by
    unfold State.following
    rw [life, roster, gen, State.station_congr straps]
  refine ⟨?_, ?_, ?_, ?_, ?_, ?_, ?_⟩
  · rw [gen]; exact h.sealer
  · rw [gen]; exact h.baseline
  · rw [gen]; exact h.armedSealed
  · rw [hpart, gen, roster]; exact h.baselineLive
  · rw [hpart, gen, hreq]; exact h.ready
  · rw [hpart, gen, hfollow, roster]; exact h.armed
  · rw [life, gen, roster]; exact h.listening

/-- Outside Joining, Member, Leaving and Listening only the seal counts. -/
theorem of_outside {t : State} (sealer : t.gen.sealer.isSome = true → t.gen.isSealed = true)
    (baseline : t.gen.baseline.isSome = true → t.gen.isSealed = true)
    (armed : t.gen.armed = true → t.gen.isSealed = true) (hpart : t.participates = false)
    (hlisten : t.life ≠ .running .listening) : t.RecordAgrees where
  sealer := sealer
  baseline := baseline
  armedSealed := armed
  baselineLive := by simp [hpart]
  ready := by simp [hpart]
  armed := by simp [hpart]
  listening hl := absurd hl hlisten

/-- A station that leaves the wall keeps its record (R3). -/
theorem leavesWall {s t : State} (h : s.RecordAgrees) (gen : t.gen = s.gen) (hpart : t.participates = false)
    (hlisten : t.life ≠ .running .listening) : t.RecordAgrees :=
  of_outside (by rw [gen]; exact h.sealer) (by rw [gen]; exact h.baseline) (by rw [gen]; exact h.armedSealed) hpart
    hlisten

theorem enterListening (s : State) (reason : StateReason) : (s.enterListening reason).RecordAgrees := by
  have hpart : (s.enterListening reason).participates = false := rfl
  refine ⟨?_, ?_, ?_, ?_, ?_, ?_, ?_⟩ <;> simp [hpart, GenerationRecord.atStart]

/-- A settled record agrees with the roster it is settled for (R7, R11, R12, R16). -/
theorem of_settle {t : State} {st : StationState} {g : GenerationRecord} {announced : Bool}
    (hl : t.life = .running st) (hw : st.participates = true)
    (hg : t.gen = { g.settle st t.station t.roster with announced := announced })
    (sealer : g.sealer.isSome = true → g.isSealed = true) (baseline : g.baseline.isSome = true → g.isSealed = true) :
    t.RecordAgrees := by
  have hreq : t.requirementSet =
      Machine.requirementSet t.roster { g with baseline := g.baseline.map (baselineKept t.roster) } := by
    unfold State.requirementSet Machine.requirementSet
    rw [hg]
    rfl
  refine ⟨?_, ?_, ?_, ?_, ?_, ?_, ?_⟩
  · rw [hg]; exact sealer
  · rw [hg]; simpa [GenerationRecord.settle] using baseline
  · rw [hg]
    simp only [GenerationRecord.settle, computedArmed, Bool.and_eq_true]
    exact fun h => h.2.1
  · intro _ n hn
    rw [hg] at hn
    have hkept : t.roster[n].state ≠ .absent ∧ t.roster[n].state ≠ .silent := by
      unfold GenerationRecord.settle GenerationRecord.inBaseline at hn
      dsimp only at hn
      cases hb : g.baseline with
      | none => rw [hb] at hn; cases hn
      | some b =>
        rw [hb] at hn
        simp only [Option.map_some, baselineKept, getFin_tabulate, Bool.and_eq_true, Bool.not_eq_true',
          Bool.or_eq_false_iff, decide_eq_false_iff_not] at hn
        exact hn.2
    generalize t.roster[n].state = e at hkept ⊢
    cases e <;> simp at hkept ⊢
  · intro _ n hn
    rw [hg] at hn
    rw [hreq]
    simp only [GenerationRecord.settle, getFin_stationInter, Bool.and_eq_true] at hn
    exact hn.2
  · intro _
    rw [State.following, hl, hg]
    rfl
  · intro hl'
    rw [hl] at hl'
    cases hl'
    cases hw

/-- Evaluating READY changes announced alone, and only in Joining or Member (R13). -/
theorem evaluateReady {s : State} (h : s.RecordAgrees) : s.evaluateReady.RecordAgrees := by
  unfold State.evaluateReady
  split
  · rename_i hc
    refine ⟨h.sealer, h.baseline, h.armedSealed, h.baselineLive, h.ready, h.armed, fun hl => ?_⟩
    have hl' : s.life = .running .listening := hl
    simp [State.readyCondition, hl'] at hc
  · exact h

theorem changeRoster {s : State} {st : StationState} (h : s.RecordAgrees) (hl : s.life = .running st)
    (hw : st.participates = true) (r : Roster) : (s.changeRoster st r).RecordAgrees :=
  evaluateReady (of_settle (announced := s.gen.announced) hl hw rfl h.sealer h.baseline)

/-- The record of an acceptance, before it is settled, holds sealer and baseline only while B is sealed (R18, R21). -/
theorem recordAt {s : State} (h : s.RecordAgrees) (m : BeaconFields) :
    ((s.recordAt m).sealer.isSome = true → (s.recordAt m).isSealed = true) ∧
      ((s.recordAt m).baseline.isSome = true → (s.recordAt m).isSealed = true) := by
  unfold State.recordAt GenerationRecord.aged
  split
  · exact ⟨nofun, nofun⟩
  · split
    · exact ⟨h.sealer, h.baseline⟩
    · split <;> exact ⟨h.sealer, h.baseline⟩

theorem withdraw {s : State} (h : s.RecordAgrees) (reason : WithdrawReason) : (s.withdraw reason).RecordAgrees :=
  h.leavesWall (by simp) (by simp [State.participates, StationState.participates]) (by simp)

theorem attemptSpoiled {s : State} (h : s.RecordAgrees) (item : Option Item) (reason : Option SpoilReason) :
    (s.attemptSpoiled item reason).RecordAgrees := by
  refine State.attemptSpoiled_keeps (fun _ _ h => h.congr) (fun u h => ?_) (fun _ _ h => h.congr) s item reason h
  unfold State.spoilLeave
  split
  · exact h.congr
  · exact State.RecordAgrees.withdraw h.congr _

/-- A station that has just adopted the wall's state is following, as its own entry is Absent (R4, R12). -/
theorem adopt {s : State} (h : s.RecordAgrees) (hl : s.life = .running .listening) (m : BeaconFields) :
    (s.adopt m).RecordAgrees := by
  obtain ⟨hgen, hroster⟩ := h.listening hl
  have hlife : (s.adopt m).life = .running .joining := by simp
  have hgen' : (s.adopt m).gen = { GenerationRecord.atStart with
      shown := if m.armed then m.shown + 1 else m.shown, isSealed := !m.armed && m.isSealed } := by
    rw [(s.adopt_sets m).2.1, hgen]
  have hroster' : (s.adopt m).roster = rosterCleared := by simpa using hroster
  have hfollow : (s.adopt m).following = true := by
    rw [State.following, hlife]
    unfold isFollowing Machine.requirementSet
    simp only [getFin_tabulate, hroster', getFin_rosterCleared, hgen']
    simp [StationState.mayFollow, RosterEntry.cleared]
  refine ⟨?_, ?_, ?_, ?_, ?_, ?_, ?_⟩
  · rw [hgen']; nofun
  · rw [hgen']; nofun
  · rw [hgen']; nofun
  · rw [hgen']; intro _ _ hn; cases hn
  · rw [hgen']
    intro _ n hn
    simp [GenerationRecord.atStart, StationSet.empty] at hn
  · rw [hfollow, hgen']; intro _; rfl
  · rw [hlife]; nofun

theorem stateAt_participates {s : State} {st : StationState} (hw : st.participates = true) (sender : Station)
    (m : BeaconFields) : (s.stateAt st sender m).participates = true := by
  unfold State.stateAt
  split
  · cases st with
    | joining | member | leaving _ => rfl
    | halted | listening | withdrawn | clashed => cases hw
  · exact hw

/-- A frame heard changes no entry's state (R30). -/
theorem heard {s : State} (h : s.RecordAgrees) (n : Station) :
    State.RecordAgrees { s with roster := rosterHeard s.roster n } := by
  have hstate : ∀ k : Station, (rosterHeard s.roster n)[k].state = s.roster[k].state := by
    intro k
    rw [rosterHeard, getFin_set]
    split
    · rename_i hk
      rw [hk]
    · rfl
  have hreq : ∀ g : GenerationRecord, Machine.requirementSet (rosterHeard s.roster n) g =
      Machine.requirementSet s.roster g := by
    intro g
    unfold Machine.requirementSet
    simp only [hstate]
  refine ⟨h.sealer, h.baseline, h.armedSealed, ?_, ?_, ?_, ?_⟩
  · intro hp k hk
    rw [hstate]
    exact h.baselineLive hp k hk
  · intro hp k hk
    rw [State.requirementSet, hreq]
    exact h.ready hp k hk
  · intro hp
    have harmed := h.armed hp
    unfold State.following isFollowing computedArmed at *
    simp only [hreq]
    exact harmed
  · intro hl
    obtain ⟨hgen, hroster⟩ := h.listening hl
    refine ⟨hgen, vector_ext_fin _ _ fun k => ?_⟩
    simp only [hroster, rosterHeard, getFin_set, getFin_rosterCleared]
    split <;> rfl

theorem keptByFrameOps : KeptByFrameOps State.RecordAgrees where
  clash _ h := h.leavesWall (by simp) (by simp [State.participates, StationState.participates]) (by simp)
  endFlight _ h := h.congr
  spoiled := State.frameSpoiled_keeps (fun _ _ h => h.congr) (fun _ _ _ h => h.attemptSpoiled _ _)
    (fun _ _ h => h.withdraw _)
  attempt _ _ h := h.attemptSpoiled _ _
  accepted _ _ h := h.congr
  heard _ n h := h.heard n
  adopt _ m h hl := h.adopt hl m
  takeBeacon _ _ h := h.congr
  wallWork s st sender m h _ hw :=
    of_settle (announced := (s.recordAt m).announced) rfl (stateAt_participates hw sender m) rfl (h.recordAt m).1
      (h.recordAt m).2
  withdraw _ _ h := h.withdraw _
  newFrame _ _ h := h.congr
  swap _ h := h.congr
  countPresence _ _ _ h := h.congr
  startCatchUp _ _ h := h.congr
  resumeApply _ h := h.congr
  evaluateReady _ h := h.evaluateReady
  post _ _ h := h.congr
  grantRace _ h := h.congr
  grant _ h := h.congr
  ready s st sender g h hl hw := by
    unfold State.acceptReady
    split
    · exact of_settle (g := { s.gen with readySet := s.gen.readySet.set sender true }) (announced := s.gen.announced)
        hl hw rfl h.sealer h.baseline
    · exact h
  sealing s st sender g reveal carried h hl hw := by
    unfold State.acceptSeal
    split
    · exact evaluateReady (of_settle (g := s.gen.takeSeal s.roster sender reveal carried)
        (announced := s.gen.announced) hl hw rfl (fun _ => rfl) (fun _ => rfl))
    · exact h.congr
  joined _ _ _ _ h hl hw := h.changeRoster hl hw _
  present _ _ _ h hl hw _ := h.changeRoster hl hw _
  left _ _ _ h hl hw := h.changeRoster hl hw _
  asked _ h := h.congr
  configClash _ _ h := h.congr
  queued _ _ h _ := h.congr
  passed _ _ h := h.congr
  glyph _ _ _ _ _ h := h.congr

/-- The entry to Leaving keeps whether the station may follow (R12, R178). -/
theorem enterLeaving {s : State} (h : s.RecordAgrees) {st : StationState} (hl : s.life = .running st)
    (hw : st.participates = true) (origin : LeavingOrigin)
    (hfollow : (StationState.leaving origin).mayFollow = st.mayFollow) : (s.enterLeaving origin).RecordAgrees := by
  have hpart : s.participates = true := by rw [State.participates_running hl, hw]
  have hgen : (s.enterLeaving origin).gen = s.gen := by simp
  have hroster : (s.enterLeaving origin).roster = s.roster := by simp
  refine ⟨?_, ?_, ?_, ?_, ?_, ?_, ?_⟩
  · rw [hgen]; exact h.sealer
  · rw [hgen]; exact h.baseline
  · rw [hgen]; exact h.armedSealed
  · intro _
    rw [hgen, hroster]
    exact h.baselineLive hpart
  · intro _
    rw [hgen, State.requirementSet_congr hroster (by rw [hgen]) (by rw [hgen])]
    exact h.ready hpart
  · intro _
    have harmed := h.armed hpart
    rw [State.following, hl] at harmed
    rw [State.following, (s.enterLeaving_sets origin).1, hgen, hroster, State.station_congr (s := s) (by simp)]
    simp only [isFollowing, hfollow] at harmed ⊢
    exact harmed
  · rw [(s.enterLeaving_sets origin).1]; simp

theorem keptByMoves : KeptByMoves State.RecordAgrees where
  start s life straps glyphs _ _ hlife := by
    have hlife' : (s.atStart life straps glyphs).life = life := rfl
    refine of_outside nofun nofun nofun ?_ ?_ <;>
      rcases hlife with rfl | rfl <;> simp [State.participates]
  pin _ _ h := h.congr
  free _ _ h := h.congr
  endRead s read h _ := by
    obtain ⟨config, ms, he⟩ | ⟨config, reason, he⟩ := s.endRead_cases read <;> rw [he]
    · exact enterListening _ _
    · exact h.leavesWall (by simp) (by simp [State.participates, StationState.participates]) (by simp)
  expire s h _ := by
    obtain ⟨timer, -, -, -, ⟨asks, he⟩ | ⟨-, he⟩⟩ := s.expire_cases <;> rw [he]
    · exact h.congr
    · exact enterListening _ _
  synchronise _ h := h.congr
  contend _ _ h _ := h.congr
  clash _ _ h _ := keptByFrameOps.clash _ h
  frame _ cls f h := keptByFrameOps.endFrame h cls f
  tileStep s acc h _ := by
    obtain ⟨-, he⟩ | ⟨n, -, -, he⟩ := s.tileStep_cases acc <;> rw [he]
    · exact h.congr
    · have ht : ((s.tileWritten acc).continueEntry n).RecordAgrees :=
        h.congr (by simp [State.tileWritten]) (by simp [State.tileWritten]) (by simp [State.tileWritten])
          (by simp [State.tileWritten])
      exact ht.evaluateReady.congr
  catchUpRead s acc h _ := by
    obtain ⟨-, he⟩ | ⟨-, he⟩ := s.catchUpRead_cases acc <;> rw [he]
    · exact h.congr
    · unfold State.copyRead
      exact h.congr
  catchUpWrite s acc h _ := by
    obtain ⟨-, he⟩ | ⟨-, he⟩ := s.catchUpWrite_cases acc <;> rw [he]
    · exact h.congr
    · have ht : ((s.finishAccess acc).requestCopy s.catchUp.advance).resumeApply.RecordAgrees := h.congr
      exact ht.evaluateReady.congr
  rowFetched _ _ h _ := h.congr
  feedRead s acc h _ := by
    unfold State.feedReadDone
    exact h.congr
  displayRow _ _ h _ := h.congr
  beginLine _ _ _ h _ := h.congr
  beginTail _ h := h.congr
  transaction _ _ _ h := h.congr
  port _ _ h := h.congr
  events _ h := h.congr
  submit s cls payload h := by
    obtain ⟨r, he⟩ | ⟨-, -, -, r, he⟩ := s.submit_cases cls payload <;> rw [he] <;> exact h.congr
  readCell s role row col h _ := by
    obtain he | ⟨r, p, he⟩ := s.readCellCommand_cases role row col <;> rw [he] <;> exact h.congr
  counters _ h := h.congr
  restart s st h hl := by
    obtain ⟨r, he | ⟨rfl, he⟩ | ⟨rfl, he⟩ | ⟨-, he⟩⟩ := s.restartCommand_cases st <;> rw [he]
    · exact h.congr
    · exact (h.enterLeaving hl rfl .fromJoining rfl).congr
    · exact (h.enterLeaving hl rfl .fromMember rfl).congr
    · exact (enterListening s .restart).congr
  losePower s h := h.leavesWall rfl rfl (by simp [State.losePower])
  pending _ _ h := h.congr

end State.RecordAgrees
end Sys2Proof.Machine
end

section
/-! PROOFS. The generation record stays in agreement with the roster. -/

namespace Sys2Proof.Proofs

open Sys2Proof.Machine

/-- Settles O9: each change of the roster, of the ready set or of the seal settles the record for the new roster. -/
theorem stepKeepsRecordAgreement : Obligations.StepKeepsRecordAgreement :=
  fun _ _ h hstep => State.RecordAgrees.keptByMoves.step h hstep

end Sys2Proof.Proofs
end

section
/-! SUPPORT. What keeps the epochs of the update queue in order (R51 to R55): the queue is cut at its head, filled at its
tail, and made Current at a flip. -/

namespace Sys2Proof.Machine

/-! ### What the apply engine makes of a queue (R55, R61) -/

/-- The heads an idle engine takes: it leaves a suffix of the queue, stands at a Current head or is idle before Next
entries. -/
theorem State.takeHeads_epochs (s : State) (q : List UpdateEntry)
    (horder : q.Pairwise fun a b => a.epoch = .next → b.epoch = .next) :
    (s.takeHeads q).updateQueue <:+ q ∧
    ((s.takeHeads q).applyEngine ≠ .idle → ∃ e rest, (s.takeHeads q).updateQueue = e :: rest ∧ e.epoch = .current) ∧
    ((s.takeHeads q).applyEngine = .idle → ∀ e ∈ (s.takeHeads q).updateQueue, e.epoch = .next) := by
  induction q generalizing s with
  | nil => exact ⟨List.suffix_refl _, fun h => absurd rfl h, fun _ _ he => by cases he⟩
  | cons e rest ih =>
    rw [List.pairwise_cons] at horder
    unfold State.takeHeads
    split
    · rename_i hcurrent
      split
      · obtain ⟨hsuffix, hhead, hidle⟩ := ih _ horder.2
        exact ⟨hsuffix.trans (List.suffix_cons _ _), hhead, hidle⟩
      · exact ⟨List.suffix_refl _, fun _ => ⟨e, rest, rfl, hcurrent⟩, fun h => by cases h⟩
    · rename_i hcurrent
      have hnext : e.epoch = .next := by
        cases he : e.epoch
        · exact absurd he hcurrent
        · rfl
      refine ⟨List.suffix_refl _, fun h => absurd rfl h, fun _ x hx => ?_⟩
      rcases List.mem_cons.1 hx with rfl | hx
      · exact hnext
      · exact horder.1 x hx hnext

/-! ### The invariant without the part an idle engine restores -/

/-- The invariant of the queue's epochs, but for what evaluating the condition of R55 brings about: that an idle engine
stands before Next entries. -/
structure State.EpochsFormed (s : State) : Prop where
  order : s.updateQueue.Pairwise fun a b => a.epoch = .next → b.epoch = .next
  nextOnlySealed : ∀ e ∈ s.updateQueue, e.epoch = .next → s.gen.isSealed = true
  head : s.applyEngine ≠ .idle → ∃ e rest, s.updateQueue = e :: rest ∧ e.epoch = .current
  outside : s.powered = true → s.participates = false → s.updateQueue = [] ∧ s.applyEngine = .idle

theorem State.EpochsOrdered.formed {s : State} (h : s.EpochsOrdered) : s.EpochsFormed :=
  ⟨h.order, h.nextOnlySealed, h.head, h.outside⟩

theorem State.powered_congr {s t : State} (life : t.life = s.life) : t.powered = s.powered := by
  unfold State.powered
  rw [life]

theorem State.powered_running {s : State} {st : StationState} (h : s.life = .running st) : s.powered = true := by
  simp [State.powered, h]

/-- A station that takes part has power. -/
theorem State.powered_of_participates {s : State} (h : s.participates = true) : s.powered = true := by
  obtain ⟨st, hl, -⟩ := State.running_of_participates h
  exact State.powered_running hl

namespace State.EpochsFormed

theorem congr {s t : State} (h : s.EpochsFormed) (life : t.life = s.life := by simp)
    (isSealed : t.gen.isSealed = s.gen.isSealed := by simp) (queue : t.updateQueue = s.updateQueue := by simp)
    (engine : t.applyEngine = s.applyEngine := by simp) : t.EpochsFormed := by
  refine ⟨?_, ?_, ?_, ?_⟩
  · rw [queue]; exact h.order
  · rw [queue, isSealed]; exact h.nextOnlySealed
  · rw [queue, engine]; exact h.head
  · rw [queue, engine, State.powered_congr life, State.participates_congr life]; exact h.outside

/-- The condition of R55 evaluated leaves an idle engine before Next entries only. -/
theorem resumeApply {s : State} (h : s.EpochsFormed) : s.resumeApply.EpochsOrdered := by
  have hlife : s.resumeApply.life = s.life := by simp
  have hgen : s.resumeApply.gen = s.gen := by simp
  have hcatch : s.resumeApply.catchUp = s.catchUp := by simp
  by_cases hc : (s.participates && decide (s.applyEngine = .idle) && decide (s.catchUp = .idle)) = true
  · have he : s.resumeApply = s.takeHeads s.updateQueue := if_pos hc
    simp only [Bool.and_eq_true, decide_eq_true_eq] at hc
    obtain ⟨hsuffix, hhead, hidle⟩ := s.takeHeads_epochs s.updateQueue h.order
    rw [← he] at hsuffix hhead hidle
    refine ⟨h.order.sublist hsuffix.sublist, fun e hm hn => ?_, hhead, fun _ hi _ => hidle hi, fun _ hp => ?_⟩
    · rw [hgen]
      exact h.nextOnlySealed e (hsuffix.subset hm) hn
    · rw [State.participates_congr hlife, hc.1.1] at hp
      cases hp
  · have he : s.resumeApply = s := if_neg hc
    rw [he]
    refine ⟨h.order, h.nextOnlySealed, h.head, fun hp hi hk => ?_, h.outside⟩
    simp [hp, hi, hk] at hc

end State.EpochsFormed

namespace State.EpochsOrdered

theorem congr {s t : State} (h : s.EpochsOrdered) (life : t.life = s.life := by simp)
    (isSealed : t.gen.isSealed = s.gen.isSealed := by simp) (queue : t.updateQueue = s.updateQueue := by simp)
    (engine : t.applyEngine = s.applyEngine := by simp)
    (copying : t.catchUp = .idle → s.catchUp = .idle := by simp) : t.EpochsOrdered := by
  have hformed := h.formed.congr life isSealed queue engine
  refine ⟨hformed.order, hformed.nextOnlySealed, hformed.head, ?_, hformed.outside⟩
  rw [State.participates_congr life, queue, engine]
  exact fun hp hi hk => h.taken hp hi (copying hk)

/-- An empty queue and an idle engine have the form. -/
theorem of_empty {t : State} (queue : t.updateQueue = [] := by simp) (engine : t.applyEngine = .idle := by simp) :
    t.EpochsOrdered :=
  ⟨by simp [queue], by simp [queue], by simp [engine], by simp [queue], fun _ _ => ⟨queue, engine⟩⟩

/-- A station that stays in its part of the wall keeps the form. -/
theorem running {s t : State} (h : s.EpochsOrdered) (spart : s.participates = true) (tpart : t.participates = true)
    (isSealed : t.gen.isSealed = s.gen.isSealed := by simp) (queue : t.updateQueue = s.updateQueue := by simp)
    (engine : t.applyEngine = s.applyEngine := by simp) (copying : t.catchUp = s.catchUp := by simp) :
    t.EpochsOrdered := by
  refine ⟨?_, ?_, ?_, ?_, fun _ hp => ?_⟩
  · rw [queue]; exact h.order
  · rw [queue, isSealed]; exact h.nextOnlySealed
  · rw [queue, engine]; exact h.head
  · rw [queue, engine, copying]; exact fun _ => h.taken spart
  · rw [tpart] at hp; cases hp

theorem attemptSpoiled {s : State} (h : s.EpochsOrdered) (item : Option Item) (reason : Option SpoilReason) :
    (s.attemptSpoiled item reason).EpochsOrdered := by
  refine State.attemptSpoiled_keeps (fun _ _ h => h.congr) (fun u h => ?_) (fun _ _ h => h.congr) s item reason h
  unfold State.spoilLeave
  split
  · exact h.congr
  · exact of_empty

/-! ### Accepted messages -/

/-- At a flip every entry becomes Current, else the queue and the seal stay (R18, R52). -/
theorem wallWork {s : State} (h : s.EpochsOrdered) {st : StationState} (hw : st.participates = true)
    (sender : Station) (m : BeaconFields) : ((s.takeBeacon m).wallWork s st sender m).EpochsFormed := by
  have hpart : ((s.takeBeacon m).wallWork s st sender m).participates = true :=
    State.RecordAgrees.stateAt_participates hw sender m
  have hengine : ((s.takeBeacon m).wallWork s st sender m).applyEngine = s.applyEngine := by simp
  have hgen : ((s.takeBeacon m).wallWork s st sender m).gen.isSealed = (s.recordAt m).isSealed := rfl
  by_cases hf : s.flipsAt m = true
  · have hqueue : ((s.takeBeacon m).wallWork s st sender m).updateQueue = epochsCurrent s.updateQueue := if_pos hf
    have hcurrent : ∀ e ∈ epochsCurrent s.updateQueue, e.epoch = .current := by
      intro e he
      obtain ⟨x, -, rfl⟩ := List.mem_map.1 he
      rfl
    refine ⟨?_, ?_, ?_, fun _ hp => ?_⟩
    · rw [hqueue]
      refine List.pairwise_of_forall_mem_list fun a ha b _ hn => ?_
      rw [hcurrent a ha] at hn
      cases hn
    · rw [hqueue]
      intro e he hn
      rw [hcurrent e he] at hn
      cases hn
    · rw [hqueue, hengine]
      intro hi
      obtain ⟨e, rest, hq, -⟩ := h.head hi
      exact ⟨{ e with epoch := .current }, epochsCurrent rest, by rw [hq]; rfl, rfl⟩
    · rw [hpart] at hp; cases hp
  · have hqueue : ((s.takeBeacon m).wallWork s st sender m).updateQueue = s.updateQueue := if_neg hf
    have hsealed : (s.recordAt m).isSealed = s.gen.isSealed := by
      unfold State.recordAt GenerationRecord.aged
      rw [if_neg hf]
      split
      · rfl
      · split <;> rfl
    refine ⟨?_, ?_, ?_, fun _ hp => ?_⟩
    · rw [hqueue]; exact h.order
    · rw [hqueue, hgen, hsealed]; exact h.nextOnlySealed
    · rw [hqueue, hengine]; exact h.head
    · rw [hpart] at hp; cases hp

theorem acceptBeacon {s : State} (h : s.EpochsOrdered) {st : StationState} (hw : st.participates = true)
    (own : Bool) (sender : Station) (m : BeaconFields) : (s.acceptBeacon st own sender m).EpochsOrdered := by
  have hworked := h.wallWork hw sender m
  unfold State.acceptBeacon State.actOnBeacon
  split
  · split
    · exact of_empty
    · exact (hworked.congr : EpochsFormed ((((((s.takeBeacon m).wallWork s st sender m).swapIf
        (s.swapsAt sender m)).countPresence own (s.promotedAt sender m)).newFrame (s.swapsAt sender m)).copyIf
        (s.swapsAt sender m) (s.promotedAt sender m))).resumeApply.congr
  · exact of_empty

/-- A new entry is Next behind a sealed B, and Current behind Current entries else (R51). -/
theorem acceptUpdate {s : State} (h : s.EpochsOrdered) (hp : s.participates = true) (u : Update) :
    (s.acceptUpdate u).EpochsOrdered := by
  unfold State.acceptUpdate
  split
  · rename_i v _
    have hqueued : EpochsFormed { s with updateQueue := s.updateQueue ++ [s.newEntry v] } := by
      refine ⟨?_, fun e he hn => ?_, fun hi => ?_, fun _ hp' => ?_⟩
      · refine List.pairwise_append.2 ⟨h.order, List.pairwise_singleton _ _, fun a ha b hb hn => ?_⟩
        rw [List.mem_singleton.1 hb]
        simp only [State.newEntry, h.nextOnlySealed a ha hn, if_true]
      · rcases List.mem_append.1 he with he | he
        · exact h.nextOnlySealed e he hn
        · rw [List.mem_singleton.1 he] at hn
          change (if s.gen.isSealed then Epoch.next else .current) = .next at hn
          split at hn
          · assumption
          · cases hn
      · obtain ⟨e, rest, hq, hcurrent⟩ := h.head hi
        exact ⟨e, rest ++ [s.newEntry v], by simp only [hq, List.cons_append], hcurrent⟩
      · exact absurd (hp.symm.trans hp') Bool.true_eq_false_eq_False
    exact hqueued.resumeApply.congr
  · exact h.congr

theorem acceptMessage {s : State} (h : s.EpochsOrdered) {st : StationState} (hl : s.life = .running st)
    (hw : st.participates = true) (item : Option Item) (sender : Station) (msg : Message) :
    (s.acceptMessage st item sender msg).EpochsOrdered := by
  have hp : s.participates = true := by rw [State.participates_running hl, hw]
  have hroster : ∀ r, (s.changeRoster st r).EpochsOrdered := fun r =>
    h.congr (isSealed := by unfold State.changeRoster; simp)
  cases msg <;> simp only [State.acceptMessage_beacon, State.acceptMessage_ready, State.acceptMessage_sealing,
    State.acceptMessage_join, State.acceptMessage_presence, State.acceptMessage_leave, State.acceptMessage_update,
    State.acceptMessage_glyph]
  case beacon m => exact h.acceptBeacon hw _ _ _
  case ready g =>
    refine h.congr (isSealed := ?_)
    unfold State.acceptReady
    split <;> simp
  case sealing g reveal carried =>
    have hqueue : (s.acceptSeal st sender g reveal carried).updateQueue = s.updateQueue := by simp
    have hengine : (s.acceptSeal st sender g reveal carried).applyEngine = s.applyEngine := by simp
    have hlife : (s.acceptSeal st sender g reveal carried).life = s.life := by simp
    have hsealed : s.gen.isSealed = true → (s.acceptSeal st sender g reveal carried).gen.isSealed = true := by
      intro hs
      unfold State.acceptSeal
      simp [hs]
    refine ⟨?_, ?_, ?_, ?_, ?_⟩
    · rw [hqueue]; exact h.order
    · rw [hqueue]; exact fun e he hn => hsealed (h.nextOnlySealed e he hn)
    · rw [hqueue, hengine]; exact h.head
    · rw [hqueue, hengine, State.participates_congr hlife]
      intro hp hi hk
      exact h.taken hp hi (by simpa using hk)
    · rw [hqueue, hengine, State.participates_congr hlife, State.powered_congr hlife]; exact h.outside
  case join width height period =>
    unfold State.acceptJoin
    split
    · have hjoined := hroster (rosterJoin s.roster sender s.timer.frameNumber)
      dsimp only
      split
      · exact hjoined.congr rfl rfl rfl rfl id
      · exact hjoined
    · exact h.congr
  case presence isMember =>
    split
    · exact hroster _
    · exact h
  case leave =>
    split
    · exact of_empty
    · exact hroster _
  case update u => exact h.acceptUpdate hp u
  case glyph set code first patterns => exact h.congr

theorem endFrame {s : State} (h : s.EpochsOrdered) (cls : BitVec 3) (f : BusFrame) :
    (s.endFrame cls f).EpochsOrdered := by
  have hend := s.endFrame_ends cls f
  generalize s.endFrame cls f = t at hend
  have hflight : s.endFlight.EpochsOrdered := h.congr
  cases hend with
  | unread => exact h
  | clash => exact of_empty
  | outside | listenIgnored => exact hflight
  | spoiled =>
    exact State.frameSpoiled_keeps (fun _ _ h => h.congr) (fun _ _ _ h => h.attemptSpoiled _ _)
      (fun _ _ _ => of_empty) _ _ _ hflight
  | listenSpoiled => exact hflight.attemptSpoiled _ _
  | listenAdopted m hl =>
    have hempty := h.outside (State.powered_running hl) (State.participates_running hl)
    exact of_empty (by simpa using hempty.1) (by simpa using hempty.2)
  | accepted st msg hl hw =>
    have hshare : (s.afterShare cls f).EpochsOrdered := hflight.congr (by simp [State.afterShare])
      (by simp [State.afterShare]) (by simp [State.afterShare]) (by simp [State.afterShare]) (by simp [State.afterShare])
    exact hshare.acceptMessage (by simpa [State.afterShare] using hl) hw _ _ _

/-- The engine at the end of a tile step: at the next write of its entry, or past the entry (R58, R61). -/
theorem continueEntry {s : State} (h : s.EpochsOrdered) (hn : s.applyEngine ≠ .idle) (n : Nat) :
    (s.continueEntry n).EpochsOrdered := by
  obtain ⟨e, rest, hq, hcurrent⟩ := h.head hn
  have horder := h.order
  have hsealed := h.nextOnlySealed
  rw [hq] at horder hsealed
  have hin : s.powered = true → s.participates = true := fun hpow => by
    cases hp : s.participates
    · exact absurd (h.outside hpow hp).2 hn
    · rfl
  unfold State.continueEntry
  rw [hq]
  dsimp only
  obtain ⟨hlife, -, -, -, -, hgen, -⟩ :=
    s.runSteps_keeps ((e.update.steps s.straps s.wallColumns).drop (n + 1)) (n + 1)
  split
  · rename_i t hrun
    rw [hrun] at hlife hgen
    have hformed : EpochsFormed { t with updateQueue := rest, applyEngine := .idle } := by
      refine ⟨(List.pairwise_cons.1 horder).2, fun x hx hnext => ?_, fun hi => absurd rfl hi, fun hpow hp => ?_⟩
      · change t.gen.isSealed = true
        rw [hgen]
        exact hsealed x (List.mem_cons_of_mem _ hx) hnext
      · have hpow' : s.powered = true := (State.powered_congr (t := t) hlife).symm.trans hpow
        have hp' : s.participates = false := (State.participates_congr (t := t) hlife).symm.trans hp
        rw [hin hpow'] at hp'
        cases hp'
    exact hformed.resumeApply
  · rename_i t k hrun
    rw [hrun] at hlife hgen
    refine ⟨horder, fun x hx hnext => ?_, fun _ => ⟨e, rest, rfl, hcurrent⟩, fun _ hi => (nomatch hi), fun hpow hp => ?_⟩
    · change t.gen.isSealed = true
      rw [hgen]
      exact hsealed x hx hnext
    · have hpow' : s.powered = true := (State.powered_congr (t := t) hlife).symm.trans hpow
      have hp' : s.participates = false := (State.participates_congr (t := t) hlife).symm.trans hp
      rw [hin hpow'] at hp'
      cases hp'

theorem keptByMoves : KeptByMoves State.EpochsOrdered where
  start _ _ _ _ _ _ _ := of_empty rfl rfl
  pin _ _ h := h.congr
  free _ _ h := h.congr
  endRead s read h hl := by
    obtain ⟨config, ms, he⟩ | ⟨config, reason, he⟩ := s.endRead_cases read <;> rw [he]
    · exact of_empty
    · have hempty := h.outside (by simp [State.powered, hl]) (by simp [State.participates, hl])
      exact of_empty (by simpa using hempty.1) (by simpa using hempty.2)
  expire s h _ := by
    obtain ⟨timer, -, -, -, ⟨asks, he⟩ | ⟨-, he⟩⟩ := s.expire_cases <;> rw [he]
    · exact h.congr
    · exact of_empty
  synchronise _ h := h.congr
  contend _ _ h _ := h.congr
  clash _ _ _ _ := of_empty
  frame _ cls f h := h.endFrame cls f
  tileStep s acc h _ := by
    obtain ⟨-, he⟩ | ⟨n, -, hn, he⟩ := s.tileStep_cases acc <;> rw [he]
    · exact h.congr
    · have ht : (s.tileWritten acc).EpochsOrdered := by
        unfold State.tileWritten
        exact h.congr
      have hn' : (s.tileWritten acc).applyEngine ≠ .idle := by
        unfold State.tileWritten
        simp [hn]
      exact (ht.continueEntry hn' n).congr
  catchUpRead s acc h _ := by
    obtain ⟨-, he⟩ | ⟨-, he⟩ := s.catchUpRead_cases acc <;> rw [he]
    · exact h.congr
    · have hc : (s.copyRead acc).EpochsOrdered := by
        unfold State.copyRead
        refine h.congr (copying := ?_)
        dsimp only
        cases s.catchUp <;> simp [CatchUp.withRecord]
      exact hc.congr
  catchUpWrite s acc h _ := by
    obtain ⟨-, he⟩ | ⟨-, he⟩ := s.catchUpWrite_cases acc <;> rw [he]
    · exact h.congr
    · have ht : ((s.finishAccess acc).requestCopy s.catchUp.advance).EpochsFormed := h.formed.congr
      exact ht.resumeApply.congr
  rowFetched _ _ h _ := h.congr
  feedRead s acc h _ := by
    unfold State.feedReadDone
    exact h.congr
  displayRow _ _ h _ := h.congr
  beginLine _ _ _ h _ := h.congr
  beginTail _ h := h.congr
  transaction _ _ _ h := h.congr
  port _ _ h := h.congr
  events _ h := h.congr
  submit s cls payload h := by
    obtain ⟨r, he⟩ | ⟨-, -, -, r, he⟩ := s.submit_cases cls payload <;> rw [he] <;> exact h.congr
  readCell s role row col h _ := by
    obtain he | ⟨r, p, he⟩ := s.readCellCommand_cases role row col <;> rw [he] <;> exact h.congr
  counters _ h := h.congr
  restart s st h hl := by
    obtain ⟨r, he | ⟨rfl, he⟩ | ⟨rfl, he⟩ | ⟨-, he⟩⟩ := s.restartCommand_cases st <;> rw [he]
    · exact h.congr
    · exact h.running (State.participates_running hl) (State.participates_running (st := .leaving .fromJoining) (by simp))
    · exact h.running (State.participates_running hl) (State.participates_running (st := .leaving .fromMember) (by simp))
    · exact of_empty
  losePower s h := by
    refine ⟨h.order, h.nextOnlySealed, h.head, fun hp => ?_, fun hp => ?_⟩
    · cases hp
    · cases hp
  pending _ _ h := h.congr

end State.EpochsOrdered
end Sys2Proof.Machine
end

section
/-! PROOFS. Current entries stay before Next entries. -/

namespace Sys2Proof.Proofs

open Sys2Proof.Machine

/-- Settles O8: the queue keeps its form in every operation, and each one that could leave an idle engine before a Current
entry ends with the condition of R55 evaluated. -/
theorem stepKeepsEpochsOrdered : Obligations.StepKeepsEpochsOrdered :=
  fun _ _ h hstep => State.EpochsOrdered.keptByMoves.step h hstep

end Sys2Proof.Proofs
end

section
/-! SUPPORT. The layouts of the Formats chapter read as payloads (R197 to R199): for each class, which payloads parse and to
what. -/

namespace Sys2Proof.Machine

/-! ### Fields of a byte -/

/-- A field of a word as a number. -/
theorem Byte.field_toNat {w : Nat} (b : BitVec w) (start len : Nat) :
    (b.extractLsb' start len).toNat = b.toNat / 2 ^ start % 2 ^ len := by
  rw [BitVec.extractLsb'_toNat, Nat.shiftRight_eq_div_pow]

/-- A field of a byte is 0. -/
theorem Byte.field_eq_zero (b : Byte) (start len : Nat) :
    b.extractLsb' start len = 0 ↔ b.toNat / 2 ^ start % 2 ^ len = 0 := by
  rw [← BitVec.toNat_inj, Byte.field_toNat]
  simp

/-- A bit of a word. -/
theorem Byte.bit_eq {w : Nat} (b : BitVec w) (i : Nat) : b.getLsbD i = decide (b.toNat / 2 ^ i % 2 = 1) := by
  rw [BitVec.getLsbD, Nat.testBit_eq_decide_div_mod_eq]

/-- The bits above the first `k` are 0 exactly in the values below `2 ^ k`. -/
theorem Byte.high_field_eq_zero (b : Byte) {k len : Nat} (h : k + len = 8) :
    b.extractLsb' k len = 0 ↔ b.toNat < 2 ^ k := by
  rw [Byte.field_eq_zero]
  have hb : b.toNat < 2 ^ k * 2 ^ len := by rw [← pow_add, h]; exact b.isLt
  rw [Nat.mod_eq_of_lt (Nat.div_lt_of_lt_mul hb), Nat.div_eq_zero_iff]
  simp

/-- A byte is the number of its value. -/
theorem Byte.eq_ofNat_iff (b : Byte) {n : Nat} (h : n < 256) : b = BitVec.ofNat 8 n ↔ b.toNat = n := by
  rw [← BitVec.toNat_inj, BitVec.toNat_ofNat, Nat.mod_eq_of_lt h]

/-! ### BEACON, READY, SEAL, ROSTER -/

theorem parseBeacon_iff (payload : List Byte) (msg : Message) : parseBeacon payload = some msg ↔
    ∃ hi lo g flags, payload = [hi, lo, g, flags] ∧ flags.toNat < 4 ∧
      msg = .beacon ⟨hi ++ lo, g, flags.getLsbD 0, flags.getLsbD 1⟩ := by
  unfold parseBeacon
  split
  · rename_i hi lo g flags
    rw [Option.ite_none_right_eq_some, Byte.high_field_eq_zero flags (k := 2) rfl]
    constructor
    · rintro ⟨hflags, hmsg⟩
      exact ⟨hi, lo, g, flags, rfl, hflags, (Option.some.inj hmsg).symm⟩
    · rintro ⟨_, _, _, _, hp, hflags, rfl⟩
      cases hp
      exact ⟨hflags, rfl⟩
  · rename_i hne
    refine ⟨nofun, ?_⟩
    rintro ⟨hi, lo, g, flags, rfl, -⟩
    exact absurd rfl (hne hi lo g flags)

theorem parseReady_iff (payload : List Byte) (msg : Message) : parseReady payload = some msg ↔
    ∃ g, payload = [g] ∧ msg = .ready g := by
  unfold parseReady
  split
  · simp [eq_comm]
  · rename_i hne
    refine ⟨nofun, ?_⟩
    rintro ⟨g, rfl, -⟩
    exact absurd rfl (hne g)

theorem baselineOfBytes_getFin (bytes : List Byte) (n : Station) :
    (baselineOfBytes bytes)[n] = (bytes.getD (n.val / 8) 0).getLsbD (n.val % 8) := by
  rw [baselineOfBytes, getFin_tabulate]

theorem parseSeal_iff (payload : List Byte) (msg : Message) : parseSeal payload = some msg ↔
    ∃ g flags bytes, payload = g :: flags :: bytes ∧ flags.toNat < 4 ∧
      (flags.getLsbD 1 = false ∧ bytes = [] ∧ msg = .sealing g (flags.getLsbD 0) none ∨
        flags.getLsbD 1 = true ∧ bytes.length = 8 ∧ ∃ b : StationSet,
          (∀ n : Station, b[n] = (bytes.getD (n.val / 8) 0).getLsbD (n.val % 8)) ∧
          msg = .sealing g (flags.getLsbD 0) (some b)) := by
  unfold parseSeal
  split
  · rename_i g flags bytes
    rw [Option.ite_none_right_eq_some, Byte.high_field_eq_zero flags (k := 2) rfl]
    constructor
    · rintro ⟨hflags, hmsg⟩
      refine ⟨g, flags, bytes, rfl, hflags, ?_⟩
      split at hmsg
      · rename_i hbase
        split at hmsg
        · rename_i hlen
          exact .inr ⟨hbase, hlen, _, baselineOfBytes_getFin bytes, (Option.some.inj hmsg).symm⟩
        · cases hmsg
      · rename_i hbase
        split at hmsg
        · rename_i hempty
          exact .inl ⟨by simpa using hbase, hempty, (Option.some.inj hmsg).symm⟩
        · cases hmsg
    · rintro ⟨_, _, _, hp, hflags, h⟩
      cases hp
      refine ⟨hflags, ?_⟩
      rcases h with ⟨hbase, hempty, rfl⟩ | ⟨hbase, hlen, b, hb, rfl⟩
      · rw [if_neg (by rw [hbase]; exact Bool.false_ne_true), if_pos hempty]
      · have : baselineOfBytes bytes = b := vector_ext_fin _ _ fun n => by rw [baselineOfBytes_getFin, hb]
        rw [if_pos hbase, if_pos hlen, this]
  · rename_i hne
    refine ⟨nofun, ?_⟩
    rintro ⟨g, flags, bytes, rfl, -⟩
    exact absurd rfl (hne g flags bytes)

theorem parseRoster_iff (payload : List Byte) (msg : Message) : parseRoster payload = some msg ↔
    (∃ w h p, payload = [1, w, h, p] ∧ msg = .join w h p) ∨ payload = [2, 1] ∧ msg = .presence false ∨
      payload = [2, 2] ∧ msg = .presence true ∨ payload = [3] ∧ msg = .leave := by
  unfold parseRoster
  split
  · rename_i subtype w h p
    rw [Option.ite_none_right_eq_some]
    constructor
    · rintro ⟨rfl, hmsg⟩
      exact .inl ⟨w, h, p, rfl, (Option.some.inj hmsg).symm⟩
    · rintro (⟨_, _, _, hp, rfl⟩ | ⟨hp, -⟩ | ⟨hp, -⟩ | ⟨hp, -⟩) <;> cases hp
      exact ⟨rfl, rfl⟩
  · rename_i subtype st
    constructor
    · intro hmsg
      split at hmsg
      · cases hmsg
      · rename_i hsub
        rw [not_not] at hsub
        split at hmsg
        · rename_i hst
          exact .inr (.inl ⟨by rw [hsub, hst], (Option.some.inj hmsg).symm⟩)
        · split at hmsg
          · rename_i hst
            exact .inr (.inr (.inl ⟨by rw [hsub, hst], (Option.some.inj hmsg).symm⟩))
          · cases hmsg
    · rintro (⟨_, _, _, hp, -⟩ | ⟨hp, rfl⟩ | ⟨hp, rfl⟩ | ⟨hp, -⟩) <;> cases hp <;> rfl
  · rename_i subtype
    rw [Option.ite_none_right_eq_some]
    constructor
    · rintro ⟨rfl, hmsg⟩
      exact .inr (.inr (.inr ⟨rfl, (Option.some.inj hmsg).symm⟩))
    · rintro (⟨_, _, _, hp, -⟩ | ⟨hp, -⟩ | ⟨hp, -⟩ | ⟨hp, rfl⟩) <;> cases hp
      exact ⟨rfl, rfl⟩
  · rename_i h4 h2 h1
    refine ⟨nofun, ?_⟩
    rintro (⟨w, h, p, rfl, -⟩ | ⟨rfl, -⟩ | ⟨rfl, -⟩ | ⟨rfl, -⟩)
    · exact absurd rfl (h4 1 w h p)
    · exact absurd rfl (h2 2 1)
    · exact absurd rfl (h2 2 2)
    · exact absurd rfl (h1 3)

/-! ### GLYPH -/

theorem parseGlyph_iff (payload : List Byte) (msg : Message) : parseGlyph payload = some msg ↔
    ∃ (set : BitVec 2) (code : BitVec 7) (first : Nat) (patterns : List Byte),
      payload = BitVec.ofNat 8 (64 * set.toNat + first) :: BitVec.ofNat 8 code.toNat :: 0 :: patterns ∧
      1 ≤ patterns.length ∧ first + patterns.length ≤ 16 ∧ msg = .glyph set code first patterns := by
  unfold parseGlyph
  split
  · rename_i b0 b1 b2 patterns
    dsimp only
    rw [Option.ite_none_right_eq_some, Byte.field_eq_zero, Byte.bit_eq, Byte.field_toNat, decide_eq_false_iff_not]
    constructor
    · rintro ⟨⟨hmid, hbit, rfl, hone, -, hfit⟩, hmsg⟩
      refine ⟨b0.extractLsb' 6 2, b1.extractLsb' 0 7, b0.toNat / 2 ^ 0 % 2 ^ 4, patterns, ?_, hone, hfit,
        (Option.some.inj hmsg).symm⟩
      have h0 : b0 = BitVec.ofNat 8 (64 * (b0.extractLsb' 6 2).toNat + b0.toNat / 2 ^ 0 % 2 ^ 4) := by
        have := b0.isLt
        rw [Byte.eq_ofNat_iff, Byte.field_toNat]
        · omega
        · rw [Byte.field_toNat]; omega
      have h1 : b1 = BitVec.ofNat 8 (b1.extractLsb' 0 7).toNat := by
        have := b1.isLt
        rw [Byte.eq_ofNat_iff, Byte.field_toNat]
        · omega
        · rw [Byte.field_toNat]; omega
      rw [← h0, ← h1]
    · rintro ⟨set, code, first, rest, hp, hone, hfit, rfl⟩
      simp only [List.cons.injEq] at hp
      obtain ⟨h0, h1, rfl, rfl⟩ := hp
      have hset := set.isLt
      have hcode := code.isLt
      rw [Byte.eq_ofNat_iff _ (by omega)] at h0 h1
      refine ⟨⟨by omega, by omega, rfl, hone, by omega, by omega⟩, ?_⟩
      have es : b0.extractLsb' 6 2 = set := by
        rw [← BitVec.toNat_inj, Byte.field_toNat]; omega
      have ec : b1.extractLsb' 0 7 = code := by
        rw [← BitVec.toNat_inj, Byte.field_toNat]; omega
      have ef : b0.toNat / 2 ^ 0 % 2 ^ 4 = first := by omega
      rw [es, ec, ef]
  · rename_i hne
    refine ⟨nofun, ?_⟩
    rintro ⟨set, code, first, patterns, rfl, -⟩
    exact absurd rfl (hne _ _ _ _)

/-! ### Cell records and row defaults (R199) -/

theorem CellRecord.ofBits_zone_iff (hi lo : Byte) (c : CellRecord) : CellRecord.ofBits true hi lo = some c ↔
    hi = 0x20 ∧ c = .zone ⟨lo.extractLsb' 5 3, lo.extractLsb' 2 3, lo.getLsbD 1, lo.getLsbD 0⟩ := by
  unfold CellRecord.ofBits
  rw [if_pos rfl, Option.ite_none_right_eq_some, Option.some_inj, eq_comm (a := CellRecord.zone _)]
  rfl

/-- The size of a glyph cell is its code. -/
theorem GlyphSize.ofBits_bits (b : BitVec 2) : (GlyphSize.ofBits b).bits = b := by
  unfold GlyphSize.ofBits
  split
  · simp_all [GlyphSize.bits]
  · split
    · simp_all [GlyphSize.bits]
    · split
      · simp_all [GlyphSize.bits]
      · rename_i h0 h1 h2
        have hb := b.isLt
        have e0 : b.toNat ≠ 0 := fun h => h0 (by rw [← BitVec.toNat_inj]; exact h)
        have e1 : b.toNat ≠ 1 := fun h => h1 (by rw [← BitVec.toNat_inj]; exact h)
        have e2 : b.toNat ≠ 2 := fun h => h2 (by rw [← BitVec.toNat_inj]; exact h)
        rw [← BitVec.toNat_inj]
        change 3 = b.toNat
        omega

theorem GlyphSize.bits_inj {a b : GlyphSize} (h : a.bits = b.bits) : a = b := by
  have hn : a.bits.toNat = b.bits.toNat := by rw [h]
  cases a <;> cases b <;> simp [GlyphSize.bits] at hn ⊢

theorem append_toNat {v w : Nat} (a : BitVec v) (b : BitVec w) : (a ++ b).toNat = a.toNat * 2 ^ w + b.toNat := by
  rw [BitVec.toNat_append, Nat.shiftLeft_eq, ← Nat.shiftLeft_eq, ← Nat.shiftLeft_add_eq_or_of_lt b.isLt,
    Nat.shiftLeft_eq]

theorem twoBytes_toNat (hi lo : Byte) : (twoBytes hi lo).toNat = hi.toNat * 256 + lo.toNat :=
  append_toNat hi lo

/-- The fields of a glyph cell in the two bytes of its record (Formats). -/
theorem GlyphCell.ofBits_twoBytes (hi lo : Byte) :
    (GlyphCell.ofBits (twoBytes hi lo)).set = hi.extractLsb' 6 2 ∧
    (GlyphCell.ofBits (twoBytes hi lo)).code = hi.extractLsb' 0 6 ++ lo.extractLsb' 7 1 ∧
    (GlyphCell.ofBits (twoBytes hi lo)).foreground = lo.extractLsb' 4 3 ∧
    (GlyphCell.ofBits (twoBytes hi lo)).size.bits = lo.extractLsb' 2 2 ∧
    (GlyphCell.ofBits (twoBytes hi lo)).invert = lo.getLsbD 1 ∧
    (GlyphCell.ofBits (twoBytes hi lo)).flash = lo.getLsbD 0 := by
  have hh := hi.isLt
  have hl := lo.isLt
  refine ⟨?_, ?_, ?_, ?_, ?_, ?_⟩
  · rw [← BitVec.toNat_inj, Byte.field_toNat hi]
    change (BitVec.extractLsb' 14 2 (twoBytes hi lo)).toNat = _
    rw [Byte.field_toNat, twoBytes_toNat]
    omega
  · rw [← BitVec.toNat_inj, append_toNat, Byte.field_toNat hi, Byte.field_toNat lo]
    change (BitVec.extractLsb' 7 7 (twoBytes hi lo)).toNat = _
    rw [Byte.field_toNat, twoBytes_toNat]
    omega
  · rw [← BitVec.toNat_inj, Byte.field_toNat lo]
    change (BitVec.extractLsb' 4 3 (twoBytes hi lo)).toNat = _
    rw [Byte.field_toNat, twoBytes_toNat]
    omega
  · change (GlyphSize.ofBits (BitVec.extractLsb' 2 2 (twoBytes hi lo))).bits = _
    rw [GlyphSize.ofBits_bits, ← BitVec.toNat_inj, Byte.field_toNat, Byte.field_toNat, twoBytes_toNat]
    omega
  · change (twoBytes hi lo).getLsbD 1 = _
    rw [Byte.bit_eq, Byte.bit_eq, twoBytes_toNat]
    exact decide_eq_decide.2 (by omega)
  · change (twoBytes hi lo).getLsbD 0 = _
    rw [Byte.bit_eq, Byte.bit_eq, twoBytes_toNat]
    exact decide_eq_decide.2 (by omega)

theorem CellRecord.ofBits_glyph_iff (hi lo : Byte) (c : CellRecord) : CellRecord.ofBits false hi lo = some c ↔
    ∃ g, c = .glyph g ∧ g.set = hi.extractLsb' 6 2 ∧ g.code = hi.extractLsb' 0 6 ++ lo.extractLsb' 7 1 ∧
      g.foreground = lo.extractLsb' 4 3 ∧ g.size.bits = lo.extractLsb' 2 2 ∧ g.invert = lo.getLsbD 1 ∧
      g.flash = lo.getLsbD 0 := by
  have hfields := GlyphCell.ofBits_twoBytes hi lo
  have hbits : CellRecord.ofBits false hi lo = some (.glyph (GlyphCell.ofBits (twoBytes hi lo))) := rfl
  rw [hbits, Option.some_inj]
  constructor
  · rintro rfl
    exact ⟨_, rfl, hfields⟩
  · rintro ⟨⟨set, code, foreground, size, invert, flash⟩, rfl, hset, hcode, hfore, hsize, hinvert, hflash⟩
    obtain ⟨hset', hcode', hfore', hsize', hinvert', hflash'⟩ := hfields
    generalize GlyphCell.ofBits (twoBytes hi lo) = g at *
    obtain ⟨set', code', foreground', size', invert', flash'⟩ := g
    dsimp only at *
    have hs : size' = size := GlyphSize.bits_inj (hsize'.trans hsize.symm)
    rw [hset'.trans hset.symm, hcode'.trans hcode.symm, hfore'.trans hfore.symm, hs, hinvert'.trans hinvert.symm,
      hflash'.trans hflash.symm]

theorem rowDefaultOfByte_iff (b : Byte) (z : ZoneRecord) : rowDefaultOfByte b = some z ↔
    b.toNat < 32 ∧ z = ⟨b.extractLsb' 2 3, b.getLsbD 1, b.getLsbD 0⟩ := by
  unfold rowDefaultOfByte
  rw [Option.ite_none_right_eq_some, Byte.high_field_eq_zero b (k := 5) rfl, Option.some_inj, eq_comm (b := z)]
  rfl

/-! ### The five kinds of UPDATE -/

/-- The kind of an UPDATE stands in the top three bits of its first byte. -/
theorem parseUpdate_cons (b0 : Byte) (rest : List Byte) : parseUpdate (b0 :: rest) =
    if b0.toNat / 32 = 0 then parseCell b0 rest
    else if b0.toNat / 32 = 1 then parseRun b0 rest
    else if b0.toNat / 32 = 2 then parseFill b0 rest
    else if b0.toNat / 32 = 3 then parseRowdef b0 rest
    else if b0.toNat / 32 = 4 then parseRowclear b0 rest
    else none := by
  have hb := b0.isLt
  have hkind : (b0.extractLsb' 5 3).toNat = b0.toNat / 32 := by
    rw [Byte.field_toNat]
    omega
  unfold parseUpdate
  dsimp only
  rw [hkind]
  generalize b0.toNat / 32 = kind
  split <;> simp_all

/-- The payload of a CELL, after its kind. -/
theorem parseCell_iff (b0 : Byte) (rest : List Byte) (u : Update) (hkind : b0.toNat / 32 = 0) :
    parseCell b0 rest = some u ↔ ∃ z row col hi lo c,
      b0 :: rest = [if z then 0x01 else 0x00, row, col, hi, lo] ∧ CellRecord.ofBits z hi lo = some c ∧
      u = .cell row.toNat col.toNat c := by
  unfold parseCell
  split
  · rename_i row col hi lo
    rw [Option.ite_none_right_eq_some, Byte.field_eq_zero, Option.map_eq_some_iff]
    constructor
    · rintro ⟨hmid, c, hc, rfl⟩
      refine ⟨b0.getLsbD 0, row, col, hi, lo, c, ?_, hc, rfl⟩
      congr 1
      rw [Byte.bit_eq, ← BitVec.toNat_inj]
      by_cases hz : b0.toNat / 2 ^ 0 % 2 = 1
      · rw [decide_eq_true hz]; simp; omega
      · rw [decide_eq_false hz]; simp; omega
    · rintro ⟨z, row', col', hi', lo', c, hp, hc, rfl⟩
      cases hp
      cases z
      · exact ⟨rfl, c, hc, rfl⟩
      · exact ⟨rfl, c, hc, rfl⟩
  · rename_i hne
    refine ⟨nofun, ?_⟩
    rintro ⟨z, row, col, hi, lo, c, hp, -⟩
    cases hp
    exact absurd rfl (hne _ _ _ _)

/-- The cells of a RUN: record k, with the kind at bit k of the mask, gives cell k. -/
theorem runCells_iff (mask : BitVec 16) : ∀ (first : Nat) (records : List Byte) (cells : List CellRecord),
    runCells mask first records = some cells ↔ records.length = 2 * cells.length ∧
      ∀ k, k < cells.length → CellRecord.ofBits (mask.getLsbD (first + k)) (records.getD (2 * k) 0)
        (records.getD (2 * k + 1) 0) = cells[k]?
  | first, [], cells => by cases cells <;> simp [runCells]
  | first, [b], cells => by
    simp only [runCells, List.length_singleton, reduceCtorEq, false_iff, not_and]
    omega
  | first, hi :: lo :: rest, [] => by
    simp only [runCells]
    split <;> simp
  | first, hi :: lo :: rest, c :: cells => by
    have hcons : runCells mask first (hi :: lo :: rest) = some (c :: cells) ↔
        CellRecord.ofBits (mask.getLsbD first) hi lo = some c ∧ runCells mask (first + 1) rest = some cells := by
      simp only [runCells]
      split
      · rename_i c' cs' hc hcs
        rw [hc, hcs]
        simp
      · rename_i hnone
        exact ⟨nofun, fun ⟨hc, hcs⟩ => absurd hcs (hnone _ _ hc)⟩
    rw [hcons, runCells_iff mask (first + 1) rest cells]
    constructor
    · rintro ⟨hc, hlen, hrest⟩
      refine ⟨by simp only [List.length_cons]; omega, fun k hk => ?_⟩
      cases k with
      | zero => exact hc
      | succ k =>
        have hk' := hrest k (by simpa using hk)
        rw [show first + 1 + k = first + (k + 1) by omega] at hk'
        exact hk'
    · rintro ⟨hlen, hall⟩
      refine ⟨hall 0 (by simp), by simp only [List.length_cons] at hlen; omega, fun k hk => ?_⟩
      have hk' := hall (k + 1) (by simpa using hk)
      rw [show first + (k + 1) = first + 1 + k by omega] at hk'
      exact hk'

/-- No bit of a mask stands at a position beyond its cells. -/
theorem mask_lt_iff (mask : BitVec 16) (n : Nat) :
    mask.toNat < 2 ^ n ↔ ∀ k, 16 ≤ k ∨ n ≤ k → mask.getLsbD k = false := by
  constructor
  · rintro h k (hk | hk)
    · exact BitVec.getLsbD_of_ge mask k hk
    · exact Nat.testBit_lt_two_pow (lt_of_lt_of_le h (Nat.pow_le_pow_right (by omega) hk))
  · intro h
    exact Nat.lt_pow_two_of_testBit _ fun k hk => h k (.inr hk)

/-- The payload of a RUN, after its kind. -/
theorem parseRun_iff (b0 : Byte) (rest : List Byte) (u : Update) (hkind : b0.toNat / 32 = 1) :
    parseRun b0 rest = some u ↔ ∃ n row col maskHi maskLo records cells,
      b0 :: rest = BitVec.ofNat 8 (0x20 + n) :: row :: col :: maskHi :: maskLo :: records ∧
      1 ≤ n ∧ n ≤ 16 ∧ records.length = 2 * n ∧ cells.length = n ∧
      (∀ k, 16 ≤ k ∨ n ≤ k → (maskHi ++ maskLo).getLsbD k = false) ∧
      (∀ k, k < n → CellRecord.ofBits ((maskHi ++ maskLo).getLsbD k) (records.getD (2 * k) 0)
        (records.getD (2 * k + 1) 0) = cells[k]?) ∧ u = .run row.toNat col.toNat cells := by
  unfold parseRun
  split
  · rename_i row col maskHi maskLo records
    dsimp only
    rw [Option.ite_none_right_eq_some, Byte.field_toNat, Option.map_eq_some_iff, mask_lt_iff]
    have hcells := runCells_iff (twoBytes maskHi maskLo) 0 records
    simp only [Nat.zero_add] at hcells
    constructor
    · rintro ⟨⟨hone, hmost, hlen, hmask⟩, cells, hrun, rfl⟩
      obtain ⟨hlen', hrec⟩ := (hcells cells).1 hrun
      have hn : cells.length = b0.toNat / 2 ^ 0 % 2 ^ 5 := by omega
      refine ⟨b0.toNat / 2 ^ 0 % 2 ^ 5, row, col, maskHi, maskLo, records, cells, ?_, hone, hmost, hlen, hn, hmask,
        fun k hk => hrec k (by omega), rfl⟩
      congr 1
      rw [Byte.eq_ofNat_iff] <;> omega
    · rintro ⟨n, row', col', maskHi', maskLo', records', cells, hp, hone, hmost, hlen, hn, hmask, hrec, rfl⟩
      simp only [List.cons.injEq] at hp
      obtain ⟨h0, rfl, rfl, rfl, rfl, rfl⟩ := hp
      rw [Byte.eq_ofNat_iff _ (by omega)] at h0
      have hlow : b0.toNat / 2 ^ 0 % 2 ^ 5 = n := by omega
      rw [hlow]
      exact ⟨⟨hone, hmost, hlen, hmask⟩, cells, (hcells cells).2 ⟨by omega, fun k hk => hrec k (by omega)⟩, rfl⟩
  · rename_i hne
    refine ⟨nofun, ?_⟩
    rintro ⟨n, row, col, maskHi, maskLo, records, cells, hp, -⟩
    cases hp
    exact absurd rfl (hne _ _ _ _ _)

/-- A byte whose bits are named one by one: the kind of a FILL with its two flags. -/
theorem fillKind_toNat (z long : Bool) :
    ((0x40 : Byte) ||| (if z then 0x02 else 0x00) ||| (if long then 0x01 else 0x00)).toNat =
      64 + (if z then 2 else 0) + if long then 1 else 0 := by
  cases z <;> cases long <;> rfl

/-- The payload of a FILL, after its kind. -/
theorem parseFill_iff (b0 : Byte) (rest : List Byte) (u : Update) (hkind : b0.toNat / 32 = 2) :
    parseFill b0 rest = some u ↔ ∃ z long row col count hi lo c, b0 :: rest =
        [0x40 ||| (if z then 0x02 else 0x00) ||| (if long then 0x01 else 0x00), row, col, count, hi, lo] ∧
      (long = true ∨ count ≠ 0) ∧ CellRecord.ofBits z hi lo = some c ∧
      u = .fill row.toNat col.toNat ((if long then 256 else 0) + count.toNat) c := by
  unfold parseFill
  split
  · rename_i row col count hi lo
    dsimp only
    rw [Option.ite_none_right_eq_some, Byte.field_eq_zero, Option.map_eq_some_iff]
    have hcount : ∀ long : Bool, (if long = true then 256 else 0) + count.toNat ≠ 0 ↔ long = true ∨ count ≠ 0 := by
      intro long
      cases long
      · rw [ne_eq, ne_eq, ← BitVec.toNat_inj]
        simp
      · simp
    constructor
    · rintro ⟨⟨hmid, hn⟩, c, hc, rfl⟩
      refine ⟨b0.getLsbD 1, b0.getLsbD 0, row, col, count, hi, lo, c, ?_, (hcount _).1 hn, hc, rfl⟩
      congr 1
      rw [← BitVec.toNat_inj, fillKind_toNat, Byte.bit_eq, Byte.bit_eq]
      simp only [decide_eq_true_eq]
      split <;> split <;> omega
    · rintro ⟨z, long, row', col', count', hi', lo', c, hp, hn, hc, rfl⟩
      simp only [List.cons.injEq, and_true] at hp
      obtain ⟨h0, rfl, rfl, rfl, rfl, rfl⟩ := hp
      rw [← BitVec.toNat_inj, fillKind_toNat] at h0
      have hz : b0.getLsbD 1 = z := by
        rw [Byte.bit_eq, h0]
        cases z <;> cases long <;> rfl
      have hlong : b0.getLsbD 0 = long := by
        rw [Byte.bit_eq, h0]
        cases z <;> cases long <;> rfl
      rw [hz, hlong, h0]
      refine ⟨⟨?_, (hcount long).2 hn⟩, c, hc, rfl⟩
      cases z <;> cases long <;> rfl
  · rename_i hne
    refine ⟨nofun, ?_⟩
    rintro ⟨z, long, row, col, count, hi, lo, c, hp, -⟩
    cases hp
    exact absurd rfl (hne _ _ _ _ _)

/-- The payload of a ROWDEF, after its kind. -/
theorem parseRowdef_iff (b0 : Byte) (rest : List Byte) (u : Update) (hkind : b0.toNat / 32 = 3) :
    parseRowdef b0 rest = some u ↔ ∃ row d, b0 :: rest = [0x60, row, d] ∧ d.toNat < 32 ∧
      u = .rowdef row.toNat ⟨d.extractLsb' 2 3, d.getLsbD 1, d.getLsbD 0⟩ := by
  unfold parseRowdef
  split
  · rename_i row d
    rw [Option.ite_none_right_eq_some, Byte.field_eq_zero, Option.map_eq_some_iff]
    constructor
    · rintro ⟨hlow, z, hz, rfl⟩
      obtain ⟨hd, rfl⟩ := (rowDefaultOfByte_iff d z).1 hz
      refine ⟨row, d, ?_, hd, rfl⟩
      congr 1
      rw [← BitVec.toNat_inj]
      change b0.toNat = 0x60
      omega
    · rintro ⟨row', d', hp, hd, rfl⟩
      cases hp
      exact ⟨rfl, _, (rowDefaultOfByte_iff d _).2 ⟨hd, rfl⟩, rfl⟩
  · rename_i hne
    refine ⟨nofun, ?_⟩
    rintro ⟨row, d, hp, -⟩
    cases hp
    exact absurd rfl (hne _ _)

/-- The payload of a ROWCLEAR, after its kind. -/
theorem parseRowclear_iff (b0 : Byte) (rest : List Byte) (u : Update) (hkind : b0.toNat / 32 = 4) :
    parseRowclear b0 rest = some u ↔ ∃ z row d hi lo c, b0 :: rest = [if z then 0x81 else 0x80, row, d, hi, lo] ∧
      d.toNat < 32 ∧ CellRecord.ofBits z hi lo = some c ∧
      u = .rowclear row.toNat ⟨d.extractLsb' 2 3, d.getLsbD 1, d.getLsbD 0⟩ c := by
  unfold parseRowclear
  split
  · rename_i row d hi lo
    rw [Option.ite_none_right_eq_some, Byte.field_eq_zero]
    constructor
    · rintro ⟨hmid, hu⟩
      split at hu
      · rename_i z c hz hc
        obtain ⟨hd, rfl⟩ := (rowDefaultOfByte_iff d z).1 hz
        refine ⟨b0.getLsbD 0, row, d, hi, lo, c, ?_, hd, hc, (Option.some.inj hu).symm⟩
        congr 1
        rw [Byte.bit_eq, ← BitVec.toNat_inj]
        by_cases hbit : b0.toNat / 2 ^ 0 % 2 = 1
        · rw [decide_eq_true hbit]; simp; omega
        · rw [decide_eq_false hbit]; simp; omega
      · cases hu
    · rintro ⟨z, row', d', hi', lo', c, hp, hd, hc, rfl⟩
      cases hp
      have hdef := (rowDefaultOfByte_iff d _).2 ⟨hd, rfl⟩
      have hbit : (if z = true then (0x81 : Byte) else 0x80).getLsbD 0 = z := by cases z <;> rfl
      refine ⟨by cases z <;> rfl, ?_⟩
      rw [hbit, hdef, hc]
  · rename_i hne
    refine ⟨nofun, ?_⟩
    rintro ⟨z, row, d, hi, lo, c, hp, -⟩
    cases hp
    exact absurd rfl (hne _ _ _ _)

/-- The payload of an UPDATE: one of the five kinds (R45, R199). -/
theorem parseUpdate_iff (payload : List Byte) (u : Update) : parseUpdate payload = some u ↔
    (∃ z row col hi lo c, payload = [if z then 0x01 else 0x00, row, col, hi, lo] ∧
      CellRecord.ofBits z hi lo = some c ∧ u = .cell row.toNat col.toNat c) ∨
    (∃ n row col maskHi maskLo records cells,
      payload = BitVec.ofNat 8 (0x20 + n) :: row :: col :: maskHi :: maskLo :: records ∧
      1 ≤ n ∧ n ≤ 16 ∧ records.length = 2 * n ∧ cells.length = n ∧
      (∀ k, 16 ≤ k ∨ n ≤ k → (maskHi ++ maskLo).getLsbD k = false) ∧
      (∀ k, k < n → CellRecord.ofBits ((maskHi ++ maskLo).getLsbD k) (records.getD (2 * k) 0)
        (records.getD (2 * k + 1) 0) = cells[k]?) ∧ u = .run row.toNat col.toNat cells) ∨
    (∃ z long row col count hi lo c, payload =
        [0x40 ||| (if z then 0x02 else 0x00) ||| (if long then 0x01 else 0x00), row, col, count, hi, lo] ∧
      (long = true ∨ count ≠ 0) ∧ CellRecord.ofBits z hi lo = some c ∧
      u = .fill row.toNat col.toNat ((if long then 256 else 0) + count.toNat) c) ∨
    (∃ row d, payload = [0x60, row, d] ∧ d.toNat < 32 ∧
      u = .rowdef row.toNat ⟨d.extractLsb' 2 3, d.getLsbD 1, d.getLsbD 0⟩) ∨
    ∃ z row d hi lo c, payload = [if z then 0x81 else 0x80, row, d, hi, lo] ∧ d.toNat < 32 ∧
      CellRecord.ofBits z hi lo = some c ∧
      u = .rowclear row.toNat ⟨d.extractLsb' 2 3, d.getLsbD 1, d.getLsbD 0⟩ c := by
  cases payload with
  | nil => simp [parseUpdate]
  | cons b0 rest =>
    rw [parseUpdate_cons]
    constructor
    · intro h
      split at h
      · rename_i hk
        exact .inl ((parseCell_iff b0 rest u hk).1 h)
      · split at h
        · rename_i hk
          exact .inr (.inl ((parseRun_iff b0 rest u hk).1 h))
        · split at h
          · rename_i hk
            exact .inr (.inr (.inl ((parseFill_iff b0 rest u hk).1 h)))
          · split at h
            · rename_i hk
              exact .inr (.inr (.inr (.inl ((parseRowdef_iff b0 rest u hk).1 h))))
            · split at h
              · rename_i hk
                exact .inr (.inr (.inr (.inr ((parseRowclear_iff b0 rest u hk).1 h))))
              · cases h
    · rintro (h | h | h | h | h)
      · have hk : b0.toNat / 32 = 0 := by
          obtain ⟨z, row, col, hi, lo, c, hp, -⟩ := h
          rw [(List.cons.inj hp).1]
          cases z <;> rfl
        rw [if_pos hk]
        exact (parseCell_iff b0 rest u hk).2 h
      · have hk : b0.toNat / 32 = 1 := by
          obtain ⟨n, row, col, maskHi, maskLo, records, cells, hp, hone, hmost, -⟩ := h
          have h0 := (Byte.eq_ofNat_iff b0 (by omega)).1 (List.cons.inj hp).1
          omega
        rw [hk]
        exact (parseRun_iff b0 rest u hk).2 h
      · have hk : b0.toNat / 32 = 2 := by
          obtain ⟨z, long, row, col, count, hi, lo, c, hp, -⟩ := h
          rw [(List.cons.inj hp).1, fillKind_toNat]
          cases z <;> cases long <;> rfl
        rw [hk]
        exact (parseFill_iff b0 rest u hk).2 h
      · have hk : b0.toNat / 32 = 3 := by
          obtain ⟨row, d, hp, -⟩ := h
          rw [(List.cons.inj hp).1]
          rfl
        rw [hk]
        exact (parseRowdef_iff b0 rest u hk).2 h
      · have hk : b0.toNat / 32 = 4 := by
          obtain ⟨z, row, d, hi, lo, c, hp, -⟩ := h
          rw [(List.cons.inj hp).1]
          cases z <;> rfl
        rw [hk]
        exact (parseRowclear_iff b0 rest u hk).2 h

/-! ### The layout of a class -/

/-- The classes are eight. -/
theorem parseMessage_class (cls : BitVec 3) (payload : List Byte) {msg : Message}
    (h : parseMessage cls payload = some msg) :
    cls = 0 ∧ parseBeacon payload = some msg ∨ cls = 1 ∧ parseReady payload = some msg ∨
    cls = 2 ∧ parseSeal payload = some msg ∨ cls = 3 ∧ parseRoster payload = some msg ∨
    (cls = 4 ∧ ∃ u, parseUpdate payload = some u ∧ msg = .update u) ∨ cls = 5 ∧ parseGlyph payload = some msg := by
  unfold parseMessage at h
  have hcls : ∀ n : Nat, n < 8 → cls.toNat = n → cls = BitVec.ofNat 3 n := fun n hn hc => by
    rw [← BitVec.toNat_inj, hc, BitVec.toNat_ofNat, Nat.mod_eq_of_lt hn]
  split at h
  · rename_i hc
    exact .inl ⟨hcls 0 (by omega) hc, h⟩
  · rename_i hc
    exact .inr (.inl ⟨hcls 1 (by omega) hc, h⟩)
  · rename_i hc
    exact .inr (.inr (.inl ⟨hcls 2 (by omega) hc, h⟩))
  · rename_i hc
    exact .inr (.inr (.inr (.inl ⟨hcls 3 (by omega) hc, h⟩)))
  · rename_i hc
    obtain ⟨u, hu, hmsg⟩ := Option.map_eq_some_iff.1 h
    exact .inr (.inr (.inr (.inr (.inl ⟨hcls 4 (by omega) hc, u, hu, hmsg.symm⟩))))
  · rename_i hc
    exact .inr (.inr (.inr (.inr (.inr ⟨hcls 5 (by omega) hc, h⟩))))
  · cases h

/-- No layout has more than 40 bytes (Formats). -/
theorem parseMessage_length {cls : BitVec 3} {payload : List Byte} {msg : Message}
    (h : parseMessage cls payload = some msg) : payload.length ≤ 40 := by
  rcases parseMessage_class cls payload h with ⟨-, h⟩ | ⟨-, h⟩ | ⟨-, h⟩ | ⟨-, h⟩ | ⟨-, u, h, -⟩ | ⟨-, h⟩
  · obtain ⟨hi, lo, g, flags, rfl, -⟩ := (parseBeacon_iff _ _).1 h
    simp
  · obtain ⟨g, rfl, -⟩ := (parseReady_iff _ _).1 h
    simp
  · obtain ⟨g, flags, bytes, rfl, -, ⟨-, rfl, -⟩ | ⟨-, hlen, -⟩⟩ := (parseSeal_iff _ _).1 h
    · simp
    · simp only [List.length_cons]; omega
  · obtain ⟨w, hh, p, rfl, -⟩ | ⟨rfl, -⟩ | ⟨rfl, -⟩ | ⟨rfl, -⟩ := (parseRoster_iff _ _).1 h <;> simp
  · rcases (parseUpdate_iff _ _).1 h with ⟨z, row, col, hi, lo, c, rfl, -⟩ |
      ⟨n, row, col, maskHi, maskLo, records, cells, rfl, -, hmost, hlen, -⟩ |
      ⟨z, long, row, col, count, hi, lo, c, rfl, -⟩ | ⟨row, d, rfl, -⟩ | ⟨z, row, d, hi, lo, c, rfl, -⟩
    · simp
    · simp only [List.length_cons]; omega
    · simp
    · simp
    · simp
  · obtain ⟨set, code, first, patterns, rfl, -, hfit, -⟩ := (parseGlyph_iff _ _).1 h
    simp only [List.length_cons]; omega

end Sys2Proof.Machine
end

section
/-! PROOFS. Which payloads fit the layout of their class. -/

namespace Sys2Proof.Proofs

open Sys2Proof.Machine

/-- Settles O22: class by class, each parser is read off its layout. -/
theorem payloadsFollowLayouts : Obligations.PayloadsFollowLayouts := by
  refine ⟨parseBeacon_iff, parseReady_iff, parseSeal_iff, parseRoster_iff, parseGlyph_iff, fun _ => ⟨rfl, rfl⟩,
    fun cls payload hlen => ?_, fun isZone hi lo c => ?_, fun payload msg => ?_⟩
  · cases h : parseMessage cls payload with
    | none => rfl
    | some msg => exact absurd (parseMessage_length h) (by omega)
  · cases isZone
    · simp only [CellRecord.ofBits_glyph_iff, Bool.false_eq_true, false_and, true_and, false_or]
    · simp only [CellRecord.ofBits_zone_iff, Bool.true_eq_false, false_and, true_and, or_false]
  · have hclass : parseMessage 4 payload = (parseUpdate payload).map .update := rfl
    rw [hclass, Option.map_eq_some_iff]
    constructor
    · rintro ⟨u, hu, rfl⟩
      exact ⟨u, rfl, (parseUpdate_iff payload u).1 hu⟩
    · rintro ⟨u, rfl, hu⟩
      exact ⟨u, (parseUpdate_iff payload u).2 hu, rfl⟩

end Sys2Proof.Proofs
end

section
/-! SUPPORT. The roster entries: what each change of the roster makes of an entry (R30 to R38). -/

namespace Sys2Proof.Machine

theorem rosterHeard_entry (r : Roster) (n k : Station) : (rosterHeard r n)[k].state = r[k].state ∧
    (rosterHeard r n)[k].joinFrame = r[k].joinFrame ∧ (k ≠ n → (rosterHeard r n)[k] = r[k]) := by
  rw [rosterHeard, getFin_set]
  split
  · rename_i hk
    subst hk
    exact ⟨rfl, rfl, fun h => absurd rfl h⟩
  · exact ⟨rfl, rfl, fun _ => rfl⟩

theorem rosterJoin_entry (r : Roster) (n : Station) (fn : FrameNumber) (k : Station) :
    (rosterJoin r n fn)[k] = if k = n then ⟨.joining, 0, some fn⟩ else r[k] := by
  rw [rosterJoin, getFin_set]
  simp only [eq_comm]

theorem rosterLeave_entry (r : Roster) (n k : Station) :
    (rosterLeave r n)[k] = if k = n then { r[n] with state := .absent, joinFrame := none } else r[k] := by
  rw [rosterLeave, getFin_set]
  simp only [eq_comm]

/-- The entry of the station that left is Absent (R33). -/
theorem rosterLeave_self (r : Roster) (n : Station) : (rosterLeave r n)[n].state = .absent := by
  rw [rosterLeave_entry, if_pos rfl]

theorem rosterPresence_entry (r : Roster) (n k : Station) : (rosterPresence r n)[k] =
    if k = n ∧ r[n].state = .absent then { r[n] with state := .member, joinFrame := none } else r[k] := by
  unfold rosterPresence
  split
  · rename_i ha
    rw [getFin_set]
    simp only [ha, and_true, eq_comm]
  · rename_i ha
    exact (if_neg fun h => ha h.2).symm

/-- The stations the flip timeout names are those that lag (R21). -/
theorem State.timeoutNames_lags (s : State) (n : Station) : (timeoutNames s.roster s.gen)[n] = s.lags n := by
  rw [timeoutNames, getFin_tabulate]
  rfl

/-- A required station's entry is Joining or Member (R9). -/
theorem State.isLive_of_required {s : State} {n : Station} (h : s.requirementSet[n] = true) :
    s.roster[n].isLive = true := by
  unfold State.requirementSet Machine.requirementSet at h
  rw [getFin_tabulate] at h
  unfold RosterEntry.isLive
  generalize s.roster[n].state = e at h ⊢
  cases e <;> simp at h ⊢

theorem rosterPromote_entry (s : State) (n : Station) :
    (rosterPromote s.roster s.gen.baseline)[n] = s.roster[n].afterPromotion (s.gen.inBaseline n) := by
  rw [rosterPromote, getFin_tabulate]
  unfold RosterEntry.afterPromotion GenerationRecord.inBaseline
  cases s.gen.baseline <;> simp

/-- Silence counting is what an acceptance makes of an entry the flip timeout does not name (R36). -/
theorem RosterEntry.counted_eq (e : RosterEntry) (isSender : Bool) : e.counted isSender = e.afterBeacon isSender false := by
  unfold RosterEntry.counted RosterEntry.afterBeacon RosterEntry.isLive
  cases isSender with
  | true => rfl
  | false =>
    simp only [Bool.false_eq_true, if_false, Bool.or_eq_true, beq_iff_eq]
    split
    · by_cases h : e.silence + 1 < 48
      · rw [if_pos h, if_pos (by omega)]
      · rw [if_neg h, if_neg (by omega)]
    · rfl

/-- The flip timeout makes a live entry Silent, its silence count left as counted (R37). -/
theorem RosterEntry.counted_timedOut {e : RosterEntry} (h : e.isLive = true) (isSender : Bool) :
    { e.counted isSender with state := .silent, joinFrame := none } = e.afterBeacon isSender true := by
  unfold RosterEntry.counted RosterEntry.afterBeacon
  have hlive : e.state = .joining ∨ e.state = .member := by
    simpa [RosterEntry.isLive] using h
  cases isSender with
  | true => rfl
  | false =>
    simp only [Bool.false_eq_true, if_false, if_true, if_pos hlive]
    split <;> rfl

/-- The flip timeout is ordered only where the station does not flip (R21). -/
theorem State.flipsAt_of_timesOutAt {s : State} {m : BeaconFields} (h : s.timesOutAt m = true) :
    s.flipsAt m = false := by
  unfold State.timesOutAt at h
  unfold State.flipsAt
  simp only [Bool.and_eq_true, Bool.not_eq_true'] at h
  rw [h.1.1, Bool.false_and]

/-- A roster entry after an acceptance (R36 to R38). -/
theorem State.rosterAt_entry (s : State) (sender : Station) (m : BeaconFields) (n : Station) :
    (s.rosterAt sender m)[n] =
      (if s.flipsAt m then s.roster[n].afterPromotion (s.gen.inBaseline n) else s.roster[n]).afterBeacon
        (decide (n = sender)) (s.timesOutAt m && s.lags n) := by
  have hcount : ∀ r : Roster, (rosterCount r sender)[n] = r[n].counted (decide (n = sender)) := fun r => by
    rw [rosterCount, getFin_tabulate]
  have htimeOut : ∀ (r : Roster) (names : StationSet), (rosterTimeOut r names)[n] =
      if names[n] then { r[n] with state := .silent, joinFrame := none } else r[n] := fun r names => by
    rw [rosterTimeOut, getFin_tabulate]
  unfold State.rosterAt
  dsimp only
  by_cases ht : s.timesOutAt m = true
  · simp only [ht, s.flipsAt_of_timesOutAt ht, Bool.false_eq_true, if_false, if_true, Bool.true_and]
    rw [htimeOut, s.timeoutNames_lags, hcount]
    cases hn : s.lags n with
    | true =>
      unfold State.lags at hn
      simp only [Bool.and_eq_true] at hn
      exact RosterEntry.counted_timedOut (s.isLive_of_required hn.1) _
    | false => exact RosterEntry.counted_eq _ _
  · rw [Bool.not_eq_true] at ht
    simp only [ht, Bool.false_eq_true, if_false, Bool.false_and]
    rw [hcount, RosterEntry.counted_eq]
    split
    · rw [rosterPromote_entry]
    · rfl

/-- An acceptance leaves an entry's state alone or makes it Silent. -/
theorem RosterEntry.afterBeacon_state (e : RosterEntry) (isSender named : Bool) :
    (e.afterBeacon isSender named).state = e.state ∨ (e.afterBeacon isSender named).state = .silent := by
  unfold RosterEntry.afterBeacon
  split
  · exact .inr rfl
  · split
    · exact .inl rfl
    · split
      · split
        · exact .inl rfl
        · exact .inr rfl
      · exact .inl rfl

/-- The state of an entry after an acceptance: as before, Silent, or promoted at a flip (R36 to R38). -/
theorem State.rosterAt_state (s : State) (sender : Station) (m : BeaconFields) (n : Station) :
    (s.rosterAt sender m)[n].state = s.roster[n].state ∨ (s.rosterAt sender m)[n].state = .silent ∨
    (s.flipsAt m = true ∧ s.roster[n].state = .joining ∧ (s.rosterAt sender m)[n].state = .member) := by
  rw [s.rosterAt_entry]
  split
  · rename_i hflip
    have hstate := (s.roster[n].afterPromotion (s.gen.inBaseline n)).afterBeacon_state (decide (n = sender))
      (s.timesOutAt m && s.lags n)
    unfold RosterEntry.afterPromotion at hstate ⊢
    split at hstate
    · rename_i hjoin
      rw [if_pos hjoin]
      rcases hstate with h | h
      · exact .inr (.inr ⟨hflip, hjoin.1, h⟩)
      · exact .inr (.inl h)
    · rename_i hjoin
      rw [if_neg hjoin]
      exact hstate.imp_right .inl
  · exact (RosterEntry.afterBeacon_state _ _ _).imp_right .inl

/-! ### What READY, a change of the roster and presence counting leave of the interface (R13, R41) -/

@[simp] theorem State.evaluateReady_bus_keeps (s : State) :
    s.evaluateReady.bus.synchronised = s.bus.synchronised ∧
    s.evaluateReady.bus.beaconPending = s.bus.beaconPending ∧ s.evaluateReady.bus.leavePending = s.bus.leavePending ∧
    s.evaluateReady.bus.joinPending = s.bus.joinPending ∧
    s.evaluateReady.bus.presencePending = s.bus.presencePending ∧
    s.evaluateReady.bus.leaveAttempts = s.bus.leaveAttempts ∧ s.evaluateReady.bus.feedQueue = s.bus.feedQueue ∧
    s.evaluateReady.bus.consecutiveSpoils = s.bus.consecutiveSpoils ∧
    s.evaluateReady.bus.inFlight = s.bus.inFlight := by
  unfold State.evaluateReady
  split <;> simp

@[simp] theorem State.changeRoster_bus_keeps (s : State) (st : StationState) (r : Roster) :
    (s.changeRoster st r).bus.synchronised = s.bus.synchronised ∧
    (s.changeRoster st r).bus.beaconPending = s.bus.beaconPending ∧
    (s.changeRoster st r).bus.leavePending = s.bus.leavePending ∧
    (s.changeRoster st r).bus.joinPending = s.bus.joinPending ∧
    (s.changeRoster st r).bus.presencePending = s.bus.presencePending ∧
    (s.changeRoster st r).bus.leaveAttempts = s.bus.leaveAttempts ∧
    (s.changeRoster st r).bus.feedQueue = s.bus.feedQueue ∧
    (s.changeRoster st r).bus.consecutiveSpoils = s.bus.consecutiveSpoils ∧
    (s.changeRoster st r).bus.inFlight = s.bus.inFlight := by
  unfold State.changeRoster
  dsimp only
  simp

@[simp] theorem State.changeRoster_sets (s : State) (st : StationState) (r : Roster) :
    (s.changeRoster st r).roster = r ∧
    (s.changeRoster st r).events = s.events.postAll s.timer.frameNumber (rosterEvents s.roster r) := by
  unfold State.changeRoster
  dsimp only
  simp

@[simp] theorem State.countPresence_bus_keeps (s : State) (own promoted : Bool) :
    (s.countPresence own promoted).bus.synchronised = s.bus.synchronised ∧
    (s.countPresence own promoted).bus.beaconPending = s.bus.beaconPending ∧
    (s.countPresence own promoted).bus.readyPending = s.bus.readyPending ∧
    (s.countPresence own promoted).bus.leavePending = s.bus.leavePending ∧
    (s.countPresence own promoted).bus.joinPending = s.bus.joinPending ∧
    (s.countPresence own promoted).bus.leaveAttempts = s.bus.leaveAttempts ∧
    (s.countPresence own promoted).bus.feedQueue = s.bus.feedQueue ∧
    (s.countPresence own promoted).bus.consecutiveSpoils = s.bus.consecutiveSpoils ∧
    (s.countPresence own promoted).bus.inFlight = s.bus.inFlight :=
  ⟨rfl, rfl, rfl, rfl, rfl, rfl, rfl, rfl, rfl⟩

/-! ### A beacon acceptance that passes the lockstep check (R164) -/

/-- The station at a beacon acceptance before apply resumes: the roster, the record and the queue, the swap, presence
counting, the new display frame and the start of catch-up are done. `before` is the station the BEACON is judged
against. -/
def State.prepared (s before : State) (st : StationState) (own : Bool) (sender : Station) (m : BeaconFields) : State :=
  ((((s.wallWork before st sender m).swapIf (before.swapsAt sender m)).countPresence own
    (before.promotedAt sender m)).newFrame (before.swapsAt sender m)).copyIf (before.swapsAt sender m)
    (before.promotedAt sender m)

theorem State.actOnBeacon_of_silenced {before : State} {sender : Station} {m : BeaconFields}
    (h : before.silencedAt sender m = true) (s : State) (st : StationState) (own : Bool) :
    s.actOnBeacon before st own sender m = ((s.wallWork before st sender m).withdraw .silenced).newFrame false := by
  unfold State.actOnBeacon
  dsimp only
  rw [if_pos h]

theorem State.actOnBeacon_of_heard {before : State} {sender : Station} {m : BeaconFields}
    (h : before.silencedAt sender m = false) (s : State) (st : StationState) (own : Bool) :
    s.actOnBeacon before st own sender m = ((s.prepared before st own sender m).resumeApply.evaluateReady.tellPromotion st
      (before.promotedAt sender m)).grantRace := by
  unfold State.actOnBeacon
  dsimp only
  rw [if_neg (by rw [h]; exact Bool.false_ne_true)]
  rfl

/-- The three outcomes of a BEACON accepted in Joining, Member or Leaving (R39, R164, R165). -/
theorem State.acceptBeacon_cases (s : State) (st : StationState) (own : Bool) (sender : Station) (m : BeaconFields) :
    s.inStep sender m = false ∧ s.acceptBeacon st own sender m = ((s.takeBeacon m).withdraw .outOfStep).newFrame false ∨
    s.inStep sender m = true ∧ s.silencedAt sender m = true ∧ s.acceptBeacon st own sender m =
      (((s.takeBeacon m).wallWork s st sender m).withdraw .silenced).newFrame false ∨
    s.inStep sender m = true ∧ s.silencedAt sender m = false ∧ s.acceptBeacon st own sender m =
      (((s.takeBeacon m).prepared s st own sender m).resumeApply.evaluateReady.tellPromotion st
        (s.promotedAt sender m)).grantRace := by
  unfold State.acceptBeacon
  dsimp only
  cases hin : s.inStep sender m with
  | false => exact .inl ⟨rfl, rfl⟩
  | true =>
    cases hs : s.silencedAt sender m with
    | true => exact .inr (.inl ⟨rfl, rfl, State.actOnBeacon_of_silenced hs _ _ _⟩)
    | false => exact .inr (.inr ⟨rfl, rfl, State.actOnBeacon_of_heard hs _ _ _⟩)

/-- The swap and what follows it leave the wall's state and the apply engine to the part before (R71, R94, R111). -/
@[simp] theorem State.prepared_keeps (s before : State) (st : StationState) (own : Bool) (sender : Station)
    (m : BeaconFields) :
    (s.prepared before st own sender m).life = (s.wallWork before st sender m).life ∧
    (s.prepared before st own sender m).resetPinLow = s.resetPinLow ∧
    (s.prepared before st own sender m).straps = s.straps ∧ (s.prepared before st own sender m).config = s.config ∧
    (s.prepared before st own sender m).withdrawReason = s.withdrawReason ∧
    (s.prepared before st own sender m).gen = (s.wallWork before st sender m).gen ∧
    (s.prepared before st own sender m).roster = (s.wallWork before st sender m).roster ∧
    (s.prepared before st own sender m).clashRecord = s.clashRecord ∧
    (s.prepared before st own sender m).updateQueue = (s.wallWork before st sender m).updateQueue ∧
    (s.prepared before st own sender m).applyEngine = s.applyEngine ∧
    (s.prepared before st own sender m).bufferX = s.bufferX ∧ (s.prepared before st own sender m).bufferY = s.bufferY ∧
    (s.prepared before st own sender m).leftTable = s.leftTable ∧
    (s.prepared before st own sender m).glyphMemory = s.glyphMemory ∧
    (s.prepared before st own sender m).timer = s.timer ∧ (s.prepared before st own sender m).port = s.port ∧
    (s.prepared before st own sender m).transaction = s.transaction ∧
    (s.prepared before st own sender m).dataOut = s.dataOut ∧
    (s.prepared before st own sender m).counters = (s.wallWork before st sender m).counters ∧
    (s.prepared before st own sender m).bus.synchronised = (s.wallWork before st sender m).bus.synchronised ∧
    (s.prepared before st own sender m).bus.beaconPending = (s.wallWork before st sender m).bus.beaconPending ∧
    (s.prepared before st own sender m).bus.readyPending = (s.wallWork before st sender m).bus.readyPending ∧
    (s.prepared before st own sender m).bus.leavePending = (s.wallWork before st sender m).bus.leavePending ∧
    (s.prepared before st own sender m).bus.joinPending = (s.wallWork before st sender m).bus.joinPending ∧
    (s.prepared before st own sender m).bus.leaveAttempts = (s.wallWork before st sender m).bus.leaveAttempts ∧
    (s.prepared before st own sender m).bus.feedQueue = (s.wallWork before st sender m).bus.feedQueue ∧
    (s.prepared before st own sender m).bus.consecutiveSpoils = (s.wallWork before st sender m).bus.consecutiveSpoils ∧
    (s.prepared before st own sender m).bus.inFlight = (s.wallWork before st sender m).bus.inFlight ∧
    (s.prepared before st own sender m).pending = s.pending := by
  unfold State.prepared
  simp

/-- Without a flip there is no swap, and catch-up goes on as it was (R71, R75). -/
theorem State.swapsAt_of_no_flip {s : State} {m : BeaconFields} (h : s.flipsAt m = false) (sender : Station) :
    s.swapsAt sender m = false := by
  unfold State.swapsAt
  rw [h, Bool.false_and]

theorem State.prepared_catchUp_of_no_swap (s : State) {before : State} {sender : Station} {m : BeaconFields}
    (h : before.swapsAt sender m = false) (st : StationState) (own : Bool) :
    (s.prepared before st own sender m).catchUp = s.catchUp := by
  unfold State.prepared State.copyIf
  rw [h, if_neg Bool.false_ne_true]
  simp

/-! ### What the interface chooses to send (R149) -/

/-- The choice is the first item of the order that the table allows and that the interface holds (R149). -/
theorem State.chooseItem_eq_find {s : State} {st : StationState} (h : s.life = .running st) :
    s.chooseItem = sendOrder.find? fun i => i.allowedIn st && s.bus.holds i := by
  unfold State.chooseItem sendOrder
  rw [h]
  cases st <;> simp only [List.find?, Item.allowedIn, BusInterface.holds, Bool.true_and, Bool.false_and] <;>
    cases s.bus.beaconPending <;> cases s.bus.readyPending <;> cases s.bus.leavePending <;>
    cases s.bus.joinPending <;> cases s.bus.presencePending <;> cases s.bus.feedQueue <;> rfl

/-- An item that is chosen is allowed in the station state and held (R147 to R149). -/
theorem State.chooseItem_some {s : State} {item : Item} (h : s.chooseItem = some item) :
    ∃ st, s.life = .running st ∧ item.allowedIn st = true ∧ s.bus.holds item = true := by
  cases hl : s.life with
  | running st =>
    rw [State.chooseItem_eq_find hl] at h
    have hfound := List.find?_some h
    simp only [Bool.and_eq_true] at hfound
    exact ⟨st, rfl, hfound⟩
  | unpowered | heldInReset | readingConfiguration => simp [State.chooseItem, hl] at h

end Sys2Proof.Machine
end

section
/-! SUPPORT. The station's own frames and its own roster entry (R39, R147, R150, R154). -/

namespace Sys2Proof.Machine

/-! ### Whose frame it is (R154 to R156) -/

theorem State.ownership_own {s : State} {cls : BitVec 3} {f : BusFrame} {item : Item}
    (h : s.ownership cls f = .own item) : f.sender = s.station ∧ ∃ sent, s.bus.inFlight = some sent ∧
      sent.item = item ∧ sent.cls = cls ∧ sent.payload = f.payload ∧ sent.check = f.check := by
  unfold State.ownership at h
  split at h
  · rename_i hs
    split at h
    · rename_i sent hf
      split at h
      · rename_i hbits
        cases h
        exact ⟨hs, sent, hf, rfl, hbits.1, hbits.2.1, hbits.2.2⟩
      · cases h
    · cases h
  · cases h

theorem State.ownership_foreign_iff {s : State} {cls : BitVec 3} {f : BusFrame} :
    s.ownership cls f = .foreign ↔ f.sender ≠ s.station := by
  unfold State.ownership
  split
  · rename_i hs
    split
    · split <;> simp [hs]
    · simp [hs]
  · rename_i hs
    simp [hs]

/-- A frame that is no clash has an own item exactly when it bears this station's number. -/
theorem State.ownership_item_isSome {s : State} {cls : BitVec 3} {f : BusFrame} (h : s.ownership cls f ≠ .clash) :
    (s.ownership cls f).item.isSome = decide (f.sender = s.station) := by
  cases ho : s.ownership cls f with
  | clash => exact absurd ho h
  | foreign =>
    rw [decide_eq_false (State.ownership_foreign_iff.1 ho)]
    rfl
  | own item =>
    rw [decide_eq_true (State.ownership_own ho).1]
    rfl

/-- The class of the frames that carry a message (Formats). -/
def Message.frameClass : Message → BitVec 3
  | .beacon _ => 0
  | .ready _ => 1
  | .sealing _ _ _ => 2
  | .join _ _ _ | .presence _ | .leave => 3
  | .update _ => 4
  | .glyph _ _ _ _ => 5

theorem parseMessage_frameClass {cls : BitVec 3} {payload : List Byte} {msg : Message}
    (h : parseMessage cls payload = some msg) : cls = msg.frameClass := by
  rcases parseMessage_class _ _ h with ⟨hcls, hr⟩ | ⟨hcls, hr⟩ | ⟨hcls, hr⟩ | ⟨hcls, hr⟩ | ⟨hcls, u, hr, rfl⟩ | ⟨hcls, hr⟩
  · obtain ⟨_, _, _, _, -, -, rfl⟩ := (parseBeacon_iff _ _).1 hr
    exact hcls
  · obtain ⟨_, -, rfl⟩ := (parseReady_iff _ _).1 hr
    exact hcls
  · obtain ⟨_, _, _, -, -, ⟨-, -, rfl⟩ | ⟨-, -, _, -, rfl⟩⟩ := (parseSeal_iff _ _).1 hr <;> exact hcls
  · obtain ⟨_, _, _, -, rfl⟩ | ⟨-, rfl⟩ | ⟨-, rfl⟩ | ⟨-, rfl⟩ := (parseRoster_iff _ _).1 hr <;> exact hcls
  · exact hcls
  · obtain ⟨_, _, _, _, -, -, -, rfl⟩ := (parseGlyph_iff _ _).1 hr
    exact hcls

/-- A ROSTER message is read by the ROSTER layouts. -/
theorem parseMessage_roster {cls : BitVec 3} {payload : List Byte} {msg : Message}
    (h : parseMessage cls payload = some msg) (hc : msg.frameClass = 3) :
    cls = 3 ∧ parseRoster payload = some msg := by
  have hcls := (parseMessage_frameClass h).trans hc
  subst hcls
  exact ⟨rfl, h⟩

/-- What a ROSTER frame in flight can be (R147). -/
theorem State.FlightFormed.roster {s : State} {sent : SentFrame} (h : s.FlightFormed sent) (hc : sent.cls = 3) :
    sent.item = .leave ∧ sent.payload = [0x03] ∨
    (sent.item = .join ∧ sent.payload.head? = some 0x01 ∧ s.bus.joinPending = true) ∨
    sent.item = .presence ∧ ∃ b : Byte, sent.payload = [0x02, b] ∧ (b = 2 → s.draws = true) := by
  unfold State.FlightFormed at h
  cases hi : sent.item <;> simp only [hi, hc] at h
  case leave => exact .inl ⟨rfl, h.2⟩
  case join => exact .inr (.inl ⟨rfl, h.2⟩)
  case presence => exact .inr (.inr ⟨rfl, h.2⟩)
  case beacon => exact absurd h (by decide)
  case ready => exact absurd h (by decide)
  case feed => exact absurd h (by decide)

/-- An own ROSTER frame that is no clash is a frame in flight with its payload. -/
theorem State.OwnEntryAgrees.ownRoster {s : State} {cls : BitVec 3} {f : BusFrame} {msg : Message}
    (h : s.OwnEntryAgrees) (hpow : s.powered = true) (hc : s.ownership cls f ≠ .clash) (hs : f.sender = s.station)
    (hp : parseMessage cls f.payload = some msg) (hm : msg.frameClass = 3) :
    parseRoster f.payload = some msg ∧
    ((s.ownership cls f).item = some .leave ∧ f.payload = [0x03] ∨
    ((s.ownership cls f).item = some .join ∧ f.payload.head? = some 0x01 ∧ s.bus.joinPending = true) ∨
    (s.ownership cls f).item = some .presence ∧ ∃ b : Byte, f.payload = [0x02, b] ∧ (b = 2 → s.draws = true)) := by
  obtain ⟨rfl, hr⟩ := parseMessage_roster hp hm
  refine ⟨hr, ?_⟩
  cases ho : s.ownership 3 f with
  | clash => exact absurd ho hc
  | foreign => exact absurd hs (State.ownership_foreign_iff.1 ho)
  | own item =>
    obtain ⟨-, sent, hf, hi, hcls, hpay, -⟩ := State.ownership_own ho
    have hitem : ∀ i, sent.item = i → (Ownership.own item).item = some i := fun i hi' => by
      rw [← hi', hi]
      rfl
    have hroster := (h.flight hpow sent hf).roster hcls
    rw [hpay] at hroster
    rcases hroster with ⟨h1, h2⟩ | ⟨h1, h2⟩ | ⟨h1, h2⟩
    · exact .inl ⟨hitem _ h1, h2⟩
    · exact .inr (.inl ⟨hitem _ h1, h2⟩)
    · exact .inr (.inr ⟨hitem _ h1, h2⟩)

/-- An own JOIN is the JOIN in flight, which was pending (R147). -/
theorem State.OwnEntryAgrees.ownJoin {s : State} {cls : BitVec 3} {f : BusFrame} {width height period : Byte}
    (h : s.OwnEntryAgrees) (hpow : s.powered = true) (hc : s.ownership cls f ≠ .clash) (hs : f.sender = s.station)
    (hp : parseMessage cls f.payload = some (.join width height period)) :
    (s.ownership cls f).item = some .join ∧ s.bus.joinPending = true := by
  obtain ⟨hr, hitem⟩ := h.ownRoster hpow hc hs hp rfl
  obtain ⟨w, hh, p, hpay, -⟩ | ⟨-, hm⟩ | ⟨-, hm⟩ | ⟨-, hm⟩ := (parseRoster_iff _ _).1 hr
  · rw [hpay] at hitem
    rcases hitem with ⟨-, h2⟩ | ⟨h1, -, h3⟩ | ⟨-, b, h2, -⟩
    · simp at h2
    · exact ⟨h1, h3⟩
    · simp at h2
  all_goals cases hm

/-- An own PRESENCE that carries Member is sent in a drawing state (R147). -/
theorem State.OwnEntryAgrees.ownPresence {s : State} {cls : BitVec 3} {f : BusFrame}
    (h : s.OwnEntryAgrees) (hpow : s.powered = true) (hc : s.ownership cls f ≠ .clash) (hs : f.sender = s.station)
    (hp : parseMessage cls f.payload = some (.presence true)) : s.draws = true := by
  obtain ⟨hr, hitem⟩ := h.ownRoster hpow hc hs hp rfl
  obtain ⟨_, _, _, -, hm⟩ | ⟨-, hm⟩ | ⟨hpay, -⟩ | ⟨-, hm⟩ := (parseRoster_iff _ _).1 hr
  · cases hm
  · cases hm
  · rw [hpay] at hitem
    rcases hitem with ⟨-, h2⟩ | ⟨-, h2, -⟩ | ⟨-, b, h2, h3⟩
    · simp at h2
    · simp at h2
    · simp only [List.cons.injEq, and_true, true_and] at h2
      exact h3 h2.symm
  · cases hm

/-- Joining becomes Member at a promotion, Leaving from Joining becomes Leaving from Member (R39). -/
theorem StationState.promoted_draws {st : StationState} (hw : st.participates = true) (hd : st.draws = false) :
    st.promoted.draws = true := by
  cases st with
  | joining | leaving _ => rfl
  | member => cases hd
  | halted | listening | withdrawn | clashed => cases hw

/-- The item that leaves with an accepted frame does not touch the item in flight (R151). -/
@[simp] theorem BusInterface.sentAccepted_inFlight (b : BusInterface) (item : Option Item) :
    (b.sentAccepted item).inFlight = b.inFlight := by
  cases item with
  | none => rfl
  | some item => cases item <;> rfl

/-- Nothing is in flight after the share of an accepted frame (R150). -/
@[simp] theorem State.afterShare_inFlight (s : State) (cls : BitVec 3) (f : BusFrame) :
    (s.afterShare cls f).bus.inFlight = none := BusInterface.sentAccepted_inFlight _ _

namespace State.OwnEntryAgrees

theorem draws_congr {s t : State} (life : t.life = s.life) : t.draws = s.draws := by
  unfold State.draws
  rw [life]

theorem draws_running {s : State} {st : StationState} (h : s.life = .running st) : s.draws = st.draws := by
  simp only [State.draws, h]

/-- The agreement holds of a station with the same number, own entry state, JOIN flag and frame in flight, which takes
part and draws as before, and whose feed messages are some of those before or newly taken. -/
theorem running {s t : State} (h : s.OwnEntryAgrees) (part : t.participates = s.participates) (draws : t.draws = s.draws)
    (powered : t.powered = true → s.powered = true)
    (listening : t.life = .running .listening → s.life = .running .listening)
    (straps : t.straps = s.straps := by simp)
    (own : t.roster[s.station].state = s.roster[s.station].state := by simp)
    (join : t.bus.joinPending = s.bus.joinPending := by simp)
    (flight : t.bus.inFlight = s.bus.inFlight ∨ t.bus.inFlight = none := by simp)
    (feed : ∀ m ∈ t.bus.feedQueue, m ∈ s.bus.feedQueue ∨ submitTakes m.cls = true := by
      exact fun m hm => Or.inl (by simpa using hm)) :
    t.OwnEntryAgrees := by
  have hown : t.roster[t.station].state = s.roster[s.station].state := by
    simp only [State.station_congr straps]
    exact own
  refine ⟨?_, ?_, ?_, ?_, ?_, ?_, ?_⟩
  · rw [part, draws, hown]; exact h.member
  · rw [hown]; exact fun hp => h.silent (powered hp)
  · rw [part, hown]; exact fun hp => h.outside (powered hp)
  · rw [part, hown, join]; exact fun hp => h.join (powered hp)
  · intro hp sent hs
    rcases flight with hf | hf <;> rw [hf] at hs
    · have hformed := h.flight (powered hp) sent hs
      unfold State.FlightFormed at hformed ⊢
      rw [join, draws]
      exact hformed
    · cases hs
  · intro hl sent hs
    rcases flight with hf | hf <;> rw [hf] at hs
    · exact h.listening (listening hl) sent hs
    · cases hs
  · intro m hm
    rcases feed m hm with hm | hm
    · exact h.messages m hm
    · exact hm

/-- The agreement holds of a station that leaves its life as it was too. -/
theorem congr {s t : State} (h : s.OwnEntryAgrees) (life : t.life = s.life := by simp)
    (straps : t.straps = s.straps := by simp)
    (own : t.roster[s.station].state = s.roster[s.station].state := by simp)
    (join : t.bus.joinPending = s.bus.joinPending := by simp)
    (flight : t.bus.inFlight = s.bus.inFlight ∨ t.bus.inFlight = none := by simp)
    (feed : ∀ m ∈ t.bus.feedQueue, m ∈ s.bus.feedQueue ∨ submitTakes m.cls = true := by
      exact fun m hm => Or.inl (by simpa using hm)) :
    t.OwnEntryAgrees :=
  h.running (State.participates_congr life) (draws_congr life) (fun hp => (State.powered_congr life).symm.trans hp)
    (fun hl => life ▸ hl) straps own join flight feed

/-- A running station whose own entry fits its state, with nothing in flight. -/
theorem of_landed {t : State} {st : StationState} (hl : t.life = .running st) (flight : t.bus.inFlight = none)
    (member : st.participates = true → (t.roster[t.station].state = .member ↔ st.draws = true))
    (silent : t.roster[t.station].state ≠ .silent)
    (outside : st.participates = false → t.roster[t.station].state = .absent)
    (join : t.bus.joinPending = true → st.participates = true ∧ t.roster[t.station].state = .absent)
    (messages : ∀ m ∈ t.bus.feedQueue, submitTakes m.cls = true) : t.OwnEntryAgrees := by
  have hp := State.participates_running hl
  refine ⟨?_, fun _ => silent, ?_, ?_, ?_, ?_, messages⟩
  · rw [hp, draws_running hl]; exact member
  · rw [hp]; exact fun _ => outside
  · rw [hp]; exact fun _ => join
  · intro _ sent hs
    rw [flight] at hs
    cases hs
  · intro _ sent hs
    rw [flight] at hs
    cases hs

/-- A station with a cleared roster and interface outside the wall. -/
theorem of_cleared {t : State} (hp : t.participates = false)
    (roster : t.roster = rosterCleared) (flight : t.bus.inFlight = none) (join : t.bus.joinPending = false)
    (messages : ∀ m ∈ t.bus.feedQueue, submitTakes m.cls = true) : t.OwnEntryAgrees := by
  have hown : t.roster[t.station].state = .absent := by
    simp only [roster, getFin_rosterCleared]
    rfl
  refine ⟨fun h => ?_, fun _ => by rw [hown]; nofun, fun _ _ => hown, fun _ h => ?_, fun _ sent hs => ?_,
    fun _ sent hs => ?_, messages⟩
  · rw [hp] at h; cases h
  · rw [join] at h; cases h
  · rw [flight] at hs; cases hs
  · rw [flight] at hs; cases hs

theorem withdraw (s : State) (reason : WithdrawReason) : (s.withdraw reason).OwnEntryAgrees :=
  of_cleared (State.participates_running (st := .withdrawn) (by simp)) (by simp) (by simp [BusInterface.atStart])
    (by simp [BusInterface.atStart]) (by simp [BusInterface.atStart])

theorem becomeClashed (s : State) : s.becomeClashed.OwnEntryAgrees :=
  of_cleared (State.participates_running (st := .clashed) (by simp)) (by simp) (by simp [BusInterface.atStart])
    (by simp [BusInterface.atStart]) (by simp [BusInterface.atStart])

theorem enterListening {s : State} (messages : ∀ m ∈ s.bus.feedQueue, submitTakes m.cls = true)
    (reason : StateReason) : (s.enterListening reason).OwnEntryAgrees :=
  of_cleared (State.participates_running (st := .listening) rfl) rfl rfl rfl messages

theorem spoilFeedHead {s : State} (h : s.OwnEntryAgrees) (reason : Option SpoilReason) :
    (s.spoilFeedHead reason).OwnEntryAgrees := by
  unfold State.spoilFeedHead
  split
  · exact h
  · rename_i m rest hq
    split
    · refine h.congr rfl rfl rfl rfl (.inl rfl) fun x hx => .inl ?_
      rw [hq]
      exact List.mem_cons_of_mem _ hx
    · refine h.congr (feed := fun x hx => ?_)
      rcases List.mem_cons.1 hx with rfl | hx
      · exact .inr (h.messages m (by rw [hq]; exact List.mem_cons_self))
      · exact .inl (by rw [hq]; exact List.mem_cons_of_mem _ hx)

theorem driveSpoil {s : State} (h : s.OwnEntryAgrees) (reason : Option SpoilReason) :
    (s.driveSpoil reason).OwnEntryAgrees := by
  cases reason with
  | none => exact h
  | some r => exact h.congr rfl rfl rfl rfl (.inl rfl) fun _ => .inl

theorem attemptSpoiled {s : State} (h : s.OwnEntryAgrees) (item : Option Item) (reason : Option SpoilReason) :
    (s.attemptSpoiled item reason).OwnEntryAgrees := by
  refine State.attemptSpoiled_keeps (fun u c h => h.congr (t := { u with counters := c }) (feed := fun _ => .inl)) (fun u h => ?_)
    (fun _ _ h => h.spoilFeedHead _) s item reason h
  unfold State.spoilLeave
  split
  · exact h.congr (feed := fun _ => .inl)
  · exact State.OwnEntryAgrees.withdraw _ _


/-- The frame of an item the interface holds is what its item forms (R147, R150, Formats). -/
theorem frameOf_formed {s : State} (h : s.OwnEntryAgrees) {item : Item} (hi : s.bus.holds item = true) :
    s.FlightFormed (s.frameOf item) := by
  unfold State.FlightFormed State.frameOf State.formFrame
  cases item with
  | beacon | ready | leave => exact (by trivial)
  | join => cases s.config <;> exact ⟨rfl, rfl, hi⟩
  | presence =>
    refine ⟨rfl, _, rfl, fun hb => ?_⟩
    split at hb
    · rename_i hl
      rw [draws_running hl]
      rfl
    · cases hb
  | feed =>
    cases hq : s.bus.feedQueue with
    | nil => simp [BusInterface.holds, hq] at hi
    | cons m rest => exact h.messages m (by rw [hq]; exact List.mem_cons_self)

/-- The frame the station sends is what its item forms, and in Listening it is a BEACON (R149, R150). -/
theorem contend {s : State} (h : s.OwnEntryAgrees) (others : List Key) : (s.contend others).OwnEntryAgrees := by
  unfold State.contend
  split
  · exact h
  · rename_i item hi
    obtain ⟨st, hl, hallowed, hheld⟩ := State.chooseItem_some hi
    dsimp only
    split
    · exact h
    · refine ⟨h.member, h.silent, h.outside, h.join, fun _ sent hs => ?_, fun hlisten sent hs => ?_, h.messages⟩
      · cases hs
        exact h.frameOf_formed hheld
      · cases hs
        have hst : st = .listening := by
          have hlisten' : s.life = .running .listening := hlisten
          rw [hl] at hlisten'
          exact Life.running.inj hlisten'
        subst hst
        change item = .beacon
        cases item with
        | beacon => rfl
        | ready | leave | join | presence | feed => cases hallowed

/-- The own entry after an acceptance that does not silence it: as before, or promoted (R38, R39). -/
theorem wallWork {s : State} (h : s.OwnEntryAgrees) {st : StationState} (hl : s.life = .running st)
    (hw : st.participates = true) (flight : s.bus.inFlight = none) {sender : Station} {m : BeaconFields}
    (hs : s.silencedAt sender m = false) : ((s.takeBeacon m).wallWork s st sender m).OwnEntryAgrees := by
  have hpow := State.powered_running hl
  have hnotSilent := h.silent hpow
  have hlife : ((s.takeBeacon m).wallWork s st sender m).life = .running (s.stateAt st sender m) := rfl
  have hmember : s.roster[s.station].state = .member ↔ st.draws = true := by
    rw [← draws_running hl]
    exact h.member ((State.participates_running hl).trans hw)
  have hown : ((s.takeBeacon m).wallWork s st sender m).roster[
      ((s.takeBeacon m).wallWork s st sender m).station].state = (s.rosterAt sender m)[s.station].state := rfl
  have hpart := State.RecordAgrees.stateAt_participates (s := s) hw sender m
  have hmember' : (s.rosterAt sender m)[s.station].state = .member ↔ (s.stateAt st sender m).draws = true := by
    unfold State.stateAt State.promotedAt
    rcases s.rosterAt_state sender m s.station with hr | hr | ⟨hf, hj, hr⟩
    · have hnot : ¬(s.flipsAt m && decide (s.roster[s.station].state ≠ .member)
          && decide ((s.rosterAt sender m)[s.station].state = .member)) = true := by
        simp only [hr, Bool.and_eq_true, decide_eq_true_eq]
        exact fun hp => hp.1.2 hp.2
      rw [if_neg hnot, hr, hmember]
    · rw [State.silencedAt, decide_eq_true hnotSilent, decide_eq_true hr] at hs
      cases hs
    · have hdraws : st.draws = false := by
        rw [← Bool.not_eq_true, ← hmember, hj]
        nofun
      have hyes : (s.flipsAt m && decide (s.roster[s.station].state ≠ .member)
          && decide ((s.rosterAt sender m)[s.station].state = .member)) = true := by
        simp only [Bool.and_eq_true, decide_eq_true_eq, hj]
        exact ⟨⟨hf, nofun⟩, hr⟩
      rw [if_pos hyes]
      exact iff_of_true hr (StationState.promoted_draws hw hdraws)
  refine of_landed hlife flight (fun _ => ?_) ?_ (fun hp => ?_) (fun hj => ⟨hpart, ?_⟩) h.messages
  · rw [hown]
    exact hmember'
  · rw [hown]
    intro hr
    rw [State.silencedAt, decide_eq_true hnotSilent, decide_eq_true hr] at hs
    cases hs
  · rw [hpart] at hp
    cases hp
  · rw [hown]
    have habsent := (h.join hpow hj).2
    rcases s.rosterAt_state sender m s.station with hr | hr | ⟨-, hjoin, -⟩
    · rw [hr, habsent]
    · rw [State.silencedAt, decide_eq_true hnotSilent, decide_eq_true hr] at hs
      cases hs
    · rw [habsent] at hjoin
      cases hjoin

theorem acceptBeacon {s : State} (h : s.OwnEntryAgrees) {st : StationState} (hl : s.life = .running st)
    (hw : st.participates = true) (flight : s.bus.inFlight = none) (own : Bool) (sender : Station) (m : BeaconFields) :
    (s.acceptBeacon st own sender m).OwnEntryAgrees := by
  unfold State.acceptBeacon State.actOnBeacon
  split
  · split
    · exact (State.OwnEntryAgrees.withdraw ((s.takeBeacon m).wallWork s st sender m) .silenced).congr
        (feed := fun _ => by simp [BusInterface.atStart])
    · rename_i hs
      refine (h.wallWork hl hw flight (by simpa using hs)).congr (feed := fun x hx => .inl ?_)
      simpa using hx
  · exact (State.OwnEntryAgrees.withdraw (s.takeBeacon m) .outOfStep).congr
      (feed := fun _ => by simp [BusInterface.atStart])

/-- A change of another station's entry, or of the own one within its state. -/
theorem changeRoster {s : State} (h : s.OwnEntryAgrees) (st : StationState) {r : Roster}
    (own : r[s.station].state = s.roster[s.station].state) : (s.changeRoster st r).OwnEntryAgrees := by
  have hroster : (s.changeRoster st r).roster = r := by simp
  exact h.congr (own := by simp only [hroster]; exact own) (feed := fun x hx => .inl (by simpa using hx))

/-- The item of an accepted frame leaves: no JOIN becomes pending, and no feed message joins (R145, R151). -/
theorem frameAccepted {s : State} (h : s.OwnEntryAgrees) (flight : s.bus.inFlight = none) (item : Option Item) :
    (s.frameAccepted item).OwnEntryAgrees := by
  have hjoin : (s.bus.sentAccepted item).joinPending = true → s.bus.joinPending = true := by
    cases item with
    | none => exact id
    | some item =>
      cases item with
      | join => nofun
      | beacon | ready | leave | presence | feed => exact id
  have hfeed : ∀ m ∈ (s.bus.sentAccepted item).feedQueue, m ∈ s.bus.feedQueue := fun m hm => by
    cases item with
    | none => exact hm
    | some item =>
      cases item with
      | feed => exact List.mem_of_mem_tail hm
      | beacon | ready | leave | join | presence => exact hm
  have hflight : (s.frameAccepted item).bus.inFlight = none := by
    change (s.bus.sentAccepted item).inFlight = none
    rw [BusInterface.sentAccepted_inFlight, flight]
  refine ⟨h.member, h.silent, h.outside, fun hp hj => h.join hp (hjoin hj), fun _ sent hs => ?_, fun _ sent hs => ?_,
    fun m hm => h.messages m (hfeed m hm)⟩ <;> rw [hflight] at hs <;> cases hs

theorem endFlight {s : State} (h : s.OwnEntryAgrees) : s.endFlight.OwnEntryAgrees :=
  h.congr rfl rfl rfl rfl (.inr rfl) fun _ => .inl

/-- The share of an accepted frame leaves the own entry's state alone (R145). -/
theorem afterShare {s : State} (h : s.OwnEntryAgrees) (cls : BitVec 3) (f : BusFrame) :
    (s.afterShare cls f).OwnEntryAgrees :=
  (h.endFlight.frameAccepted rfl (s.ownership cls f).item).congr rfl rfl
    (rosterHeard_entry s.roster f.sender s.station).1 rfl (.inl rfl) fun _ => .inl

/-- At an adoption the own entry is Absent, and JOIN becomes pending (R28, R40, R176). -/
theorem adopt {s : State} (h : s.OwnEntryAgrees) (hl : s.life = .running .listening) (flight : s.bus.inFlight = none)
    (m : BeaconFields) : (s.adopt m).OwnEntryAgrees := by
  have hstate : (s.adopt m).roster[(s.adopt m).station].state = .absent := by
    have hroster : (s.adopt m).roster = s.roster := by simp
    have hstation : (s.adopt m).station = s.station := State.station_congr (by simp)
    simp only [hroster, hstation]
    exact h.outside (State.powered_running hl) (State.participates_running hl)
  refine of_landed (st := .joining) (by simp) (by simpa using flight) (fun _ => ?_) ?_ nofun (fun _ => ⟨rfl, hstate⟩)
    (fun x hx => h.messages x (by simpa using hx))
  · rw [hstate]
    exact ⟨nofun, nofun⟩
  · rw [hstate]
    nofun

/-- An own JOIN comes from an Absent entry, and finds the station in Joining or in Leaving from Joining (R31, R39). -/
theorem joined {s : State} (h : s.OwnEntryAgrees) {st : StationState} (hl : s.life = .running st)
    (hw : st.participates = true) (flight : s.bus.inFlight = none) {sender : Station} (fn : FrameNumber)
    (own : sender = s.station → st.draws = false ∧ s.bus.joinPending = false) :
    (s.changeRoster st (rosterJoin s.roster sender fn)).OwnEntryAgrees := by
  by_cases hs : sender = s.station
  · obtain ⟨hdraws, hjoin⟩ := own hs
    have hroster : (s.changeRoster st (rosterJoin s.roster sender fn)).roster = rosterJoin s.roster sender fn := by simp
    have hstate : (s.changeRoster st (rosterJoin s.roster sender fn)).roster[
        (s.changeRoster st (rosterJoin s.roster sender fn)).station].state = .joining := by
      have hstation : (s.changeRoster st (rosterJoin s.roster sender fn)).station = s.station :=
        State.station_congr (by simp)
      simp only [hroster, hstation]
      rw [rosterJoin_entry, if_pos hs.symm]
    refine of_landed (st := st) (by simpa using hl) (by simpa using flight) (fun _ => ?_) ?_
      (fun ho => absurd (hw.symm.trans ho) nofun) (fun hj => ?_) (fun m hm => h.messages m (by simpa using hm))
    · rw [hstate, hdraws]
      exact ⟨nofun, nofun⟩
    · rw [hstate]
      nofun
    · have hj' : s.bus.joinPending = true := by simpa using hj
      rw [hjoin] at hj'
      cases hj'
  · refine h.changeRoster st ?_
    rw [rosterJoin_entry, if_neg fun he => hs he.symm]

/-- What an accepted frame's message makes of the own entry (R31, R33, R34, R39). -/
theorem accepted {s : State} (h : s.OwnEntryAgrees) {st : StationState} (hl : s.life = .running st)
    (hw : st.participates = true) {cls : BitVec 3} {f : BusFrame} (hc : s.ownership cls f ≠ .clash) {msg : Message}
    (hp : parseMessage cls f.payload = some msg) :
    ((s.afterShare cls f).acceptMessage st (s.ownership cls f).item f.sender msg).OwnEntryAgrees := by
  have hshare := h.afterShare cls f
  have hl' : (s.afterShare cls f).life = .running st := hl
  have hflight := s.afterShare_inFlight cls f
  have hpow := State.powered_running hl
  have hpart : s.participates = true := (State.participates_running hl).trans hw
  have hentry : (s.afterShare cls f).roster[s.station].state = s.roster[s.station].state :=
    (rosterHeard_entry s.roster f.sender s.station).1
  cases msg with
  | beacon m => exact hshare.acceptBeacon hl' hw hflight _ _ _
  | ready g =>
    rw [State.acceptMessage_ready]
    unfold State.acceptReady
    split
    · exact hshare.congr rfl rfl rfl rfl (.inl rfl) fun _ => .inl
    · exact hshare
  | sealing g reveal carried =>
    rw [State.acceptMessage_sealing]
    unfold State.acceptSeal
    split
    · exact hshare.congr
    · exact hshare.congr
  | join width height period =>
    rw [State.acceptMessage_join]
    unfold State.acceptJoin
    have hjoined := hshare.joined hl' hw hflight (s.afterShare cls f).timer.frameNumber (sender := f.sender) ?_
    · split
      · dsimp only
        split
        · exact hjoined.congr rfl rfl rfl rfl (.inl rfl) fun _ => .inl
        · exact hjoined
      · exact hshare.congr
    · intro hs
      obtain ⟨hitem, hpending⟩ := h.ownJoin hpow hc hs hp
      refine ⟨?_, ?_⟩
      · have habsent := (h.join hpow hpending).2
        rw [← Bool.not_eq_true, ← draws_running hl, ← h.member hpart, habsent]
        nofun
      · change (s.endFlight.bus.sentAccepted (s.ownership cls f).item).joinPending = false
        rw [hitem]
        rfl
  | presence isMember =>
    rw [State.acceptMessage_presence]
    split
    · rename_i hm
      subst hm
      refine hshare.changeRoster st ?_
      rw [rosterPresence_entry]
      split
      · rename_i hs
        obtain ⟨hs, habsent⟩ := hs
        have hs' : f.sender = s.station := hs.symm
        have hmember := (h.member hpart).2 (h.ownPresence hpow hc hs' hp)
        rw [hs', hentry, hmember] at habsent
        cases habsent
      · rfl
    · exact hshare
  | leave =>
    rw [State.acceptMessage_leave]
    split
    · exact State.OwnEntryAgrees.withdraw _ _
    · rename_i hitem
      have hs : f.sender ≠ s.station := by
        rw [State.ownership_item_isSome hc] at hitem
        simpa using hitem
      refine hshare.changeRoster st ?_
      rw [rosterLeave_entry, if_neg fun he => hs he.symm]
  | update u =>
    rw [State.acceptMessage_update]
    unfold State.acceptUpdate
    split
    · exact hshare.congr
    · exact hshare.congr
  | glyph set code first patterns => exact hshare.congr rfl rfl rfl rfl (.inl rfl) fun _ => .inl

theorem endFrame {s : State} (h : s.OwnEntryAgrees) (cls : BitVec 3) (f : BusFrame) :
    (s.endFrame cls f).OwnEntryAgrees := by
  have hend := s.endFrame_ends cls f
  generalize s.endFrame cls f = t at hend
  have hflight := h.endFlight
  cases hend with
  | unread => exact h
  | clash => exact becomeClashed s
  | outside | listenIgnored => exact hflight
  | spoiled =>
    exact State.frameSpoiled_keeps (fun _ reason h => h.driveSpoil reason) (fun _ _ _ h => h.attemptSpoiled _ _)
      (fun _ _ _ => State.OwnEntryAgrees.withdraw _ _) _ _ _ hflight
  | listenSpoiled => exact hflight.attemptSpoiled _ _
  | listenAdopted m hl =>
    refine (hflight.frameAccepted rfl _).adopt hl ?_ m
    exact BusInterface.sentAccepted_inFlight _ _
  | accepted st msg hl hw _ hc _ hp => exact h.accepted hl hw hc hp

theorem enterLeaving {s : State} (h : s.OwnEntryAgrees) {st : StationState} (hl : s.life = .running st)
    (hw : st.participates = true) (origin : LeavingOrigin) (hd : (StationState.leaving origin).draws = st.draws) :
    (s.enterLeaving origin).OwnEntryAgrees := by
  have hl' : (s.enterLeaving origin).life = .running (.leaving origin) := by simp
  refine h.running ?_ ?_ (fun _ => State.powered_running hl) (fun hlisten => ?_)
  · rw [State.participates_running hl', State.participates_running hl, hw]
    rfl
  · rw [draws_running hl', draws_running hl, hd]
  · rw [hl'] at hlisten
    cases hlisten

theorem keptByMoves : KeptByMoves State.OwnEntryAgrees where
  start s life straps glyphs _ _ hlife := by
    refine of_cleared ?_ rfl rfl rfl nofun
    rcases hlife with rfl | rfl <;> rfl
  pin _ _ h := h.congr
  free _ _ h := h.congr
  endRead s read h hl := by
    obtain ⟨config, ms, he⟩ | ⟨config, reason, he⟩ := s.endRead_cases read <;> rw [he]
    · exact enterListening (s := { s with
        config := config, withdrawReason := .none, timer := { s.timer with frameTimer := .running ms } }) h.messages _
    · have hl' : (s.halt config reason).life = .running .halted := by simp
      refine h.running ?_ ?_ (fun _ => ?_) (fun hlisten => ?_)
      · rw [State.participates_running hl']
        simp [State.participates, hl, StationState.participates]
      · rw [draws_running hl']
        simp [State.draws, hl, StationState.draws]
      · simp [State.powered, hl]
      · rw [hl'] at hlisten
        cases hlisten
  expire s h _ := by
    obtain ⟨timer, -, -, -, ⟨asks, he⟩ | ⟨-, he⟩⟩ := s.expire_cases <;> rw [he]
    · exact h.congr
    · exact enterListening (s := { s with timer := timer }) h.messages _
  synchronise s h := by
    obtain he | he := s.synchronise_cases <;> rw [he]
    · exact h
    · exact h.congr
  contend _ _ h _ := h.contend _
  clash s _ _ _ := becomeClashed s
  frame _ cls f h := h.endFrame cls f
  tileStep s acc h _ := by
    obtain ⟨-, he⟩ | ⟨n, -, -, he⟩ := s.tileStep_cases acc <;> rw [he]
    · exact h.congr
    · have ht : (s.tileWritten acc).OwnEntryAgrees := by
        unfold State.tileWritten
        exact h.congr
      exact ht.congr
  catchUpRead s acc h _ := by
    obtain ⟨-, he⟩ | ⟨-, he⟩ := s.catchUpRead_cases acc <;> rw [he]
    · exact h.congr
    · unfold State.copyRead
      exact h.congr
  catchUpWrite s acc h _ := by
    obtain ⟨-, he⟩ | ⟨-, he⟩ := s.catchUpWrite_cases acc <;> rw [he] <;> exact h.congr
  rowFetched _ _ h _ := h.congr
  feedRead s acc h _ := by
    unfold State.feedReadDone
    exact h.congr
  displayRow _ _ h _ := h.congr
  beginLine _ _ _ h _ := h.congr
  beginTail _ h := h.congr
  transaction _ _ _ h := h.congr
  port _ _ h := h.congr
  events _ h := h.congr
  submit s cls payload h := by
    obtain ⟨r, he⟩ | ⟨htakes, -, -, r, he⟩ := s.submit_cases cls payload <;> rw [he]
    · exact h.congr
    · refine h.congr (feed := fun m hm => ?_)
      rcases List.mem_append.1 hm with hm | hm
      · exact .inl hm
      · rw [List.mem_singleton.1 hm]
        exact .inr htakes
  readCell s role row col h _ := by
    obtain he | ⟨r, p, he⟩ := s.readCellCommand_cases role row col <;> rw [he] <;> exact h.congr
  counters _ h := h.congr
  restart s st h hl := by
    obtain ⟨r, he | ⟨rfl, he⟩ | ⟨rfl, he⟩ | ⟨-, he⟩⟩ := s.restartCommand_cases st <;> rw [he]
    · exact h.congr
    · exact (h.enterLeaving hl rfl .fromJoining rfl).congr
    · exact (h.enterLeaving hl rfl .fromMember rfl).congr
    · exact (enterListening h.messages .restart).congr
  losePower s h := by
    refine ⟨nofun, nofun, nofun, nofun, nofun, fun hl => ?_, h.messages⟩
    cases hl
  pending _ _ h := h.congr

end State.OwnEntryAgrees
end Sys2Proof.Machine
end

section
/-! PROOFS. The station's own roster entry agrees with its state. -/

namespace Sys2Proof.Proofs

open Sys2Proof.Machine

/-- Settles O10: the own entry changes at the own JOIN, at a promotion and at an entry to a dark state, each of which moves
the station state with it; the frames in flight say which own frames can be accepted. -/
theorem stepKeepsOwnEntryAgreement : Obligations.StepKeepsOwnEntryAgreement :=
  fun _ _ h hstep => State.OwnEntryAgrees.keptByMoves.step h hstep

end Sys2Proof.Proofs
end

section
/-! SUPPORT. READY is never owed (R13): every effect keeps what READY stands for, or ends with the conditions of R13
evaluated. -/

namespace Sys2Proof.Machine

/-! ### The conditions of R13 and what they depend on -/

theorem State.currentWork_congr {s t : State} (queue : t.updateQueue = s.updateQueue)
    (engine : t.applyEngine = s.applyEngine) : t.currentWork = s.currentWork := by
  unfold State.currentWork
  rw [queue, engine]

/-- The own station is required of a station with the same number, roster and record. -/
theorem State.ownRequired_congr {s t : State} (straps : t.straps = s.straps) (roster : t.roster = s.roster)
    (isSealed : t.gen.isSealed = s.gen.isSealed) (baseline : t.gen.baseline = s.gen.baseline) :
    t.requirementSet[t.station] = s.requirementSet[s.station] := by
  simp only [State.requirementSet_congr roster isSealed baseline, State.station_congr straps]

theorem State.readyCondition_congr {s t : State} (life : t.life = s.life)
    (required : t.requirementSet[t.station] = s.requirementSet[s.station])
    (isSealed : t.gen.isSealed = s.gen.isSealed) (announced : t.gen.announced = s.gen.announced)
    (work : t.currentWork = s.currentWork) (copying : t.catchUp = .idle ↔ s.catchUp = .idle) :
    t.readyCondition = s.readyCondition := by
  unfold State.readyCondition
  rw [life, isSealed, announced, work, decide_eq_decide.2 copying]
  congr 5

/-- READY is for stations in Joining or Member (R13). -/
theorem State.readyCondition_running {s : State} {st : StationState} (hl : s.life = .running st)
    (hst : st ≠ .joining ∧ st ≠ .member) : s.readyCondition = false := by
  rw [← Bool.not_eq_true, State.readyCondition_iff hl]
  rintro ⟨h | h, -⟩
  · exact hst.1 h
  · exact hst.2 h

/-- With no Current work left there is nothing to resume (R55). -/
theorem State.resumeApply_of_no_work {s : State} (h : s.currentWork = false) : s.resumeApply = s := by
  unfold State.resumeApply
  split
  · rename_i hc
    simp only [Bool.and_eq_true, decide_eq_true_eq] at hc
    unfold State.currentWork at h
    simp only [Bool.or_eq_false_iff, List.any_eq_false, decide_eq_true_eq] at h
    unfold State.takeHeads
    split
    · rename_i hq
      rw [← hq, ← hc.1.2]
    · rename_i e rest hq
      rw [if_neg (h.1 e (by rw [hq]; exact List.mem_cons_self)), ← hq, ← hc.1.2]
  · rfl

/-- A station whose own entry is Absent owes no READY (R9, R13). -/
theorem State.readyCondition_of_absent {s : State} (h : s.roster[s.station].state = .absent) :
    s.readyCondition = false := by
  have hreq : s.requirementSet[s.station] = false := by
    rw [State.requirementSet, Machine.requirementSet, getFin_tabulate, h]
    simp
  unfold State.readyCondition
  rw [hreq]
  simp

/-- A station whose own entry is Absent announces nothing (R9, R13). -/
theorem State.changeRoster_announced_of_absent {s : State} (st : StationState) (r : Roster)
    (h : r[s.station].state = .absent) : (s.changeRoster st r).gen.announced = s.gen.announced := by
  unfold State.changeRoster
  rw [State.evaluateReady_of_not_condition (by rw [State.readyCondition_of_absent h]; exact Bool.false_ne_true)]
  rfl

/-! ### A READY stays one for B, announced -/

namespace State.ReadyFormed

/-- Where nothing is announced, nothing of READY stands. -/
theorem of_unannounced {t : State} (announced : t.gen.announced = false) (pending : t.bus.readyPending = none)
    (flight : ∀ sent, t.bus.inFlight = some sent → sent.item ≠ .ready)
    (own : t.participates = true → t.gen.readySet[t.station] = false) : t.ReadyFormed := by
  refine ⟨fun h => ?_, fun _ h => ?_, fun _ g h => ?_, fun _ sent h hi => absurd hi (flight sent h), fun hp h => ?_⟩
  · rw [announced] at h; cases h
  · rw [announced] at h; cases h
  · rw [pending] at h; cases h
  · rw [own hp] at h; cases h

/-- A station that keeps its record, and whose work is done if it was, keeps the form. -/
theorem keeps {s t : State} (h : s.ReadyFormed) (part : t.participates = true → s.participates = true)
    (powered : t.powered = true → s.powered = true) (shown : t.gen.shown = s.gen.shown)
    (isSealed : t.gen.isSealed = s.gen.isSealed) (announced : t.gen.announced = s.gen.announced)
    (idle : s.currentWork = false → s.catchUp = .idle → s.gen.announced = true → s.participates = true →
      t.currentWork = false ∧ t.catchUp = .idle)
    (pending : t.bus.readyPending = s.bus.readyPending ∨ t.bus.readyPending = none)
    (flight : t.bus.inFlight = s.bus.inFlight ∨ t.bus.inFlight = none)
    (own : t.gen.readySet[t.station] = true → s.gen.readySet[s.station] = true ∨ s.gen.announced = true) :
    t.ReadyFormed := by
  have hbuilding : t.gen.building = s.gen.building := by unfold GenerationRecord.building; rw [shown]
  refine ⟨?_, ?_, ?_, ?_, ?_⟩
  · rw [announced, isSealed]; exact h.announced
  · rw [announced]
    intro hp ha
    obtain ⟨hwork, hcopy⟩ := h.idle (part hp) ha
    exact idle hwork hcopy ha (part hp)
  · rw [announced, hbuilding]
    intro hp g hg
    rcases pending with he | he <;> rw [he] at hg
    · exact h.pending (powered hp) g hg
    · cases hg
  · rw [announced, hbuilding]
    intro hp sent hs
    rcases flight with he | he <;> rw [he] at hs
    · exact h.flight (powered hp) sent hs
    · cases hs
  · rw [announced]
    intro hp hr
    rcases own hr with hr | ha
    · exact h.own (part hp) hr
    · exact ha

end State.ReadyFormed

/-! ### Effects that announce nothing -/

/-- From `s` to `t` nothing is announced, and READY is not owed where it was not. -/
structure State.ReadyQuiet (s t : State) : Prop where
  formed : t.ReadyFormed
  announced : t.gen.announced = s.gen.announced
  settled : s.readyCondition = false → t.readyCondition = false

namespace State.ReadyQuiet

theorem refl {s : State} (h : s.ReadyFormed) : s.ReadyQuiet s := ⟨h, rfl, id⟩

/-- What READY depends on is as before, READY's own item apart, which may be gone. -/
theorem same {s u t : State} (h : s.ReadyQuiet u) (life : t.life = u.life)
    (required : t.requirementSet[t.station] = u.requirementSet[u.station]) (shown : t.gen.shown = u.gen.shown)
    (isSealed : t.gen.isSealed = u.gen.isSealed) (announced : t.gen.announced = u.gen.announced)
    (work : t.currentWork = u.currentWork) (copying : t.catchUp = .idle ↔ u.catchUp = .idle)
    (pending : t.bus.readyPending = u.bus.readyPending ∨ t.bus.readyPending = none)
    (flight : t.bus.inFlight = u.bus.inFlight ∨ t.bus.inFlight = none)
    (own : t.gen.readySet[t.station] = true → u.gen.readySet[u.station] = true ∨ u.gen.announced = true) :
    s.ReadyQuiet t where
  formed := h.formed.keeps (fun hp => (State.participates_congr life).symm.trans hp)
    (fun hp => (State.powered_congr life).symm.trans hp) shown isSealed announced
    (fun hw hc _ _ => ⟨work.trans hw, copying.2 hc⟩) pending flight own
  announced := announced.trans h.announced
  settled hs := (State.readyCondition_congr life required isSealed announced work copying).trans (h.settled hs)

/-- The life, the number, the record, the roster and the engines are as before. -/
theorem congr {s u t : State} (h : s.ReadyQuiet u) (life : t.life = u.life := by simp)
    (straps : t.straps = u.straps := by simp) (gen : t.gen = u.gen := by simp)
    (roster : t.roster = u.roster := by simp) (queue : t.updateQueue = u.updateQueue := by simp)
    (engine : t.applyEngine = u.applyEngine := by simp) (copying : t.catchUp = u.catchUp := by simp)
    (pending : t.bus.readyPending = u.bus.readyPending ∨ t.bus.readyPending = none := by simp)
    (flight : t.bus.inFlight = u.bus.inFlight ∨ t.bus.inFlight = none := by simp) : s.ReadyQuiet t :=
  h.same life (State.ownRequired_congr straps roster (by rw [gen]) (by rw [gen])) (by rw [gen]) (by rw [gen])
    (by rw [gen]) (State.currentWork_congr queue engine) (by rw [copying]) pending flight
    (fun hr => .inl (by simpa only [gen, State.station_congr straps] using hr))

/-- A station that is in Joining or Member no more, with its record kept. -/
theorem leaves {s u t : State} (h : s.ReadyQuiet u) {st : StationState} (hl : t.life = .running st)
    (hst : st.participates = false) (gen : t.gen = u.gen := by simp)
    (pending : t.bus.readyPending = none := by simp [BusInterface.atStart])
    (flight : t.bus.inFlight = none := by simp [BusInterface.atStart]) : s.ReadyQuiet t where
  formed := by
    have hp : t.participates = false := (State.participates_running hl).trans hst
    refine ⟨?_, fun hp' => ?_, fun _ g hg => ?_, fun _ sent hs => ?_, fun hp' => ?_⟩
    · rw [gen]; exact h.formed.announced
    · rw [hp] at hp'; cases hp'
    · rw [pending] at hg; cases hg
    · rw [flight] at hs; cases hs
    · rw [hp] at hp'; cases hp'
  announced := by rw [gen, h.announced]
  settled _ := State.readyCondition_running hl (by constructor <;> rintro rfl <;> cases hst)

/-- A station with its record and engines kept, for which READY is no matter. -/
theorem moves {s u t : State} (h : s.ReadyQuiet u) (part : t.participates = true → u.participates = true)
    (powered : t.powered = true → u.powered = true) (cond : t.readyCondition = false)
    (straps : t.straps = u.straps := by simp) (gen : t.gen = u.gen := by simp)
    (queue : t.updateQueue = u.updateQueue := by simp) (engine : t.applyEngine = u.applyEngine := by simp)
    (copying : t.catchUp = u.catchUp := by simp)
    (pending : t.bus.readyPending = u.bus.readyPending ∨ t.bus.readyPending = none := by simp)
    (flight : t.bus.inFlight = u.bus.inFlight ∨ t.bus.inFlight = none := by simp) : s.ReadyQuiet t where
  formed := by
    refine h.formed.keeps part powered (by rw [gen]) (by rw [gen]) (by rw [gen])
      (fun hwork hcopy _ _ => ⟨?_, copying.trans hcopy⟩) pending flight (fun hr => .inl ?_)
    · rw [State.currentWork_congr queue engine, hwork]
    · simpa only [gen, State.station_congr straps] using hr
  announced := by rw [gen, h.announced]
  settled _ := cond

/-- The entry to Leaving, after which READY is no matter (R178, R193). -/
theorem enterLeaving {s u : State} (h : s.ReadyQuiet u) {st : StationState} (hl : u.life = .running st)
    (hw : st.participates = true) (tr : Option Transaction) (bytes : List Byte) (origin : LeavingOrigin) (r : Response) :
    s.ReadyQuiet ((State.enterLeaving { u with transaction := tr, dataOut := bytes } origin).respond r) := by
  refine h.moves (fun _ => (State.participates_running hl).trans hw) (fun _ => State.powered_running hl) ?_
  exact State.readyCondition_running (st := .leaving origin) (by simp) ⟨nofun, nofun⟩

theorem withdraw {s u : State} (h : s.ReadyQuiet u) (reason : WithdrawReason) : s.ReadyQuiet (u.withdraw reason) :=
  h.leaves (st := .withdrawn) (by simp) rfl

theorem becomeClashed {s u : State} (h : s.ReadyQuiet u) : s.ReadyQuiet u.becomeClashed :=
  h.leaves (st := .clashed) (by simp) rfl

theorem driveSpoil {s u : State} (h : s.ReadyQuiet u) (reason : Option SpoilReason) :
    s.ReadyQuiet (u.driveSpoil reason) := by
  cases reason with
  | none => exact h
  | some r => exact h.congr rfl rfl rfl rfl rfl rfl rfl (.inl rfl) (.inl rfl)

theorem spoilFeedHead {s u : State} (h : s.ReadyQuiet u) (reason : Option SpoilReason) :
    s.ReadyQuiet (u.spoilFeedHead reason) := by
  unfold State.spoilFeedHead
  split
  · exact h
  · split
    · exact h.congr rfl rfl rfl rfl rfl rfl rfl (.inl rfl) (.inl rfl)
    · exact h.congr

theorem attemptSpoiled {s u : State} (h : s.ReadyQuiet u) (item : Option Item) (reason : Option SpoilReason) :
    s.ReadyQuiet (u.attemptSpoiled item reason) := by
  refine State.attemptSpoiled_keeps (Q := s.ReadyQuiet) (fun _ _ h => h.congr) (fun v h => ?_)
    (fun _ _ h => h.spoilFeedHead _) u item reason h
  unfold State.spoilLeave
  split
  · exact h.congr
  · exact State.ReadyQuiet.withdraw (h.congr (t := { v with bus := { v.bus with leavePending := false } })) _

end State.ReadyQuiet

/-! ### Effects that end with READY evaluated -/

/-- From `s` to `t` READY is not owed where it was not, and it is pending for B where it is newly announced. -/
structure State.ReadyStep (s t : State) : Prop where
  formed : t.ReadyFormed
  settled : s.readyCondition = false → t.readyCondition = false
  told : s.gen.announced = false → t.gen.announced = true → t.bus.readyPending = some t.gen.building

theorem State.ReadyQuiet.step {s t : State} (h : s.ReadyQuiet t) : s.ReadyStep t where
  formed := h.formed
  settled := h.settled
  told hs ht := by
    rw [h.announced, hs] at ht
    cases ht

namespace State.ReadyStep

/-- The conditions of R13 are evaluated at the end. -/
theorem evaluated {s u : State} (h : u.ReadyFormed) (announced : u.gen.announced = true → s.gen.announced = true) :
    s.ReadyStep u.evaluateReady := by
  by_cases hc : u.readyCondition = true
  · obtain ⟨hann, hpending⟩ := State.evaluateReady_of_condition hc
    have hshown : u.evaluateReady.gen.building = u.gen.building := by unfold GenerationRecord.building; simp
    have hcond : (u.gen.isSealed = true ∧ u.currentWork = false ∧ u.catchUp = .idle) := by
      unfold State.readyCondition at hc
      simp only [Bool.and_eq_true, Bool.not_eq_true', decide_eq_true_eq] at hc
      exact ⟨hc.1.1.1.2, hc.1.1.2, hc.1.2⟩
    obtain ⟨hsealed, hwork, hcopy⟩ := hcond
    refine ⟨⟨fun _ => ?_, fun _ _ => ⟨?_, ?_⟩, fun _ g hg => ?_, fun hp sent hs hi => ⟨hann, ?_⟩, fun _ _ => hann⟩,
      fun _ => ?_, fun _ _ => ?_⟩
    · simpa using hsealed
    · rw [State.currentWork_congr (s := u) (by simp) (by simp), hwork]
    · simpa using hcopy
    · rw [hpending] at hg
      cases hg
      exact ⟨hshown.symm, hann⟩
    · rw [hshown]
      have hpow : u.powered = true := (State.powered_congr (t := u.evaluateReady) (by simp)).symm.trans hp
      exact (h.flight hpow sent (by simpa using hs) hi).2
    · unfold State.readyCondition
      rw [hann]
      simp
    · rw [hpending, hshown]
  · rw [State.evaluateReady_of_not_condition hc]
    refine ⟨h, fun _ => by simpa using hc, fun hs hu => ?_⟩
    rw [announced hu] at hs
    cases hs

/-- After the evaluation nothing READY depends on changes any more. -/
theorem congr {s u t : State} (h : s.ReadyStep u) (life : t.life = u.life := by simp)
    (straps : t.straps = u.straps := by simp) (gen : t.gen = u.gen := by simp)
    (roster : t.roster = u.roster := by simp) (queue : t.updateQueue = u.updateQueue := by simp)
    (engine : t.applyEngine = u.applyEngine := by simp) (copying : t.catchUp = u.catchUp := by simp)
    (pending : t.bus.readyPending = u.bus.readyPending := by simp)
    (flight : t.bus.inFlight = u.bus.inFlight := by simp) : s.ReadyStep t := by
  have hquiet := (State.ReadyQuiet.refl h.formed).congr life straps gen roster queue engine copying (.inl pending)
    (.inl flight)
  refine ⟨hquiet.formed, fun hs => hquiet.settled (h.settled hs), ?_⟩
  rw [gen, pending]
  exact h.told

/-- A change of the roster evaluates READY at its end (R13, R42). -/
theorem changeRoster {s u : State} (h : u.ReadyFormed) (announced : u.gen.announced = s.gen.announced)
    (st : StationState) (r : Roster) : s.ReadyStep (u.changeRoster st r) := by
  unfold State.changeRoster
  refine evaluated (h.keeps id id rfl rfl rfl (fun hw hc _ _ => ⟨hw, hc⟩) (.inl rfl) (.inl rfl) fun hr => .inl ?_) ?_
  · have hr' : (stationInter u.gen.readySet _)[u.station] = true := hr
    rw [getFin_stationInter, Bool.and_eq_true] at hr'
    exact hr'.1
  · exact fun ha => announced.symm.trans ha

/-! ### A beacon acceptance -/

/-- The record of an acceptance without a flip announces what it announced, for the same B (R21). -/
theorem recordAt_of_no_flip {s : State} {m : BeaconFields} (h : s.flipsAt m = false) :
    (s.recordAt m).shown = s.gen.shown ∧ (s.recordAt m).isSealed = s.gen.isSealed ∧
    (s.recordAt m).announced = s.gen.announced ∧ (s.recordAt m).readySet = s.gen.readySet := by
  unfold State.recordAt GenerationRecord.aged
  rw [h, if_neg Bool.false_ne_true]
  split
  · exact ⟨rfl, rfl, rfl, rfl⟩
  · split <;> exact ⟨rfl, rfl, rfl, rfl⟩

/-- After the roster's and the record's part of an acceptance, nothing new is announced (R18, R21). -/
theorem wallWork {s : State} (h : s.ReadyFormed) {st : StationState} (hl : s.life = .running st)
    (hw : st.participates = true) (flight : s.bus.inFlight = none) (sender : Station) (m : BeaconFields) :
    ((s.takeBeacon m).wallWork s st sender m).ReadyFormed ∧
    (((s.takeBeacon m).wallWork s st sender m).gen.announced = true → s.gen.announced = true) := by
  have hpart : s.participates = true := (State.participates_running hl).trans hw
  have hreadySet : ∀ n : Station, ((s.takeBeacon m).wallWork s st sender m).gen.readySet[n] = true →
      (s.recordAt m).readySet[n] = true := fun n hn => by
    have hn' : (stationInter (s.recordAt m).readySet _)[n] = true := hn
    rw [getFin_stationInter, Bool.and_eq_true] at hn'
    exact hn'.1
  by_cases hf : s.flipsAt m = true
  · have hgen : s.recordAt m = s.gen.flip := if_pos hf
    have hann : ((s.takeBeacon m).wallWork s st sender m).gen.announced = false := by
      change (s.recordAt m).announced = false
      rw [hgen]
      rfl
    refine ⟨.of_unannounced hann (if_pos hf) (fun sent hs => ?_) (fun _ => ?_), fun ha => ?_⟩
    · have hs' : s.bus.inFlight = some sent := hs
      rw [flight] at hs'
      cases hs'
    · rw [← Bool.not_eq_true]
      intro hr
      have hr' := hreadySet _ hr
      simp only [hgen] at hr'
      have hempty : (s.gen.flip).readySet[((s.takeBeacon m).wallWork s st sender m).station] = false :=
        getFin_stationSetEmpty _
      rw [hempty] at hr'
      cases hr'
    · rw [hann] at ha
      cases ha
  · have hf' : s.flipsAt m = false := by simpa using hf
    obtain ⟨hshown, hsealed, hann, hset⟩ := recordAt_of_no_flip hf'
    have hqueue : ((s.takeBeacon m).wallWork s st sender m).updateQueue = s.updateQueue := if_neg hf
    refine ⟨h.keeps (fun _ => hpart) (fun _ => State.powered_running hl) hshown hsealed hann (fun hwork hcopy _ _ => ?_)
      (.inl (if_neg hf)) (.inl rfl) (fun hr => .inl ?_), fun ha => hann.symm.trans ha⟩
    · rw [State.currentWork_congr (s := s) hqueue (by simp)]
      exact ⟨hwork, by simpa using hcopy⟩
    · have hr' := hreadySet _ hr
      simp only [hset] at hr'
      exact hr'

/-- An engine that resumes does not disturb what is announced: no Current work is left then (R13, R55). -/
theorem resumed {u : State} (h : u.ReadyFormed) : u.resumeApply.ReadyFormed := by
  by_cases ha : u.participates = true ∧ u.gen.announced = true
  · rw [State.resumeApply_of_no_work (h.idle ha.1 ha.2).1]
    exact h
  · refine h.keeps (fun hp => (State.participates_congr (by simp)).symm.trans hp)
      (fun hp => (State.powered_congr (by simp)).symm.trans hp) (by simp) (by simp) (by simp)
      (fun _ _ ha' hp => absurd ⟨hp, ha'⟩ ha) (by simp) (by simp) (fun hr => .inl ?_)
    have hstation : u.resumeApply.station = u.station := State.station_congr (by simp)
    simp only [hstation] at hr
    simpa using hr

theorem acceptBeacon {s : State} (h : s.ReadyFormed) {st : StationState} (hl : s.life = .running st)
    (hw : st.participates = true) (flight : s.bus.inFlight = none) (own : Bool) (sender : Station) (m : BeaconFields) :
    s.ReadyStep (s.acceptBeacon st own sender m) := by
  obtain ⟨hformed, hann⟩ := wallWork h hl hw flight sender m
  have hlife : ((s.takeBeacon m).wallWork s st sender m).life = .running (s.stateAt st sender m) := rfl
  have hpart' := State.RecordAgrees.stateAt_participates (s := s) hw sender m
  obtain ⟨-, he⟩ | ⟨-, -, he⟩ | ⟨-, -, he⟩ := s.acceptBeacon_cases st own sender m <;> rw [he]
  · have htaken : s.ReadyQuiet (s.takeBeacon m) := (State.ReadyQuiet.refl h).congr
    exact ((htaken.withdraw .outOfStep).congr (t := ((s.takeBeacon m).withdraw .outOfStep).newFrame false)).step
  · have hquiet := ((State.ReadyQuiet.refl hformed).withdraw .silenced).congr
      (t := (((s.takeBeacon m).wallWork s st sender m).withdraw .silenced).newFrame false)
    refine ⟨hquiet.formed, fun _ => State.readyCondition_running (st := .withdrawn) (by simp) ⟨nofun, nofun⟩,
      fun hs ht => ?_⟩
    rw [hann (hquiet.announced.symm.trans ht)] at hs
    cases hs
  · have hprepared : ((s.takeBeacon m).prepared s st own sender m).ReadyFormed := by
      refine hformed.keeps (fun _ => ?_) (fun _ => ?_) (by simp) (by simp) (by simp) (fun hwork hcopy ha _ => ?_) (by simp)
        (by simp) (fun hr => .inl ?_)
      · rw [State.participates_running hlife, hpart']
      · exact State.powered_running hlife
      · have hf : s.flipsAt m = false := by
          rw [← Bool.not_eq_true]
          intro hf
          have hflip : s.recordAt m = s.gen.flip := if_pos hf
          have ha' : (s.recordAt m).announced = true := ha
          rw [hflip] at ha'
          cases ha'
        rw [State.currentWork_congr (s := (s.takeBeacon m).wallWork s st sender m) (by simp) (by simp), hwork,
          State.prepared_catchUp_of_no_swap _ (State.swapsAt_of_no_flip hf sender)]
        exact ⟨rfl, by simpa using hcopy⟩
      · have hstation : ((s.takeBeacon m).prepared s st own sender m).station =
            ((s.takeBeacon m).wallWork s st sender m).station := State.station_congr (by simp)
        simp only [hstation] at hr
        simpa using hr
    exact (evaluated (s := s) (resumed hprepared) (by simpa using hann)).congr

/-! ### The other accepted messages -/

/-- A READY that joins the ready set changes no condition of R13; the own one was announced (R10). -/
theorem acceptReady {s u : State} (h : s.ReadyQuiet u) {st : StationState} (hl : u.life = .running st)
    (hw : st.participates = true) (hrec : u.RecordAgrees) (sender : Station) (g : Generation)
    (own : sender = u.station → u.gen.announced = true) : s.ReadyStep (u.acceptReady st sender g) := by
  have hpart : u.participates = true := (State.participates_running hl).trans hw
  by_cases ht : u.gen.isSealed = true ∧ g = u.gen.building ∧ u.requirementSet[sender] = true
  · obtain ⟨hsealed, hg, hreq⟩ := ht
    rw [u.acceptReady_of_taken st sender g (hrec.baselineLive hpart) (hrec.ready hpart) hsealed hg hreq]
    refine (h.same (t := { u with gen := (u.gen.withReady sender).withArmed st u.station u.roster }) rfl rfl rfl rfl rfl
      rfl Iff.rfl (.inl rfl) (.inl rfl) fun hr => ?_).step
    rcases (u.gen.withReady_readySet_iff sender u.station).1 hr with hr | hr
    · exact .inl hr
    · exact .inr (own hr.symm)
  · rw [u.acceptReady_of_not_taken st sender g ht]
    exact h.step

/-- A SEAL that is taken finds nothing announced, as B was unsealed (R6). -/
theorem acceptSeal {s u : State} (h : s.ReadyQuiet u) (hpow : u.powered = true) (flight : u.bus.inFlight = none)
    (st : StationState) (sender : Station) (g : Generation) (reveal : Bool) (carried : Option StationSet) :
    s.ReadyStep (u.acceptSeal st sender g reveal carried) := by
  unfold State.acceptSeal
  split
  · rename_i ht
    simp only [Bool.and_eq_true, Bool.not_eq_true'] at ht
    have hann : u.gen.announced = false := by
      rw [← Bool.not_eq_true]
      intro ha
      rw [h.formed.announced ha] at ht
      cases ht.1
    have hpending : u.bus.readyPending = none := by
      rw [Option.eq_none_iff_forall_ne_some]
      intro g' hg'
      rw [(h.formed.pending hpow g' hg').2] at hann
      cases hann
    refine evaluated (.of_unannounced hann hpending (fun sent hs => ?_) fun _ => ?_) fun ha => ?_
    · have hs' : u.bus.inFlight = some sent := hs
      rw [flight] at hs'
      cases hs'
    · change (stationInter StationSet.empty _)[u.station] = false
      rw [getFin_stationInter, getFin_stationSetEmpty, Bool.false_and]
    · exact h.announced.symm.trans ha
  · exact (h.congr).step

/-- An UPDATE is Next behind an announced READY, as B is sealed then (R13, R51). -/
theorem acceptUpdate {s u : State} (h : s.ReadyQuiet u) (upd : Update) :
    s.ReadyStep (u.acceptUpdate upd) := by
  unfold State.acceptUpdate
  split
  · rename_i v _
    have hqueued : State.ReadyFormed { u with updateQueue := u.updateQueue ++ [u.newEntry v] } := by
      refine h.formed.keeps id id rfl rfl rfl (fun hwork hcopy ha _ => ⟨?_, hcopy⟩) (.inl rfl) (.inl rfl) .inl
      have hnew : (u.newEntry v).epoch = .next := if_pos (h.formed.announced ha)
      unfold State.currentWork at hwork ⊢
      simp only [List.any_append, List.any_cons, List.any_nil, hnew] at hwork ⊢
      simpa using hwork
    exact (evaluated (s := s) (resumed hqueued) (by simp [h.announced])).congr
  · exact (h.congr).step

/-- The share of an accepted frame is no condition of R13, and takes the READY that was in flight (R147, R151). -/
theorem ofShare {s : State} (h : s.ReadyFormed) (cls : BitVec 3)
    (f : BusFrame) : s.ReadyQuiet (s.afterShare cls f) := by
  refine (State.ReadyQuiet.refl h).same rfl ?_ rfl rfl rfl rfl Iff.rfl ?_ (.inr (s.afterShare_inFlight cls f)) .inl
  · exact congrArg (fun r : StationSet => r[s.station]) (s.afterShare_requirementSet cls f s.gen)
  · have htaken : ∀ item, (s.endFlight.bus.sentAccepted item).readyPending = s.bus.readyPending ∨
        (s.endFlight.bus.sentAccepted item).readyPending = none := fun item => by
      cases item with
      | none => exact .inl rfl
      | some item =>
        cases item with
        | ready => exact .inr rfl
        | beacon | leave | join | presence | feed => exact .inl rfl
    exact htaken _

/-- An own READY frame is the READY in flight, which is announced (R13, R147). -/
theorem announced_of_ownReady {s : State} (h : s.ReadyFormed) (hown : s.OwnEntryAgrees) (hpow : s.powered = true)
    {cls : BitVec 3} {f : BusFrame} {g : Generation} (hc : s.ownership cls f ≠ .clash) (hs : f.sender = s.station)
    (hp : parseMessage cls f.payload = some (.ready g)) : s.gen.announced = true := by
  have hcls : cls = 1 := parseMessage_frameClass hp
  cases ho : s.ownership cls f with
  | clash => exact absurd ho hc
  | foreign => exact absurd hs (State.ownership_foreign_iff.1 ho)
  | own item =>
    obtain ⟨-, sent, hf, -, hsent, -⟩ := State.ownership_own ho
    have hformed := hown.flight hpow sent hf
    unfold State.FlightFormed at hformed
    rw [hsent, hcls] at hformed
    have hitem : sent.item = .ready := by
      cases hi : sent.item with
      | ready => rfl
      | beacon | leave | join | presence | feed => simp [hi, submitTakes] at hformed
    exact (h.flight hpow sent hf hitem).1

theorem accepted {s : State} (h : s.ReadyFormed) (hown : s.OwnEntryAgrees) (hrec : s.RecordAgrees) {st : StationState}
    (hl : s.life = .running st) (hw : st.participates = true) {cls : BitVec 3} {f : BusFrame}
    (hc : s.ownership cls f ≠ .clash) {msg : Message} (hp : parseMessage cls f.payload = some msg) :
    s.ReadyStep ((s.afterShare cls f).acceptMessage st (s.ownership cls f).item f.sender msg) := by
  have hshare := ofShare h cls f
  have hl' : (s.afterShare cls f).life = .running st := hl
  have hpow := State.powered_running hl
  have hflight := s.afterShare_inFlight cls f
  have hroster := fun r => changeRoster hshare.formed hshare.announced st r
  cases msg with
  | beacon m =>
    have hstep := acceptBeacon hshare.formed hl' hw hflight (s.ownership cls f).item.isSome f.sender m
    exact ⟨hstep.formed, fun hs => hstep.settled (hshare.settled hs), hstep.told⟩
  | ready g =>
    have hrec' : (s.afterShare cls f).RecordAgrees :=
      State.RecordAgrees.keptByFrameOps.heard _ _ (State.RecordAgrees.keptByFrameOps.accepted _ _
        (State.RecordAgrees.keptByFrameOps.endFlight _ hrec))
    have hann : f.sender = s.station → s.gen.announced = true := fun hs =>
      announced_of_ownReady h hown hpow hc hs hp
    exact acceptReady hshare hl' hw hrec' f.sender g hann
  | sealing g reveal carried => exact acceptSeal hshare hpow hflight st f.sender g reveal carried
  | join width height period =>
    rw [State.acceptMessage_join]
    unfold State.acceptJoin
    split
    · dsimp only
      split
      · exact (hroster _).congr rfl rfl rfl rfl rfl rfl rfl rfl rfl
      · exact hroster _
    · exact (hshare.congr).step
  | presence isMember =>
    rw [State.acceptMessage_presence]
    split
    · exact hroster _
    · exact hshare.step
  | leave =>
    rw [State.acceptMessage_leave]
    split
    · rename_i hitem
      have hs : f.sender = s.station := by
        rw [State.ownership_item_isSome hc] at hitem
        simpa using hitem
      have hleft := (State.ReadyQuiet.refl (hroster (rosterLeave (s.afterShare cls f).roster f.sender)).formed).withdraw
        .left
      refine ⟨hleft.formed, fun _ => State.readyCondition_running (st := .withdrawn) (by simp) ⟨nofun, nofun⟩,
        fun ha ht => ?_⟩
      have habsent : (rosterLeave (s.afterShare cls f).roster f.sender)[(s.afterShare cls f).station].state = .absent := by
        rw [rosterLeave_entry, if_pos (show (s.afterShare cls f).station = f.sender from hs.symm)]
      rw [hleft.announced, State.changeRoster_announced_of_absent _ _ habsent] at ht
      rw [← hshare.announced, ht] at ha
      cases ha
    · exact hroster _
  | update u => exact acceptUpdate hshare u
  | glyph set code first patterns => 
    have hglyph : s.ReadyQuiet ((s.afterShare cls f).acceptGlyph set code first patterns) :=
      hshare.congr rfl rfl rfl rfl rfl rfl rfl (.inl rfl) (.inl rfl)
    exact hglyph.step

/-! ### Every effect -/

/-- At an adoption nothing is announced, and the own entry is Absent (R4, R28, R176). -/
theorem adopt {s : State} (h : s.ReadyFormed) (hrec : s.RecordAgrees) (hl : s.life = .running .listening)
    (item : Option Item) (m : BeaconFields) : s.ReadyStep ((s.endFlight.frameAccepted item).adopt m) := by
  obtain ⟨hgen, hroster⟩ := hrec.listening hl
  have hann : s.gen.announced = false := by rw [hgen]; rfl
  have hann' : ((s.endFlight.frameAccepted item).adopt m).gen.announced = false := by
    rw [(State.adopt_sets _ m).2.1]
    exact hann
  have hpending : s.bus.readyPending = none := by
    rw [Option.eq_none_iff_forall_ne_some]
    intro g hg
    rw [(h.pending (State.powered_running hl) g hg).2] at hann
    cases hann
  refine ⟨.of_unannounced hann' ?_ (fun sent hs => ?_) (fun _ => ?_), fun _ => ?_, fun _ ht => ?_⟩
  · rw [(State.adopt_sets _ m).2.2.1]
    change (s.endFlight.bus.sentAccepted item).readyPending = none
    cases item with
    | none => exact hpending
    | some item =>
      cases item with
      | ready => rfl
      | beacon | leave | join | presence | feed => exact hpending
  · rw [(State.adopt_sets _ m).2.2.1] at hs
    have hs' : (s.endFlight.bus.sentAccepted item).inFlight = some sent := hs
    rw [BusInterface.sentAccepted_inFlight] at hs'
    cases hs'
  · rw [(State.adopt_sets _ m).2.1]
    have hset : s.gen.readySet = StationSet.empty := by rw [hgen]; rfl
    change s.gen.readySet[((s.endFlight.frameAccepted item).adopt m).station] = false
    simp only [hset]
    exact getFin_stationSetEmpty _
  · refine State.readyCondition_of_absent ?_
    have hroster' : ((s.endFlight.frameAccepted item).adopt m).roster = rosterCleared := by simpa [State.endFlight] using hroster
    simp only [hroster', getFin_rosterCleared]
    rfl
  · rw [hann'] at ht
    cases ht

theorem endFrame {s : State} (h : s.ReadyFormed) (hown : s.OwnEntryAgrees) (hrec : s.RecordAgrees) (cls : BitVec 3)
    (f : BusFrame) : s.ReadyStep (s.endFrame cls f) := by
  have hend := s.endFrame_ends cls f
  generalize s.endFrame cls f = t at hend
  have hself := State.ReadyQuiet.refl h
  have hflight : s.ReadyQuiet s.endFlight := hself.congr rfl rfl rfl rfl rfl rfl rfl (.inl rfl) (.inr rfl)
  cases hend with
  | unread => exact hself.step
  | clash => exact hself.becomeClashed.step
  | outside | listenIgnored => exact hflight.step
  | spoiled =>
    exact (State.frameSpoiled_keeps (Q := s.ReadyQuiet) (fun _ reason h => h.driveSpoil reason)
      (fun _ _ _ h => h.attemptSpoiled _ _) (fun _ _ h => h.withdraw _) _ _ _ hflight).step
  | listenSpoiled => exact (hflight.attemptSpoiled _ _).step
  | listenAdopted m hl => exact adopt h hrec hl _ m
  | accepted st msg hl hw _ hc _ hp => exact accepted h hown hrec hl hw hc hp

/-- Nothing is announced in Listening (R28, R175). -/
theorem enterListening (s u : State) (reason : StateReason) : s.ReadyStep (u.enterListening reason) where
  formed := .of_unannounced rfl rfl nofun fun _ => getFin_stationSetEmpty _
  settled _ := State.readyCondition_running (st := .listening) rfl ⟨nofun, nofun⟩
  told _ ht := by cases ht

/-- The READY that is sent names B and is announced (R13, R150). -/
theorem contend {s : State} (h : s.ReadyFormed) (others : List Key) : s.ReadyStep (s.contend others) := by
  unfold State.contend
  split
  · exact (State.ReadyQuiet.refl h).step
  · rename_i item hi
    obtain ⟨st, hl, -, hheld⟩ := State.chooseItem_some hi
    dsimp only
    split
    · exact (State.ReadyQuiet.refl h).step
    · refine ⟨⟨h.announced, h.idle, h.pending, fun _ sent hs hitem => ?_, h.own⟩, id, fun hs ht => ?_⟩
      · cases hs
        have hitem' : item = .ready := hitem
        subst hitem'
        have hsome : s.bus.readyPending.isSome = true := hheld
        obtain ⟨g, hg⟩ := Option.isSome_iff_exists.1 hsome
        obtain ⟨hb, hann⟩ := h.pending (State.powered_running hl) g hg
        refine ⟨hann, ?_⟩
        simp only [State.frameOf, State.formFrame, hg, hb, Option.getD_some]
      · have ht' : s.gen.announced = true := ht
        rw [hs] at ht'
        cases ht'

theorem effect {s t : State} (h : s.ReadyFormed) (hown : s.OwnEntryAgrees) (hrec : s.RecordAgrees) (he : Effect s t) :
    s.ReadyStep t := by
  have hself := State.ReadyQuiet.refl h
  cases he with
  | none => exact hself.step
  | start low life straps glyphs hlife =>
    refine ⟨.of_unannounced rfl rfl nofun fun _ => getFin_stationSetEmpty _, fun _ => ?_, fun _ ht => by cases ht⟩
    rcases hlife with rfl | rfl <;> rfl
  | synchronise =>
    obtain he | he := s.synchronise_cases <;> rw [he]
    · exact hself.step
    · exact (hself.congr).step
  | pin | report | nextEvent | displayRow | beginLine | beginTail => exact (hself.congr).step
  | endRead read hl =>
    obtain ⟨config, ms, he⟩ | ⟨config, reason, he⟩ := s.endRead_cases read <;> rw [he]
    · exact enterListening _ _ _
    · refine (hself.moves ?_ (fun _ => by simp [State.powered, hl]) ?_).step
      · rw [State.participates_running (st := .halted) (by simp)]
        nofun
      · exact State.readyCondition_running (st := .halted) (by simp) ⟨nofun, nofun⟩
  | expire =>
    obtain ⟨timer, -, -, -, ⟨asks, he⟩ | ⟨-, he⟩⟩ := s.expire_cases <;> rw [he]
    · exact (hself.congr).step
    · exact enterListening _ _ _
  | contend others => exact contend h others
  | clash => exact hself.becomeClashed.step
  | frame cls f => exact endFrame h hown hrec cls f
  | tileStep acc =>
    obtain ⟨-, he⟩ | ⟨n, -, hn, he⟩ := s.tileStep_cases acc <;> rw [he]
    · exact (hself.congr).step
    · have hformed : ((s.tileWritten acc).continueEntry n).ReadyFormed := by
        have hstation : ((s.tileWritten acc).continueEntry n).station = s.station :=
          State.station_congr (by simp [State.tileWritten])
        refine h.keeps (fun hp => ?_) (fun hp => ?_) (by simp [State.tileWritten]) (by simp [State.tileWritten])
          (by simp [State.tileWritten]) (fun hwork => ?_) (by simp [State.tileWritten]) (by simp [State.tileWritten])
          (fun hr => .inl ?_)
        · exact (State.participates_congr (by simp [State.tileWritten])).symm.trans hp
        · exact (State.powered_congr (by simp [State.tileWritten])).symm.trans hp
        · unfold State.currentWork at hwork
          rw [hn] at hwork
          simp at hwork
        · simp only [hstation] at hr
          simpa [State.tileWritten] using hr
      exact (evaluated (s := s) hformed (by simp [State.tileWritten])).congr
  | catchUpRead acc =>
    obtain ⟨-, he⟩ | ⟨-, he⟩ := s.catchUpRead_cases acc <;> rw [he]
    · exact (hself.congr).step
    · have hread : s.ReadyQuiet (s.copyRead acc) := by
        unfold State.copyRead
        refine hself.same (by simp) (State.ownRequired_congr (by simp) (by simp) (by simp) (by simp)) (by simp) (by simp)
          (by simp) (State.currentWork_congr (by simp) (by simp)) ?_ (by simp) (by simp) (fun hr => .inl ?_)
        · dsimp only
          cases s.catchUp <;> simp [CatchUp.withRecord]
        · have hstation : (s.finishAccess acc).station = s.station := State.station_congr (by simp)
          simpa [State.station] using hr
      exact (hread.congr).step
  | catchUpWrite acc =>
    obtain ⟨-, he⟩ | ⟨-, he⟩ := s.catchUpWrite_cases acc <;> rw [he]
    · exact (hself.congr).step
    · have hformed : ((s.finishAccess acc).requestCopy s.catchUp.advance).ReadyFormed := by
        have hstation : ((s.finishAccess acc).requestCopy s.catchUp.advance).station = s.station :=
          State.station_congr (by simp)
        refine h.keeps (fun hp => ?_) (fun hp => ?_) (by simp) (by simp) (by simp) (fun hwork hcopy _ _ => ⟨?_, ?_⟩)
          (by simp) (by simp) (fun hr => .inl ?_)
        · exact (State.participates_congr (by simp)).symm.trans hp
        · exact (State.powered_congr (by simp)).symm.trans hp
        · rw [State.currentWork_congr (s := s) (by simp) (by simp), hwork]
        · rw [hcopy]
          rfl
        · simp only [hstation] at hr
          simpa using hr
      exact (evaluated (s := s) (resumed hformed) (by simp)).congr
  | rowFetched acc =>
    obtain ⟨-, he⟩ | ⟨r, col, -, -, ⟨_, he⟩ | ⟨-, he⟩⟩ := s.rowFetched_cases acc <;> rw [he] <;> exact (hself.congr).step
  | feedReadDone acc =>
    unfold State.feedReadDone
    exact (hself.congr).step
  | submit tr bytes cls payload =>
    obtain ⟨r, he⟩ | ⟨-, -, -, r, he⟩ := State.submit_cases { s with transaction := tr, dataOut := bytes } cls payload
      <;> rw [he] <;> exact (hself.congr).step
  | readCell tr bytes role row col =>
    obtain he | ⟨r, p, he⟩ := State.readCellCommand_cases { s with transaction := tr, dataOut := bytes } role row col
      <;> rw [he] <;> exact (hself.congr).step
  | restart tr bytes st hl =>
    obtain ⟨r, he | ⟨hst, he⟩ | ⟨hst, he⟩ | ⟨-, he⟩⟩ :=
      State.restartCommand_cases { s with transaction := tr, dataOut := bytes } st <;> rw [he]
    · exact (hself.congr).step
    · subst hst
      exact (hself.enterLeaving hl rfl tr bytes .fromJoining r).step
    · subst hst
      exact (hself.enterLeaving hl rfl tr bytes .fromMember r).step
    · exact (enterListening s { s with transaction := tr, dataOut := bytes } .restart).congr
  | losePower =>
    exact (hself.moves (t := s.losePower) nofun nofun rfl rfl rfl rfl rfl rfl (.inl rfl) (.inr rfl)).step

end State.ReadyStep
end Sys2Proof.Machine
end

section
/-! PROOFS. READY is never owed. -/

namespace Sys2Proof.Proofs

open Sys2Proof.Machine

/-- Settles O12: each effect leaves the conditions of R13 alone, makes one of them false, or evaluates them at its end. -/
theorem stepLeavesNoReadyOwed : Obligations.StepLeavesNoReadyOwed := by
  intro s t hrec hown h hstep
  obtain rfl | ⟨q, he⟩ := step_effect hstep
  · have hquiet := State.ReadyQuiet.refl h
    exact ⟨hquiet.step.formed, hquiet.step.settled, hquiet.step.told⟩
  · have hready := State.ReadyStep.effect (s := { s with pending := q }) (h.keeps id id rfl rfl rfl
      (fun hw hc _ _ => ⟨hw, hc⟩) (.inl rfl) (.inl rfl) .inl) (hown.congr rfl rfl rfl rfl (.inl rfl) fun _ => .inl) hrec.congr he
    exact ⟨hready.formed, hready.settled, hready.told⟩

end Sys2Proof.Proofs
end

section
/-! SUPPORT. The page memory arbiter (R129 to R137): what issuing, withdrawing and granting make of its requests, and the
part of its invariant that holds also while a grant is due. -/

namespace Sys2Proof.Machine

/-! ### Requests issued and withdrawn -/

/-- At an entry to Withdrawn or Clashed every request is withdrawn and every access given up (R136). -/
theorem Arbiter.standDown_eq (a : Arbiter) : a.withdrawEngines.withdraw .feedRead =
    { rowFetch := none, feedRead := none, apply := none, catchUp := none
      access := a.access.map fun acc => { acc with abandoned := true } } := by
  obtain ⟨rf, fr, ap, cu, ac⟩ := a
  cases ac with
  | none => rfl
  | some acc =>
    obtain ⟨r, b, p, w, ab, bl⟩ := acc
    cases r <;> rfl

/-- At an entry to Listening the engines' requests are withdrawn, the feed read's stays, and the blanking stands over the
access in progress (R136, R137). -/
theorem Arbiter.blanked_eq (a : Arbiter) : a.withdrawEngines.blank =
    { rowFetch := none, feedRead := a.feedRead, apply := none, catchUp := none
      access := a.access.map fun acc =>
        { acc with abandoned := acc.abandoned || decide (acc.requester ≠ .feedRead), blanked := true } } := by
  obtain ⟨rf, fr, ap, cu, ac⟩ := a
  cases ac with
  | none => rfl
  | some acc =>
    obtain ⟨r, b, p, w, ab, bl⟩ := acc
    cases r <;> cases ab <;> rfl

/-- A row fetch that is given up leaves the other requesters alone (R136). -/
theorem Arbiter.withdraw_rowFetch_eq (a : Arbiter) : a.withdraw .rowFetch =
    { a with rowFetch := none, access := a.access.map fun acc =>
      { acc with abandoned := acc.abandoned || decide (acc.requester = .rowFetch) } } := by
  obtain ⟨rf, fr, ap, cu, ac⟩ := a
  cases ac with
  | none => rfl
  | some acc =>
    obtain ⟨r, b, p, w, ab, bl⟩ := acc
    cases r <;> cases ab <;> rfl

/-! ### What apply requests (R55, R58, R61) -/

/-- The steps up to the next write issue its request, or nothing (R58). -/
theorem State.runSteps_arbiter (s : State) (l : List ApplyStep) (n : Nat) :
    ((s.runSteps l n).2 = none ∧ (s.runSteps l n).1.arbiter = s.arbiter) ∨
    ∃ p c, (s.runSteps l n).2.isSome = true ∧
      (s.runSteps l n).1.arbiter = s.arbiter.issue .apply ⟨p, .building, some c⟩ := by
  induction l generalizing s n with
  | nil => exact .inl ⟨rfl, rfl⟩
  | cons st rest ih =>
    cases st with
    | tile p c => exact .inr ⟨p, c, rfl, rfl⟩
    | left r col c => exact ih _ _
    | right => exact ih _ _
    | rowDefault r d =>
      have hset : (s.setBuildingDefault r d).arbiter = s.arbiter := by simp
      rw [← hset]
      exact ih _ _
    | leftClear r => exact ih _ _

/-- The arbiter and the engine after the engine has gone on: idle with nothing requested, or at a write that is
requested. -/
def State.AppliesFrom (s t : State) : Prop :=
  (t.applyEngine = .idle ∧ t.arbiter = s.arbiter) ∨
    t.applyEngine ≠ .idle ∧ ∃ p c, t.arbiter = s.arbiter.issue .apply ⟨p, .building, some c⟩

theorem State.takeHeads_applies (s : State) (q : List UpdateEntry) : s.AppliesFrom (s.takeHeads q) := by
  induction q generalizing s with
  | nil => exact .inl ⟨rfl, rfl⟩
  | cons e rest ih =>
    unfold State.takeHeads
    split
    · rcases s.runSteps_arbiter (e.update.steps s.straps s.wallColumns) 0 with ⟨hn, ha⟩ | ⟨p, c, hn, ha⟩
      · split
        · rename_i t hrun
          rw [hrun] at ha
          have hrest := ih t
          unfold State.AppliesFrom at hrest ⊢
          rw [← ha]
          exact hrest
        · rename_i t n hrun
          rw [hrun] at hn
          cases hn
      · split
        · rename_i t hrun
          rw [hrun] at hn
          cases hn
        · rename_i t n hrun
          rw [hrun] at ha
          exact .inr ⟨nofun, p, c, ha⟩
    · exact .inl ⟨rfl, rfl⟩

/-- The condition of R55 evaluated: nothing, or an idle engine takes the heads. -/
theorem State.resumeApply_applies (s : State) :
    s.resumeApply = s ∨ s.applyEngine = .idle ∧ s.participates = true ∧ s.catchUp = .idle ∧
      s.resumeApply = s.takeHeads s.updateQueue := by
  by_cases hc : (s.participates && decide (s.applyEngine = .idle) && decide (s.catchUp = .idle)) = true
  · have he : s.resumeApply = s.takeHeads s.updateQueue := if_pos hc
    simp only [Bool.and_eq_true, decide_eq_true_eq] at hc
    exact .inr ⟨hc.1.2, hc.1.1, hc.2, he⟩
  · exact .inl (if_neg hc)

theorem State.continueEntry_applies (s : State) (n : Nat) : s.AppliesFrom (s.continueEntry n) := by
  unfold State.continueEntry
  split
  · exact .inl ⟨rfl, rfl⟩
  · rename_i e rest hq
    rcases s.runSteps_arbiter ((e.update.steps s.straps s.wallColumns).drop (n + 1)) (n + 1) with ⟨hn, ha⟩ | ⟨p, c, hn, ha⟩
    · split
      · rename_i t hrun
        rw [hrun] at ha
        rcases State.resumeApply_applies { t with updateQueue := rest, applyEngine := .idle } with he | ⟨-, -, -, he⟩
        · rw [he]
          exact .inl ⟨rfl, ha⟩
        · rw [he]
          have happlies := State.takeHeads_applies { t with updateQueue := rest, applyEngine := .idle } rest
          unfold State.AppliesFrom at happlies ⊢
          rw [← ha]
          exact happlies
      · rename_i t k hrun
        rw [hrun] at hn
        cases hn
    · split
      · rename_i t hrun
        rw [hrun] at hn
        cases hn
      · rename_i t k hrun
        rw [hrun] at ha
        exact .inr ⟨nofun, p, c, ha⟩

/-! ### The invariant while a grant is due -/

/-- The arbiter's invariant but for the grant: a request may wait with no access in progress. -/
structure State.ArbiterOpen (s : State) : Prop where
  rowFetch : ∀ q, s.arbiter.rowFetch = some q → q.role = .shown ∧ q.write = none
  feedRead : ∀ q, s.arbiter.feedRead = some q → q.write = none
  apply : ∀ q, s.arbiter.apply = some q → q.role = .building ∧ q.write.isSome = true
  catchUp : ∀ q, s.arbiter.catchUp = some q → (q.role = .building ↔ q.write.isSome = true)
  access : ∀ acc, s.arbiter.access = some acc → acc.write.isSome = true →
    acc.requester = .apply ∨ acc.requester = .catchUp
  buffer : ∀ acc, s.arbiter.access = some acc → acc.write.isSome = true → acc.blanked = false → acc.buffer ≠ s.shown
  working : (s.arbiter.apply.isSome = true → s.applyEngine ≠ .idle) ∧
    (s.arbiter.catchUp.isSome = true → s.catchUp ≠ .idle)
  owned : ∀ acc, s.arbiter.access = some acc → acc.abandoned = false →
    (acc.requester = .apply → acc.write.isSome = true ∧ s.applyEngine ≠ .idle ∧ s.arbiter.apply = none) ∧
    (acc.requester = .catchUp → s.catchUp ≠ .idle ∧ s.arbiter.catchUp = none)
  abandoned : ∀ acc, s.arbiter.access = some acc → acc.write.isSome = true → acc.abandoned = true →
    acc.blanked = false → s.participates = false ∧ s.life ≠ .running .listening

theorem State.ArbiterFormed.open {s : State} (h : s.ArbiterFormed) : s.ArbiterOpen :=
  ⟨h.rowFetch, h.feedRead, h.apply, h.catchUp, h.access, h.buffer, h.working, h.owned, h.abandoned⟩

theorem State.ArbiterOpen.formed {s : State} (h : s.ArbiterOpen)
    (waiting : (s.arbiter.rowFetch.isSome || s.arbiter.feedRead.isSome || s.arbiter.apply.isSome
      || s.arbiter.catchUp.isSome) = true → s.arbiter.access.isSome = true) : s.ArbiterFormed :=
  ⟨h.rowFetch, h.feedRead, h.apply, h.catchUp, h.access, waiting, h.buffer, h.working, h.owned, h.abandoned⟩

namespace State.ArbiterOpen

/-- The same arbiter, shown buffer and engines. -/
theorem congr {s t : State} (h : s.ArbiterOpen) (arbiter : t.arbiter = s.arbiter := by simp)
    (shown : t.shown = s.shown := by simp) (engine : t.applyEngine = s.applyEngine := by simp)
    (copying : t.catchUp = s.catchUp := by simp)
    (life : s.participates = false ∧ s.life ≠ .running .listening →
      t.participates = false ∧ t.life ≠ .running .listening := by simp [State.participates]) : t.ArbiterOpen := by
  refine ⟨?_, ?_, ?_, ?_, ?_, ?_, ?_, ?_, ?_⟩
  · rw [arbiter]; exact h.rowFetch
  · rw [arbiter]; exact h.feedRead
  · rw [arbiter]; exact h.apply
  · rw [arbiter]; exact h.catchUp
  · rw [arbiter]; exact h.access
  · rw [arbiter, shown]; exact h.buffer
  · rw [arbiter, engine, copying]; exact h.working
  · rw [arbiter, engine, copying]; exact h.owned
  · rw [arbiter]; exact fun acc ha hw hb hbl => life (h.abandoned acc ha hw hb hbl)

/-- An access that has completed is gone (R130). -/
theorem finishAccess {s : State} (h : s.ArbiterOpen) (acc : Access) :
    (s.finishAccess acc).ArbiterOpen ∧ (s.finishAccess acc).arbiter = { s.arbiter with access := none } := by
  have harbiter : (s.finishAccess acc).arbiter = { s.arbiter with access := none } := by
    unfold State.finishAccess
    split
    · split <;> simp
    · rfl
  refine ⟨⟨?_, ?_, ?_, ?_, ?_, ?_, ?_, ?_, ?_⟩, harbiter⟩ <;> rw [harbiter]
  · exact h.rowFetch
  · exact h.feedRead
  · exact h.apply
  · exact h.catchUp
  · nofun
  · nofun
  · simpa using h.working
  · nofun
  · nofun

/-- A row fetch is requested for the shown role (R116, R129). -/
theorem issue_rowFetch {s t : State} (h : s.ArbiterOpen) (p : Pos)
    (arbiter : t.arbiter = s.arbiter.issue .rowFetch ⟨p, .shown, none⟩)
    (shown : t.shown = s.shown := by simp) (engine : t.applyEngine = s.applyEngine := by simp)
    (copying : t.catchUp = s.catchUp := by simp) (life : t.life = s.life := by simp) : t.ArbiterOpen := by
  refine ⟨?_, ?_, ?_, ?_, ?_, ?_, ?_, ?_, ?_⟩ <;> rw [arbiter]
  · intro q hq
    cases hq
    exact ⟨rfl, rfl⟩
  · exact h.feedRead
  · exact h.apply
  · exact h.catchUp
  · exact h.access
  · rw [shown]; exact h.buffer
  · rw [engine, copying]; exact h.working
  · rw [engine, copying]; exact h.owned
  · rw [State.participates_congr life, life]; exact h.abandoned

/-- A feed read reads (R129). -/
theorem issue_feedRead {s t : State} (h : s.ArbiterOpen) (p : Pos) (r : Role)
    (arbiter : t.arbiter = s.arbiter.issue .feedRead ⟨p, r, none⟩)
    (shown : t.shown = s.shown := by simp) (engine : t.applyEngine = s.applyEngine := by simp)
    (copying : t.catchUp = s.catchUp := by simp) (life : t.life = s.life := by simp) : t.ArbiterOpen := by
  refine ⟨?_, ?_, ?_, ?_, ?_, ?_, ?_, ?_, ?_⟩ <;> rw [arbiter]
  · exact h.rowFetch
  · intro q hq
    cases hq
    rfl
  · exact h.apply
  · exact h.catchUp
  · exact h.access
  · rw [shown]; exact h.buffer
  · rw [engine, copying]; exact h.working
  · rw [engine, copying]; exact h.owned
  · rw [State.participates_congr life, life]; exact h.abandoned

/-- Apply goes on while none of its writes is in progress: it requests a write of the building role, or is idle with
nothing requested (R58, R61). -/
theorem applies {s t : State} (h : s.ArbiterOpen) (ht : s.AppliesFrom t) (free : s.arbiter.apply = none)
    (noWrite : ∀ acc, s.arbiter.access = some acc → acc.abandoned = false → acc.requester ≠ .apply)
    (shown : t.shown = s.shown := by simp) (copying : t.catchUp = s.catchUp := by simp)
    (life : t.life = s.life := by simp) : t.ArbiterOpen := by
  have hlife : s.participates = false ∧ s.life ≠ .running .listening →
      t.participates = false ∧ t.life ≠ .running .listening := by
    rw [State.participates_congr life, life]
    exact id
  rcases ht with ⟨hidle, harbiter⟩ | ⟨hbusy, p, c, harbiter⟩
  · refine ⟨?_, ?_, ?_, ?_, ?_, ?_, ?_, ?_, ?_⟩ <;> rw [harbiter]
    · exact h.rowFetch
    · exact h.feedRead
    · exact h.apply
    · exact h.catchUp
    · exact h.access
    · rw [shown]; exact h.buffer
    · rw [free, copying]; exact ⟨nofun, h.working.2⟩
    · rw [copying]
      exact fun acc ha hb => ⟨fun hr => absurd hr (noWrite acc ha hb), (h.owned acc ha hb).2⟩
    · exact fun acc ha hw hb hbl => hlife (h.abandoned acc ha hw hb hbl)
  · refine ⟨?_, ?_, ?_, ?_, ?_, ?_, ?_, ?_, ?_⟩ <;> rw [harbiter]
    · exact h.rowFetch
    · exact h.feedRead
    · intro q hq
      cases hq
      exact ⟨rfl, rfl⟩
    · exact h.catchUp
    · exact h.access
    · rw [shown]; exact h.buffer
    · rw [copying]; exact ⟨fun _ => hbusy, h.working.2⟩
    · rw [copying]
      exact fun acc ha hb => ⟨fun hr => absurd hr (noWrite acc ha hb), (h.owned acc ha hb).2⟩
    · exact fun acc ha hw hb hbl => hlife (h.abandoned acc ha hw hb hbl)

theorem resumeApply {s : State} (h : s.ArbiterOpen) : s.resumeApply.ArbiterOpen := by
  rcases s.resumeApply_applies with he | ⟨hidle, -, -, he⟩ <;> rw [he]
  · exact h
  · refine h.applies (s.takeHeads_applies s.updateQueue) ?_ fun acc ha hb hr => ?_
    · rw [← Option.not_isSome_iff_eq_none]
      exact fun hs => h.working.1 hs hidle
    · exact ((h.owned acc ha hb).1 hr).2.1 hidle

/-- Catch-up goes on while none of its accesses is in progress: it has a request of its own, or is idle (R76). -/
theorem copies {s t : State} (h : s.ArbiterOpen) (free : s.arbiter.catchUp = none)
    (noCopy : ∀ acc, s.arbiter.access = some acc → acc.abandoned = false → acc.requester ≠ .catchUp)
    (arbiter : t.arbiter = s.arbiter ∨ t.catchUp ≠ .idle ∧ ∃ q, t.arbiter = s.arbiter.issue .catchUp q ∧
      (q.role = .building ↔ q.write.isSome = true))
    (shown : t.shown = s.shown := by simp) (engine : t.applyEngine = s.applyEngine := by simp)
    (life : t.life = s.life := by simp) : t.ArbiterOpen := by
  have hlife : s.participates = false ∧ s.life ≠ .running .listening →
      t.participates = false ∧ t.life ≠ .running .listening := by
    rw [State.participates_congr life, life]
    exact id
  rcases arbiter with harbiter | ⟨hbusy, q, harbiter, hq⟩
  · refine ⟨?_, ?_, ?_, ?_, ?_, ?_, ?_, ?_, ?_⟩ <;> rw [harbiter]
    · exact h.rowFetch
    · exact h.feedRead
    · exact h.apply
    · exact h.catchUp
    · exact h.access
    · rw [shown]; exact h.buffer
    · rw [free, engine]; exact ⟨h.working.1, nofun⟩
    · rw [engine]
      exact fun acc ha hb => ⟨(h.owned acc ha hb).1, fun hr => absurd hr (noCopy acc ha hb)⟩
    · exact fun acc ha hw hb hbl => hlife (h.abandoned acc ha hw hb hbl)
  · refine ⟨?_, ?_, ?_, ?_, ?_, ?_, ?_, ?_, ?_⟩ <;> rw [harbiter]
    · exact h.rowFetch
    · exact h.feedRead
    · exact h.apply
    · intro q' hq'
      cases hq'
      exact hq
    · exact h.access
    · rw [shown]; exact h.buffer
    · rw [engine]; exact ⟨h.working.1, fun _ => hbusy⟩
    · rw [engine]
      exact fun acc ha hb => ⟨(h.owned acc ha hb).1, fun hr => absurd hr (noCopy acc ha hb)⟩
    · exact fun acc ha hw hb hbl => hlife (h.abandoned acc ha hw hb hbl)

/-- A row fetch that is given up was no write (R118, R136). -/
theorem withdrawFetch {s t : State} (h : s.ArbiterOpen) (arbiter : t.arbiter = s.arbiter.withdraw .rowFetch)
    (shown : t.shown = s.shown := by simp) (engine : t.applyEngine = s.applyEngine := by simp)
    (copying : t.catchUp = s.catchUp := by simp) (life : t.life = s.life := by simp) : t.ArbiterOpen := by
  rw [Arbiter.withdraw_rowFetch_eq] at arbiter
  have haccess : ∀ acc, t.arbiter.access = some acc → ∃ before, s.arbiter.access = some before ∧
      acc = { before with abandoned := before.abandoned || decide (before.requester = .rowFetch) } := fun acc ha => by
    rw [arbiter] at ha
    obtain ⟨before, hb, he⟩ := Option.map_eq_some_iff.1 ha
    exact ⟨before, hb, he.symm⟩
  refine ⟨?_, ?_, ?_, ?_, fun acc ha hw => ?_, fun acc ha hw hbl => ?_, ?_, fun acc ha hb => ?_,
    fun acc ha hw hb hbl => ?_⟩
  · rw [arbiter]; nofun
  · rw [arbiter]; exact h.feedRead
  · rw [arbiter]; exact h.apply
  · rw [arbiter]; exact h.catchUp
  · obtain ⟨before, hbefore, rfl⟩ := haccess acc ha
    exact h.access before hbefore hw
  · obtain ⟨before, hbefore, rfl⟩ := haccess acc ha
    rw [shown]
    exact h.buffer before hbefore hw hbl
  · rw [arbiter, engine, copying]; exact h.working
  · obtain ⟨before, hbefore, rfl⟩ := haccess acc ha
    rw [arbiter, engine, copying]
    simp only [Bool.or_eq_false_iff] at hb
    exact h.owned before hbefore hb.1
  · obtain ⟨before, hbefore, rfl⟩ := haccess acc ha
    rw [State.participates_congr life, life]
    refine h.abandoned before hbefore hw ?_ hbl
    have hfetch : before.requester ≠ .rowFetch := fun hr => by
      rcases h.access before hbefore hw with hr' | hr' <;> rw [hr] at hr' <;> cases hr'
    simpa [hfetch] using hb

/-! ### The grant (R130, R131) -/

/-- The access a grant makes is that of a waiting request, its role resolved (R130). -/
theorem grantTo {s t : State} (h : s.ArbiterOpen) {r : Requester} {q : Request}
    (hq : s.arbiter.waiting r = some q) (arbiter : t.arbiter = s.arbiter.grantTo s.shown r)
    (shown : t.shown = s.shown := by simp) (engine : t.applyEngine = s.applyEngine := by simp)
    (copying : t.catchUp = s.catchUp := by simp) : t.ArbiterFormed := by
  have harbiter : t.arbiter = { s.arbiter.setWaiting none r with
      access := some ⟨r, s.shown.ofRole q.role, q.pos, q.write, false, false⟩ } := by
    rw [arbiter]
    unfold Arbiter.grantTo
    rw [hq]
  have hbuilding : s.shown.ofRole .building ≠ s.shown := by cases s.shown <;> nofun
  cases r with
  | rowFetch =>
    obtain ⟨-, hwrite⟩ := h.rowFetch q hq
    refine (ArbiterOpen.formed ⟨?_, ?_, ?_, ?_, ?_, ?_, ?_, ?_, ?_⟩ fun _ => ?_) <;> rw [harbiter]
    · nofun
    · exact h.feedRead
    · exact h.apply
    · exact h.catchUp
    · rintro acc ⟨⟩ hw; rw [hwrite] at hw; cases hw
    · rintro acc ⟨⟩ hw; rw [hwrite] at hw; cases hw
    · rw [engine, copying]; exact h.working
    · rintro acc ⟨⟩ -; exact ⟨nofun, nofun⟩
    · rintro acc ⟨⟩ - hb; cases hb
    · rfl
  | feedRead =>
    have hwrite := h.feedRead q hq
    refine (ArbiterOpen.formed ⟨?_, ?_, ?_, ?_, ?_, ?_, ?_, ?_, ?_⟩ fun _ => ?_) <;> rw [harbiter]
    · exact h.rowFetch
    · nofun
    · exact h.apply
    · exact h.catchUp
    · rintro acc ⟨⟩ hw; rw [hwrite] at hw; cases hw
    · rintro acc ⟨⟩ hw; rw [hwrite] at hw; cases hw
    · rw [engine, copying]; exact h.working
    · rintro acc ⟨⟩ -; exact ⟨nofun, nofun⟩
    · rintro acc ⟨⟩ - hb; cases hb
    · rfl
  | apply =>
    obtain ⟨hrole, hwrite⟩ := h.apply q hq
    have hbusy : s.applyEngine ≠ .idle := h.working.1 (by rw [show s.arbiter.apply = some q from hq]; rfl)
    refine (ArbiterOpen.formed ⟨?_, ?_, ?_, ?_, ?_, ?_, ?_, ?_, ?_⟩ fun _ => ?_) <;> rw [harbiter]
    · exact h.rowFetch
    · exact h.feedRead
    · nofun
    · exact h.catchUp
    · rintro acc ⟨⟩ -; exact .inl rfl
    · rintro acc ⟨⟩ - -; rw [shown, hrole]; exact hbuilding
    · rw [copying]; exact ⟨nofun, h.working.2⟩
    · rintro acc ⟨⟩ -; rw [engine]; exact ⟨fun _ => ⟨hwrite, hbusy, rfl⟩, nofun⟩
    · rintro acc ⟨⟩ - hb; cases hb
    · rfl
  | catchUp =>
    have hrole := h.catchUp q hq
    have hbusy : s.catchUp ≠ .idle := h.working.2 (by rw [show s.arbiter.catchUp = some q from hq]; rfl)
    refine (ArbiterOpen.formed ⟨?_, ?_, ?_, ?_, ?_, ?_, ?_, ?_, ?_⟩ fun _ => ?_) <;> rw [harbiter]
    · exact h.rowFetch
    · exact h.feedRead
    · exact h.apply
    · nofun
    · rintro acc ⟨⟩ -; exact .inr rfl
    · rintro acc ⟨⟩ hw -; rw [shown, hrole.2 hw]; exact hbuilding
    · rw [engine]; exact ⟨h.working.1, nofun⟩
    · rintro acc ⟨⟩ -; rw [copying]; exact ⟨nofun, fun _ => ⟨hbusy, rfl⟩⟩
    · rintro acc ⟨⟩ - hb; cases hb
    · rfl

/-- After the grant no request waits without an access in progress (R131). -/
theorem grant {s : State} (h : s.ArbiterOpen) : s.grant.ArbiterFormed := by
  by_cases hfree : s.arbiter.access.isSome = true
  · have harbiter : s.grant.arbiter = s.arbiter := by
      change s.arbiter.grant s.shown s.scanFirst = _
      unfold Arbiter.grant
      rw [if_pos hfree]
    exact (h.congr harbiter).formed fun _ => by rw [harbiter]; exact hfree
  · cases hfind : (grantOrder s.scanFirst).find? fun r => (s.arbiter.waiting r).isSome with
    | none =>
      have harbiter : s.grant.arbiter = s.arbiter := by
        change s.arbiter.grant s.shown s.scanFirst = _
        unfold Arbiter.grant
        rw [if_neg hfree, hfind]
      have hwaits : ∀ r, s.arbiter.waiting r = none := fun r => by
        have hr := List.find?_eq_none.1 hfind r (by unfold grantOrder; cases s.scanFirst <;> cases r <;> simp)
        simpa using hr
      refine (h.congr harbiter).formed fun hw => ?_
      rw [harbiter, show s.arbiter.rowFetch = none from hwaits .rowFetch,
        show s.arbiter.feedRead = none from hwaits .feedRead, show s.arbiter.apply = none from hwaits .apply,
        show s.arbiter.catchUp = none from hwaits .catchUp] at hw
      cases hw
    | some r =>
      have harbiter : s.grant.arbiter = s.arbiter.grantTo s.shown r := by
        change s.arbiter.grant s.shown s.scanFirst = _
        unfold Arbiter.grant
        rw [if_neg hfree, hfind]
      have hsome : (s.arbiter.waiting r).isSome = true := by simpa using List.find?_some hfind
      obtain ⟨q, hq⟩ := Option.isSome_iff_exists.1 hsome
      exact h.grantTo hq harbiter

/-- So is it after the grant at which the row fetch and a writing engine may be first (R132). -/
theorem grantRace {s : State} (h : s.ArbiterOpen) : s.grantRace.ArbiterFormed := by
  unfold State.grantRace
  split
  · rename_i hc
    simp only [Bool.and_eq_true, Bool.or_eq_true, Option.isNone_iff_eq_none] at hc
    obtain ⟨⟨⟨-, hfetch⟩, -⟩, hwrites⟩ := hc
    split
    · obtain ⟨q, hq⟩ := Option.isSome_iff_exists.1 hfetch
      exact h.grantTo (r := .rowFetch) hq rfl
    · split
      · rename_i happly
        obtain ⟨q, hq⟩ := Option.isSome_iff_exists.1 happly
        exact h.grantTo (r := .apply) hq rfl
      · rename_i happly
        obtain ⟨q, hq⟩ := Option.isSome_iff_exists.1 (hwrites.resolve_left happly)
        exact h.grantTo (r := .catchUp) hq rfl
  · exact h.grant

end State.ArbiterOpen
end Sys2Proof.Machine
end

section
/-! SUPPORT. The arbiter's invariant over every effect: a swap finds apply and catch-up idle, an entry to a dark state gives
every access up, an entry to Listening blanks over it. -/

namespace Sys2Proof.Machine

/-- A station swaps only where its READY is announced: its own entry is required, and armed means that every required
station is ready (R9, R10, R13, R18, R71). -/
theorem State.announced_of_swapsAt {s : State} (hrec : s.RecordAgrees) (hready : s.ReadyFormed)
    (hp : s.participates = true) {sender : Station} {m : BeaconFields} (h : s.swapsAt sender m = true) :
    s.gen.announced = true := by
  unfold State.swapsAt at h
  simp only [Bool.and_eq_true, decide_eq_true_eq] at h
  obtain ⟨hflips, hends⟩ := h
  have hreq : s.requirementSet[s.station] = true := by
    rw [State.requirementSet, Machine.requirementSet, getFin_tabulate]
    have hentry := s.rosterAt_entry sender m s.station
    rw [if_pos hflips] at hentry
    have hstate := (s.roster[s.station].afterPromotion (s.gen.inBaseline s.station)).afterBeacon_state
      (decide (s.station = sender)) (s.timesOutAt m && s.lags s.station)
    rw [← hentry, hends] at hstate
    rcases hstate with hstate | hstate
    · unfold RosterEntry.afterPromotion at hstate
      split at hstate
      · rename_i hjoin
        have hsealed : s.gen.isSealed = true := hrec.baseline (by
          have hin := hjoin.2
          unfold GenerationRecord.inBaseline at hin
          split at hin
          · rename_i hb
            rw [hb]
            rfl
          · cases hin)
        rw [hjoin.1, hjoin.2, hsealed]
        rfl
      · rw [← hstate]
        rfl
    · cases hstate
  have hfollow : s.following = false := by
    obtain ⟨st, hl, -⟩ := State.running_of_participates hp
    rw [State.following_running hl, isFollowing]
    rw [State.requirementSet] at hreq
    rw [hreq]
    simp
  have harmed : s.gen.armed = true := by
    unfold State.flipsAt State.armedInForce at hflips
    rw [hfollow] at hflips
    simpa using (Bool.and_eq_true _ _ ▸ hflips).1
  rw [hrec.armed hp, computedArmed, Bool.and_eq_true, Bool.and_eq_true, stationSubset_iff] at harmed
  exact hready.own hp (harmed.2.2 s.station hreq)

/-- The access a command completes: the one in progress, of its requester, at a station that has power (R130). -/
theorem State.accessOf_eq_some {s : State} {r : Requester} {writes : Bool} {acc : Access} :
    s.accessOf r writes = some acc ↔
      s.arbiter.access = some acc ∧ s.powered = true ∧ acc.requester = r ∧ acc.write.isSome = writes := by
  unfold State.accessOf
  cases s.arbiter.access with
  | none => exact ⟨nofun, nofun⟩
  | some a =>
    simp only [Option.ite_none_right_eq_some, Option.some.injEq]
    constructor
    · rintro ⟨hc, rfl⟩
      exact ⟨rfl, hc⟩
    · rintro ⟨rfl, hc⟩
      exact ⟨hc, rfl⟩

namespace State.ArbiterOpen

/-- At a swap no write is in progress but one the blanking stands over, so the buffers may change places (R71, R135). -/
theorem swap {s : State} (h : s.ArbiterOpen) (hp : s.participates = true) (engine : s.applyEngine = .idle)
    (copying : s.catchUp = .idle) : s.swap.ArbiterOpen := by
  refine ⟨h.rowFetch, h.feedRead, h.apply, h.catchUp, h.access, fun acc ha hw hbl => ?_, h.working, h.owned, h.abandoned⟩
  have ha' : s.arbiter.access = some acc := ha
  cases hb : acc.abandoned with
  | true =>
    rw [(h.abandoned acc ha' hw hb hbl).1] at hp
    cases hp
  | false =>
    obtain ⟨happly, hcopy⟩ := h.owned acc ha' hb
    rcases h.access acc ha' hw with hr | hr
    · exact absurd engine (happly hr).2.1
    · exact absurd copying (hcopy hr).1

theorem newFrame {s : State} (h : s.ArbiterOpen) (swapped : Bool) : (s.newFrame swapped).ArbiterOpen := by
  have harbiter := s.newFrame_arbiter swapped
  split at harbiter
  · have hwithdrawn : ArbiterOpen { s with arbiter := s.arbiter.withdraw .rowFetch } := h.withdrawFetch rfl
    exact hwithdrawn.issue_rowFetch ⟨0, 0⟩ harbiter
  · exact h.congr harbiter

/-- An engine at the position it copies has its read requested; one that is idle has nothing (R75, R76). -/
theorem requestCopy {s : State} (h : s.ArbiterOpen) (free : s.arbiter.catchUp = none)
    (noCopy : ∀ acc, s.arbiter.access = some acc → acc.abandoned = false → acc.requester ≠ .catchUp) (c : CatchUp) :
    (s.requestCopy c).ArbiterOpen := by
  refine h.copies free noCopy ?_
  unfold State.requestCopy
  cases c with
  | idle => exact .inl rfl
  | list p rest phase => exact .inr ⟨nofun, ⟨p, .shown, none⟩, rfl, by simp⟩
  | tile p phase => exact .inr ⟨nofun, ⟨p, .shown, none⟩, rfl, by simp⟩

/-- Catch-up starts where none was in progress (R75). -/
theorem startCatchUp {s : State} (h : s.ArbiterOpen) (copying : s.catchUp = .idle) (first : Bool) :
    (s.startCatchUp first).ArbiterOpen := by
  have hfree : s.arbiter.catchUp = none := by
    rw [← Option.not_isSome_iff_eq_none]
    exact fun hs => h.working.2 hs copying
  have hcleared : ArbiterOpen { s with dirty := ⟨[], false⟩ } := h.congr
  exact hcleared.requestCopy hfree (fun acc ha hb hr => ((h.owned acc ha hb).2 hr).1 copying) _

end State.ArbiterOpen

namespace State.ArbiterFormed

theorem congr {s t : State} (h : s.ArbiterFormed) (arbiter : t.arbiter = s.arbiter := by simp)
    (shown : t.shown = s.shown := by simp) (engine : t.applyEngine = s.applyEngine := by simp)
    (copying : t.catchUp = s.catchUp := by simp)
    (life : s.participates = false ∧ s.life ≠ .running .listening →
      t.participates = false ∧ t.life ≠ .running .listening := by simp [State.participates]) : t.ArbiterFormed :=
  (h.open.congr arbiter shown engine copying life).formed (by rw [arbiter]; exact h.waiting)

/-- A station that has given every access up, outside the wall (R136). -/
theorem stoodDown {s t : State} (h : s.ArbiterFormed)
    (arbiter : t.arbiter = s.arbiter.withdrawEngines.withdraw .feedRead := by simp)
    (shown : t.shown = s.shown := by simp) {st : StationState} (life : t.life = .running st := by simp)
    (outside : st.participates = false := by rfl) (unlisting : st ≠ .listening := by nofun) : t.ArbiterFormed := by
  rw [Arbiter.standDown_eq] at arbiter
  have haccess : ∀ acc, t.arbiter.access = some acc → ∃ before, s.arbiter.access = some before ∧
      acc = { before with abandoned := true } := fun acc ha => by
    rw [arbiter] at ha
    obtain ⟨before, hb, he⟩ := Option.map_eq_some_iff.1 ha
    exact ⟨before, hb, he.symm⟩
  refine ⟨?_, ?_, ?_, ?_, fun acc ha hw => ?_, ?_, fun acc ha hw hbl => ?_, ?_, fun acc ha hb => ?_, fun _ _ _ _ _ => ?_⟩
  · rw [arbiter]; nofun
  · rw [arbiter]; nofun
  · rw [arbiter]; nofun
  · rw [arbiter]; nofun
  · obtain ⟨before, hbefore, rfl⟩ := haccess acc ha
    exact h.access before hbefore hw
  · rw [arbiter]; nofun
  · obtain ⟨before, hbefore, rfl⟩ := haccess acc ha
    rw [shown]
    exact h.buffer before hbefore hw hbl
  · rw [arbiter]; exact ⟨nofun, nofun⟩
  · obtain ⟨before, hbefore, rfl⟩ := haccess acc ha
    cases hb
  · rw [State.participates_running life, life]
    exact ⟨outside, fun hl => unlisting (Life.running.inj hl)⟩

theorem withdraw {s : State} (h : s.ArbiterFormed) (reason : WithdrawReason) : (s.withdraw reason).ArbiterFormed :=
  h.stoodDown (st := .withdrawn)

theorem becomeClashed {s : State} (h : s.ArbiterFormed) : s.becomeClashed.ArbiterFormed :=
  h.stoodDown (st := .clashed)

/-- The blanking stands over every write in progress (R137). -/
theorem enterListening {s : State} (h : s.ArbiterFormed) (reason : StateReason) :
    (s.enterListening reason).ArbiterFormed := by
  have harbiter : (s.enterListening reason).arbiter = s.arbiter.withdrawEngines.blank := rfl
  rw [Arbiter.blanked_eq] at harbiter
  have haccess : ∀ acc, (s.enterListening reason).arbiter.access = some acc → ∃ before,
      s.arbiter.access = some before ∧ acc = { before with
        abandoned := before.abandoned || decide (before.requester ≠ .feedRead), blanked := true } := fun acc ha => by
    rw [harbiter] at ha
    obtain ⟨before, hb, he⟩ := Option.map_eq_some_iff.1 ha
    exact ⟨before, hb, he.symm⟩
  refine ⟨?_, ?_, ?_, ?_, fun acc ha hw => ?_, ?_, fun acc ha _ hbl => ?_, ?_, fun acc ha hb => ?_, fun acc ha _ _ hbl => ?_⟩
  · rw [harbiter]; nofun
  · rw [harbiter]; exact h.feedRead
  · rw [harbiter]; nofun
  · rw [harbiter]; nofun
  · obtain ⟨before, hbefore, rfl⟩ := haccess acc ha
    exact h.access before hbefore hw
  · rw [harbiter]
    intro hw
    rw [Option.isSome_map]
    exact h.waiting (by simp only [Bool.or_eq_true] at hw ⊢; simp at hw; simp [hw])
  · obtain ⟨before, -, rfl⟩ := haccess acc ha
    cases hbl
  · rw [harbiter]; exact ⟨nofun, nofun⟩
  · obtain ⟨before, -, rfl⟩ := haccess acc ha
    simp only [Bool.or_eq_false_iff, decide_eq_false_iff_not, ne_eq, not_not] at hb
    exact ⟨fun hr => (nomatch hb.2.symm.trans hr), fun hr => (nomatch hb.2.symm.trans hr)⟩
  · obtain ⟨before, -, rfl⟩ := haccess acc ha
    cases hbl

theorem attemptSpoiled {s : State} (h : s.ArbiterFormed) (item : Option Item) (reason : Option SpoilReason) :
    (s.attemptSpoiled item reason).ArbiterFormed := by
  refine State.attemptSpoiled_keeps (fun _ _ h => h.congr) (fun u h => ?_) (fun _ _ h => h.congr) s item reason h
  unfold State.spoilLeave
  split
  · exact h.congr
  · exact State.ArbiterFormed.withdraw (h.congr (t := { u with bus := { u.bus with leavePending := false } })) _

/-! ### A beacon acceptance -/

/-- Outside a drawing state the new display frame fetches nothing (R112). -/
theorem newFrame_of_dark {s : State} (h : s.ArbiterFormed) (hd : s.draws = false) (swapped : Bool) :
    (s.newFrame swapped).ArbiterFormed := by
  have harbiter := s.newFrame_arbiter swapped
  rw [if_neg (by rw [State.fetchesAgain, hd, Bool.false_and]; exact Bool.false_ne_true)] at harbiter
  exact h.congr harbiter

theorem acceptBeacon {s : State} (h : s.ArbiterFormed) (hrec : s.RecordAgrees) (hready : s.ReadyFormed)
    {st : StationState} (hl : s.life = .running st) (hw : st.participates = true) (own : Bool) (sender : Station)
    (m : BeaconFields) : (s.acceptBeacon st own sender m).ArbiterFormed := by
  have hp : s.participates = true := (State.participates_running hl).trans hw
  have hdark : ∀ (u : State) reason, (u.withdraw reason).draws = false := fun u reason =>
    State.OwnEntryAgrees.draws_running (st := .withdrawn) (by simp)
  have hworked : ((s.takeBeacon m).wallWork s st sender m).ArbiterFormed :=
    h.congr (life := fun ho => by rw [hp] at ho; cases ho.1)
  obtain ⟨-, he⟩ | ⟨-, -, he⟩ | ⟨-, -, he⟩ := s.acceptBeacon_cases st own sender m <;> rw [he]
  · have htaken : (s.takeBeacon m).ArbiterFormed := h.congr
    exact (htaken.withdraw .outOfStep).newFrame_of_dark (hdark _ _) false
  · exact (hworked.withdraw .silenced).newFrame_of_dark (hdark _ _) false
  · have hprepared : ((s.takeBeacon m).prepared s st own sender m).ArbiterOpen := by
      unfold State.prepared
      by_cases hswaps : s.swapsAt sender m = true
      · have hidle := hready.idle hp (State.announced_of_swapsAt hrec hready hp hswaps)
        have hengine : s.applyEngine = .idle := by
          have hwork := hidle.1
          unfold State.currentWork at hwork
          simpa using (Bool.or_eq_false_iff.1 hwork).2
        have hpart : ((s.takeBeacon m).wallWork s st sender m).participates = true :=
          State.RecordAgrees.stateAt_participates hw sender m
        have hswapped := hworked.open.swap hpart (by simpa using hengine) (by simpa using hidle.2)
        have hcounted : (((s.takeBeacon m).wallWork s st sender m).swap.countPresence own
            (s.promotedAt sender m)).ArbiterOpen := hswapped.congr
        simp only [hswaps, State.swapIf, State.copyIf, if_true]
        exact (hcounted.newFrame true).startCatchUp (by simpa using hidle.2) _
      · rw [Bool.not_eq_true] at hswaps
        have hcounted : (((s.takeBeacon m).wallWork s st sender m).countPresence own
            (s.promotedAt sender m)).ArbiterOpen := hworked.open.congr
        simp only [hswaps, State.swapIf, State.copyIf, Bool.false_eq_true, if_false]
        exact hcounted.newFrame false
    have happlied : (((s.takeBeacon m).prepared s st own sender m).resumeApply.evaluateReady.tellPromotion st
        (s.promotedAt sender m)).ArbiterOpen := hprepared.resumeApply.congr
    exact happlied.grantRace

/-! ### Every effect -/

theorem accepted {s : State} (h : s.ArbiterFormed) (hrec : s.RecordAgrees) (hready : s.ReadyFormed) {st : StationState}
    (hl : s.life = .running st) (hw : st.participates = true) (item : Option Item) (sender : Station) (msg : Message) :
    (s.acceptMessage st item sender msg).ArbiterFormed := by
  cases msg with
  | beacon m => exact h.acceptBeacon hrec hready hl hw _ _ _
  | ready g => exact h.congr
  | sealing g reveal carried => exact h.congr
  | join width height period =>
    rw [State.acceptMessage_join]
    unfold State.acceptJoin
    split
    · dsimp only
      split <;> exact h.congr
    · exact h.congr
  | presence isMember =>
    rw [State.acceptMessage_presence]
    split
    · exact h.congr
    · exact h
  | leave =>
    rw [State.acceptMessage_leave]
    have hleft : (s.changeRoster st (rosterLeave s.roster sender)).ArbiterFormed := h.congr
    split
    · exact hleft.withdraw _
    · exact hleft
  | update u =>
    rw [State.acceptMessage_update]
    unfold State.acceptUpdate
    split
    · rename_i v _
      have hqueued : State.ArbiterOpen { s with updateQueue := s.updateQueue ++ [s.newEntry v] } := h.open.congr
      exact (hqueued.resumeApply.congr :
        (State.resumeApply { s with updateQueue := s.updateQueue ++ [s.newEntry v] }).evaluateReady.ArbiterOpen).grant
    · exact h.congr
  | glyph set code first patterns => exact h.congr rfl rfl rfl rfl id

theorem endFrame {s : State} (h : s.ArbiterFormed) (hrec : s.RecordAgrees) (hready : s.ReadyFormed) (cls : BitVec 3)
    (f : BusFrame) : (s.endFrame cls f).ArbiterFormed := by
  have hend := s.endFrame_ends cls f
  generalize s.endFrame cls f = t at hend
  have hflight : s.endFlight.ArbiterFormed := h.congr rfl rfl rfl rfl id
  cases hend with
  | unread => exact h
  | clash => exact h.becomeClashed
  | outside | listenIgnored => exact hflight
  | spoiled =>
    exact State.frameSpoiled_keeps (fun _ _ h => h.congr) (fun _ _ _ h => h.attemptSpoiled _ _) (fun _ _ h => h.withdraw _)
      _ _ _ hflight
  | listenSpoiled => exact hflight.attemptSpoiled _ _
  | listenAdopted m hl =>
    exact hflight.congr (State.adopt_arbiter _ m) (life := fun ho => absurd hl ho.2)
  | accepted st msg hl hw =>
    have hshare : (s.afterShare cls f).ArbiterFormed := hflight.congr rfl rfl rfl rfl id
    have hrec' : (s.afterShare cls f).RecordAgrees :=
      State.RecordAgrees.keptByFrameOps.heard _ _ (State.RecordAgrees.keptByFrameOps.accepted _ _
        (State.RecordAgrees.keptByFrameOps.endFlight _ hrec))
    exact hshare.accepted hrec' (State.ReadyStep.ofShare hready cls f).formed hl hw _ _ _

/-- A row fetch that goes on or is over (R116). -/
theorem rowFetched {s : State} (h : s.ArbiterFormed) (acc : Access) : (s.rowFetched acc).ArbiterFormed := by
  obtain ⟨hfinished, harbiter⟩ := h.open.finishAccess acc
  obtain ⟨-, he⟩ | ⟨r, col, -, -, ⟨hcol, he⟩ | ⟨-, he⟩⟩ := s.rowFetched_cases acc <;> rw [he]
  · exact hfinished.grant
  · exact (hfinished.issue_rowFetch ⟨r, ⟨col.val + 1, hcol⟩⟩ rfl : ArbiterOpen _).grant
  · exact (hfinished.congr : ArbiterOpen _).grant

theorem displayRow {s : State} (h : s.ArbiterFormed) (r : LocalRow) : (s.displayRow r).ArbiterFormed := by
  have hrow : (s.enterRow r).ArbiterFormed := h.congr
  unfold State.displayRow
  split
  · have hnoted : (s.enterRow r).noteUnderrun.ArbiterOpen := by
      unfold State.noteUnderrun
      split
      · exact hrow.open.withdrawFetch rfl rfl rfl rfl rfl
      · exact hrow.open
    have htaken : ((s.enterRow r).noteUnderrun.takeOver r).ArbiterOpen := hnoted.congr
    have hfetched : (((s.enterRow r).noteUnderrun.takeOver r).fetchAfter r).ArbiterOpen := by
      unfold State.fetchAfter
      split
      · exact htaken.issue_rowFetch _ rfl
      · exact htaken
    exact hfetched.grant
  · exact hrow

theorem enterLeaving {s : State} (h : s.ArbiterFormed) {st : StationState} (hl : s.life = .running st)
    (hw : st.participates = true) (origin : LeavingOrigin) : (s.enterLeaving origin).ArbiterFormed :=
  h.congr (life := fun ho => by rw [State.participates_running hl, hw] at ho; cases ho.1)

theorem effect {s t : State} (h : s.ArbiterFormed) (hrec : s.RecordAgrees) (hready : s.ReadyFormed) (he : Effect s t) :
    t.ArbiterFormed := by
  cases he with
  | none => exact h
  | start low life straps glyphs hlife =>
    refine ⟨nofun, nofun, nofun, nofun, nofun, nofun, nofun, ⟨nofun, nofun⟩, nofun, nofun⟩
  | pin | report | nextEvent | beginLine | contend | synchronise => exact h.congr
  | endRead read hl =>
    obtain ⟨config, ms, he⟩ | ⟨config, reason, he⟩ := s.endRead_cases read <;> rw [he]
    · exact (h.congr : ArbiterFormed { s with
        config := config, withdrawReason := .none, timer := { s.timer with frameTimer := .running ms } }).enterListening _
    · exact h.congr (life := fun _ => by simp [State.participates, StationState.participates])
  | expire =>
    obtain ⟨timer, -, -, -, ⟨asks, he⟩ | ⟨-, he⟩⟩ := s.expire_cases <;> rw [he]
    · exact h.congr
    · exact (h.congr : ArbiterFormed { s with timer := timer }).enterListening _
  | clash => exact h.becomeClashed
  | frame cls f => exact h.endFrame hrec hready cls f
  | tileStep acc hacc =>
    obtain ⟨hfinished, harbiter⟩ := h.open.finishAccess acc
    obtain ⟨-, he⟩ | ⟨n, hab, hn, he⟩ := s.tileStep_cases acc <;> rw [he]
    · exact hfinished.grant
    · obtain ⟨haccess, -, hrequester, -⟩ := State.accessOf_eq_some.1 hacc
      obtain ⟨-, -, hfree⟩ := (h.owned acc haccess hab).1 hrequester
      have hwritten : (s.tileWritten acc).ArbiterOpen := hfinished.congr rfl rfl rfl rfl id
      have harbiter' : (s.tileWritten acc).arbiter = { s.arbiter with access := none } := harbiter
      have hcontinued : ((s.tileWritten acc).continueEntry n).ArbiterOpen := by
        refine hwritten.applies (State.continueEntry_applies _ n) ?_ fun a ha => ?_
        · rw [harbiter']
          exact hfree
        · rw [harbiter'] at ha
          cases ha
      exact (hcontinued.congr : ((s.tileWritten acc).continueEntry n).evaluateReady.ArbiterOpen).grant
  | catchUpRead acc hacc =>
    obtain ⟨hfinished, harbiter⟩ := h.open.finishAccess acc
    obtain ⟨-, he⟩ | ⟨hab, he⟩ := s.catchUpRead_cases acc <;> rw [he]
    · exact hfinished.grant
    · obtain ⟨haccess, -, hrequester, -⟩ := State.accessOf_eq_some.1 hacc
      obtain ⟨hbusy, hfree⟩ := (h.owned acc haccess hab).2 hrequester
      have hread : (s.copyRead acc).ArbiterOpen := by
        refine hfinished.copies (by rw [harbiter]; exact hfree) (fun a ha => ?_) (.inr ⟨?_, _, rfl, ?_⟩) rfl rfl rfl
        · rw [harbiter] at ha
          cases ha
        · change s.catchUp.withRecord _ ≠ .idle
          cases hc : s.catchUp with
          | idle => exact absurd hc hbusy
          | list | tile => nofun
        · simp
      exact hread.grant
  | catchUpWrite acc hacc =>
    obtain ⟨hfinished, harbiter⟩ := h.open.finishAccess acc
    obtain ⟨-, he⟩ | ⟨hab, he⟩ := s.catchUpWrite_cases acc <;> rw [he]
    · exact hfinished.grant
    · obtain ⟨haccess, -, hrequester, -⟩ := State.accessOf_eq_some.1 hacc
      obtain ⟨-, hfree⟩ := (h.owned acc haccess hab).2 hrequester
      have hcopied := hfinished.requestCopy (by rw [harbiter]; exact hfree)
        (fun a ha => by rw [harbiter] at ha; cases ha) s.catchUp.advance
      exact (hcopied.resumeApply.congr :
        ((s.finishAccess acc).requestCopy s.catchUp.advance).resumeApply.evaluateReady.ArbiterOpen).grant
  | rowFetched acc => exact h.rowFetched acc
  | feedReadDone acc =>
    unfold State.feedReadDone
    exact ((h.open.finishAccess acc).1.congr : ArbiterOpen _).grant
  | displayRow r => exact h.displayRow r
  | beginTail =>
    have htail : s.enterTail.ArbiterFormed := h.congr
    unfold State.beginTail
    split
    · exact (htail.open.issue_rowFetch ⟨0, 0⟩ rfl : (s.enterTail.beginFetch 0).ArbiterOpen).grant
    · exact htail
  | submit tr bytes cls payload =>
    obtain ⟨r, he⟩ | ⟨-, -, -, r, he⟩ := State.submit_cases { s with transaction := tr, dataOut := bytes } cls payload
      <;> rw [he] <;> exact h.congr
  | readCell tr bytes role row col =>
    obtain he | ⟨r, p, he⟩ := State.readCellCommand_cases { s with transaction := tr, dataOut := bytes } role row col
      <;> rw [he]
    · exact h.congr
    · exact (h.open.issue_feedRead p r rfl : ArbiterOpen _).grant
  | restart tr bytes st hl =>
    obtain ⟨r, he | ⟨hst, he⟩ | ⟨hst, he⟩ | ⟨-, he⟩⟩ :=
      State.restartCommand_cases { s with transaction := tr, dataOut := bytes } st <;> rw [he]
    · exact h.congr
    · subst hst
      exact (enterLeaving (s := { s with transaction := tr, dataOut := bytes }) h.congr hl rfl .fromJoining).congr
    · subst hst
      exact (enterLeaving (s := { s with transaction := tr, dataOut := bytes }) h.congr hl rfl .fromMember).congr
    · exact ((h.congr : ArbiterFormed { s with transaction := tr, dataOut := bytes }).enterListening .restart).congr
  | losePower => exact h.congr rfl rfl rfl rfl fun _ => ⟨rfl, nofun⟩

end State.ArbiterFormed
end Sys2Proof.Machine
end

section
/-! PROOFS. The page memory arbiter. -/

namespace Sys2Proof.Proofs

open Sys2Proof.Machine

/-- Settles O11: at a swap the own READY is announced, so apply and catch-up are idle and no write is in progress. -/
theorem stepKeepsArbiterFormed : Obligations.StepKeepsArbiterFormed := by
  intro s t hrec hown hready h hstep
  obtain rfl | ⟨q, he⟩ := step_effect hstep
  · exact h
  · exact State.ArbiterFormed.effect (s := { s with pending := q }) h.congr hrec.congr (hready.keeps id id rfl rfl rfl
      (fun hw hc _ _ => ⟨hw, hc⟩) (.inl rfl) (.inl rfl) .inl) he

end Sys2Proof.Proofs
end

section
/-! SUPPORT. Entries to Listening, Withdrawn and Clashed, and the configuration read (R157, R172, R175, R179, R181). -/

namespace Sys2Proof.Machine

/-! ### Entry to Listening (R175) -/

theorem State.enterListening_enters (s : State) (reason : StateReason) :
    s.EntersListening (s.enterListening reason) reason where
  state := rfl
  record := rfl
  roster n := getFin_rosterCleared n
  presence := rfl
  queue := ⟨rfl, rfl⟩
  pages b p := by cases b <;> rfl
  pointer := rfl
  defaults r := ⟨by simp [blankDefault], by simp [blankDefault]⟩
  copying := ⟨rfl, rfl⟩
  left r := by simp [LeftRow.empty]
  entries r := by simp [EntryRecord.blank, blankDefault]
  fetch := ⟨rfl, fun c => by simp [unfetched]⟩
  requests := by
    have harbiter := s.arbiter.blanked_eq
    refine ⟨?_, ?_, ?_, ?_⟩ <;> rw [(s.enterListening_sets reason).2.2.2.2.2.2.2.2.2.2.2.2.2.2.2.2.1, harbiter]
  interface := rfl
  expiries := rfl
  frameNumber := rfl
  told := rfl
  kept := ⟨rfl, rfl, rfl, rfl⟩

/-- The entry is told of the station before it, whose record S, feed read, feed queue, frame number, events, counters,
glyph memory, straps and clash record are those of the one that enters. -/
theorem State.EntersListening.of_same {s u t : State} {reason : StateReason} (h : u.EntersListening t reason)
    (shown : u.gen.shown = s.gen.shown := by rfl) (feedRead : u.arbiter.feedRead = s.arbiter.feedRead := by rfl)
    (feedQueue : u.bus.feedQueue = s.bus.feedQueue := by rfl)
    (frameNumber : u.timer.frameNumber = s.timer.frameNumber := by rfl) (events : u.events = s.events := by rfl)
    (counters : u.counters = s.counters := by rfl) (glyphs : u.glyphMemory = s.glyphMemory := by rfl)
    (straps : u.straps = s.straps := by rfl) (clash : u.clashRecord = s.clashRecord := by rfl) :
    s.EntersListening t reason := by
  refine { h with record := ?_, requests := ?_, interface := ?_, frameNumber := ?_, told := ?_, kept := ?_ }
  · rw [← shown]; exact h.record
  · rw [← feedRead]; exact h.requests
  · rw [← feedQueue]; exact h.interface
  · rw [← frameNumber]; exact h.frameNumber
  · rw [← events, ← frameNumber]; exact h.told
  · rw [← counters, ← glyphs, ← straps, ← clash]; exact h.kept

/-! ### Entries to Withdrawn and Clashed (R179, R181) -/

theorem State.enterDark_standsDown (s : State) (st : StationState) (reason : WithdrawReason) :
    s.StandsDown (s.enterDark st reason) st reason := by
  obtain ⟨hlife, hreason, hroster, hpresence, hqueue, hengine, hcatchUp, harbiter, hbus, hport, -⟩ :=
    s.enterDark_sets st reason
  rw [Arbiter.standDown_eq] at harbiter
  have hscan := s.enterDark_scan st reason
  refine ⟨hlife, hreason, fun n => ?_, hpresence, ⟨hqueue, hengine⟩, hcatchUp, ⟨?_, fun c => ?_⟩, ?_, ?_, hport, ?_,
    fun hd => ?_, ?_, ?_, ?_⟩
  · simp only [hroster, getFin_rosterCleared]
    rfl
  · rw [hscan]
    split <;> rfl
  · have hbuffer : (s.enterDark st reason).scan.rowBuffer = unfetched := by
      rw [hscan]
      split <;> rfl
    simp [hbuffer, unfetched]
  · rw [harbiter]
    exact ⟨rfl, rfl, rfl, rfl⟩
  · rw [harbiter]
  · rw [hbus]
    rfl
  · rw [hscan, if_pos hd]
    exact ⟨rfl, rfl⟩
  · simp
  · simp
  · simp

/-- The rest of a stand-down is the station's own; what the standing down says of it is kept by what leaves that alone. -/
theorem State.StandsDown.congr {s t u : State} {st : StationState} {reason : WithdrawReason}
    (h : s.StandsDown t st reason) (life : u.life = t.life := by simp)
    (withdrawReason : u.withdrawReason = t.withdrawReason := by simp) (roster : u.roster = t.roster := by simp)
    (presence : u.presenceCount = t.presenceCount := by simp) (queue : u.updateQueue = t.updateQueue := by simp)
    (engine : u.applyEngine = t.applyEngine := by simp) (copying : u.catchUp = t.catchUp := by simp)
    (fetch : u.scan.fetch = t.scan.fetch := by simp) (buffer : u.scan.rowBuffer = t.scan.rowBuffer := by simp)
    (arbiter : u.arbiter = t.arbiter := by simp) (port : u.port = t.port := by simp) (bus : u.bus = t.bus := by simp)
    (dark : t.scan.phase = .lead ∧ t.scan.kind = .dark → u.scan.phase = .lead ∧ u.scan.kind = .dark := by simp)
    (bufferX : u.bufferX = t.bufferX := by simp) (bufferY : u.bufferY = t.bufferY := by simp)
    (shown : u.shown = t.shown := by simp) (defaultsX : u.defaultsX = t.defaultsX := by simp)
    (defaultsY : u.defaultsY = t.defaultsY := by simp) (dirty : u.dirty = t.dirty := by simp)
    (left : u.leftTable = t.leftTable := by simp) (entries : u.entryRecords = t.entryRecords := by simp)
    (glyphs : u.glyphMemory = t.glyphMemory := by simp) (config : u.config = t.config := by simp)
    (straps : u.straps = t.straps := by simp) (clash : u.clashRecord = t.clashRecord := by simp) :
    s.StandsDown u st reason := by
  refine ⟨life.trans h.state, withdrawReason.trans h.reason, ?_, presence.trans h.presence, ?_, copying.trans h.copying,
    ?_, ?_, ?_, ?_, ?_, fun hd => dark (h.dark hd), ?_, ?_, ?_⟩
  · rw [roster]; exact h.roster
  · rw [queue, engine]; exact h.queue
  · rw [fetch, buffer]; exact h.fetch
  · rw [arbiter]; exact h.requests
  · rw [arbiter]; exact h.access
  · rw [port]; exact h.port
  · rw [bus]; exact h.interface
  · rw [bufferX, bufferY, shown, defaultsX, defaultsY]; exact h.pages
  · rw [dirty, left, entries]; exact h.tables
  · rw [glyphs, config, straps, clash]; exact h.kept

/-- The station before is one with the same interface's synchronisation, requests, port, drawing state, pages and
tables. -/
theorem State.StandsDown.of_same {s u t : State} {st : StationState} {reason : WithdrawReason}
    (h : u.StandsDown t st reason) (synchronised : u.bus.synchronised = s.bus.synchronised := by simp)
    (arbiter : u.arbiter = s.arbiter := by simp) (port : u.port = s.port := by simp)
    (draws : u.draws = s.draws := by simp [State.draws])
    (bufferX : u.bufferX = s.bufferX := by simp) (bufferY : u.bufferY = s.bufferY := by simp)
    (shown : u.shown = s.shown := by simp) (defaultsX : u.defaultsX = s.defaultsX := by simp)
    (defaultsY : u.defaultsY = s.defaultsY := by simp) (dirty : u.dirty = s.dirty := by simp)
    (left : u.leftTable = s.leftTable := by simp) (entries : u.entryRecords = s.entryRecords := by simp)
    (glyphs : u.glyphMemory = s.glyphMemory := by simp) (config : u.config = s.config := by simp)
    (straps : u.straps = s.straps := by simp) (clash : u.clashRecord = s.clashRecord := by simp) :
    s.StandsDown t st reason := by
  refine { h with access := ?_, port := ?_, interface := ?_, dark := ?_, pages := ?_, tables := ?_, kept := ?_ }
  · rw [← arbiter]; exact h.access
  · rw [← arbiter, ← port]; exact h.port
  · rw [← synchronised]; exact h.interface
  · rw [← draws]; exact h.dark
  · rw [← bufferX, ← bufferY, ← shown, ← defaultsX, ← defaultsY]; exact h.pages
  · rw [← dirty, ← left, ← entries]; exact h.tables
  · rw [← glyphs, ← config, ← straps, ← clash]; exact h.kept

theorem State.withdraw_standsDown (s : State) (reason : WithdrawReason) :
    s.StandsDown (s.withdraw reason) .withdrawn reason := (s.enterDark_standsDown .withdrawn reason).congr

theorem State.becomeClashed_standsDown (s : State) : s.StandsDown s.becomeClashed .clashed .clash :=
  (s.enterDark_standsDown .clashed .clash).congr

/-- FEED_FLUSHED is posted when a message is flushed (R157). -/
theorem flushEvents_length (q : List FeedMessage) :
    flushEvents q.length = if q = [] then [] else [.feedFlushed q.length] := by
  cases q <;> rfl

/-- The events of an entry to Withdrawn or Clashed (R157, R179, R181). -/
theorem EventQueue.postAll_flushed (q : EventQueue) (fn : FrameNumber) (n : Nat) (e : Event) :
    (q.postAll fn (flushEvents n)).post fn e = q.postAll fn (flushEvents n ++ [e]) :=
  (q.postAll_concat fn (flushEvents n) e).symm

/-! ### The configuration read (R172) -/

/-- The range test of R172. -/
theorem configInRange_iff (b0 b1 b2 b3 : Byte) : configInRange b0 b1 b2 b3 = true ↔
    1 ≤ b0.toNat ∧ b0.toNat ≤ 8 ∧ 1 ≤ b1.toNat ∧ b1.toNat ≤ 8 ∧ 10 ≤ b2.toNat ∧ b2.toNat ≤ 50 ∧ b3.toNat < 4 := by
  have hbits : b3.extractLsb' 2 6 = 0 ↔ b3.toNat < 4 := by
    rw [← BitVec.toNat_inj, BitVec.extractLsb'_toNat, Nat.shiftRight_eq_div_pow]
    have hlt := b3.isLt
    simp only [BitVec.ofNat_eq_ofNat, BitVec.toNat_ofNat]
    omega
  simp only [configInRange, Bool.and_eq_true, decide_eq_true_eq, beq_iff_eq, hbits, and_assoc]

/-- The first test that fails, or the record (R172). -/
theorem judgeRead_answered (p : Straps) (b0 b1 b2 b3 b4 : Byte) :
    judgeRead p (.answered b0 b1 b2 b3 b4) =
      if b4 ≠ b0 ^^^ b1 ^^^ b2 ^^^ b3 ^^^ 0xA5 then .bad .configurationCheck
      else if ¬ (1 ≤ b0.toNat ∧ b0.toNat ≤ 8 ∧ 1 ≤ b1.toNat ∧ b1.toNat ≤ 8 ∧ 10 ≤ b2.toNat ∧ b2.toNat ≤ 50 ∧
        b3.toNat < 4) then .bad .configurationRange
      else if ¬ (p.cols.toNat < b0.toNat ∧ p.rows.toNat < b1.toNat) then .outside (configOfBytes b0 b1 b2 b3)
      else .good (configOfBytes b0 b1 b2 b3) := by
  simp only [← configInRange_iff, not_and_or, Nat.not_lt, Bool.not_eq_true]
  simp only [judgeRead, configCheck, Bool.not_eq_true']

end Sys2Proof.Machine
end

section
/-! PROOFS. The configuration read and the frame timer. -/

namespace Sys2Proof.Proofs

open Sys2Proof.Machine

/-- Settles O17: the loader's tests decide between the entry to Listening and the entry to Halted. -/
theorem configurationReadEndsInListeningOrHalted : Obligations.ConfigurationReadEndsInListeningOrHalted := by
  have hexec : ∀ (s : State) (read : ConfigurationRead), s.life = .readingConfiguration →
      exec (.configurationReadEnd read) s = .next (s.endRead read) := fun s read hl => if_pos hl
  refine ⟨fun b0 b1 b2 b3 b4 s hl hcheck h0 h0' h1 h1' h2 h2' h3 hcols hrows => ?_, fun s hl => ⟨?_, ?_⟩⟩
  · have hjudge := judgeRead_answered s.straps b0 b1 b2 b3 b4
    rw [if_neg (not_not.2 hcheck), if_neg (not_not.2 ⟨h0, h0', h1, h1', h2, h2', h3⟩),
      if_neg (not_not.2 ⟨hcols, hrows⟩)] at hjudge
    refine ⟨_, hexec s _ hl, ?_⟩
    unfold State.endRead
    rw [hjudge]
    exact ⟨(State.enterListening_enters _ _).of_same, rfl, rfl, rfl, rfl, rfl, rfl, rfl⟩
  · exact hexec s _ hl
  · intro b0 b1 b2 b3 b4 checkGood inRange inside ends
    have hjudge := judgeRead_answered s.straps b0 b1 b2 b3 b4
    have hends : ∀ (c : Option ConfigRecord) (reason : WithdrawReason),
        s.endRead (.answered b0 b1 b2 b3 b4) = s.halt c reason → ends (s.halt c reason) := fun c reason he =>
      (hexec s _ hl).trans (congrArg _ he)
    refine ⟨fun hc => hends none .configurationCheck ?_, fun hc hr => hends none .configurationRange ?_,
      fun hc hr hi => hends (some (configOfBytes b0 b1 b2 b3)) .outsideWall ?_⟩ <;> unfold State.endRead
    · rw [hjudge, if_pos hc]
    · rw [hjudge, if_neg (not_not.2 hc), if_pos hr]
    · rw [hjudge, if_neg (not_not.2 hc), if_neg (not_not.2 hr), if_pos hi]

/-- An expiry that enters Listening does so from the station with its timer restarted (R161, R180). -/
theorem expire_quietOver {s : State} (hl : s.life = .running .withdrawn) (hq : 7 ≤ s.timer.quietExpiries) :
    s.expire = State.enterListening
      { s with timer := { s.timer with frameTimer := .running s.period, quietExpiries := 8 } } .quietOver := by
  have hn : min 8 (s.timer.quietExpiries + 1) = 8 := by omega
  unfold State.expire State.quietExpiry
  simp only [hl, State.restartTimer, hn, if_true]

theorem expire_listeningWindow {s : State} (hl : s.life = .running .listening) (hn : 2 ≤ s.timer.listeningExpiries) :
    s.expire = { s with
      timer := { s.timer with frameTimer := .running s.period, listeningExpiries := 3 }
      bus := { s.bus with beaconPending := true } } := by
  have hmin : min 3 (s.timer.listeningExpiries + 1) = 3 := by omega
  unfold State.expire State.listeningExpiry
  simp only [hl, State.restartTimer, State.setBeaconPending, hmin, if_true]

/-- Settles O19: the expiry restarts the timer, and the station state says what it counts or sets pending. -/
theorem expiryActsByState : Obligations.ExpiryActsByState := by
  have hexpires : ∀ s : State, s.timerRuns = true → exec .frameTimerExpiry s = .next s.expire := fun s hr => if_pos hr
  refine ⟨fun s => ⟨fun hr hp => ?_, fun hr hl => ?_, fun hr hl hn => ?_, fun hr hl hn => ?_, fun hr hl hn => ?_,
    fun hr => ?_⟩, fun s hr hl hn => ?_, fun s hr hl hn => ?_⟩
  · obtain ⟨st, hl, hw⟩ := State.running_of_participates hp
    rw [hexpires s hr]
    have hexpire : s.expire = s.restartTimer.setBeaconPending := by
      unfold State.expire
      cases st with
      | joining | member | leaving _ => simp only [hl]
      | halted | listening | withdrawn | clashed => cases hw
    rw [hexpire]
    rfl
  · rw [hexpires s hr]
    unfold State.expire
    simp only [hl, State.restartTimer]
  · have hmin : min 3 (s.timer.listeningExpiries + 1) = s.timer.listeningExpiries + 1 := by omega
    have hne : s.timer.listeningExpiries + 1 ≠ 3 := by omega
    rw [hexpires s hr]
    unfold State.expire State.listeningExpiry
    simp only [hl, State.restartTimer, hmin, if_neg hne]
  · rw [hexpires s hr, expire_listeningWindow hl hn]
  · have hmin : min 8 (s.timer.quietExpiries + 1) = s.timer.quietExpiries + 1 := by omega
    have hne : s.timer.quietExpiries + 1 ≠ 8 := by omega
    rw [hexpires s hr]
    unfold State.expire State.quietExpiry
    simp only [hl, State.restartTimer, hmin, if_neg hne]
  · exact if_neg (by rw [hr]; exact Bool.false_ne_true)
  · rw [← expire_listeningWindow hl hn]
    exact if_pos (by simp [hr, hl, hn])
  · have hquiet : exec .quietOver s = .next s.expire := if_pos (by simp [hr, hl, hn])
    rw [hexpires s hr, hquiet, expire_quietOver hl hn]
    exact ⟨_, rfl, rfl, (State.enterListening_enters _ _).of_same, rfl, rfl, rfl, rfl, rfl, rfl, rfl⟩

end Sys2Proof.Proofs
end

section
/-! SUPPORT. The bits of a frame and arbitration over them (R138, R140, R197). -/

namespace Sys2Proof.Machine

/-! ### Bits, most significant first -/

theorem bitsFirst_succ (w x : Nat) : bitsFirst (w + 1) x = x.testBit w :: bitsFirst w x := by
  unfold bitsFirst
  rw [List.range_succ, List.reverse_append, List.reverse_singleton, List.singleton_append, List.map_cons]

/-- Only the low bits of a value are sent. -/
theorem bitsFirst_mod (w x : Nat) : bitsFirst w (x % 2 ^ w) = bitsFirst w x := by
  unfold bitsFirst
  refine List.map_congr_left fun i hi => ?_
  rw [List.mem_reverse, List.mem_range] at hi
  rw [Nat.testBit_mod_two_pow, decide_eq_true hi, Bool.true_and]

theorem bitsOf_eq_bitsFirst {w : Nat} (v : BitVec w) : bitsOf v = bitsFirst w v.toNat := by
  unfold bitsOf bitsFirst
  refine List.ext_getElem (by simp) fun i hi _ => ?_
  simp only [List.length_map, List.length_range] at hi
  simp [BitVec.getLsbD]

/-- The value of bits sent most significant first. -/
def bitsValue : List Bool → Nat
  | [] => 0
  | b :: rest => (if b then 2 ^ rest.length else 0) + bitsValue rest

theorem bitsValue_lt (l : List Bool) : bitsValue l < 2 ^ l.length := by
  induction l with
  | nil => exact Nat.one_pos
  | cons b rest ih =>
    rw [bitsValue, List.length_cons, Nat.pow_succ]
    split <;> omega

theorem bitsValue_append (a b : List Bool) : bitsValue (a ++ b) = bitsValue a * 2 ^ b.length + bitsValue b := by
  induction a with
  | nil => rw [List.nil_append, bitsValue, Nat.zero_mul, Nat.zero_add]
  | cons x rest ih =>
    rw [List.cons_append, bitsValue, bitsValue, ih, List.length_append]
    split
    · rw [Nat.pow_add, Nat.add_mul, Nat.add_assoc]
    · rw [Nat.zero_add, Nat.zero_add]

theorem bitsFirst_length (w x : Nat) : (bitsFirst w x).length = w := by
  rw [bitsFirst, List.length_map, List.length_reverse, List.length_range]

theorem bitsValue_bitsFirst (w x : Nat) : bitsValue (bitsFirst w x) = x % 2 ^ w := by
  induction w with
  | zero => rw [Nat.pow_zero, Nat.mod_one]; rfl
  | succ w ih =>
    rw [bitsFirst_succ, bitsValue, ih, bitsFirst_length, Nat.mod_pow_succ, Nat.testBit_eq_decide_div_mod_eq]
    have hbit := Nat.mod_lt (x / 2 ^ w) Nat.two_pos
    rcases Nat.lt_succ_iff_lt_or_eq.1 hbit with hbit | hbit
    · rw [Nat.lt_one_iff.1 hbit]
      simp
    · rw [hbit]
      simp [Nat.add_comm]

/-! ### The key of a frame (R138, R140) -/

theorem keyBits_length (k : Key) : (keyBits k).length = 9 := by
  rw [keyBits, bitsOf_eq_bitsFirst, bitsOf_eq_bitsFirst, List.length_append, bitsFirst_length, bitsFirst_length]

theorem stationBits_toNat (n : Station) : (stationBits n).toNat = n.val :=
  Nat.mod_eq_of_lt n.isLt

theorem bitsValue_keyBits (k : Key) : bitsValue (keyBits k) = keyValue k := by
  rw [keyBits, bitsOf_eq_bitsFirst, bitsOf_eq_bitsFirst, bitsValue_append, bitsFirst_length, bitsValue_bitsFirst,
    bitsValue_bitsFirst, stationBits_toNat, keyValue, Nat.mod_eq_of_lt k.cls.isLt,
    show 2 ^ 6 = 64 from rfl, Nat.mod_eq_of_lt k.sender.isLt]

/-- Bit strings of one length lose arbitration exactly to a lower one (R140). -/
theorem losesArbitration_iff (own : List Bool) (others : List (List Bool))
    (hlen : ∀ o ∈ others, o.length = own.length) :
    losesArbitration own others = true ↔ ∃ o ∈ others, bitsValue o < bitsValue own := by
  induction own generalizing others with
  | nil => exact ⟨nofun, fun ⟨_, _, h⟩ => absurd h (Nat.not_lt_zero _)⟩
  | cons b rest ih =>
    have hcons : ∀ o ∈ others, ∃ c tl, o = c :: tl ∧ tl.length = rest.length := fun o ho => by
      have hl := hlen o ho
      cases o with
      | nil => cases hl
      | cons c tl => exact ⟨c, tl, rfl, Nat.succ.inj hl⟩
    have htails : ∀ medium : Bool, ∀ o ∈ (others.filter fun o => o.headD true == medium).map List.tail,
        o.length = rest.length := fun medium o ho => by
      obtain ⟨o', ho', rfl⟩ := List.mem_map.1 ho
      obtain ⟨c, tl, rfl, hl⟩ := hcons o' (List.mem_filter.1 ho').1
      exact hl
    have hrest := bitsValue_lt rest
    unfold losesArbitration
    dsimp only
    cases b with
    | false =>
      simp only [Bool.false_and]
      rw [if_neg Bool.false_ne_true, ih _ (htails false)]
      constructor
      · rintro ⟨o, ho, hlt⟩
        obtain ⟨o', ho', rfl⟩ := List.mem_map.1 ho
        obtain ⟨hmem, hhead⟩ := List.mem_filter.1 ho'
        obtain ⟨c, tl, rfl, hl⟩ := hcons o' hmem
        have hc : c = false := by simpa using hhead
        exact ⟨c :: tl, hmem, by rw [hc]; simpa [bitsValue] using hlt⟩
      · rintro ⟨o, hmem, hlt⟩
        obtain ⟨c, tl, rfl, hl⟩ := hcons o hmem
        cases c with
        | true =>
          rw [bitsValue, bitsValue, if_pos rfl, if_neg Bool.false_ne_true, hl] at hlt
          omega
        | false =>
          exact ⟨tl, List.mem_map.2 ⟨_, List.mem_filter.2 ⟨hmem, rfl⟩, rfl⟩, by simpa [bitsValue] using hlt⟩
    | true =>
      rw [Bool.true_and, Bool.true_and]
      by_cases hall : (others.all fun o => o.headD true) = true
      · rw [hall, Bool.not_true, if_neg Bool.false_ne_true, ih _ (htails true)]
        rw [List.all_eq_true] at hall
        constructor
        · rintro ⟨o, ho, hlt⟩
          obtain ⟨o', ho', rfl⟩ := List.mem_map.1 ho
          obtain ⟨hmem, hhead⟩ := List.mem_filter.1 ho'
          obtain ⟨c, tl, rfl, hl⟩ := hcons o' hmem
          have hc : c = true := by simpa using hhead
          refine ⟨c :: tl, hmem, ?_⟩
          rw [bitsValue, bitsValue, if_pos hc, if_pos rfl, hl]
          exact Nat.add_lt_add_left hlt _
        · rintro ⟨o, hmem, hlt⟩
          obtain ⟨c, tl, rfl, hl⟩ := hcons o hmem
          have hc : c = true := hall _ hmem
          rw [bitsValue, bitsValue, if_pos hc, if_pos rfl, hl] at hlt
          exact ⟨tl, List.mem_map.2 ⟨_, List.mem_filter.2 ⟨hmem, by simp [hc]⟩, rfl⟩, Nat.lt_of_add_lt_add_left hlt⟩
      · rw [Bool.not_eq_true] at hall
        rw [hall, Bool.not_false, if_pos rfl]
        refine iff_of_true rfl ?_
        obtain ⟨o, hmem, hhead⟩ := List.all_eq_false.1 hall
        obtain ⟨c, tl, rfl, hl⟩ := hcons o hmem
        have hc : c = false := by simpa using hhead
        have htl := bitsValue_lt tl
        refine ⟨c :: tl, hmem, ?_⟩
        rw [bitsValue, bitsValue, hc, if_neg Bool.false_ne_true, if_pos rfl, ← hl]
        omega

/-- A key loses arbitration exactly to a lower one (R140). -/
theorem losesArbitration_keys (own : Key) (others : List Key) :
    losesArbitration (keyBits own) (others.map keyBits) = true ↔ ∃ o ∈ others, keyValue o < keyValue own := by
  rw [losesArbitration_iff _ _ fun o ho => by
    obtain ⟨k, -, rfl⟩ := List.mem_map.1 ho
    rw [keyBits_length, keyBits_length]]
  constructor
  · rintro ⟨o, ho, hlt⟩
    obtain ⟨k, hk, rfl⟩ := List.mem_map.1 ho
    rw [bitsValue_keyBits, bitsValue_keyBits] at hlt
    exact ⟨k, hk, hlt⟩
  · rintro ⟨k, hk, hlt⟩
    exact ⟨keyBits k, List.mem_map_of_mem hk, by rwa [bitsValue_keyBits, bitsValue_keyBits]⟩

/-! ### The frames a station sends -/

/-- One bit of the CRC: the generator is added when the bit shifted out differs from the one sent (R138). -/
theorem crcBit_eq (v : BitVec 16) (b : Bool) :
    crcBit v b = if v.getLsbD 15 = b then v <<< 1 else (v <<< 1) ^^^ 0x1021 := by
  unfold crcBit
  rw [BitVec.msb_eq_getLsbD_last]
  change (if (v.getLsbD 15 ^^ b) = true then _ else _) = _
  cases v.getLsbD 15 <;> cases b <;> rfl

/-- The check is that of the generator over the bits of the frame (R138, R197). -/
theorem frameCheck_eq (k : Key) (payload : List Byte) : frameCheck k payload =
    (bitsFirst 3 k.cls.toNat ++ bitsFirst 6 k.sender.val ++ bitsFirst 6 payload.length ++
      payload.flatMap fun b => bitsFirst 8 b.toNat).foldl crcBit 0xFFFF := by
  unfold frameCheck keyBits
  dsimp only
  rw [bitsOf_eq_bitsFirst, bitsOf_eq_bitsFirst, bitsOf_eq_bitsFirst, stationBits_toNat, BitVec.toNat_ofNat,
    bitsFirst_mod, show (bitsOf : Byte → List Bool) = fun b => bitsFirst 8 b.toNat from funext bitsOf_eq_bitsFirst]

end Sys2Proof.Machine
end

section
/-! PROOFS. Sending: the choice at an idle point, arbitration, and the frames formed (R138, R140, R149, R150). -/

namespace Sys2Proof.Proofs

open Sys2Proof.Machine

/-- Settles O23: the station that holds an allowed item contends with it, and loses to the lower keys. -/
theorem idlePointSendsByOrder : Obligations.IdlePointSendsByOrder := by
  refine ⟨losesArbitration_keys, fun others s st hl hsync hflight => ?_⟩
  intro chosen
  have hchosen : s.chooseItem = chosen := State.chooseItem_eq_find hl
  have hexec : exec (.idlePoint others) s = .next (s.contend others) :=
    if_pos (by rw [State.atIdlePoint, hsync, hflight]; rfl)
  rw [hexec]
  unfold State.contend
  refine ⟨fun hnone => ?_, fun i hi => ⟨fun hlower => ?_, fun hlowest => ?_⟩⟩
  · rw [hchosen, hnone]
  · rw [hchosen, hi]
    dsimp only
    rw [if_pos ((losesArbitration_keys _ _).2 hlower)]
  · rw [hchosen, hi]
    dsimp only
    rw [if_neg]
    rw [losesArbitration_keys]
    rintro ⟨o, ho, hlt⟩
    exact absurd hlt (Nat.not_lt.2 (hlowest o ho))

/-- Settles O24: each item's frame is formed from the fields it carries, and the check is the CRC over its bits. -/
theorem framesCarrySendersState : Obligations.FramesCarrySendersState := by
  refine ⟨⟨fun bits => bits.foldl crcBit 0xFFFF, rfl, fun bits b => ?_, frameCheck_eq⟩, fun s c hc => ?_⟩
  · dsimp only
    rw [List.foldl_append, List.foldl_cons, List.foldl_nil]
    exact crcBit_eq _ b
  · refine ⟨fun hl => ?_, fun hp => ?_, rfl, fun g hg => ?_, ⟨rfl, rfl⟩, ?_, ⟨rfl, rfl⟩, fun m rest hq => ?_, fun i => by simp only [State.frameOf]⟩
    · change s.beaconFields.bytes = _
      rw [State.beaconFields, if_pos hl]
      decide
    · obtain ⟨st, hl, hw⟩ := State.running_of_participates hp
      have hnot : s.life ≠ .running .listening := by
        rw [hl]
        exact fun he => StationState.ne_listening_of_participates hw (Life.running.inj he)
      refine ⟨flagBit s.gen.isSealed 0 ||| flagBit s.carriedArmed 1, ?_, ?_, ?_, ?_⟩
      · change s.beaconFields.bytes = _
        rw [State.beaconFields, if_neg hnot]
        rfl
      · cases s.gen.isSealed <;> cases s.carriedArmed <;> rfl
      · change _ = s.carriedArmed
        cases s.gen.isSealed <;> cases s.carriedArmed <;> rfl
      · cases s.gen.isSealed <;> cases s.carriedArmed <;> decide
    · simp only [State.frameOf, State.formFrame, hg, Option.getD_some, and_self]
    · simp only [State.frameOf, State.formFrame, hc, true_and]
      rfl
    · simp only [State.frameOf, State.formFrame, hq, and_self]

end Sys2Proof.Proofs
end

section
/-! SUPPORT. What an accepted frame's share does (R30, R41, R145, R151), and what one change of the roster leaves and
posts (R7, R11, R43). -/

namespace Sys2Proof.Machine

/-! ### The share of every accepted frame -/

theorem rise_toNat (c : BitVec 16) : (rise c).toNat = min 65535 (c.toNat + 1) := by
  unfold rise
  have hlt := c.isLt
  split
  · rename_i h
    rw [h]
    rfl
  · rename_i h
    have hne : c.toNat ≠ 65535 := fun he => h (BitVec.eq_of_toNat_eq he)
    rw [BitVec.toNat_add]
    simp only [BitVec.ofNat_eq_ofNat, BitVec.toNat_ofNat]
    omega

theorem State.afterShare_roster (s : State) (cls : BitVec 3) (f : BusFrame) (n : Station) :
    (s.afterShare cls f).roster[n] = if n = f.sender then { s.roster[n] with silence := 0 } else s.roster[n] := by
  change (rosterHeard s.roster f.sender)[n] = _
  rw [rosterHeard, getFin_set]
  by_cases h : n = f.sender
  · subst h
    simp only [if_true]
  · rw [if_neg h, if_neg (Ne.symm h)]

/-- The interface after the share of an accepted frame (R146, R150, R151). -/
theorem State.afterShare_bus (s : State) (cls : BitVec 3) (f : BusFrame) : (s.afterShare cls f).bus =
    { s.bus.sentAccepted (s.ownership cls f).item with consecutiveSpoils := 0, inFlight := none } := by
  change { s.endFlight.bus.sentAccepted (s.ownership cls f).item with consecutiveSpoils := 0 } = _
  cases (s.ownership cls f).item with
  | none => rfl
  | some item => cases item <;> rfl

theorem BusInterface.sentAccepted_holds (b : BusInterface) (i : Item) :
    (b.sentAccepted (some i)).holds i = (decide (i = .feed) && decide (2 ≤ b.feedQueue.length)) ∧
    (∀ j, j ≠ i → (b.sentAccepted (some i)).holds j = b.holds j) ∧
    (b.sentAccepted (some i)).feedQueue = (if i = .feed then b.feedQueue.tail else b.feedQueue) := by
  cases i with
  | feed =>
    refine ⟨?_, fun j hj => ?_, rfl⟩
    · change (!b.feedQueue.tail.isEmpty) = _
      match b.feedQueue with
      | [] => rfl
      | [_] => rfl
      | _ :: _ :: _ => simp
    · cases j with
      | feed => exact absurd rfl hj
      | beacon | ready | leave | join | presence => rfl
  | beacon | ready | leave | join | presence =>
    refine ⟨rfl, fun j hj => ?_, rfl⟩
    cases j <;> first | rfl | exact absurd rfl hj

theorem State.afterShare_recordAgrees {s : State} (h : s.RecordAgrees) (cls : BitVec 3) (f : BusFrame) :
    (s.afterShare cls f).RecordAgrees :=
  State.RecordAgrees.keptByFrameOps.heard _ _ (State.RecordAgrees.keptByFrameOps.accepted _ _
    (State.RecordAgrees.keptByFrameOps.endFlight _ h))

/-- The share is no condition of R13. -/
theorem State.afterShare_readyCondition (s : State) (cls : BitVec 3) (f : BusFrame) :
    (s.afterShare cls f).readyCondition = s.readyCondition :=
  State.readyCondition_congr rfl (congrArg (fun r : StationSet => r[s.station]) (s.afterShare_requirementSet cls f s.gen))
    rfl rfl rfl Iff.rfl

/-- Another station's frame is no item's. -/
theorem State.item_none_of_foreign {s : State} {cls : BitVec 3} {f : BusFrame} (hs : f.sender ≠ s.station) :
    (s.ownership cls f).item = none := by
  rw [State.ownership_foreign_iff.2 hs]
  rfl

/-- A stand-down after the share of a frame, told of the station before it. -/
theorem State.StandsDown.of_afterShare {s t : State} {cls : BitVec 3} {f : BusFrame} {st : StationState}
    {reason : WithdrawReason} (h : (s.afterShare cls f).StandsDown t st reason) : s.StandsDown t st reason := by
  refine h.of_same ?_ rfl rfl rfl rfl rfl rfl rfl rfl rfl rfl rfl rfl rfl rfl rfl
  rw [s.afterShare_bus cls f]
  cases (s.ownership cls f).item with
  | none => rfl
  | some item => cases item <;> rfl

/-- What a withdrawal tells: the flushed feed messages and the new state, the frame number unchanged (R157, R179). -/
theorem State.withdraw_tells (s : State) (reason : WithdrawReason) :
    (s.withdraw reason).counters = s.counters ∧
    (s.withdraw reason).timer = { s.timer with quietExpiries := 0 } ∧
    (s.withdraw reason).events = s.events.postAll s.timer.frameNumber
      ((if s.bus.feedQueue = [] then [] else [.feedFlushed s.bus.feedQueue.length])
        ++ [.state .withdrawn (.withdraw reason)]) := by
  refine ⟨by simp, ?_, ?_⟩
  · change { (s.enterDark .withdrawn reason).timer with quietExpiries := 0 } = _
    rw [show (s.enterDark .withdrawn reason).timer = s.timer by simp]
  · rw [← flushEvents_length, ← EventQueue.postAll_flushed]
    exact (s.enterDark_sets .withdrawn reason).2.2.2.2.2.2.2.2.2.2

/-- A required station is not Absent (R9). -/
theorem State.required_not_absent {s : State} {n : Station} (h : s.requirementSet[n] = true) :
    s.roster[n].state ≠ .absent := fun habsent => by
  have hlive := State.isLive_of_required h
  rw [RosterEntry.isLive] at hlive
  simp only [habsent] at hlive
  exact Bool.noConfusion hlive

/-! ### One change of the roster -/

theorem filterMap_of_single {α β : Type} {g : α → Option β} {k : α} (l : List α) (hn : l.Nodup)
    (hother : ∀ a, a ≠ k → g a = none) (hk : k ∈ l) : l.filterMap g = (g k).toList := by
  induction l with
  | nil => cases hk
  | cons a rest ih =>
    obtain ⟨ha, hrest⟩ := List.nodup_cons.1 hn
    by_cases he : a = k
    · subst he
      have hnone : rest.filterMap g = [] :=
        List.filterMap_eq_nil_iff.2 fun b hb => hother b fun h => ha (h ▸ hb)
      cases hg : g a with
      | none => rw [List.filterMap_cons_none hg, hnone]; rfl
      | some b => rw [List.filterMap_cons_some hg, hnone]; rfl
    · rw [List.filterMap_cons_none (hother a he)]
      exact ih hrest ((List.mem_cons.1 hk).resolve_left (Ne.symm he))

/-- One entry that may have changed gives at most one ROSTER event (R43). -/
theorem rosterEvents_of_single {before after : Roster} (k : Station)
    (h : ∀ n : Station, n ≠ k → after[n].state = before[n].state) :
    rosterEvents before after =
      if before[k].state = after[k].state then [] else [.roster k after[k].state] := by
  unfold rosterEvents
  rw [filterMap_of_single (k := k) (List.finRange 64) (List.nodup_finRange 64) (fun n hn => if_pos (h n hn).symm)
    (List.mem_finRange k)]
  split <;> rfl

theorem rosterEvents_self (r : Roster) : rosterEvents r r = [] :=
  List.filterMap_eq_nil_iff.2 fun _ _ => if_pos rfl

/-- The ROSTER events depend on the states of the entries alone. -/
theorem rosterEvents_congr {before before' : Roster} (h : ∀ n : Station, before'[n].state = before[n].state)
    (after : Roster) : rosterEvents before' after = rosterEvents before after := by
  unfold rosterEvents
  simp only [h]

/-- A change of the roster touches the roster, the record, the events and READY pending alone (R11, R13, R42, R43). -/
theorem State.changeRoster_frame (s : State) (st : StationState) (r : Roster) :
    s.changeRoster st r = { s with
      roster := (s.changeRoster st r).roster
      gen := (s.changeRoster st r).gen
      events := (s.changeRoster st r).events
      bus := { s.bus with readyPending := (s.changeRoster st r).bus.readyPending } } := by
  unfold State.changeRoster State.evaluateReady
  dsimp only
  split <;> rfl

/-- It changes of the record the baseline, the ready set, armed and announced alone (R7, R11, R13, R16). -/
theorem State.changeRoster_gen_frame (s : State) (st : StationState) (r : Roster) : (s.changeRoster st r).gen =
    { s.gen with
      baseline := (s.changeRoster st r).gen.baseline
      readySet := (s.changeRoster st r).gen.readySet
      armed := (s.changeRoster st r).gen.armed
      announced := (s.changeRoster st r).gen.announced } := by
  unfold State.changeRoster State.evaluateReady
  dsimp only
  split <;> rfl

/-- The events of a change that touches the state of at most one entry (R43). -/
theorem State.changeRoster_events_single (s : State) (st : StationState) {r : Roster} (k : Station)
    (h : ∀ n : Station, n ≠ k → r[n].state = s.roster[n].state) :
    (s.changeRoster st r).events = s.events.postAll s.timer.frameNumber
      (if s.roster[k].state = r[k].state then [] else [.roster k r[k].state]) := by
  rw [(s.changeRoster_sets st r).2, rosterEvents_of_single k h]

/-- The roster as it was, where the record agrees with it and no READY is owed, changes nothing. -/
theorem State.changeRoster_self {s : State} {st : StationState} (h : s.RecordAgrees) (hl : s.life = .running st)
    (hw : st.participates = true) (hready : s.readyCondition = false) : s.changeRoster st s.roster = s := by
  have hp : s.participates = true := (State.participates_running hl).trans hw
  have harmed : s.gen.withArmed st s.station s.roster = s.gen := by
    have ha := h.armed hp
    rw [State.following_running hl] at ha
    rw [GenerationRecord.withArmed, ← ha]
  unfold State.changeRoster
  rw [GenerationRecord.settle_of_agrees _ _ _ _ (h.baselineLive hp) (h.ready hp), harmed, rosterEvents_self]
  exact State.evaluateReady_of_not_condition (s := s) (by rw [hready]; exact Bool.false_ne_true)

/-- What a change of the roster makes of the record, told of the station before the frame's share. -/
theorem State.RecordFollows.of_same {s u t v : State} (h : u.RecordFollows t) (before : u.gen = s.gen := by rfl)
    (gen : v.gen = t.gen := by rfl) (roster : v.roster = t.roster := by rfl)
    (following : v.following = t.following := by rfl) : s.RecordFollows v := by
  have hreq : v.requirementSet = t.requirementSet := State.requirementSet_congr roster (by rw [gen]) (by rw [gen])
  refine ⟨?_, ?_, ?_, ?_⟩
  · rw [gen, ← before]; exact h.present
  · rw [gen, roster, ← before]; exact h.baseline
  · rw [gen, hreq, ← before]; exact h.ready
  · rw [gen, hreq, following]; exact h.armed

end Sys2Proof.Machine
end

section
/-! PROOFS. Accepted ROSTER frames: JOIN, PRESENCE and LEAVE (R31 to R35, R39). -/

namespace Sys2Proof.Proofs

open Sys2Proof.Machine

/-- Settles O26: an own frame's item leaves the interface, and only that. -/
theorem acceptanceShare : Obligations.AcceptanceShare := by
  intro s cls f u
  have hbus : u.bus = _ := s.afterShare_bus cls f
  refine ⟨rfl, rfl, rise_toNat _, s.afterShare_roster cls f, fun ho => ?_, fun i ho => ?_⟩
  · refine ⟨?_, ?_⟩
    · change (if (s.ownership cls f).item.isSome then 0 else s.presenceCount) = _
      rw [ho]
      rfl
    · rw [hbus, ho]
      rfl
  · rw [ho] at hbus
    obtain ⟨hself, hother, hfeed⟩ := s.bus.sentAccepted_holds i
    refine ⟨?_, ?_, ?_, ?_, fun j hj => ?_, ?_⟩
    · change (if (s.ownership cls f).item.isSome then 0 else s.presenceCount) = _
      rw [ho]
      rfl
    · rw [hbus, ← hself]
      cases i <;> rfl
    · rw [hbus]
    · rw [hbus]
    · rw [hbus, ← hother j hj]
      cases j <;> rfl
    · rw [hbus]
      exact hfeed

/-- Settles O29: the JOIN of a station with this configuration is one change of the roster, any other a clash record. -/
theorem joinByConfiguration : Obligations.JoinByConfiguration := by
  have hexec : ∀ (s : State) (st : StationState) (f : BusFrame) (w h p : Byte), s.Accepts st 3 f (.join w h p) →
      exec (.join f) s = .next ((s.afterShare 3 f).acceptJoin st f.sender w h p) := fun s st f w h p hacc => by
    change Host.Outcome.next (s.endFrame 3 f) = _
    rw [hacc.endFrame]
    rfl
  have hsame : ∀ (s : State) (c : ConfigRecord) (w h p : Byte), s.config = some c →
      (s.sameConfiguration w h p = true ↔ w.toNat = c.wallWidth ∧ h.toNat = c.wallHeight ∧ p.toNat = c.periodMs) := by
    intro s c w h p hc
    simp only [State.sameConfiguration, hc, Bool.and_eq_true, decide_eq_true_eq, and_assoc]
  refine ⟨fun s st f w h p c hacc hc hw hh hp => ?_, fun s st f w h p c hacc hc hne => ?_⟩
  · intro u
    have hconfig : u.sameConfiguration w h p = true := (hsame u c w h p hc).2 ⟨hw, hh, hp⟩
    have hstate : ∀ n : Station, u.roster[n].state = s.roster[n].state := s.afterShare_entryState 3 f
    have hset := u.changeRoster_sets st (rosterJoin u.roster f.sender s.timer.frameNumber)
    have hfollows := u.changeRoster_follows st (rosterJoin u.roster f.sender s.timer.frameNumber) hacc.running
    have hframe := u.changeRoster_frame st (rosterJoin u.roster f.sender s.timer.frameNumber)
    have hgen := u.changeRoster_gen_frame st (rosterJoin u.roster f.sender s.timer.frameNumber)
    have hpending : (u.changeRoster st (rosterJoin u.roster f.sender s.timer.frameNumber)).bus.presencePending =
        u.bus.presencePending := by simp
    have hfinal : u.acceptJoin st f.sender w h p = bif decide (st = .member) && decide (f.sender ≠ u.station) then
        { u.changeRoster st (rosterJoin u.roster f.sender s.timer.frameNumber) with
          bus := { (u.changeRoster st (rosterJoin u.roster f.sender s.timer.frameNumber)).bus with
            presencePending := true } }
        else u.changeRoster st (rosterJoin u.roster f.sender s.timer.frameNumber) := by
      unfold State.acceptJoin
      rw [if_pos hconfig, cond_eq_ite]
      rfl
    obtain ⟨j, hj⟩ : ∃ j, j = u.changeRoster st (rosterJoin u.roster f.sender s.timer.frameNumber) := ⟨_, rfl⟩
    rw [← hj] at hset hfollows hframe hgen hpending hfinal
    obtain ⟨hroster, -⟩ := hset
    have hentries : ∀ n : Station, j.roster[n] =
        if n = f.sender then ⟨.joining, 0, some s.timer.frameNumber⟩ else s.roster[n] := by
      intro n
      rw [hroster, rosterJoin_entry]
      split
      · rfl
      · rename_i hn
        rw [s.afterShare_roster 3 f, if_neg hn]
    have hposted : j.events = s.events.postAll s.timer.frameNumber
        (if s.roster[f.sender].state = .joining then [] else [.roster f.sender .joining]) := by
      rw [hj, u.changeRoster_events_single st f.sender fun n hn => by rw [rosterJoin_entry, if_neg hn], hstate,
        rosterJoin_entry, if_pos rfl]
      rfl
    refine ⟨_, hexec s st f w h p hacc, ?_⟩
    rw [hfinal]
    cases hasks : decide (st = .member) && decide (f.sender ≠ u.station) with
    | true =>
      have hasks' : (decide (st = .member) && decide (f.sender ≠ s.station)) = true := hasks
      refine ⟨?_, hentries, hfollows.of_same, hgen, hposted, ?_⟩
      · simp only [cond_true]
        rw [hframe]
      · rw [hasks', Bool.or_true]
        rfl
    | false =>
      have hasks' : (decide (st = .member) && decide (f.sender ≠ s.station)) = false := hasks
      refine ⟨?_, hentries, hfollows.of_same, hgen, hposted, ?_⟩
      · simp only [cond_false]
        rw [hpending]
        exact hframe
      · rw [hasks', Bool.or_false]
        exact hpending
  · have hconfig : ¬ (s.afterShare 3 f).sameConfiguration w h p = true := fun hc' =>
      hne ((hsame (s.afterShare 3 f) c w h p hc).1 hc')
    rw [hexec s st f w h p hacc, State.acceptJoin, if_neg hconfig]
    rfl

/-- Settles O30: a PRESENCE that carries Member is a change of the roster, and changes nothing of a station that is not
Absent: the record agrees already and no READY is owed. -/
theorem presenceMakesAbsentMember : Obligations.PresenceMakesAbsentMember := by
  have hexec : ∀ (s : State) (st : StationState) (f : BusFrame) (isMember : Bool), s.Accepts st 3 f (.presence isMember) →
      exec (.presence f) s = .next ((s.afterShare 3 f).acceptPresence st f.sender isMember) :=
    fun s st f isMember hacc => by
      change Host.Outcome.next (s.endFrame 3 f) = _
      rw [hacc.endFrame]
      rfl
  intro s st f isMember hagrees hready hacc u
  have hstate : ∀ n : Station, u.roster[n].state = s.roster[n].state := s.afterShare_entryState 3 f
  have hpresence : isMember = true →
      u.acceptPresence st f.sender isMember = u.changeRoster st (rosterPresence u.roster f.sender) := fun hm => if_pos hm
  refine ⟨fun hm habsent => ?_, fun hkeeps => ?_⟩
  · have hsender : u.roster[f.sender].state = .absent := (hstate f.sender).trans habsent
    have hnew : ∀ n : Station, (rosterPresence u.roster f.sender)[n] =
        if n = f.sender then ⟨.member, 0, none⟩ else s.roster[n] := by
      intro n
      rw [rosterPresence_entry, s.afterShare_roster 3 f f.sender, if_pos rfl]
      by_cases hn : n = f.sender
      · rw [if_pos hn, if_pos ⟨hn, habsent⟩]
      · rw [if_neg hn, if_neg fun h => hn h.1, s.afterShare_roster 3 f, if_neg hn]
    have hevents := u.changeRoster_events_single st (r := rosterPresence u.roster f.sender) f.sender fun n hn => by
      rw [hnew n, if_neg hn, hstate]
    rw [hsender, hnew f.sender, if_pos rfl] at hevents
    have hroster := (u.changeRoster_sets st (rosterPresence u.roster f.sender)).1
    have hframe := u.changeRoster_frame st (rosterPresence u.roster f.sender)
    have hgen := u.changeRoster_gen_frame st (rosterPresence u.roster f.sender)
    have hfollows : s.RecordFollows _ :=
      (u.changeRoster_follows st (rosterPresence u.roster f.sender) hacc.running).of_same
    have hmember : (u.changeRoster st (rosterPresence u.roster f.sender)).roster[f.sender].state = .member := by
      rw [hroster, hnew f.sender, if_pos rfl]
    have hrequired : (u.changeRoster st (rosterPresence u.roster f.sender)).requirementSet[f.sender] = true := by
      rw [State.requirementSet, requirementSet, getFin_tabulate, hmember]
      rfl
    refine ⟨_, (hexec s st f isMember hacc).trans (congrArg _ (hpresence hm)), ?_, fun n => ?_, hgen, hfollows,
      hrequired, ?_⟩
    · rw [hevents] at hframe
      exact hframe
    · rw [hroster]
      exact hnew n
    · refine Bool.eq_false_iff.2 fun hin => ?_
      have hbefore := hagrees.ready ((State.participates_running hacc.running).trans hacc.inWall) f.sender
        ((hfollows.ready f.sender).1 hin).1
      exact State.required_not_absent hbefore habsent
  · rw [hexec s st f isMember hacc]
    cases hm : isMember with
    | false => rfl
    | true =>
      have hne : s.roster[f.sender].state ≠ .absent := hkeeps.resolve_left (by rw [hm]; exact Bool.noConfusion)
      have hsame : rosterPresence u.roster f.sender = u.roster := if_neg (by rw [hstate]; exact hne)
      refine congrArg _ (Eq.trans (if_pos rfl) ?_)
      rw [hsame]
      exact State.changeRoster_self (s.afterShare_recordAgrees hagrees 3 f) hacc.running hacc.inWall
        ((s.afterShare_readyCondition 3 f).trans hready)

/-- Settles O31: a LEAVE is a change of the roster; the station's own is followed by the withdrawal. -/
theorem leaveMakesEntryAbsentOrWithdraws : Obligations.LeaveMakesEntryAbsentOrWithdraws := by
  have hexec : ∀ (s : State) (st : StationState) (f : BusFrame), s.Accepts st 3 f .leave →
      exec (.leave f) s = .next ((s.afterShare 3 f).acceptLeave st (s.ownership 3 f).item.isSome f.sender) :=
    fun s st f hacc => by
      change Host.Outcome.next (s.endFrame 3 f) = _
      rw [hacc.endFrame]
      rfl
  have hevents : ∀ (s : State) (st : StationState) (f : BusFrame),
      ((s.afterShare 3 f).changeRoster st (rosterLeave (s.afterShare 3 f).roster f.sender)).events =
        s.events.postAll s.timer.frameNumber
          (if s.roster[f.sender].state = .absent then [] else [.roster f.sender .absent]) := by
    intro s st f
    rw [State.changeRoster_events_single _ st f.sender fun n hn => by rw [rosterLeave_entry, if_neg hn],
      rosterLeave_self, s.afterShare_entryState 3 f f.sender]
    rfl
  refine ⟨fun s st f hacc hforeign => ?_, fun s st f hacc hown => ?_⟩
  · intro u
    have hroster := (u.changeRoster_sets st (rosterLeave u.roster f.sender)).1
    have hframe := u.changeRoster_frame st (rosterLeave u.roster f.sender)
    rw [hevents s st f] at hframe
    have hgen := u.changeRoster_gen_frame st (rosterLeave u.roster f.sender)
    have hfollows : s.RecordFollows _ :=
      (u.changeRoster_follows st (rosterLeave u.roster f.sender) hacc.running).of_same
    have habsent : (u.changeRoster st (rosterLeave u.roster f.sender)).roster[f.sender].state = .absent := by
      rw [hroster, rosterLeave_self]
    have hnot : (u.changeRoster st (rosterLeave u.roster f.sender)).requirementSet[f.sender] ≠ true :=
      fun h => State.required_not_absent h habsent
    have hexec' := hexec s st f hacc
    rw [State.item_none_of_foreign hforeign] at hexec'
    refine ⟨_, hexec', hframe, fun n => ?_, hgen, hfollows, Bool.eq_false_iff.2 hnot,
      Bool.eq_false_iff.2 fun hin => hnot ((hfollows.ready f.sender).1 hin).2,
      Bool.eq_false_iff.2 fun hin => ((hfollows.baseline f.sender).1 hin).2.1 habsent⟩
    change (u.changeRoster st (rosterLeave u.roster f.sender)).roster[n] = _
    rw [hroster, rosterLeave_entry]
    simp only [u, s.afterShare_roster 3 f]
    by_cases hn : n = f.sender
    · rw [if_pos hn, if_pos hn]
      simp only [if_true]
    · rw [if_neg hn, if_neg hn, if_neg hn]
  · have hexec' := hexec s st f hacc
    rw [hown] at hexec'
    have hqueue : (s.afterShare 3 f).bus.feedQueue = s.bus.feedQueue := by
      rw [s.afterShare_bus 3 f, hown]
      rfl
    obtain ⟨hcounters, htimer, htold⟩ := State.withdraw_tells
      ((s.afterShare 3 f).changeRoster st (rosterLeave (s.afterShare 3 f).roster f.sender)) .left
    have hdown : (s.afterShare 3 f).StandsDown _ .withdrawn .left := (State.withdraw_standsDown
      ((s.afterShare 3 f).changeRoster st (rosterLeave (s.afterShare 3 f).roster f.sender)) .left).of_same
    refine ⟨_, hexec', hdown.of_afterShare, hcounters.trans ?_, htimer.trans ?_, htold.trans ?_⟩
    · rw [(s.afterShare 3 f).changeRoster_frame st]
      rfl
    · rw [(s.afterShare 3 f).changeRoster_frame st]
      rfl
    have hframe := (s.afterShare 3 f).changeRoster_frame st (rosterLeave (s.afterShare 3 f).roster f.sender)
    have hnumber : ((s.afterShare 3 f).changeRoster st (rosterLeave (s.afterShare 3 f).roster f.sender)).timer.frameNumber
        = s.timer.frameNumber := by
      rw [hframe]
      rfl
    have hfeed : ((s.afterShare 3 f).changeRoster st (rosterLeave (s.afterShare 3 f).roster f.sender)).bus.feedQueue
        = s.bus.feedQueue := by
      rw [hframe]
      exact hqueue
    rw [hevents, hnumber, hfeed, ← EventQueue.postAll_append, ← List.append_assoc]
    simp only [(State.ownership_own hown).1]

end Sys2Proof.Proofs
end

section
/-! SUPPORT. The values at a start (R182), clash (R154 to R157, R181) and unread frames (R139, R142). -/

namespace Sys2Proof.Machine

/-! ### Starts (R182) -/

theorem getFin_replicate {α : Type} {n : Nat} (a : α) (k : Fin n) : (Vector.replicate n a)[k] = a := by
  simp

/-- The parts of a station right after a start. -/
theorem State.HasStartValues.of_parts {t : State} (gen : t.gen = GenerationRecord.atStart)
    (roster : t.roster = rosterCleared) (presence : t.presenceCount = 0) (clash : t.clashRecord = none)
    (queue : t.updateQueue = []) (engine : t.applyEngine = .idle) (x : t.bufferX = []) (y : t.bufferY = [])
    (pointer : t.shown = .x) (defaultsX : t.defaultsX = Vector.replicate 12 blankDefault)
    (defaultsY : t.defaultsY = Vector.replicate 12 blankDefault) (dirty : t.dirty = ⟨[], false⟩)
    (copying : t.catchUp = .idle) (left : t.leftTable = Vector.replicate 12 LeftRow.empty)
    (entries : t.entryRecords = Vector.replicate 12 EntryRecord.blank)
    (scan : ∃ panel, t.scan = ScanEngine.atStart panel) (arbiter : t.arbiter = State.reset.arbiter)
    (bus : t.bus = BusInterface.atStart) (timer : t.timer = State.reset.timer) (port : t.port = .free)
    (events : t.events = ⟨[], false⟩) (counters : t.counters = State.reset.counters) : t.HasStartValues := by
  obtain ⟨panel, hscan⟩ := scan
  refine ⟨gen, by rw [gen]; rfl, fun n => by simp only [roster]; exact getFin_rosterCleared n, presence, clash, queue,
    engine, fun b p => ?_, pointer, fun r => ?_, dirty, copying, fun r => ?_, fun r => ?_, ?_, fun c => ?_, arbiter, bus,
    timer, port, events, counters⟩
  · cases b with
    | x => exact congrArg (fun m => Memory.read blankCell m p.address) x
    | y => exact congrArg (fun m => Memory.read blankCell m p.address) y
  · simp only [defaultsX, defaultsY]
    exact ⟨getFin_replicate _ r, getFin_replicate _ r⟩
  · simp only [left]
    exact getFin_replicate _ r
  · simp only [entries]
    exact getFin_replicate _ r
  · rw [hscan]
    exact ⟨rfl, rfl, rfl, rfl, rfl⟩
  · simp only [hscan]
    exact ⟨getFin_replicate _ c, getFin_replicate _ c⟩

theorem State.reset_hasStartValues : State.reset.HasStartValues :=
  .of_parts rfl rfl rfl rfl rfl rfl rfl rfl rfl rfl rfl rfl rfl rfl rfl ⟨_, rfl⟩ rfl rfl rfl rfl rfl rfl

/-- A start gives every block its start value, whatever stood before. -/
theorem State.atStart_hasStartValues (s : State) (life : Life) (straps : Straps) (glyphs : List Host.Cell) :
    (s.atStart life straps glyphs).HasStartValues :=
  .of_parts rfl rfl rfl rfl rfl rfl rfl rfl rfl rfl rfl rfl rfl rfl rfl ⟨_, rfl⟩ rfl rfl rfl rfl rfl rfl

/-- A feed transaction in progress at a start is abandoned (R182). -/
theorem State.atStart_transaction {s : State} {life : Life} {straps : Straps} {glyphs : List Host.Cell} :
    ∀ tr, (s.atStart life straps glyphs).transaction = some tr → tr.abandoned = true := by
  intro tr htr
  obtain ⟨tr', -, rfl⟩ := Option.map_eq_some_iff.1 htr
  rfl

/-- Glyph memory with no pattern written is all 0-dots (R103). -/
theorem glyphLine_blank (set : BitVec 2) (code : BitVec 7) (line : Nat) : glyphLine [] set code line = 0 := rfl

/-- A stop of a dot line changes the panel alone (R108). -/
theorem ScanEngine.stopLine_eq (sc : ScanEngine) (sent : Nat) :
    sc.stopLine sent = { sc with panel := (sc.stopLine sent).panel } := by
  rcases sc with ⟨phase, begun⟩
  cases phase with
  | lead | tail => rfl
  | row r line => cases begun <;> rfl

/-- The scan engine of a station that lost power (R108). -/
theorem State.losePower_scan (s : State) : s.losePower.scan =
    { s.scan with phase := .lead, lineBegun := false, lineStrobes := 0, panel := s.losePower.scan.panel } := by
  have h := s.scan.stopLine_eq (Config.dotsSentBeforeStop s.freeCount)
  unfold State.losePower
  dsimp only
  rw [h]

/-! ### Frames that are not read (R139, R142) -/

theorem State.judges_of_goodBeacon {s : State} {f : BusFrame} (h : (s.goodBeacon f).isSome = true) :
    s.judges 0 f = true := by
  unfold State.goodBeacon at h
  split at h
  · rename_i hc
    exact (Bool.and_eq_true_iff.1 hc).1
  · cases h

/-- A frame row is the end of a frame of the class it carries; one that names a case is that where the case holds, and
then the station judges the frame. -/
theorem exec_carriedFrame {c : Instr} {cls : BitVec 3} {f : BusFrame} (h : carriedFrame c = some (cls, f)) (s : State) :
    (namesCase c = false ∧ exec c s = .next (s.endFrame cls f)) ∨
    (namesCase c = true ∧ (exec c s = .next s ∨ s.judges cls f = true ∧ exec c s = .next (s.endFrame cls f))) := by
  have hspoiled : ∀ (cls : BitVec 3) (f : BusFrame), s.spoiledHere cls f = true → s.judges cls f = true :=
    fun cls f hs => (Bool.and_eq_true_iff.1 hs).1
  have hcase : ∀ (cls : BitVec 3) (f : BusFrame) (holds : Bool), (holds = true → s.judges cls f = true) →
      (if holds then Host.Outcome.next (s.endFrame cls f) else .next s) = (.next s : Host.Outcome State Fault Refusal) ∨
      s.judges cls f = true ∧
        (if holds then Host.Outcome.next (s.endFrame cls f) else .next s) =
          (.next (s.endFrame cls f) : Host.Outcome State Fault Refusal) := fun cls f holds hj => by
    cases holds with
    | false => exact .inl rfl
    | true => exact .inr ⟨hj rfl, rfl⟩
  cases c with
  | beacon f' | ready f' | sealFrame f' | join f' | presence f' | leave f' | update f' | glyph f' =>
    cases h
    exact .inl ⟨rfl, rfl⟩
  | invalidClassFrame seven f' =>
    cases h
    exact .inl ⟨rfl, rfl⟩
  | flipTimeout f' =>
    cases h
    refine .inr ⟨rfl, hcase 0 f _ fun hf => State.judges_of_goodBeacon ?_⟩
    unfold State.flipTimeoutAt at hf
    cases hg : s.goodBeacon f with
    | none => rw [hg] at hf; cases hf
    | some m => rfl
  | silenceTimeout f' =>
    cases h
    exact .inr ⟨rfl, hcase 0 f _ fun hf => State.judges_of_goodBeacon (Bool.and_eq_true_iff.1 hf).1⟩
  | presenceInterval f' =>
    cases h
    refine .inr ⟨rfl, hcase 0 f _ fun hf => State.judges_of_goodBeacon ?_⟩
    unfold State.presenceIntervalAt at hf
    cases hg : s.goodBeacon f with
    | none => rw [hg] at hf; cases hf
    | some m => rfl
  | deaf cls' f' =>
    cases h
    refine .inr ⟨rfl, hcase cls f _ fun hf => ?_⟩
    simp only [State.deafAt, Bool.and_eq_true] at hf
    exact hf.1.1.1
  | leftUnheard f' =>
    cases h
    refine .inr ⟨rfl, hcase 3 f _ fun hf => hspoiled 3 f ?_⟩
    simp only [State.leftUnheardAt, Bool.and_eq_true] at hf
    exact hf.1.1
  | feedDropped cls' f' =>
    cases h
    refine .inr ⟨rfl, hcase cls f _ fun hf => hspoiled cls f ?_⟩
    simp only [State.feedDroppedAt, Bool.and_eq_true] at hf
    exact hf.1.1
  | _ => cases h

/-- A frame that the station does not read changes nothing. -/
theorem State.endFrame_of_not_reads {s : State} (h : s.reads = false) (cls : BitVec 3) (f : BusFrame) :
    s.endFrame cls f = s := by
  unfold State.endFrame
  split
  · exact if_neg (by rw [h]; exact Bool.false_ne_true)
  · rfl
  · rfl
  · rfl

theorem State.judges_reads {s : State} {cls : BitVec 3} {f : BusFrame} (h : s.judges cls f = true) :
    s.participates = true ∧ s.reads = true := by
  simp only [State.judges, Bool.and_eq_true] at h
  exact h.1

theorem State.reads_running {s : State} {st : StationState} (h : s.life = .running st) :
    s.reads = (s.bus.synchronised && st.readsKeys) := by
  unfold State.reads
  rw [h]

/-- Its own number while nothing of it is in flight is a clash (R40, R156). -/
theorem State.endFrame_of_own_number {s : State} {cls : BitVec 3} {f : BusFrame} (hr : s.reads = true)
    (hs : f.sender = s.station) (hf : s.bus.inFlight = none) : s.endFrame cls f = s.becomeClashed := by
  have ho : s.ownership cls f = .clash := by
    unfold State.ownership
    rw [if_pos hs, hf]
  unfold State.endFrame
  split
  · rw [if_pos hr, ho]
  all_goals
    rename_i hl
    unfold State.reads at hr
    rw [hl] at hr
    cases hr

theorem exec_frameCommand (cls : BitVec 3) (f : BusFrame) (s : State) :
    exec (frameCommand cls f) s = .next (s.endFrame cls f) := by
  have hcls : ∀ c : BitVec 3, c = 0 ∨ c = 1 ∨ c = 2 ∨ c = 3 ∨ c = 4 ∨ c = 5 ∨ c = 6 ∨ c = 7 := by decide
  rcases hcls cls with rfl | rfl | rfl | rfl | rfl | rfl | rfl | rfl <;> rfl

/-- What an entry to Clashed tells and leaves (R3, R157, R181). -/
theorem State.becomeClashed_tells (s : State) :
    s.becomeClashed.gen = s.gen ∧ s.becomeClashed.counters = s.counters ∧
    s.becomeClashed.timer = { s.timer with quietExpiries := s.becomeClashed.timer.quietExpiries } ∧
    s.becomeClashed.events = s.events.postAll s.timer.frameNumber
      ((if s.bus.feedQueue = [] then [] else [.feedFlushed s.bus.feedQueue.length])
        ++ [.state .clashed (.withdraw .clash)]) := by
  refine ⟨by simp, by simp, ?_, ?_⟩
  · have htimer : (s.enterDark .clashed .clash).timer = s.timer := by simp
    rw [← htimer]
    rfl
  · rw [← flushEvents_length, ← EventQueue.postAll_flushed]
    exact (s.enterDark_sets .clashed .clash).2.2.2.2.2.2.2.2.2.2

end Sys2Proof.Machine
end

section
/-! PROOFS. The step, reset and starts, loss of power, unread frames and clash. -/

namespace Sys2Proof.Proofs

open Sys2Proof.Machine

/-- Settles O1: both branches of the step are its equations. -/
theorem stepRunsFrontCommand : Obligations.StepRunsFrontCommand := by
  refine ⟨fun c rest s h => ?_, fun s h => ?_⟩
  · unfold step
    rw [h]
  · unfold step
    rw [h]

/-- Settles O2: at reset no block holds anything an invariant could object to. -/
theorem resetHoldsStartValues : Obligations.ResetHoldsStartValues := by
  have hroster : ∀ n : Station, State.reset.roster[n] = ⟨.absent, 0, none⟩ := State.reset_hasStartValues.roster
  refine ⟨State.reset_hasStartValues, fun set code line => glyphLine_blank set code line.val, rfl, rfl, rfl, rfl, rfl,
    ?_, ?_, ?_, ?_, ?_, ?_, ?_, ?_, ?_⟩
  · exact ⟨rfl, rfl, rfl, rfl⟩
  · exact ⟨Nat.zero_le _, Nat.zero_le _, (fun m hm => nomatch hm), Nat.zero_le _, ⟨Nat.zero_le _, List.nodup_nil⟩,
      fun _ => rfl⟩
  · exact ⟨Nat.zero_le _, Nat.zero_le _, Nat.zero_le _, Nat.zero_le _, Nat.zero_le _, Nat.zero_le _,
      fun n => by rw [hroster]; exact Nat.zero_le _, fun n _ => by rw [hroster]; exact Nat.succ_pos _,
      fun n => by rw [hroster]; exact ⟨nofun, nofun⟩, rfl⟩
  · intro r
    rw [State.reset_hasStartValues.left r]
    exact ⟨Nat.zero_le _, List.Pairwise.nil, (fun e he => nomatch he), (fun c hc => nomatch hc)⟩
  · exact ⟨List.Pairwise.nil, (fun e he => nomatch he), fun h => absurd rfl h, nofun, fun _ _ => ⟨rfl, rfl⟩⟩
  · exact ⟨nofun, nofun, nofun, nofun, nofun, nofun, nofun⟩
  · refine ⟨nofun, fun _ => ?_, fun _ _ => ?_, nofun, nofun, nofun, (fun m hm => nomatch hm)⟩
    · rw [hroster]; nofun
    · rw [hroster]
  · exact ⟨nofun, nofun, nofun, nofun, nofun⟩
  · exact ⟨nofun, nofun, nofun, nofun, nofun, nofun, nofun, ⟨nofun, nofun⟩, nofun, nofun⟩

/-- Settles O15: every start is `atStart`, with the stage, the straps and the glyph memory of its command. -/
theorem startsGiveStartValues : Obligations.StartsGiveStartValues := by
  refine ⟨fun straps s => ?_, fun width s => ⟨fun hp hw => ?_, fun hp hw => ?_, fun hp => ?_⟩,
    fun straps s => ⟨fun hl => ?_, fun hl => ?_⟩⟩
  · exact ⟨_, rfl, s.atStart_hasStartValues _ _ _, fun set code line => glyphLine_blank set code line.val, rfl, rfl, rfl,
      rfl, rfl, State.atStart_transaction, rfl⟩
  · have hon : s.life ≠ .unpowered := of_decide_eq_true hp
    have htaken : s.pulseTaken width = true := by simp [State.pulseTaken, hw]
    have hlow : s.resetLow width = State.atStart { s with resetPinLow := true } .heldInReset s.straps s.glyphMemory := by
      unfold State.resetLow
      rw [if_neg hon, if_pos htaken]
    have hexec : exec (.resetPinLow width) s = .next (s.resetLow width) := rfl
    exact ⟨_, hexec.trans (congrArg _ hlow), State.atStart_hasStartValues _ _ _ _, rfl, rfl, rfl, rfl, rfl, rfl,
      State.atStart_transaction, rfl⟩
  · have hon : s.life ≠ .unpowered := of_decide_eq_true hp
    refine ⟨_, rfl, ?_⟩
    unfold State.resetLow
    dsimp only
    rw [if_neg hon]
    split
    · exact .inr ⟨State.atStart_hasStartValues _ _ _ _, rfl, rfl, rfl, rfl, rfl, rfl⟩
    · exact .inl rfl
  · have hoff : s.life = .unpowered := not_not.1 (of_decide_eq_false hp)
    exact congrArg _ (if_pos hoff)
  · have hhigh : s.resetHigh straps =
        State.atStart { s with resetPinLow := false } .readingConfiguration straps s.glyphMemory := if_pos hl
    have hexec : exec (.resetPinHigh straps) s = .next (s.resetHigh straps) := rfl
    exact ⟨_, hexec.trans (congrArg _ hhigh), State.atStart_hasStartValues _ _ _ _, rfl, rfl, rfl, rfl, rfl, rfl,
      State.atStart_transaction, rfl⟩
  · exact congrArg _ (if_neg hl)

/-- Settles O18: the panel line that was being sent is stopped, the rest is written out. -/
theorem lossOfPowerStopsStation : Obligations.LossOfPowerStopsStation := fun s =>
  ⟨_, rfl, rfl, s.losePower_scan⟩

/-- Settles O21: a frame has an effect only where it is read, and at a Withdrawn station only that nothing is in flight. -/
theorem synchronisationAndUnreadFrames : Obligations.SynchronisationAndUnreadFrames := by
  refine ⟨fun s st hl => ⟨fun hne => ?_, fun he => ?_⟩, fun c s cls f hc hunread => ?_,
    fun c s cls f hc hl hsync hsender => ?_⟩
  · change Host.Outcome.next s.synchronise = _
    unfold State.synchronise
    cases st with
    | halted => exact absurd rfl hne
    | _ => simp only [hl]
  · change Host.Outcome.next s.synchronise = _
    unfold State.synchronise
    rw [hl, he]
  · have hreads : s.reads = false := by
      rcases hunread with hu | hu | hu | hu
      · unfold State.reads
        rw [hu]
        split <;> rfl
      · rw [State.reads_running hu]
        exact Bool.and_false _
      · rw [State.reads_running hu]
        exact Bool.and_false _
      · unfold State.reads
        split
        · rename_i st hl
          exact absurd hl (hu st)
        all_goals rfl
    rcases exec_carriedFrame hc s with ⟨-, h⟩ | ⟨-, h | ⟨hj, -⟩⟩
    · rw [h, State.endFrame_of_not_reads hreads]
    · exact h
    · rw [(State.judges_reads hj).2] at hreads
      cases hreads
  · have hout : s.participates = false := State.participates_running hl
    have hreads : s.reads = true := by
      rw [State.reads_running hl, hsync]
      rfl
    have hend : s.endFrame cls f = s.endFlight := by
      unfold State.endFrame
      rw [hl]
      simp only [hreads, if_true, State.ownership_foreign_iff.2 hsender]
    rcases exec_carriedFrame hc s with ⟨hn, h⟩ | ⟨hn, h | ⟨hj, -⟩⟩
    · exact ⟨fun hn' => absurd (hn.symm.trans hn') Bool.false_ne_true, fun _ => h.trans (congrArg _ hend)⟩
    · exact ⟨fun _ => h, fun hn' => absurd (hn'.symm.trans hn) Bool.false_ne_true⟩
    · rw [(State.judges_reads hj).1] at hout
      cases hout

/-- Settles O25: a clash is the entry to Clashed, and the station's own number with nothing in flight is a clash. -/
theorem clashTakesStationOff : Obligations.ClashTakesStationOff := by
  have hforeign : ∀ s : State, s.reads = true → s.bus.inFlight = none →
      exec (.clash .foreignKey) s = .next s.becomeClashed := fun s hr hf => if_pos (by
        simp [State.clashPossible, hr, hf])
  have hreads : ∀ (s : State) (st : StationState), s.life = .running st → st.readsKeys = true →
      s.bus.synchronised = true → s.reads = true := fun s st hl hk hsync => by
    rw [State.reads_running hl, hk, hsync]
    rfl
  refine ⟨fun cause s st hl hk hsync hcause => ?_, fun s st cls f hl hk hsync hsender hflight => ?_⟩
  · have hpossible : s.clashPossible cause = true := by
      cases cause with
      | readback => simp [State.clashPossible, hreads s st hl hk hsync, hcause.1 rfl]
      | foreignKey =>
        have hnone : s.bus.inFlight = none := by
          cases hf : s.bus.inFlight with
          | none => rfl
          | some sent => exact nomatch hcause.2 (by rw [hf]; rfl)
        simp [State.clashPossible, hreads s st hl hk hsync, hnone]
    obtain ⟨hgen, hcounters, htimer, hevents⟩ := s.becomeClashed_tells
    exact ⟨_, if_pos hpossible, s.becomeClashed_standsDown, hgen, hcounters, htimer, hevents⟩
  · have hr := hreads s st hl hk hsync
    rw [hforeign s hr hflight, exec_frameCommand]
    refine ⟨congrArg _ (State.endFrame_of_own_number hr hsender hflight), fun _ => ?_⟩
    have hclash : s.endFrame 3 f = s.becomeClashed := State.endFrame_of_own_number hr hsender hflight
    exact ⟨congrArg _ hclash, congrArg _ hclash⟩

end Sys2Proof.Proofs
end

section
/-! SUPPORT. Feed transactions (R183 to R186), and requests that are granted or wait (R129 to R131). -/

namespace Sys2Proof.Machine

/-! ### Feed transactions (R183 to R186) -/

/-- Every row of the feed port that collects no response is one edge of a command. -/
theorem exec_feedCommand {c : Instr} {edge : SelectEdge} (h : feedEdge c = some edge) (hc : isCollect c = false) :
    ∃ effect : StationState → State → State, ∀ s, exec c s = .next (s.command edge effect) := by
  cases c with
  | status e | nextEvent e | readCounters e | clearCounters e | restart e =>
    cases h
    exact ⟨_, fun s => rfl⟩
  | submit args e =>
    cases h
    cases ha : submitArguments args with
    | none => exact ⟨fun _ t => t, fun s => by change execSubmit args s edge = _; rw [execSubmit, ha]⟩
    | some m => exact ⟨fun _ t => t.submit m.1 m.2, fun s => by change execSubmit args s edge = _; rw [execSubmit, ha]⟩
  | readCell args e =>
    cases h
    match args with
    | role :: row :: col :: _ => exact ⟨_, fun s => rfl⟩
    | [] | [_] | [_, _] => exact ⟨_, fun s => rfl⟩
  | readRoster args e =>
    cases h
    match args with
    | number :: _ => exact ⟨_, fun s => rfl⟩
    | [] => exact ⟨_, fun s => rfl⟩
  | collect clocked e => cases hc
  | unknownCommand code e =>
    change (if definedCommandCode code then none else some e) = some edge at h
    split at h
    · cases h
    · rename_i hd
      cases h
      exact ⟨fun _ t => t.respond .badArg, fun s => if_neg hd⟩
  | _ => cases h

/-- The assertion of the select is the same in every row of the feed port. -/
theorem exec_asserted {c : Instr} (h : feedEdge c = some .asserted) (s : State) : exec c s = .next s.assertSelect := by
  cases hc : isCollect c with
  | false =>
    obtain ⟨effect, heffect⟩ := exec_feedCommand h hc
    exact heffect s
  | true =>
    cases c with
    | collect clocked e =>
      cases h
      rfl
    | _ => cases hc

/-- A transaction whose command has no effect is discarded, whatever the station's state (R184). -/
theorem State.command_ineffective {s : State} (hp : s.powered = true) :
    s.command .released (fun _ t => t) = s.discarded := by
  by_cases hfree : ∃ st, s.isFree st
  · obtain ⟨st, hfree⟩ := hfree
    exact s.command_free st _ hfree
  · exact s.command_discarded _ hp fun st h => hfree ⟨st, h⟩

/-- Too few argument bytes of a SUBMIT (R184). -/
theorem submitArguments_of_short {args : List Byte} (h : args.length < 2 ∨ args.length < 2 + (args.getD 1 0).toNat) :
    submitArguments args = none := by
  match args with
  | [] | [_] => rfl
  | clsByte :: len :: bytes =>
    refine if_neg fun hlen => ?_
    simp only [List.length_cons, List.getD_cons_succ, List.getD_cons_zero] at h
    omega

/-- The transaction a release ends, of a station with power, shows `shownByte`. -/
theorem State.inTransaction_eq (s : State) (h : s.powered = true) :
    s.inTransaction = s.transaction.getD ⟨portByte s.port s.events, s.port.isReady, !s.life.isRunning⟩ := by
  rw [State.inTransaction, State.beginning, if_pos h]

/-- A collect transaction whose select found the port Ready, and that no start came over, finds the port as it is. -/
theorem State.collectPort_of_ready {s : State} {st : StationState} {r : Response} (hl : s.life = .running st)
    (hport : s.port = .ready r) (ht : ∀ tr, s.transaction = some tr → tr.ready = true ∧ tr.abandoned = false) :
    s.collectPort = .ready r := by
  have hp : s.powered = true := by rw [State.powered, hl]; rfl
  have hready : s.inTransaction.ready = true ∧ s.inTransaction.abandoned = false := by
    rw [s.inTransaction_eq hp]
    cases hs : s.transaction with
    | none => exact ⟨by rw [hport]; rfl, by rw [hl]; rfl⟩
    | some tr => exact ht tr hs
  rw [State.collectPort, hready.1, hready.2, hport]
  rfl

/-- Any other finds no response. -/
theorem State.collectPort_of_not_ready {s : State} (hp : s.powered = true) (h : (∀ r, s.port ≠ .ready r) ∨
    ∃ tr, s.transaction = some tr ∧ (tr.ready = false ∨ tr.abandoned = true)) : ∀ r, s.collectPort ≠ .ready r := by
  intro r hr
  unfold State.collectPort at hr
  split at hr
  · rename_i hc
    rcases h with hport | ⟨tr, htr, hcase⟩
    · exact hport r hr
    · rw [s.inTransaction_eq hp, htr] at hc
      rcases hcase with hcase | hcase <;> simp [hcase] at hc
  · cases hr

theorem PortState.collected_of_not_ready {p : PortState} (h : ∀ r, p ≠ .ready r) (clocked : Nat) :
    p.collected clocked = List.replicate clocked 0xFF ∧ p.isCollected clocked = false := by
  cases p with
  | ready r => exact absurd rfl (h r)
  | free | working _ _ => exact ⟨by simp [PortState.collected, filler], rfl⟩

/-! ### Requests (R129 to R131) -/

theorem Arbiter.waiting_issue (a : Arbiter) (r : Requester) (q : Request) : (a.issue r q).waiting r = some q := by
  cases r <;> rfl

theorem Arbiter.waiting_issue_other (a : Arbiter) {r r' : Requester} (h : r' ≠ r) (q : Request) :
    (a.issue r q).waiting r' = a.waiting r' := by
  cases r <;> cases r' <;> first | rfl | exact absurd rfl h

/-- A grant with an access in progress changes nothing (R130). -/
theorem Arbiter.grant_of_access {a : Arbiter} (h : a.access.isSome = true) (shown : BufferName) (scanFirst : Bool) :
    a.grant shown scanFirst = a := if_pos h

/-- After a grant every waiting request still asks (R130, R131). -/
theorem State.grant_asks {s : State} {r : Requester} {q : Request} (h : s.arbiter.waiting r = some q) :
    s.grant.asks r q := by
  cases ha : s.arbiter.access with
  | some acc =>
    have hkept : s.grant.arbiter = s.arbiter := Arbiter.grant_of_access (by rw [ha]; rfl) _ _
    exact .inl (by rw [hkept]; exact h)
  | none => exact (s.arbiter.grant_highest s.shown s.scanFirst ha).2.2 r q h

/-- Complete arguments of READ CELL name their cell (R187). -/
theorem cellNamed_eq_some {role row col : Byte} {ro : Role} {p : Pos} (hrole : role = (if ro = .shown then 0 else 1))
    (hrow : row.toNat = p.row.val) (hcol : col.toNat = p.col.val) : cellNamed role row col = some (ro, p) := by
  have hro : roleOfByte role = some ro := by
    rw [hrole]
    cases ro <;> rfl
  have hlt : row.toNat < 12 ∧ col.toNat < 32 := by
    rw [hrow, hcol]
    exact ⟨p.row.isLt, p.col.isLt⟩
  unfold cellNamed
  rw [hro]
  refine (dif_pos hlt).trans ?_
  simp only [hrow, hcol]

/-- READ CELL of a named cell: the port works, the read is requested and the arbiter grants (R187). -/
theorem exec_readCell_named {s : State} {st : StationState} {role row col : Byte} (more : List Byte) {ro : Role} {p : Pos}
    (hfree : s.isFree st) (hrole : role = (if ro = .shown then 0 else 1)) (hrow : row.toNat = p.row.val)
    (hcol : col.toNat = p.col.val) : exec (.readCell (role :: row :: col :: more) .released) s = .next (State.grant
      { s.discarded with port := .working ro p, arbiter := s.arbiter.issue .feedRead ⟨p, ro, none⟩ }) := by
  refine congrArg _ ((s.command_free st _ hfree).trans ?_)
  unfold State.readCellCommand
  rw [cellNamed_eq_some hrole hrow hcol]
  rfl

end Sys2Proof.Machine
end

section
/-! PROOFS. The feed port (R183 to R194). -/

namespace Sys2Proof.Proofs

open Sys2Proof.Machine

/-- Settles O54: an assertion samples the port byte; a release that is not taken discards its transaction. -/
theorem selectSamplesPortByte : Obligations.SelectSamplesPortByte := by
  refine ⟨fun c s hc => ⟨fun hp ht => ?_, fun hp ht => ?_, fun ht => ?_⟩, fun c s hc hcollect hp hfree => ?_,
    fun c s hc hp => ?_, fun args s hp hlen => ?_, fun s hp => ?_, fun args s hp hlen => ?_, fun code s st hfree hd => ?_⟩
  · have hready : s.port.isReady = (match s.port with | .ready _ => true | .free | .working _ _ => false) := by
      cases s.port <;> rfl
    have habandoned : (!s.life.isRunning) = (match s.life with | .running _ => false | _ => true) := by
      cases s.life <;> rfl
    rw [exec_asserted hc, State.assertSelect, ht, State.beginning, if_pos hp, State.shiftOut, if_pos hp, hready,
      habandoned]
    rfl
  · rw [exec_asserted hc, State.assertSelect, ht, State.beginning, hp, State.shiftOut, hp]
    rfl
  · rw [exec_asserted hc, State.assertSelect, if_neg]
    rwa [Option.isNone_iff_eq_none]
  · obtain ⟨effect, heffect⟩ := exec_feedCommand hc hcollect
    rw [heffect, s.command_discarded effect hp hfree]
  · cases hcollect : isCollect c with
    | false =>
      obtain ⟨effect, heffect⟩ := exec_feedCommand hc hcollect
      rw [heffect, s.command_unpowered effect hp]
    | true =>
      cases c with
      | collect clocked e =>
        cases hc
        change Host.Outcome.next (s.collect clocked) = _
        rw [State.collect, hp, s.releaseSelect_unpowered _ hp]
        rfl
      | _ => cases hcollect
  · match args with
    | [] | [_] | [_, _] => exact congrArg _ (State.command_ineffective hp)
    | _ :: _ :: _ :: _ => exact absurd hlen (by simp)
  · exact congrArg _ (State.command_ineffective hp)
  · change execSubmit args s .released = _
    rw [execSubmit, submitArguments_of_short hlen, State.command_ineffective hp]
  · change execUnknownCommand code s .released = _
    rw [execUnknownCommand, if_neg (by rw [hd]; exact Bool.false_ne_true), s.command_free st _ hfree]
    rfl

/-- Settles O55: each report is one command at a Free port. -/
theorem reportsCarryFields : Obligations.ReportsCarryFields := by
  refine ⟨fun s st hfree => ⟨?_, fun n more => ?_, fun b more hb => ?_, ?_, ?_⟩, fun s e => ⟨?_, ?_⟩,
    fun s st hfree => ⟨fun e rest he => ?_, fun he => ?_⟩⟩
  · refine congrArg Host.Outcome.next ((s.command_free st _ hfree).trans ?_)
    simp only [← List.countP_eq_length_filter]
    rfl
  · refine congrArg _ ((s.command_free st _ hfree).trans ?_)
    have hn : (BitVec.ofNat 8 n.val).toNat = n.val := by
      rw [BitVec.toNat_ofNat]
      omega
    unfold State.readRosterCommand
    rw [dif_pos (by rw [hn]; exact n.isLt)]
    simp only [hn]
    rfl
  · refine congrArg _ ((s.command_free st _ hfree).trans ?_)
    unfold State.readRosterCommand
    rw [dif_neg (by omega)]
    rfl
  · exact congrArg _ (s.command_free st _ hfree)
  · exact congrArg _ (s.command_free st _ hfree)
  · simp [State.interruptLine]
  · change (!(s.events.post s.timer.frameNumber e).records.isEmpty) = true
    unfold EventQueue.post
    split
    · simp
    · rename_i hfull
      cases hr : s.events.records with
      | nil => rw [hr] at hfull; exact absurd (Nat.succ_pos 31) hfull
      | cons e' rest => rfl
  · refine congrArg _ ((s.command_free st _ hfree).trans ?_)
    unfold State.nextEvent
    rw [show s.discarded.events.records = e :: rest from he]
    rfl
  · refine congrArg _ ((s.command_free st _ hfree).trans ?_)
    unfold State.nextEvent
    rw [show s.discarded.events.records = [] from he]
    rfl

/-- Settles O57: the tests of R190 in their order, on complete arguments. -/
theorem submitJoinsFeedQueue : Obligations.SubmitJoinsFeedQueue := by
  intro s st clsByte len payload more hfree hlen cls takes ends
  have harguments : submitArguments (clsByte :: len :: (payload ++ more)) = some (cls, payload) := by
    have hfits : len.toNat ≤ (payload ++ more).length := by
      rw [List.length_append]
      omega
    refine (if_pos hfits).trans ?_
    rw [← hlen, List.take_left]
    rfl
  have hexec : exec (.submit (clsByte :: len :: (payload ++ more)) .released) s =
      .next (s.discarded.submit cls payload) := by
    change execSubmit _ s .released = _
    rw [execSubmit, harguments]
    exact congrArg _ (s.command_free st _ hfree)
  have htakes : submitTakes cls = true ↔ takes := by simp [submitTakes, takes, or_assoc]
  refine ⟨fun hn => ?_, fun ht hlong => ?_, fun ht hshort hfull => ?_, fun ht hshort hroom => ?_⟩
  all_goals
    refine hexec.trans (congrArg _ ?_)
    unfold State.submit
  · rw [if_pos (by simpa using fun h => hn (htakes.1 h))]
    rfl
  · rw [if_neg (by simpa using htakes.2 ht), if_pos (by rw [hlen]; exact hlong)]
    rfl
  · rw [if_neg (by simpa using htakes.2 ht), if_neg (by rw [hlen]; omega)]
    exact if_pos hfull
  · rw [if_neg (by simpa using htakes.2 ht), if_neg (by rw [hlen]; omega)]
    exact if_neg (Nat.not_le.2 hroom)

/-- Settles O58: a named cell is requested, and the completed read answers with its record unless it was given up. -/
theorem readCellAnswersRecord : Obligations.ReadCellAnswersRecord := by
  have hexec : ∀ (s : State) (st : StationState) (role row col : Byte) (more : List Byte), s.isFree st →
      exec (.readCell (role :: row :: col :: more) .released) s = .next (s.discarded.readCellCommand role row col) :=
    fun s st role row col more hfree => congrArg _ (s.command_free st _ hfree)
  refine ⟨fun s st role row col more hfree => ⟨fun hbad => ?_, fun ro p hrole hrow hcol => ?_⟩,
    fun s acc ro p hdone hport => ?_⟩
  · have hnamed : cellNamed role row col = none := by
      unfold cellNamed
      split
      · rfl
      · rename_i ro hro
        have hrole : role.toNat < 2 := by
          unfold roleOfByte at hro
          split at hro
          · rename_i h0
            rw [h0]
            exact Nat.zero_lt_two
          · split at hro
            · rename_i h1
              rw [h1]
              exact Nat.one_lt_two
            · cases hro
        exact dif_neg (by omega)
    rw [hexec s st role row col more hfree, State.readCellCommand, hnamed]
    rfl
  · exact ⟨_, exec_readCell_named more hfree hrole hrow hcol, rfl,
      State.grant_asks (Arbiter.waiting_issue s.arbiter .feedRead ⟨p, ro, none⟩)⟩
  · obtain ⟨hp, hacc, hreq, hwrite⟩ := hdone
    have hof : s.accessOf .feedRead false = some acc := State.accessOf_eq_some.2 ⟨hacc, hp, hreq, by rw [hwrite]; rfl⟩
    refine ⟨s.feedReadDone acc, ?_, ?_⟩
    · change execFeedReadComplete s = _
      rw [execFeedReadComplete, hof]
    · unfold State.feedReadDone State.finishAccess State.readResponse
      rw [hwrite, hport]
      rfl

/-- Settles O59: RESTART by the station state. -/
theorem restartByStationState : Obligations.RestartByStationState := by
  intro s st hfree
  have hexec : exec (.restart .released) s = .next (s.discarded.restartCommand st) :=
    congrArg _ (s.command_free st _ hfree)
  refine ⟨fun hst => ?_, fun origin hst => ?_, fun origin hst => ?_, fun hst => ?_⟩
  · rw [hexec, hst]
    rfl
  · rw [hexec]
    rcases hst with ⟨rfl, rfl⟩ | ⟨rfl, rfl⟩ <;> rfl
  · rw [hexec, hst]
    rfl
  · have hcommand : s.discarded.restartCommand st = (s.discarded.enterListening .restart).respond (.restarted .listening) := by
      rcases hst with rfl | rfl | rfl <;> rfl
    refine ⟨_, hexec.trans (congrArg _ hcommand), ?_, rfl, rfl, rfl, rfl, rfl, rfl, rfl⟩
    have henters : s.EntersListening _ .restart := (s.discarded.enterListening_enters .restart).of_same
    exact { henters with }

/-- Settles O60: the response, then filler, and the port byte. -/
theorem collectShiftsResponse : Obligations.CollectShiftsResponse := by
  intro s clocked hp
  have hexec : exec (.collect clocked .released) s = .next (s.collect clocked) := rfl
  refine ⟨fun st r hl hport ht => ⟨fun hall => ?_, fun hsome => ?_⟩, fun hnone => ?_, ?_, ?_, ?_⟩
  · have hfound := State.collectPort_of_ready hl hport ht
    have hcollected : (PortState.ready r).isCollected clocked = true := decide_eq_true hall
    rw [hexec, State.collect, hp, hfound, hcollected, s.releaseSelect_powered _ hp, PortState.collected]
    simp only [List.take_of_length_le hall]
    rfl
  · have hfound := State.collectPort_of_ready hl hport ht
    have hcollected : (PortState.ready r).isCollected clocked = false := decide_eq_false (Nat.not_le.2 hsome)
    have hfill : clocked - r.bytes.length = 0 := by omega
    rw [hexec, State.collect, hp, hfound, hcollected, s.releaseSelect_powered _ hp, PortState.collected]
    simp only [hfill, List.replicate_zero, List.append_nil]
    rfl
  · obtain ⟨hbytes, hcollected⟩ := PortState.collected_of_not_ready (State.collectPort_of_not_ready hp hnone) clocked
    rw [hexec, State.collect, hp, hbytes, hcollected, s.releaseSelect_powered _ hp]
    rfl
  all_goals
    unfold portByte
    cases s.port <;> cases s.events.records.isEmpty <;> dsimp only <;> decide

end Sys2Proof.Proofs
end

section
/-! SUPPORT. The bytes of the feed port (R188, R195, R197). -/

namespace Sys2Proof.Machine

theorem twoBytes_highByte_lowByte (v : BitVec 16) : twoBytes (highByte v) (lowByte v) = v := by
  have hv := v.isLt
  rw [← BitVec.toNat_inj, twoBytes_toNat, highByte, lowByte, Byte.field_toNat, Byte.field_toNat]
  omega

theorem highByte_append (hi lo : Byte) : highByte (hi ++ lo) = hi := by
  have hh := hi.isLt
  have hl := lo.isLt
  rw [← BitVec.toNat_inj, highByte, Byte.field_toNat, append_toNat]
  omega

theorem lowByte_append (hi lo : Byte) : lowByte (hi ++ lo) = lo := by
  have hh := hi.isLt
  have hl := lo.isLt
  rw [← BitVec.toNat_inj, lowByte, Byte.field_toNat, append_toNat]
  omega

theorem GlyphCell.bits_toNat (g : GlyphCell) : g.bits.toNat =
    ((((g.set.toNat * 128 + g.code.toNat) * 8 + g.foreground.toNat) * 4 + g.size.bits.toNat) * 2 + g.invert.toNat) * 2
      + g.flash.toNat := by
  unfold GlyphCell.bits
  simp only [append_toNat, BitVec.toNat_ofBool]
  norm_num

/-- The fields of a glyph cell come back from its record bits (R199). -/
theorem GlyphCell.ofBits_bits (g : GlyphCell) : GlyphCell.ofBits g.bits = g := by
  have hbits := g.bits_toNat
  have hset := g.set.isLt
  have hcode := g.code.isLt
  have hfore := g.foreground.isLt
  have hsize := g.size.bits.isLt
  have hinvert := Bool.toNat_lt g.invert
  have hflash := Bool.toNat_lt g.flash
  have eset : g.bits.extractLsb' 14 2 = g.set := by
    rw [← BitVec.toNat_inj, Byte.field_toNat]; omega
  have ecode : g.bits.extractLsb' 7 7 = g.code := by
    rw [← BitVec.toNat_inj, Byte.field_toNat]; omega
  have efore : g.bits.extractLsb' 4 3 = g.foreground := by
    rw [← BitVec.toNat_inj, Byte.field_toNat]; omega
  have esize : g.bits.extractLsb' 2 2 = g.size.bits := by
    rw [← BitVec.toNat_inj, Byte.field_toNat]; omega
  have einvert : g.bits.getLsbD 1 = g.invert := by
    rw [Byte.bit_eq]
    cases hi : g.invert <;> rw [hi] at hbits <;> simp only [Bool.toNat_true, Bool.toNat_false] at hbits <;>
      simp only [decide_eq_true_eq, decide_eq_false_iff_not] <;> omega
  have eflash : g.bits.getLsbD 0 = g.flash := by
    rw [Byte.bit_eq]
    cases hi : g.flash <;> rw [hi] at hbits <;> simp only [Bool.toNat_true, Bool.toNat_false] at hbits <;>
      simp only [decide_eq_true_eq, decide_eq_false_iff_not] <;> omega
  unfold GlyphCell.ofBits
  rw [eset, ecode, efore, einvert, eflash, GlyphSize.bits_inj ((GlyphSize.ofBits_bits _).trans esize)]

/-- The fields of a zone record come back from the low byte of a zone cell (R199). -/
theorem ZoneCell.lowByte_fields (z : ZoneCell) :
    (z.colour ++ z.zone.bits : Byte).extractLsb' 5 3 = z.colour ∧
    ZoneRecord.ofByte (z.colour ++ z.zone.bits : Byte) = z.zone := by
  obtain ⟨colour, background, conceal, underline⟩ := z
  revert colour background conceal underline
  decide

/-- A cell record comes back from the kind and the two bytes READ CELL gives (R187, R199). -/
theorem CellRecord.ofBits_bits (c : CellRecord) :
    CellRecord.ofBits (match c with | .glyph _ => false | .zone _ => true) (highByte c.bits) (lowByte c.bits) = some c := by
  cases c with
  | glyph g =>
    change some (CellRecord.glyph (GlyphCell.ofBits (twoBytes (highByte g.bits) (lowByte g.bits)))) = _
    rw [twoBytes_highByte_lowByte, GlyphCell.ofBits_bits]
  | zone z =>
    obtain ⟨hcolour, hzone⟩ := z.lowByte_fields
    have hbits : (CellRecord.zone z).bits = (0x20 : Byte) ++ (z.colour ++ z.zone.bits : Byte) := by
      change (0x20 : Byte) ++ z.colour ++ z.zone.bits = _
      rw [BitVec.append_assoc]
      rfl
    rw [hbits, highByte_append, lowByte_append]
    change some (CellRecord.zone ⟨_, _⟩) = _
    rw [hcolour, hzone]

/-- The flags of STATUS as a number. -/
theorem statusFlags (a b c d : Bool) : (flagBit a 0 ||| flagBit b 1 ||| flagBit c 2 ||| flagBit d 3).toNat < 16 ∧
    (flagBit a 0 ||| flagBit b 1 ||| flagBit c 2 ||| flagBit d 3).getLsbD 0 = a ∧
    (flagBit a 0 ||| flagBit b 1 ||| flagBit c 2 ||| flagBit d 3).getLsbD 1 = b ∧
    (flagBit a 0 ||| flagBit b 1 ||| flagBit c 2 ||| flagBit d 3).getLsbD 2 = c ∧
    (flagBit a 0 ||| flagBit b 1 ||| flagBit c 2 ||| flagBit d 3).getLsbD 3 = d := by
  revert a b c d
  decide

/-! ### The command of a transaction (R184, R186) -/

theorem definedCommandCode_iff (code : Byte) :
    definedCommandCode code = true ↔ code = 0x80 ∨ 1 ≤ code.toNat ∧ code.toNat ≤ 8 := by
  simp [definedCommandCode]

/-- A code the Formats chapter does not define is an unknown command. -/
theorem commandOfBytes_unknown {code : Byte} (h : definedCommandCode code = false) (edge : SelectEdge)
    (args : List Byte) : commandOfBytes edge (code :: args) = some (.unknownCommand code edge) := by
  have hnot : ¬ (code = 0x80 ∨ 1 ≤ code.toNat ∧ code.toNat ≤ 8) := fun hd => by
    rw [(definedCommandCode_iff code).2 hd] at h
    cases h
  have h80 : code.toNat ≠ 0x80 := fun he => hnot (.inl (BitVec.eq_of_toNat_eq he))
  unfold commandOfBytes
  refine congrArg some ?_
  split
  · exact absurd ‹_› h80
  iterate 8 exact absurd (.inr (by omega)) hnot
  rfl

/-- The codes of the Formats chapter. -/
theorem definedCommandCode_cases {code : Byte} (h : definedCommandCode code = true) : code = 0x80 ∨ code = 0x01 ∨
    code = 0x02 ∨ code = 0x03 ∨ code = 0x04 ∨ code = 0x05 ∨ code = 0x06 ∨ code = 0x07 ∨ code = 0x08 := by
  revert code
  decide

end Sys2Proof.Machine
end

section
/-! PROOFS. The bytes of the feed port. -/

namespace Sys2Proof.Proofs

open Sys2Proof.Machine

/-- Settles O20: each response's bytes are its table's. -/
theorem responsesShiftFormatBytes : Obligations.ResponsesShiftFormatBytes := by
  refine ⟨fun r => ?_, rfl, rfl, rfl, fun r => rfl, rfl, fun lost => ?_, fun fn e lost => ?_, fun fill => rfl,
    fun ro p c => ?_, fun n e => ?_, fun c => rfl, rfl, fun st => rfl, rfl, rfl, rfl, rfl⟩
  · obtain ⟨hlt, hsealed, harmed, hcatch, hclash⟩ :=
      statusFlags r.isSealed r.armed r.catchingUp r.clashRecord.isSome
    refine ⟨_, _, rfl, hlt, hsealed, harmed, hcatch, hclash, fun hn => ?_, fun n hn => ?_⟩
    · rw [hn]
    · rw [hn]
      rfl
  · cases lost <;> rfl
  · have hflag : flagBit true 0 ||| flagBit lost 1 = if lost then 3 else 1 := by
      cases lost <;> rfl
    cases e with
    | feedDropped cls =>
      have hcls : cls.zeroExtend 8 = BitVec.ofNat 8 cls.toNat := by
        revert cls
        decide
      exact ⟨_, _, _, by rw [← hflag]; rfl, by rw [hcls]⟩
    | flip g | sealTaken g n | sealIgnored g n | roster n st | flipTimeout g count | rowUncertain r | rowCertain r |
      underrun | shortFrame | feedFlushed count | state st reason | configClash n =>
      exact ⟨_, _, _, by rw [← hflag]; rfl, rfl⟩
  · refine ⟨highByte c.bits, lowByte c.bits, ?_, c.ofBits_bits⟩
    cases ro <;> cases c <;> rfl
  · change [_, _, _, _] ++ e.joinFrameBytes = _
    unfold RosterEntry.joinFrameBytes
    obtain ⟨state, silence, joinFrame⟩ := e
    cases state with
    | joining =>
      cases joinFrame with
      | some fn => rfl
      | none =>
        have hzero : (0 : FrameNumber).extractLsb' 8 8 = (0 : Byte) ∧ (0 : FrameNumber).extractLsb' 0 8 = (0 : Byte) := by
          decide
        change _ = _ ++ [(0 : FrameNumber).extractLsb' 8 8, (0 : FrameNumber).extractLsb' 0 8]
        rw [hzero.1, hzero.2]
        rfl
    | absent | member | silent => rfl

/-- Settles O56: the first byte picks the command. -/
theorem transactionBytesPickCommand : Obligations.TransactionBytesPickCommand := by
  refine ⟨fun c edge h => ?_, fun edge args => ⟨rfl, rfl, rfl, rfl, rfl, rfl, rfl, rfl, rfl, fun code hcode => ?_⟩,
    fun edge bytes c h => ?_, fun edge => rfl⟩
  · cases c with
    | status e | nextEvent e | readCounters e | clearCounters e | restart e =>
      cases h
      exact ⟨_, rfl, rfl⟩
    | submit args e | readCell args e | readRoster args e =>
      cases h
      exact ⟨_, rfl, rfl⟩
    | collect clocked e =>
      cases h
      refine ⟨_, rfl, ?_⟩
      change some (Instr.collect (List.replicate clocked (0 : Byte)).length edge) = _
      rw [List.length_replicate]
    | unknownCommand code e =>
      cases hd : definedCommandCode code with
      | true =>
        change (if definedCommandCode code then none else some e) = some edge at h
        rw [hd] at h
        cases h
      | false =>
        change (if definedCommandCode code then none else some e) = some edge at h
        rw [hd] at h
        cases h
        exact ⟨_, rfl, commandOfBytes_unknown hd edge []⟩
    | _ => cases h
  · refine commandOfBytes_unknown (Bool.eq_false_iff.2 fun hd => ?_) edge args
    rcases (definedCommandCode_iff code).1 hd with h80 | ⟨h1, h8⟩
    · rcases hcode with h0 | ⟨-, hne⟩
      · rw [h0] at h80
        exact absurd h80 (by decide)
      · exact hne h80
    · rcases hcode with h0 | ⟨h9, -⟩
      · rw [h0] at h1
        exact absurd h1 (by decide)
      · omega
  · cases bytes with
    | nil => cases h
    | cons code args =>
      cases hd : definedCommandCode code with
      | false =>
        rw [commandOfBytes_unknown hd] at h
        cases h
        refine ⟨?_, ?_⟩
        · change (if definedCommandCode code then none else some edge) = some edge
          rw [hd]
          rfl
        · change (!definedCommandCode code) = true
          rw [hd]
          rfl
      | true =>
        rcases definedCommandCode_cases hd with rfl | rfl | rfl | rfl | rfl | rfl | rfl | rfl | rfl <;> cases h <;>
          exact ⟨rfl, rfl⟩

end Sys2Proof.Proofs
end

section
/-! SUPPORT. Spoiled frames (R143 to R147, R151 to R153). -/

namespace Sys2Proof.Machine

/-- The station's own spoil: the first reason's counter and the consecutive spoils (R143, R146). -/
theorem State.driveSpoil_eq (s : State) (reason : Option SpoilReason) : s.driveSpoil reason = { s with
    bus := { s.bus with
      consecutiveSpoils := if reason = none then s.bus.consecutiveSpoils else s.bus.consecutiveSpoils + 1 }
    counters := { s.counters with
      spoilsCheck := if reason = some .check then rise s.counters.spoilsCheck else s.counters.spoilsCheck
      spoilsFormat := if reason = some .format then rise s.counters.spoilsFormat else s.counters.spoilsFormat
      spoilsQueueFull :=
        if reason = some .queueFull then rise s.counters.spoilsQueueFull else s.counters.spoilsQueueFull } } := by
  cases reason with
  | none => rfl
  | some r => cases r <;> rfl

/-- A spoiled attempt of the feed queue's head changes counters, events and the feed queue alone (R153). -/
theorem State.spoilFeedHead_frame (s : State) (reason : Option SpoilReason) : ∃ c e q,
    s.spoilFeedHead reason = { s with counters := c, events := e, bus := { s.bus with feedQueue := q } } := by
  unfold State.spoilFeedHead
  split
  · exact ⟨s.counters, s.events, s.bus.feedQueue, rfl⟩
  · split
    · exact ⟨_, _, _, rfl⟩
    · exact ⟨_, s.events, _, rfl⟩

/-- A spoiled attempt that does not give up the LEAVE changes counters, queue, attempts and events alone (R151 to
R153). -/
theorem State.attemptSpoiled_frame (s : State) (item : Option Item) (reason : Option SpoilReason)
    (h : item = some .leave → s.bus.leaveAttempts < 3) : ∃ c e n q, s.attemptSpoiled item reason =
      { s with counters := c, events := e, bus := { s.bus with leaveAttempts := n, feedQueue := q } } := by
  cases item with
  | none => exact ⟨s.counters, s.events, s.bus.leaveAttempts, s.bus.feedQueue, rfl⟩
  | some item =>
    cases item with
    | beacon | ready | join | presence => exact ⟨_, s.events, s.bus.leaveAttempts, s.bus.feedQueue, rfl⟩
    | leave =>
      have hlt : s.bus.leaveAttempts + 1 < 4 := by
        have := h rfl
        omega
      exact ⟨_, s.events, _, s.bus.feedQueue, if_pos hlt⟩
    | feed =>
      obtain ⟨c, e, q, hspoil⟩ := State.spoilFeedHead_frame
        { s with counters := { s.counters with ownAttemptsSpoiled := rise s.counters.ownAttemptsSpoiled } } reason
      exact ⟨c, e, s.bus.leaveAttempts, q, hspoil⟩

/-- A spoiled frame that is not the 32nd in a row is the attempt's outcome (R146). -/
theorem State.frameSpoiled_of_below {s : State} {item : Option Item} {reason : Option SpoilReason}
    (hleave : item = some .leave → s.bus.leaveAttempts < 3)
    (h : s.bus.consecutiveSpoils < 31 ∨ reason = none ∧ s.bus.consecutiveSpoils = 31) :
    s.frameSpoiled item reason = (s.driveSpoil reason).attemptSpoiled item reason := by
  unfold State.frameSpoiled State.deafCheck
  refine if_neg (Nat.not_le.2 ?_)
  obtain ⟨c, e, n, q, hattempt⟩ :=
    State.attemptSpoiled_frame (s.driveSpoil reason) item reason (by rw [s.driveSpoil_eq]; exact hleave)
  rw [hattempt, s.driveSpoil_eq]
  change (if reason = none then s.bus.consecutiveSpoils else s.bus.consecutiveSpoils + 1) < 32
  split
  · omega
  · rename_i hne
    rcases h with h | ⟨h, -⟩
    · omega
    · exact absurd h hne

/-- The 32nd spoil in a row withdraws after the attempt's outcome (R146, R179). -/
theorem State.frameSpoiled_of_deaf {s : State} {item : Option Item} {reason : SpoilReason}
    (hleave : item = some .leave → s.bus.leaveAttempts < 3) (h : 31 ≤ s.bus.consecutiveSpoils) :
    s.frameSpoiled item (some reason) =
      ((s.driveSpoil (some reason)).attemptSpoiled item (some reason)).withdraw .deaf := by
  unfold State.frameSpoiled State.deafCheck
  refine if_pos ?_
  obtain ⟨c, e, n, q, hattempt⟩ :=
    State.attemptSpoiled_frame (s.driveSpoil (some reason)) item (some reason) (by rw [s.driveSpoil_eq]; exact hleave)
  rw [hattempt, s.driveSpoil_eq]
  change 32 ≤ s.bus.consecutiveSpoils + 1
  omega

/-- The judgement of R143: the check, the layout, the room in the update queue. -/
theorem State.judge_eq (s : State) (cls : BitVec 3) (f : BusFrame) : s.judge cls f =
    if f.check ≠ frameCheck ⟨cls, f.sender⟩ f.payload then some .check
    else match parseMessage cls f.payload with
      | none => some .format
      | some (.update v) =>
        if (s.filtered v).isSome = true ∧ 96 ≤ s.updateQueue.length then some .queueFull else none
      | some _ => none := by
  unfold State.judge
  simp only [Bool.and_eq_true, decide_eq_true_eq] <;> rfl

theorem State.Spoiled.judges {s : State} {st : StationState} {cls : BitVec 3} {f : BusFrame}
    {reason : Option SpoilReason} (h : s.Spoiled st cls f reason) : s.judges cls f = true := by
  have hkeys : st.readsKeys = true := by
    have hw := h.inWall
    cases st with
    | joining | member | leaving _ => rfl
    | halted | listening | withdrawn | clashed => cases hw
  rw [State.judges, State.participates_running h.running, h.inWall, State.reads_running h.running, h.synchronised,
    hkeys, decide_eq_true h.noClash]
  rfl

theorem State.Spoiled.spoiledHere {s : State} {st : StationState} {cls : BitVec 3} {f : BusFrame}
    {reason : Option SpoilReason} (h : s.Spoiled st cls f reason) : s.spoiledHere cls f = true := by
  rw [State.spoiledHere, h.judges, h.judged]
  cases reason with
  | none => simp [h.spoiled rfl]
  | some r => rfl

/-- A frame row at which the frame is spoiled. -/
theorem State.Spoiled.exec {s : State} {st : StationState} {cls : BitVec 3} {f : BusFrame}
    {reason : Option SpoilReason} (h : s.Spoiled st cls f reason) : Sys2Proof.Machine.exec (frameCommand cls f) s =
      .next (s.endFlight.frameSpoiled (s.ownership cls f).item reason) := by
  rw [exec_frameCommand, h.endFrame]

theorem Ownership.item_eq_some {o : Ownership} {i : Item} : o.item = some i ↔ o = .own i := by
  cases o with
  | own j => exact ⟨fun h => by cases h; rfl, fun h => by cases h; rfl⟩
  | foreign | clash => exact ⟨nofun, nofun⟩

end Sys2Proof.Machine
end

section
/-! PROOFS. Spoiled frames. -/

namespace Sys2Proof.Proofs

open Sys2Proof.Machine

/-- Settles O45: a spoil below the 32nd is counted, and only that. -/
theorem spoilIsCounted : Obligations.SpoilIsCounted := by
  have hcounted : ∀ (s : State) (st : StationState) (cls : BitVec 3) (f : BusFrame) (reason : Option SpoilReason),
    s.Spoiled st cls f reason → (s.bus.consecutiveSpoils < 31 ∨ reason = none ∧ s.bus.consecutiveSpoils = 31) →
    s.ownership cls f ≠ .own .leave → s.ownership cls f ≠ .own .feed →
    exec (frameCommand cls f) s = .next { s.endFlight.driveSpoil reason with
      counters := { (s.endFlight.driveSpoil reason).counters with
        ownAttemptsSpoiled :=
          if s.ownership cls f = .foreign then s.counters.ownAttemptsSpoiled
          else rise s.counters.ownAttemptsSpoiled } } := by
    intro s st cls f reason h hbelow hleave hfeed
    rw [h.exec, State.frameSpoiled_of_below (s := s.endFlight) (fun hi => absurd (Ownership.item_eq_some.1 hi) hleave) hbelow,
      s.endFlight.driveSpoil_eq]
    have hno := h.noClash
    generalize s.ownership cls f = o at *
    cases o with
    | clash => exact absurd rfl hno
    | foreign => rfl
    | own item =>
      cases item with
      | leave => exact absurd rfl hleave
      | feed => exact absurd rfl hfeed
      | beacon | ready | join | presence => rfl
  refine ⟨fun s st cls f reason h hbelow hleave hfeed => ?_, State.judge_eq, fun s st seven f hl hw hsync hf hbelow hc => ?_⟩
  · rw [hcounted s st cls f reason h hbelow hleave hfeed, s.endFlight.driveSpoil_eq]
    rfl
  · have hforeign : ∀ cls, s.ownership cls f = .foreign := fun cls => State.ownership_foreign_iff.2 hf
    have hparse : parseMessage (if seven then 7 else 6) f.payload = none := by
      cases seven <;> rfl
    have hjudge : s.judge (if seven then 7 else 6) f = some .format := by
      rw [State.judge_eq, if_neg (not_not.2 hc), hparse]
    have hspoiled : s.Spoiled st (if seven then 7 else 6) f (some .format) :=
      ⟨hl, hw, hsync, by rw [hforeign]; nofun, hjudge, nofun⟩
    have hexec : exec (.invalidClassFrame seven f) s = exec (frameCommand (if seven then 7 else 6) f) s := by
      cases seven <;> rfl
    rw [hexec, hcounted s st _ f _ hspoiled (.inl hbelow) (by rw [hforeign]; nofun) (by rw [hforeign]; nofun), hforeign,
      if_pos rfl]
    rfl

/-- Settles O46: the attempt's outcome, then the withdrawal. -/
theorem deafStationWithdraws : Obligations.DeafStationWithdraws := by
  intro s st cls f reason h hdeaf hleave
  have hitem : (s.ownership cls f).item = some .leave → s.endFlight.bus.leaveAttempts < 3 := fun hi =>
    hleave (Ownership.item_eq_some.1 hi)
  have hexec : exec (frameCommand cls f) s = _ :=
    h.exec.trans (congrArg _ (State.frameSpoiled_of_deaf (reason := reason) hitem hdeaf))
  have hunheard : s.leftUnheardAt cls f = false := by
    by_cases ho : s.ownership cls f = .own .leave
    · have hlt := hleave ho
      rw [State.leftUnheardAt, decide_eq_false (by omega : ¬ 4 ≤ s.bus.leaveAttempts + 1), Bool.and_false]
    · rw [State.leftUnheardAt, decide_eq_false ho, Bool.and_false, Bool.false_and]
  have hat : s.deafAt cls f = true := by
    rw [State.deafAt, h.judges, h.judged, hunheard, decide_eq_true (by omega : 32 ≤ s.bus.consecutiveSpoils + 1)]
    rfl
  have hrow : exec (.deaf cls f) s = exec (frameCommand cls f) s := by
    rw [exec_frameCommand]
    exact if_pos hat
  obtain ⟨c, e, n, q, hattempt⟩ := State.attemptSpoiled_frame (s.endFlight.driveSpoil (some reason))
    (s.ownership cls f).item (some reason) (by rw [State.driveSpoil_eq]; exact hitem)
  obtain ⟨hcounters, htimer, hevents⟩ := State.withdraw_tells
    ((s.endFlight.driveSpoil (some reason)).attemptSpoiled (s.ownership cls f).item (some reason)) .deaf
  refine ⟨_, hrow.trans hexec, hexec, ?_, ?_, ?_, ?_, fun hforeign => ⟨?_, ?_⟩⟩
  · rw [hattempt, State.driveSpoil_eq]
    exact (State.withdraw_standsDown _ .deaf).of_same rfl rfl rfl rfl rfl rfl rfl rfl rfl rfl rfl rfl rfl rfl rfl rfl
  · rw [hattempt, State.driveSpoil_eq]
    simp
  · rw [htimer, hattempt, State.driveSpoil_eq]
    rfl
  · have hnumber : ((s.endFlight.driveSpoil (some reason)).attemptSpoiled (s.ownership cls f).item
        (some reason)).timer.frameNumber = s.timer.frameNumber := by
      rw [hattempt, State.driveSpoil_eq]
      rfl
    rw [hevents, EventQueue.postAll_concat, hnumber]
    exact EventQueue.post_endsWithState _ _ _ _
  · rw [hcounters, hforeign, State.driveSpoil_eq]
    simp only [Option.some.injEq]
    rfl
  · rw [hevents, hforeign, State.driveSpoil_eq]
    rfl

/-- Settles O47: the fourth spoiled attempt withdraws, an earlier one is counted. -/
theorem leaveGivenUpAtFourthSpoil : Obligations.LeaveGivenUpAtFourthSpoil := by
  intro s st f reason h hown
  have hleave : exec (.leave f) s = .next (s.endFlight.frameSpoiled (some .leave) reason) := by
    have hexec := h.exec
    rw [hown] at hexec
    exact hexec
  have hearlier : s.bus.leaveAttempts < 3 → (s.bus.consecutiveSpoils < 31 ∨ reason = none ∧ s.bus.consecutiveSpoils = 31) →
      s.endFlight.frameSpoiled (some .leave) reason = { s.endFlight.driveSpoil reason with
        bus := { (s.endFlight.driveSpoil reason).bus with leaveAttempts := s.bus.leaveAttempts + 1 }
        counters := { (s.endFlight.driveSpoil reason).counters with
          ownAttemptsSpoiled := rise s.counters.ownAttemptsSpoiled } } := fun hfew hbelow => by
    rw [State.frameSpoiled_of_below (s := s.endFlight) (fun _ => hfew) hbelow, State.driveSpoil_eq]
    have hlt : s.bus.leaveAttempts + 1 < 4 := by omega
    exact if_pos hlt
  refine ⟨fun hmany => ?_, fun hfew hnone hspoils => ?_, fun r hfew hsome hspoils => ?_⟩
  · have hgiven : (s.endFlight.driveSpoil reason).attemptSpoiled (some .leave) reason = State.withdraw
        { s.endFlight.driveSpoil reason with
          bus := { (s.endFlight.driveSpoil reason).bus with leavePending := false }
          counters := { (s.endFlight.driveSpoil reason).counters with
            ownAttemptsSpoiled := rise s.counters.ownAttemptsSpoiled } } .leftUnheard := by
      rw [State.driveSpoil_eq]
      exact if_neg (show ¬ s.bus.leaveAttempts + 1 < 4 by omega)
    have hspoiled : s.endFlight.frameSpoiled (some .leave) reason =
        (s.endFlight.driveSpoil reason).attemptSpoiled (some .leave) reason := by
      unfold State.frameSpoiled State.deafCheck
      rw [hgiven]
      refine if_neg ?_
      rw [(State.withdraw_standsDown _ .leftUnheard).interface]
      exact Nat.not_succ_le_zero 31
    have hat : s.leftUnheardAt 3 f = true := by
      rw [State.leftUnheardAt, h.spoiledHere, decide_eq_true hown,
        decide_eq_true (by omega : 4 ≤ s.bus.leaveAttempts + 1)]
      rfl
    have hrow : exec (.leftUnheard f) s = exec (.leave f) s := if_pos hat
    rw [hspoiled, hgiven] at hleave
    obtain ⟨hcounters, htimer, hevents⟩ := State.withdraw_tells
      { s.endFlight.driveSpoil reason with
        bus := { (s.endFlight.driveSpoil reason).bus with leavePending := false }
        counters := { (s.endFlight.driveSpoil reason).counters with
          ownAttemptsSpoiled := rise s.counters.ownAttemptsSpoiled } } .leftUnheard
    refine ⟨_, hrow.trans hleave, hleave, ?_, ?_, ?_, ?_, ?_⟩
    · rw [State.driveSpoil_eq]
      exact (State.withdraw_standsDown _ .leftUnheard).of_same rfl rfl rfl rfl rfl rfl rfl rfl rfl rfl rfl rfl rfl rfl
        rfl rfl
    · rw [State.driveSpoil_eq]
      simp
    · rw [htimer, State.driveSpoil_eq]
      rfl
    · rw [hcounters]
    · rw [hevents, State.driveSpoil_eq]
      rfl
  · rw [hleave, hearlier hfew (by rw [hnone]; simp; omega), hnone]
    rfl
  · rw [hleave, hearlier hfew (.inl hspoils), State.driveSpoil_eq, hsome]
    simp only [Option.some.injEq]
    rfl

/-- Settles O48: the head is dropped or its attempts rise. -/
theorem feedHeadDropped : Obligations.FeedHeadDropped := by
  intro s st cls f reason m rest h hown hqueue hbelow spoils counted
  have hrow : exec (frameCommand cls f) s = .next (State.spoilFeedHead
      { s.endFlight.driveSpoil reason with
        counters := { (s.endFlight.driveSpoil reason).counters with
          ownAttemptsSpoiled := rise s.counters.ownAttemptsSpoiled } } reason) := by
    rw [h.exec, hown]
    change Host.Outcome.next (s.endFlight.frameSpoiled (some .feed) reason) = _
    rw [State.frameSpoiled_of_below (s := s.endFlight) (item := some .feed) (fun hi => by cases hi) hbelow,
      State.driveSpoil_eq]
    rfl
  have hhead : (State.spoilFeedHead { s.endFlight.driveSpoil reason with
      counters := { (s.endFlight.driveSpoil reason).counters with
        ownAttemptsSpoiled := rise s.counters.ownAttemptsSpoiled } } reason) =
      if m.dropsAt reason then { s with
        bus := { s.bus with inFlight := none, consecutiveSpoils := spoils, feedQueue := rest }
        counters := { counted with feedDropped := rise s.counters.feedDropped }
        events := s.events.post s.timer.frameNumber (.feedDropped m.cls) }
      else { s with
        bus := { s.bus with
          inFlight := none, consecutiveSpoils := spoils
          feedQueue := { m with attempts := m.attempts + 1 } :: rest }
        counters := counted } := by
    rw [State.driveSpoil_eq]
    unfold State.spoilFeedHead
    simp only [show s.endFlight.bus.feedQueue = m :: rest from hqueue]
    rfl
  have hdrops : m.dropsAt reason = true ↔ reason = some .format ∨ 15 ≤ m.attempts := by
    simp [FeedMessage.dropsAt]
  refine ⟨fun hd => ?_, fun hne hfew => ?_⟩
  · have hd' := hdrops.2 hd
    rw [hhead, if_pos hd'] at hrow
    have hat : s.feedDroppedAt cls f = true := by
      rw [State.feedDroppedAt, h.spoiledHere, decide_eq_true hown, hqueue, h.judged]
      exact hd'
    have hexec : exec (.feedDropped cls f) s = exec (frameCommand cls f) s := by
      rw [exec_frameCommand]
      exact if_pos hat
    exact ⟨_, hexec.trans hrow, hrow, rfl⟩
  · rw [hrow, hhead, if_neg fun hd => (hdrops.1 hd).elim hne (by omega)]

end Sys2Proof.Proofs
end

section
/-! SUPPORT. BEACON and other frames in Listening (R142, R162, R166, R176); UPDATEs accepted (R45 to R61). -/

namespace Sys2Proof.Machine

/-! ### Frames in Listening -/

/-- A frame in Listening that is no clash. -/
theorem State.endFrame_listening {s : State} {cls : BitVec 3} {f : BusFrame} (hl : s.life = .running .listening)
    (hsync : s.bus.synchronised = true) (hno : s.ownership cls f ≠ .clash) :
    s.endFrame cls f = s.endFlight.listenFrame (s.ownership cls f).item cls f := by
  have hr : s.reads = true := by
    rw [State.reads_running hl, hsync]
    rfl
  unfold State.endFrame
  rw [hl]
  simp only [hr, if_true]

/-- An adoption changes the station state, the record, the interface, the timer, the events and the frame alone (R166,
R176). -/
theorem State.adopt_frame (s : State) (m : BeaconFields) : s.adopt m = { s with
    life := .running .joining
    gen := { s.gen with shown := if m.armed then m.shown + 1 else m.shown, isSealed := !m.armed && m.isSealed }
    bus := { s.bus with beaconPending := false, joinPending := true }
    timer := { s.timer with frameTimer := .running s.period, frameNumber := m.frameNumber, listeningExpiries := 0 }
    events := s.events.post m.frameNumber (.state .joining .adopted)
    scan := (s.adopt m).scan, freeCount := (s.adopt m).freeCount } := rfl

/-- A frame of another station that a station in Listening does not accept changes nothing more. -/
theorem State.listenFrame_unaccepted {s : State} {cls : BitVec 3} {f : BusFrame} (item : Option Item)
    (h : f.spoiledByOther = true ∨ s.judge cls f ≠ none ∨ ∀ m, parseMessage cls f.payload ≠ some (.beacon m)) :
    s.listenFrame item cls f = if f.spoiledByOther then s.attemptSpoiled item none else s := by
  unfold State.listenFrame
  split
  · rename_i m hj hp
    split
    · rfl
    · rename_i hs
      rcases h with h | h | h
      · exact absurd h hs
      · exact absurd hj h
      · exact absurd hp (h m)
  · rfl

/-! ### UPDATEs accepted: the filter (R46 to R48) -/

theorem localRow?_isSome (p : Straps) (row : Nat) :
    (localRow? p row).isSome = true ↔ topEdge p ≤ row ∧ row < topEdge p + 12 := by
  unfold localRow?
  split
  · rename_i h
    exact ⟨fun _ => by omega, fun _ => rfl⟩
  · rename_i h
    exact ⟨nofun, fun _ => absurd (by omega) h⟩

theorem localRow?_of_topEdge (p : Straps) (r : LocalRow) : localRow? p (topEdge p + r.val) = some r := by
  have hr := r.isLt
  unfold localRow?
  rw [dif_pos (by omega)]
  exact congrArg some (Fin.ext (by simp))

theorem regionOf_ne_right (p : Straps) (col : Nat) : regionOf p col ≠ .right ↔ col < leftEdge p + 32 := by
  unfold regionOf
  split
  · exact ⟨fun _ => by omega, fun _ => nofun⟩
  · split
    · exact ⟨fun _ => by omega, fun _ => nofun⟩
    · exact ⟨fun h => absurd rfl h, fun _ => by omega⟩

theorem filter_range_lt (n k : Nat) : (List.range n).filter (fun i => decide (i < k)) = List.range (min n k) := by
  induction n with
  | zero => simp
  | succ n ih =>
    rw [List.range_succ, List.filter_append, ih]
    by_cases h : n < k
    · rw [List.filter_cons, if_pos (decide_eq_true h), List.filter_nil, Nat.min_eq_left (Nat.le_of_lt h),
        Nat.min_eq_left h, List.range_succ]
    · rw [List.filter_cons, if_neg (by simpa using h), List.filter_nil, List.append_nil, Nat.min_eq_right (by omega),
        Nat.min_eq_right (by omega)]

/-- The targets of a RUN inside the wall are those of the RUN without its last cells (R46). -/
theorem runTargets_take (columns col : Nat) (cells : List CellRecord) (k : Nat) :
    ((cells.take (columns - (col + k))).zipIdx k).map (fun e => (col + e.2, e.1)) =
      ((cells.zipIdx k).map fun e => (col + e.2, e.1)).filter fun target => decide (target.1 < columns) := by
  induction cells generalizing k with
  | nil => simp
  | cons c cells ih =>
    by_cases h : col + k < columns
    · have hsub : columns - (col + k) = columns - (col + (k + 1)) + 1 := by omega
      rw [hsub, List.take_succ_cons, List.zipIdx_cons, List.zipIdx_cons, List.map_cons, List.map_cons,
        List.filter_cons, if_pos (decide_eq_true h), ih]
    · have hsub : columns - (col + k) = 0 := by omega
      have hsub' : columns - (col + (k + 1)) = 0 := by omega
      have hrest := ih (k + 1)
      rw [hsub', List.take_zero, List.zipIdx_nil, List.map_nil] at hrest
      rw [hsub, List.take_zero, List.zipIdx_nil, List.map_nil, List.zipIdx_cons, List.map_cons,
        List.filter_cons, if_neg (by simpa using h), ← hrest]

/-- The UPDATE inside a wall of `columns` (R46). -/
def Update.inside (columns : Nat) : Update → Update
  | .run row col cells => .run row col (cells.take (columns - col))
  | .fill row col count c => .fill row col (if columns < col + count then columns - col else count) c
  | .cell row col c => .cell row col c
  | .rowdef row d => .rowdef row d
  | .rowclear row d c => .rowclear row d c

/-- The first target of a CELL, RUN or FILL is inside a wall of `columns` (R46). -/
def Update.startsInside (columns : Nat) : Update → Prop
  | .cell _ col _ | .run _ col _ | .fill _ col _ _ => col < columns
  | .rowdef _ _ | .rowclear _ _ _ => True

/-- Where the first target is outside the wall, every target is. -/
theorem Update.outside_of_not_startsInside {columns : Nat} {u : Update} (h : ¬ u.startsInside columns) :
    u.setsDefault = false ∧ ∀ target ∈ u.targets columns, ¬ target.1 < columns := by
  cases u with
  | rowdef row d => exact absurd trivial h
  | rowclear row d c => exact absurd trivial h
  | cell row col c =>
    refine ⟨rfl, fun target ht => ?_⟩
    rw [List.mem_singleton.1 ht]
    exact h
  | run row col cells =>
    refine ⟨rfl, fun target ht hlt => h ?_⟩
    obtain ⟨e, -, rfl⟩ := List.mem_map.1 ht
    exact Nat.lt_of_le_of_lt (Nat.le_add_right _ _) hlt
  | fill row col count c =>
    refine ⟨rfl, fun target ht hlt => h ?_⟩
    obtain ⟨k, -, rfl⟩ := List.mem_map.1 ht
    exact Nat.lt_of_le_of_lt (Nat.le_add_right _ _) hlt

theorem Update.targets_inside {columns : Nat} {u : Update} (h : u.startsInside columns) : (u.inside columns).targets columns =
      (u.targets columns).filter fun target => decide (target.1 < columns) := by
  cases u with
  | cell row col c =>
    change _ = [(col, c)].filter _
    rw [List.filter_cons, if_pos (decide_eq_true (show col < columns from h))]
    rfl
  | run row col cells => exact runTargets_take columns col cells 0
  | fill row col count c =>
    have hcount : (if columns < col + count then columns - col else count) = min count (columns - col) := by
      split <;> omega
    change (List.range _).map _ = ((List.range count).map _).filter _
    rw [hcount, ← filter_range_lt, List.filter_map]
    refine congrArg _ (List.filter_congr fun k _ => decide_eq_decide.2 ?_)
    change k < columns - col ↔ col + k < columns
    omega
  | rowdef row d => rfl
  | rowclear row d c =>
    refine (List.filter_eq_self.2 fun target ht => ?_).symm
    obtain ⟨k, hk, rfl⟩ := List.mem_map.1 ht
    exact decide_eq_true (List.mem_range.1 hk)

theorem Update.inside_keeps (columns : Nat) (u : Update) :
    (u.inside columns).row = u.row ∧ (u.inside columns).setsDefault = u.setsDefault := by
  cases u <;> exact ⟨rfl, rfl⟩

/-- The clip: what is inside the wall, when the row is and the first target is or the UPDATE sets a default (R46). -/
theorem Update.clip_eq (columns rows : Nat) (u : Update) : u.clip columns rows = some (u.inside columns) ∧
    u.row < rows ∧ u.startsInside columns ∨
    u.clip columns rows = none ∧ ¬ (u.row < rows ∧ u.startsInside columns) := by
  have hmin : ∀ count col, min count (columns - col) = if columns < col + count then columns - col else count := by
    intro count col
    split <;> omega
  unfold Update.clip
  by_cases hrow : u.row < rows
  · rw [if_pos hrow]
    cases u with
    | rowdef row d => exact .inl ⟨rfl, hrow, trivial⟩
    | rowclear row d c => exact .inl ⟨rfl, hrow, trivial⟩
    | cell row col c =>
      by_cases hcol : col < columns
      · exact .inl ⟨if_pos hcol, hrow, hcol⟩
      · exact .inr ⟨if_neg hcol, fun h => hcol h.2⟩
    | run row col cells =>
      by_cases hcol : col < columns
      · exact .inl ⟨if_pos hcol, hrow, hcol⟩
      · exact .inr ⟨if_neg hcol, fun h => hcol h.2⟩
    | fill row col count c =>
      by_cases hcol : col < columns
      · exact .inl ⟨(if_pos hcol).trans (by rw [hmin]; rfl), hrow, hcol⟩
      · exact .inr ⟨if_neg hcol, fun h => hcol h.2⟩
  · exact .inr ⟨if_neg hrow, fun h => hrow h.1⟩

/-- The filter on an UPDATE inside the wall (R48). -/
theorem Update.queuedAt_iff (p : Straps) (columns : Nat) (v : Update) : v.queuedAt p columns = true ↔
    topEdge p ≤ v.row ∧ v.row < topEdge p + 12 ∧
      (v.setsDefault = true ∨ ∃ target ∈ v.targets columns, target.1 < leftEdge p + 32) := by
  unfold Update.queuedAt
  rw [Bool.and_eq_true, localRow?_isSome, Bool.or_eq_true, List.any_eq_true, and_assoc]
  simp only [decide_eq_true_eq, regionOf_ne_right]

/-- What the filter queues is the UPDATE inside the wall (R46, R48). -/
theorem State.filtered_eq_some_iff {s : State} {u v : Update} : s.filtered u = some v ↔ v = u.inside s.wallColumns ∧
    u.row < s.wallRows ∧ u.startsInside s.wallColumns ∧ v.queuedAt s.straps s.wallColumns = true := by
  unfold State.filtered
  rcases u.clip_eq s.wallColumns s.wallRows with ⟨hclip, hrow, hstarts⟩ | ⟨hclip, hnot⟩
  · rw [hclip]
    dsimp only
    rw [Option.ite_none_right_eq_some, Option.some_inj]
    exact ⟨fun h => ⟨h.2.symm, hrow, hstarts, h.2 ▸ h.1⟩, fun h => ⟨h.1 ▸ h.2.2.2, h.1.symm⟩⟩
  · rw [hclip]
    exact ⟨nofun, fun h => absurd ⟨h.2.1, h.2.2.1⟩ hnot⟩

/-! ### UPDATEs accepted: the engine (R54, R55, R58, R61) -/

/-- The engine does not take up a queue whose head is a Next entry, nor one that is empty. -/
theorem State.takeHeads_of_next {s : State} (hidle : s.applyEngine = .idle)
    (h : ∀ e rest, s.updateQueue = e :: rest → e.epoch = .next) : s.takeHeads s.updateQueue = s := by
  cases hq : s.updateQueue with
  | nil =>
    unfold State.takeHeads
    rw [← hq, ← hidle]
  | cons e rest =>
    unfold State.takeHeads
    rw [if_neg (by rw [h e rest hq]; exact nofun), ← hq, ← hidle]

/-- The condition of R55 does not hold, or the head waits for the flip. -/
theorem State.resumeApply_of_waiting {s : State} (h : s.applyEngine ≠ .idle ∨ s.catchUp ≠ .idle ∨
    s.applyEngine = .idle ∧ ∀ e rest, s.updateQueue = e :: rest → e.epoch = .next) : s.resumeApply = s := by
  unfold State.resumeApply
  split
  · rename_i hc
    simp only [Bool.and_eq_true, decide_eq_true_eq] at hc
    obtain ⟨⟨-, hengine⟩, hcatchUp⟩ := hc
    rcases h with h | h | ⟨-, h⟩
    · exact absurd hengine h
    · exact absurd hcatchUp h
    · exact State.takeHeads_of_next hengine h
  · rfl

theorem State.resumeApply_of_ready {s : State} (hp : s.participates = true) (hengine : s.applyEngine = .idle)
    (hcatchUp : s.catchUp = .idle) : s.resumeApply = s.takeHeads s.updateQueue :=
  if_pos (by simp [hp, hengine, hcatchUp])

/-- A grant with no request waiting, or with an access in progress, changes nothing (R130). -/
theorem State.grant_of_settled {s : State} (h : (s.arbiter.rowFetch.isSome || s.arbiter.feedRead.isSome
    || s.arbiter.apply.isSome || s.arbiter.catchUp.isSome) = true → s.arbiter.access.isSome = true) : s.grant = s := by
  have harbiter : s.arbiter.grant s.shown s.scanFirst = s.arbiter := by
    unfold Arbiter.grant
    split
    · rfl
    · rename_i ha
      have hnone : ∀ r, (s.arbiter.waiting r).isSome = false := fun r => by
        cases hr : (s.arbiter.waiting r).isSome with
        | false => rfl
        | true =>
          have hr' : (s.arbiter.waiting r).isSome = true := hr
          refine absurd (h ?_) ha
          simp only [Bool.or_eq_true]
          cases r with
          | rowFetch => exact .inl (.inl (.inl hr'))
          | feedRead => exact .inl (.inl (.inr hr'))
          | apply => exact .inl (.inr hr')
          | catchUp => exact .inr hr'
      rw [List.find?_eq_none.2 fun r _ => by rw [hnone r]; exact Bool.false_ne_true]
  unfold State.grant
  rw [harbiter]

/-- A row default step writes the building set alone (R60, R68). -/
theorem State.setBuildingDefault_eq (s : State) (r : LocalRow) (d : ZoneRecord) : s.setBuildingDefault r d = { s with
    defaultsX := if s.shown = .x then s.defaultsX else s.defaultsX.set r d
    defaultsY := if s.shown = .x then s.defaultsY.set r d else s.defaultsY } := by
  unfold State.setBuildingDefault
  cases hs : s.shown with
  | x => simp only [if_true]
  | y => simp only [reduceCtorEq, if_false]

/-- The grant to apply, with nothing else waiting (R131). -/
theorem Arbiter.grant_apply_alone (q : Request) (shown : BufferName) (scanFirst : Bool) :
    Arbiter.grant ⟨none, none, some q, none, none⟩ shown scanFirst =
      ⟨none, none, none, none, some ⟨.apply, shown.ofRole q.role, q.pos, q.write, false, false⟩⟩ := by
  cases scanFirst <;> rfl

/-- READY is not owed while B is unsealed (R13). -/
theorem State.evaluateReady_of_unsealed {s : State} (h : s.gen.isSealed = false) : s.evaluateReady = s :=
  State.evaluateReady_of_not_condition (by simp [State.readyCondition, h])

/-- An UPDATE queued: the station with the entry at the tail, and what the engine, READY and the arbiter make of it. -/
theorem exec_update_queued {s : State} {st : StationState} {f : BusFrame} {u v : Update}
    (h : s.Accepts st 4 f (.update u)) (hv : s.filtered u = some v) : exec (.update f) s =
      .next (State.resumeApply { s.afterShare 4 f with
        updateQueue := s.updateQueue ++ [s.newEntry v] }).evaluateReady.grant := by
  change Host.Outcome.next (s.endFrame 4 f) = _
  rw [h.endFrame]
  change Host.Outcome.next ((s.afterShare 4 f).acceptUpdate u) = _
  unfold State.acceptUpdate
  rw [show (s.afterShare 4 f).filtered u = some v from hv]
  rfl

end Sys2Proof.Machine
end

section
/-! PROOFS. Frames in Listening and UPDATEs. -/

namespace Sys2Proof.Proofs

open Sys2Proof.Machine

/-- Settles O36: an accepted BEACON is adopted, any other frame of another station changes nothing. -/
theorem beaconAdoptedInListening : Obligations.BeaconAdoptedInListening := by
  refine ⟨fun s f m hl hsync hno hflight hcheck hparse hunspoiled => ?_, fun s cls f hl hsync hsender hunaccepted => ?_,
    fun s f hl hsync hown => ⟨fun hspoiled => ?_, fun hunspoiled hjudge => ?_⟩⟩
  · have hjudge : s.endFlight.judge 0 f = none := by
      rw [State.judge_endFlight, State.judge_eq, if_neg (not_not.2 hcheck), hparse]
    have hend : s.endFrame 0 f = (s.endFlight.frameAccepted (s.ownership 0 f).item).adopt m := by
      rw [State.endFrame_listening hl hsync hno]
      unfold State.listenFrame
      simp only [hjudge, hparse, hunspoiled]
      rfl
    refine ⟨s.endFrame 0 f, rfl, ?_, ?_⟩ <;> rw [hend]
    · rw [State.adopt_frame]
      have hitem : (s.ownership 0 f).item = none ∧ f.sender ≠ s.station ∨
          (s.ownership 0 f).item = some .beacon ∧ f.sender = s.station := by
        cases ho : s.ownership 0 f with
        | clash => exact absurd ho hno
        | foreign => exact .inl ⟨rfl, State.ownership_foreign_iff.1 ho⟩
        | own item =>
          obtain ⟨hsender, sent, hsent, hitem, -⟩ := State.ownership_own ho
          exact .inr ⟨congrArg some (hitem.symm.trans (hflight sent hsent)), hsender⟩
      rcases hitem with ⟨hitem, hsender⟩ | ⟨hitem, hsender⟩
      · rw [hitem, if_neg hsender]
        rfl
      · rw [hitem, if_pos hsender]
        rfl
    · rw [State.adopt_scan]
      rfl
  · have hforeign := (State.ownership_foreign_iff (cls := cls)).2 hsender
    rw [exec_frameCommand, State.endFrame_listening hl hsync (by rw [hforeign]; nofun), hforeign,
      State.listenFrame_unaccepted (s := s.endFlight) _ hunaccepted]
    split <;> rfl
  · change Host.Outcome.next (s.endFrame 0 f) = _
    rw [State.endFrame_listening hl hsync (by rw [hown]; nofun), hown,
      State.listenFrame_unaccepted (s := s.endFlight) _ (.inl hspoiled), if_pos hspoiled]
    rfl
  · change Host.Outcome.next (s.endFrame 0 f) = _
    rw [State.endFrame_listening hl hsync (by rw [hown]; nofun), hown,
      State.listenFrame_unaccepted (s := s.endFlight) _ (.inr (.inl hjudge)),
      if_neg (by rw [hunspoiled]; exact Bool.false_ne_true)]
    rfl

/-- Settles O32: the entry waits at the tail, or the UPDATE is counted as passed. -/
theorem updateQueuedOrPassed : Obligations.UpdateQueuedOrPassed := by
  refine ⟨fun s st f u v hformed hready hacc hv hbusy => ?_, fun s st f u hacc hv => ?_⟩
  · obtain ⟨t, ht⟩ : ∃ t, t = { s.afterShare 4 f with updateQueue := s.updateQueue ++ [s.newEntry v] } := ⟨_, rfl⟩
    have hresume : t.resumeApply = t := by
      refine State.resumeApply_of_waiting ?_
      rcases hbusy with h | h | ⟨hsealed, hwork⟩
      · exact .inl (by rw [ht]; exact h)
      · exact .inr (.inl (by rw [ht]; exact h))
      · rw [State.currentWork, Bool.or_eq_false_iff] at hwork
        obtain ⟨hqueue, hengine⟩ := hwork
        refine .inr (.inr ⟨by rw [ht]; exact not_not.1 (of_decide_eq_false hengine), fun e rest he => ?_⟩)
        rw [ht] at he
        have hmem : e ∈ s.updateQueue ++ [s.newEntry v] := by
          rw [show s.updateQueue ++ [s.newEntry v] = e :: rest from he]
          exact List.mem_cons_self
        rcases List.mem_append.1 hmem with hin | hin
        · have hne := List.any_eq_false.1 hqueue e hin
          cases hepoch : e.epoch with
          | next => rfl
          | current => exact absurd (decide_eq_true hepoch) hne
        · rw [List.mem_singleton.1 hin]
          exact if_pos hsealed
    have hnot : t.evaluateReady = t := by
      refine State.evaluateReady_of_not_condition fun hc => ?_
      have hrun : t.life = .running st := by rw [ht]; exact hacc.running
      obtain ⟨hst, hreq, hsealed, hwork, hcatchUp, hannounced⟩ := (State.readyCondition_iff hrun).1 hc
      rw [ht] at hsealed hwork hcatchUp hannounced
      have hrequired : (s.afterShare 4 f).requirementSet[s.station] = true := by
        rw [ht] at hreq
        exact hreq
      rw [show (s.afterShare 4 f).requirementSet = s.requirementSet from s.afterShare_requirementSet 4 f s.gen]
        at hrequired
      have hbefore : s.currentWork = false := by
        rw [State.currentWork, Bool.or_eq_false_iff, List.any_append, Bool.or_eq_false_iff] at hwork
        exact Bool.or_eq_false_iff.2 ⟨hwork.1.1, hwork.2⟩
      have hc' := (State.readyCondition_iff hacc.running).2 ⟨hst, hrequired, hsealed, hbefore, hcatchUp, hannounced⟩
      rw [hready] at hc'
      cases hc'
    have hgrant : t.grant = t := State.grant_of_settled (by rw [ht]; exact hformed.waiting)
    rw [exec_update_queued hacc hv, ← ht, hresume, hnot, hgrant, ht]
    rfl
  · change Host.Outcome.next (s.endFrame 4 f) = _
    rw [hacc.endFrame]
    change Host.Outcome.next ((s.afterShare 4 f).acceptUpdate u) = _
    unfold State.acceptUpdate
    rw [show (s.afterShare 4 f).filtered u = none from hv]
    rfl

/-- Settles O33: an idle engine takes the entry as it joins the empty queue. -/
theorem updateTakenAtOnce : Obligations.UpdateTakenAtOnce := by
  refine ⟨fun s st f u v p cell more hacc hv hqueue hengine hcatchUp hsealed harbiter hsteps => ?_,
    fun s st f wallRow d r hacc hrow hlt hqueue hengine hcatchUp hsealed harbiter => ?_⟩
  · have hp : (s.afterShare 4 f).participates = true := (State.participates_running hacc.running).trans hacc.inWall
    have hentry : s.newEntry v = ⟨.current, v⟩ := by
      rw [State.newEntry, hsealed]
      rfl
    obtain ⟨t, ht⟩ : ∃ t, t = { s.afterShare 4 f with updateQueue := s.updateQueue ++ [s.newEntry v] } := ⟨_, rfl⟩
    have hresume : t.resumeApply = { s.afterShare 4 f with
        updateQueue := [⟨.current, v⟩], applyEngine := .applying 0
        arbiter := s.arbiter.issue .apply ⟨p, .building, some cell⟩ } := by
      rw [State.resumeApply_of_ready (by rw [ht]; exact hp) (by rw [ht]; exact hengine) (by rw [ht]; exact hcatchUp)]
      have hq : t.updateQueue = [⟨.current, v⟩] := by rw [ht, hqueue, hentry]; rfl
      have hs : v.steps t.straps t.wallColumns = .tile p cell :: more := by rw [ht]; exact hsteps
      rw [hq, State.takeHeads, if_pos rfl, hs, ht]
      rfl
    have hnot : t.resumeApply.evaluateReady = t.resumeApply :=
      State.evaluateReady_of_unsealed (by rw [hresume]; exact hsealed)
    rw [exec_update_queued hacc hv, ← ht, hnot, hresume, harbiter]
    refine congrArg Host.Outcome.next ?_
    unfold State.grant
    exact congrArg (fun a => { s.afterShare 4 f with
      updateQueue := [⟨.current, v⟩], applyEngine := .applying 0, arbiter := a })
      (Arbiter.grant_apply_alone ⟨p, .building, some cell⟩ s.shown s.scanFirst)
  · have hv : s.filtered (.rowdef wallRow d) = some (.rowdef wallRow d) :=
      State.filtered_eq_some_iff.2 ⟨rfl, hlt, trivial, (Update.queuedAt_iff _ _ _).2 (by
        have hr := r.isLt
        exact ⟨by change _ ≤ wallRow; omega, by change wallRow < _; omega, .inl rfl⟩)⟩
    have hp : (s.afterShare 4 f).participates = true := (State.participates_running hacc.running).trans hacc.inWall
    have hentry : s.newEntry (.rowdef wallRow d) = ⟨.current, .rowdef wallRow d⟩ := by
      rw [State.newEntry, hsealed]
      rfl
    obtain ⟨t, ht⟩ : ∃ t, t = { s.afterShare 4 f with
      updateQueue := s.updateQueue ++ [s.newEntry (.rowdef wallRow d)] } := ⟨_, rfl⟩
    have hresume : t.resumeApply = { t.setBuildingDefault r d with updateQueue := [], applyEngine := .idle } := by
      rw [State.resumeApply_of_ready (by rw [ht]; exact hp) (by rw [ht]; exact hengine) (by rw [ht]; exact hcatchUp)]
      have hq : t.updateQueue = [⟨.current, .rowdef wallRow d⟩] := by rw [ht, hqueue, hentry]; rfl
      have hs : (Update.rowdef wallRow d).steps t.straps t.wallColumns = [.rowDefault r d] := by
        rw [ht, hrow]
        unfold Update.steps
        rw [show localRow? _ (Update.row _) = some r from localRow?_of_topEdge s.straps r]
        rfl
      rw [hq, State.takeHeads, if_pos rfl, hs]
      rfl
    rw [State.setBuildingDefault_eq] at hresume
    have hnot : t.resumeApply.evaluateReady = t.resumeApply :=
      State.evaluateReady_of_unsealed (by rw [hresume, ht]; exact hsealed)
    have hgrant : t.resumeApply.grant = t.resumeApply := State.grant_of_settled (by
      rw [hresume, ht]
      change (s.arbiter.rowFetch.isSome || s.arbiter.feedRead.isSome || s.arbiter.apply.isSome
        || s.arbiter.catchUp.isSome) = true → _
      rw [harbiter]
      exact fun h => absurd h (by decide))
    have hresult : t.resumeApply = { s.afterShare 4 f with
        defaultsX := if s.shown = .x then s.defaultsX else s.defaultsX.set r d
        defaultsY := if s.shown = .x then s.defaultsY.set r d else s.defaultsY } := by
      rw [hresume, ht, ← hqueue, ← hengine]
      rfl
    have hexec := exec_update_queued hacc hv
    rw [← ht, hnot, hgrant, hresult] at hexec
    refine ⟨_, hexec, rfl, ?_, fun k => ⟨fun hx => ?_, fun hy => ?_⟩⟩
    · have hshown : (s.afterShare 4 f).shown = s.shown := rfl
      cases hs : s.shown with
      | x => simp only [State.shownDefaults, hshown, hs, if_true]
      | y => simp only [State.shownDefaults, hshown, hs, reduceCtorEq, if_false]
    · simp only [hx, if_true]
      rw [getFin_set]
      simp only [eq_comm]
    · simp only [hy, reduceCtorEq, if_false]
      rw [getFin_set]
      simp only [eq_comm]

/-- Settles O34: the filter is the clip, then a test of the targets that are left. -/
theorem filterQueuesByRegion : Obligations.FilterQueuesByRegion := by
  refine ⟨fun s u => ?_, fun s u v h => ?_⟩
  · constructor
    · intro h
      obtain ⟨v, hv⟩ := Option.isSome_iff_exists.1 h
      obtain ⟨rfl, hrow, hstarts, hqueued⟩ := State.filtered_eq_some_iff.1 hv
      obtain ⟨htop, hbottom, htargets⟩ := (Update.queuedAt_iff _ _ _).1 hqueued
      rw [(u.inside_keeps _).1] at htop hbottom
      rw [(u.inside_keeps _).2, Update.targets_inside hstarts] at htargets
      refine ⟨hrow, htop, hbottom, htargets.imp_right ?_⟩
      rintro ⟨target, hmem, hleft⟩
      obtain ⟨hmem, hin⟩ := List.mem_filter.1 hmem
      exact ⟨target, hmem, of_decide_eq_true hin, hleft⟩
    · rintro ⟨hrow, htop, hbottom, htargets⟩
      have hstarts : u.startsInside s.wallColumns := by
        by_contra hnot
        obtain ⟨hdefault, houtside⟩ := Update.outside_of_not_startsInside hnot
        rcases htargets with hd | ⟨target, hmem, hin, -⟩
        · rw [hdefault] at hd
          cases hd
        · exact houtside target hmem hin
      refine Option.isSome_iff_exists.2 ⟨_, State.filtered_eq_some_iff.2 ⟨rfl, hrow, hstarts,
        (Update.queuedAt_iff _ _ _).2 ⟨?_, ?_, ?_⟩⟩⟩
      · rw [(u.inside_keeps _).1]; exact htop
      · rw [(u.inside_keeps _).1]; exact hbottom
      · rw [(u.inside_keeps _).2, Update.targets_inside hstarts]
        refine htargets.imp_right ?_
        rintro ⟨target, hmem, hin, hleft⟩
        exact ⟨target, List.mem_filter.2 ⟨hmem, decide_eq_true hin⟩, hleft⟩
  · obtain ⟨rfl, hrow, hstarts, hqueued⟩ := State.filtered_eq_some_iff.1 h
    refine ⟨(u.inside_keeps _).1, Update.targets_inside hstarts, ?_⟩
    cases u <;> rfl

end Sys2Proof.Proofs
end

section
/-! SUPPORT. Page memory: completed accesses (R130, R136, R137), what the apply engine changes (R55 to R61), and
catch-up (R74 to R77). -/

namespace Sys2Proof.Machine

/-! ### Completed accesses (R130, R137) -/

theorem State.completes.accessOf {s : State} {r : Requester} {acc : Access} {w : Option CellRecord}
    (h : s.completes r acc w) : s.accessOf r w.isSome = some acc := by
  obtain ⟨hp, hacc, hreq, hwrite⟩ := h
  exact State.accessOf_eq_some.2 ⟨hacc, hp, hreq, by rw [hwrite]⟩

/-- A completed access touches page memory and ends the access in progress. -/
theorem State.finishAccess_frame (s : State) (acc : Access) : ∃ x y, s.finishAccess acc =
    { s with bufferX := x, bufferY := y, arbiter := { s.arbiter with access := none } } := by
  unfold State.finishAccess State.writeCell
  cases acc.write with
  | none => exact ⟨s.bufferX, s.bufferY, rfl⟩
  | some c =>
    cases acc.blanked with
    | true => exact ⟨s.bufferX, s.bufferY, rfl⟩
    | false =>
      cases acc.buffer with
      | x => exact ⟨_, s.bufferY, rfl⟩
      | y => exact ⟨s.bufferX, _, rfl⟩

/-- A read, and a write that a blanking stands over, leave page memory as it is. -/
theorem State.finishAccess_silent {s : State} {acc : Access} (h : acc.write = none ∨ acc.blanked = true) :
    s.finishAccess acc = { s with arbiter := { s.arbiter with access := none } } := by
  unfold State.finishAccess
  rcases h with h | h
  · rw [h]
  · split
    · rw [if_pos h]
    · rfl

/-- A write with no blanking over it leaves its record in the granted buffer and in no other place. -/
theorem State.finishAccess_written {s : State} {acc : Access} {c : CellRecord} (hwf : s.MemoriesCanonical)
    (hw : acc.write = some c) (hb : acc.blanked = false) (b : BufferName) (p : Pos) :
    (s.finishAccess acc).readCell b p = if b = acc.buffer ∧ p = acc.pos then c else s.readCell b p := by
  unfold State.finishAccess
  rw [hw]
  dsimp only
  rw [if_neg (by rw [hb]; exact Bool.false_ne_true)]
  exact State.readCell_writeCell { s with arbiter := { s.arbiter with access := none } } acc.buffer b acc.pos p c hwf.x
    hwf.y

theorem State.readCell_congr {s t : State} (x : t.bufferX = s.bufferX) (y : t.bufferY = s.bufferY) (b : BufferName)
    (p : Pos) : t.readCell b p = s.readCell b p := by
  cases b with
  | x => exact congrArg (fun m => Memory.read blankCell m p.address) x
  | y => exact congrArg (fun m => Memory.read blankCell m p.address) y

theorem State.grant_asks_issued {s : State} {a : Arbiter} {r : Requester} {q : Request}
    (h : s.arbiter = a.issue r q) : s.grant.asks r q :=
  State.grant_asks (by rw [h, Arbiter.waiting_issue])

/-- A grant makes no request wait (R130). -/
theorem Arbiter.grant_waiting_none {a : Arbiter} {r : Requester} (h : a.waiting r = none) (shown : BufferName)
    (scanFirst : Bool) : (a.grant shown scanFirst).waiting r = none := by
  unfold Arbiter.grant
  split
  · exact h
  · split
    · exact h
    · rename_i r' _
      unfold Arbiter.grantTo
      split
      · exact h
      · cases r <;> cases r' <;> first | exact h | rfl

/-! ### What the apply engine changes (R55 to R61, R68) -/

/-- `t` is `s` after work of the apply engine: the queue, the engine, the building defaults, the left-zone table and the
requests are all it touches. -/
def State.Works (s t : State) : Prop :=
  (∃ q e dx dy l a, t = { s with
    updateQueue := q, applyEngine := e, defaultsX := dx, defaultsY := dy, leftTable := l, arbiter := a }) ∧
  t.shownDefaults = s.shownDefaults

namespace State.Works

theorem refl (s : State) : s.Works s := ⟨⟨_, _, _, _, _, _, rfl⟩, rfl⟩

theorem trans {s t u : State} (h1 : s.Works t) (h2 : t.Works u) : s.Works u := by
  obtain ⟨⟨_, _, _, _, _, _, rfl⟩, hd1⟩ := h1
  obtain ⟨⟨_, _, _, _, _, _, rfl⟩, hd2⟩ := h2
  exact ⟨⟨_, _, _, _, _, _, rfl⟩, hd2.trans hd1⟩

/-- The queue, the engine and the requests are no defaults. -/
theorem queue (s : State) (q : List UpdateEntry) (e : ApplyEngine) (a : Arbiter) :
    s.Works { s with updateQueue := q, applyEngine := e, arbiter := a } := ⟨⟨_, _, _, _, _, _, rfl⟩, rfl⟩

theorem doStep (s : State) (st : ApplyStep) : s.Works (s.doStep st) := by
  cases st with
  | tile p c => exact refl s
  | right => exact refl s
  | left r col c => exact ⟨⟨_, _, _, _, _, _, rfl⟩, rfl⟩
  | leftClear r => exact ⟨⟨_, _, _, _, _, _, rfl⟩, rfl⟩
  | rowDefault r d =>
    change s.Works (s.setBuildingDefault r d)
    rw [State.setBuildingDefault_eq]
    refine ⟨⟨_, _, _, _, _, _, rfl⟩, ?_⟩
    cases hs : s.shown with
    | x => simp only [State.shownDefaults, hs, if_true]
    | y => simp only [State.shownDefaults, hs, reduceCtorEq, if_false]

theorem runSteps (s : State) (l : List ApplyStep) (n : Nat) : s.Works (s.runSteps l n).1 := by
  induction l generalizing s n with
  | nil => exact refl s
  | cons st rest ih =>
    cases st with
    | tile p c => exact queue s s.updateQueue s.applyEngine _
    | left r col c => exact (doStep s (.left r col c)).trans (ih _ _)
    | right => exact ih _ _
    | rowDefault r d => exact (doStep s (.rowDefault r d)).trans (ih _ _)
    | leftClear r => exact (doStep s (.leftClear r)).trans (ih _ _)

theorem takeHeads (s : State) (q : List UpdateEntry) : s.Works (s.takeHeads q) := by
  induction q generalizing s with
  | nil => exact queue s [] .idle s.arbiter
  | cons e rest ih =>
    have hrun := runSteps s (e.update.steps s.straps s.wallColumns) 0
    unfold State.takeHeads
    split
    · split
      · rename_i t ht
        rw [ht] at hrun
        exact hrun.trans (ih t)
      · rename_i t n ht
        rw [ht] at hrun
        exact hrun.trans (queue t _ _ t.arbiter)
    · exact queue s _ _ s.arbiter

theorem resumeApply (s : State) : s.Works s.resumeApply := by
  rcases s.resumeApply_applies with h | ⟨-, -, -, h⟩ <;> rw [h]
  · exact refl s
  · exact takeHeads s _

theorem continueEntry (s : State) (n : Nat) : s.Works (s.continueEntry n) := by
  unfold State.continueEntry
  split
  · exact queue s s.updateQueue .idle s.arbiter
  · rename_i e rest hq
    have hrun := runSteps s ((e.update.steps s.straps s.wallColumns).drop (n + 1)) (n + 1)
    split
    · rename_i t ht
      rw [ht] at hrun
      exact (hrun.trans (queue t rest .idle t.arbiter)).trans (resumeApply _)
    · rename_i t k ht
      rw [ht] at hrun
      exact hrun.trans (queue t _ _ t.arbiter)

end State.Works

/-- The engine at a write that follows the completed one at once (R58). -/
theorem State.continueEntry_next {s : State} {n : Nat} {e : UpdateEntry} {rest : List UpdateEntry} {p : Pos}
    {d : CellRecord} {more : List ApplyStep} (hq : s.updateQueue = e :: rest)
    (h : (e.update.steps s.straps s.wallColumns).drop (n + 1) = .tile p d :: more) : s.continueEntry n = { s with
      arbiter := s.arbiter.issue .apply ⟨p, .building, some d⟩, updateQueue := e :: rest
      applyEngine := .applying (n + 1) } := by
  unfold State.continueEntry
  rw [hq]
  dsimp only
  rw [h]
  rfl

/-- The last entry completes: the queue is empty and the engine idle (R61). -/
theorem State.continueEntry_last {s : State} {n : Nat} {e : UpdateEntry} (hq : s.updateQueue = [e])
    (h : (e.update.steps s.straps s.wallColumns).drop (n + 1) = []) :
    s.continueEntry n = { s with updateQueue := [], applyEngine := .idle } := by
  unfold State.continueEntry
  rw [hq]
  dsimp only
  rw [h]
  exact State.resumeApply_of_no_work (s := { s with updateQueue := [], applyEngine := .idle }) rfl

/-- READY evaluated touches no queue, no engine and no request. -/
theorem State.evaluateReady_grant_asks {s : State} {r : Requester} {q : Request}
    (h : s.arbiter.waiting r = some q) : s.evaluateReady.grant.asks r q := by
  refine State.grant_asks ?_
  rw [State.evaluateReady_frame]
  exact h

/-- READY evaluated and a grant made after work of the engine. -/
theorem State.Works.concluded {s t : State} (h : s.Works t) : t.evaluateReady.grant.shownDefaults = s.shownDefaults ∧
    ∃ n r q e dx dy l a, t.evaluateReady.grant = { s with
      gen := { s.gen with announced := n }, bus := { s.bus with readyPending := r }, updateQueue := q, applyEngine := e
      defaultsX := dx, defaultsY := dy, leftTable := l, arbiter := a } := by
  obtain ⟨⟨q, e, dx, dy, l, a, rfl⟩, hd⟩ := h
  unfold State.evaluateReady
  split
  · exact ⟨hd, _, _, _, _, _, _, _, _, rfl⟩
  · exact ⟨hd, s.gen.announced, s.bus.readyPending, _, _, _, _, _, _, rfl⟩

/-! ### Catch-up (R74 to R77) -/

theorem Pos.succ?_of_address {p q : Pos} (h : q.address = p.address + 1) : p.succ? = some q := by
  obtain ⟨⟨r, hr⟩, ⟨c, hc⟩⟩ := p
  obtain ⟨⟨r', hr'⟩, ⟨c', hc'⟩⟩ := q
  simp only [Pos.address] at h
  unfold Pos.succ?
  split
  · rename_i hcol
    have h1 : r' = r := by simp only at hcol; omega
    have h2 : c' = c + 1 := by simp only at hcol; omega
    subst h1 h2
    rfl
  · rename_i hcol
    have h1 : r' = r + 1 := by simp only at hcol; omega
    have h2 : c' = 0 := by simp only at hcol; omega
    subst h1 h2
    exact dif_pos hr'

/-- Catch-up at its next position: its read is requested, and nothing else follows (R76). -/
theorem State.requestCopy_goes_on {s : State} {c : CatchUp} {q : Pos} (h : c.position = some q) :
    (s.requestCopy c).resumeApply.evaluateReady =
      { s with catchUp := c, arbiter := s.arbiter.issue .catchUp ⟨q, .shown, none⟩ } := by
  have hne : c ≠ .idle := fun hc => by rw [hc] at h; cases h
  have hrequest : s.requestCopy c =
      { s with catchUp := c, arbiter := s.arbiter.issue .catchUp ⟨q, .shown, none⟩ } := by
    unfold State.requestCopy
    rw [h]
  rw [hrequest, State.resumeApply_of_waiting (.inr (.inl hne)),
    State.evaluateReady_of_not_condition (by simp [State.readyCondition, hne])]

/-- READY evaluated leaves none owed (R13). -/
theorem State.readyCondition_evaluated (s : State) : s.evaluateReady.readyCondition = false := by
  by_cases h : s.readyCondition = true
  · rw [State.evaluateReady, if_pos h]
    simp [State.readyCondition]
  · rw [State.evaluateReady_of_not_condition h]
    exact Bool.eq_false_iff.2 h

theorem State.grant_readyCondition (s : State) : s.grant.readyCondition = s.readyCondition := rfl

end Sys2Proof.Machine
end

section
/-! PROOFS. Completed page memory accesses. -/

namespace Sys2Proof.Proofs

open Sys2Proof.Machine

/-- Settles O49: the record is written, then the engine goes on, unless it was given up. -/
theorem tileStepWritesCell : Obligations.TileStepWritesCell := by
  intro s acc c hwf hdone
  have hexec : exec .tileStep s = .next (s.tileStep acc) := by
    change execTileStep s = _
    rw [execTileStep, show s.accessOf .apply true = some acc from hdone.accessOf]
  obtain ⟨hp, hacc, hreq, hwrite⟩ := hdone
  obtain ⟨x, y, hfinish⟩ := s.finishAccess_frame acc
  refine ⟨fun n hab hbl hengine => ?_, fun hab => ?_⟩
  · have hstep : s.tileStep acc = (((s.tileWritten acc).continueEntry n).evaluateReady).grant := by
      rcases s.tileStep_cases acc with ⟨h | h, -⟩ | ⟨n', -, hn, h⟩
      · rw [hab] at h; cases h
      · rw [hengine] at h; cases h
      · rw [hengine] at hn
        cases hn
        exact h
    have hworks := State.Works.continueEntry (s.tileWritten acc) n
    obtain ⟨hdefaults, a, r, q, e, dx, dy, l, arb, hframe⟩ := hworks.concluded
    have hwritten : s.tileWritten acc = { s with
        bufferX := x, bufferY := y, arbiter := { s.arbiter with access := none }, dirty := s.dirty.post acc.pos } := by
      unfold State.tileWritten
      rw [hfinish]
    refine ⟨_, hexec.trans (congrArg _ hstep), fun b p => ?_, ?_, ?_, ?_, fun e' rest p d more hq hmore => ?_,
      fun e' hq hmore => ?_⟩
    · rw [← State.finishAccess_written hwf hwrite hbl]
      exact State.readCell_congr (by rw [hframe]; rfl) (by rw [hframe]; rfl) b p
    · rw [hframe]
      change s.dirty.post acc.pos = _
      unfold DirtyList.post
      simp only [Bool.or_eq_true, decide_eq_true_eq]
      split
      · rfl
      · rename_i hnot
        rw [Bool.eq_false_iff.2 fun ho => hnot (.inl ho)]
    · rw [hdefaults, hwritten]
      rfl
    · rw [hframe, hwritten]
    · have hcontinue := State.continueEntry_next (s := s.tileWritten acc) (e := e') (rest := rest)
        (by rw [hwritten]; exact hq) (by rw [hwritten]; exact hmore)
      refine ⟨?_, ?_, State.evaluateReady_grant_asks ?_⟩ <;> rw [hcontinue]
      · rw [State.evaluateReady_frame, hq]
        rfl
      · rw [State.evaluateReady_frame]
        rfl
      · exact Arbiter.waiting_issue (s.tileWritten acc).arbiter .apply ⟨p, .building, some d⟩
    · have hcontinue := State.continueEntry_last (s := s.tileWritten acc) (e := e')
        (by rw [hwritten]; exact hq) (by rw [hwritten]; exact hmore)
      rw [hcontinue, hwritten]
      refine ⟨?_, ?_, fun hst hsealed hreq' hidle hann => ?_⟩
      · rw [State.evaluateReady_frame]
        rfl
      · rw [State.evaluateReady_frame]
        rfl
      · exact State.evaluateReady_of_condition (by
          simp only [State.readyCondition, Bool.and_eq_true, Bool.or_eq_true, decide_eq_true_eq, Bool.not_eq_true']
          exact ⟨⟨⟨⟨⟨hst, hreq'⟩, hsealed⟩, rfl⟩, hidle⟩, hann⟩)
  · have hstep : s.tileStep acc = (s.finishAccess acc).grant := by
      rcases s.tileStep_cases acc with ⟨-, h⟩ | ⟨n', hab', -, -⟩
      · exact h
      · rw [hab] at hab'; cases hab'
    refine ⟨_, hexec.trans (congrArg _ hstep), ?_, fun hbl b p => ?_, fun hbl => ?_⟩
    · rw [hfinish]
      rfl
    · rw [← State.finishAccess_written hwf hwrite hbl]
      rfl
    · rw [State.finishAccess_silent (.inr hbl)]
      exact ⟨rfl, rfl⟩

/-- Settles O50: the copy is read, written, and the next one requested or catch-up is over. -/
theorem catchUpCopiesCell : Obligations.CatchUpCopiesCell := by
  refine ⟨fun s acc hdone => ?_, fun s acc c hwf hdone hab => ?_, fun s acc c hwf hdone hab hbl => ?_⟩
  · intro c
    have hexec : exec .catchUpRead s = .next (s.catchUpRead acc) := by
      change execCatchUpRead s = _
      rw [execCatchUpRead, show s.accessOf .catchUp false = some acc from hdone.accessOf]
    obtain ⟨hp, hacc, hreq, hwrite⟩ := hdone
    have hfinish := State.finishAccess_silent (s := s) (.inl hwrite)
    have hread : acc.abandoned = false → exec .catchUpRead s = .next (State.grant { s with
        catchUp := s.catchUp.withRecord c
        arbiter := { s.arbiter with access := none }.issue .catchUp ⟨acc.pos, .building, some c⟩ }) := fun hab => by
      rcases s.catchUpRead_cases acc with ⟨h, -⟩ | ⟨-, h⟩
      · rw [hab] at h; cases h
      · rw [hexec, h, State.copyRead, hfinish]
    refine ⟨fun p rest hab hcatchUp => ?_, fun p hab hcatchUp => ?_, fun hab => ?_⟩
    · refine ⟨_, hread hab, ?_, State.grant_asks_issued rfl⟩
      rw [hcatchUp]
      rfl
    · refine ⟨_, hread hab, ?_, State.grant_asks_issued rfl⟩
      rw [hcatchUp]
      rfl
    · have hstep : s.catchUpRead acc = (s.finishAccess acc).grant := by
        rcases s.catchUpRead_cases acc with ⟨-, h⟩ | ⟨hab', -⟩
        · exact h
        · rw [hab] at hab'; cases hab'
      refine ⟨_, hexec.trans (congrArg _ hstep), by rw [hfinish]; rfl, fun hn => ?_⟩
      rw [hfinish]
      exact Arbiter.grant_waiting_none (a := { s.arbiter with access := none }) (r := .catchUp) hn _ _
  · have hexec : exec .catchUpWrite s = .next (s.catchUpWrite acc) := by
      change execCatchUpWrite s = _
      rw [execCatchUpWrite, show s.accessOf .catchUp true = some acc from hdone.accessOf]
    obtain ⟨hp, hacc, hreq, hwrite⟩ := hdone
    have hstep : s.catchUpWrite acc = (s.finishAccess acc).grant := by
      rcases s.catchUpWrite_cases acc with ⟨-, h⟩ | ⟨hab', -⟩
      · exact h
      · rw [hab] at hab'; cases hab'
    obtain ⟨x, y, hfinish⟩ := s.finishAccess_frame acc
    refine ⟨_, hexec.trans (congrArg _ hstep), ?_, fun hbl b p => ?_, fun hbl => ?_⟩
    · rw [hfinish]
      rfl
    · rw [← State.finishAccess_written hwf hwrite hbl]
      rfl
    · rw [State.finishAccess_silent (.inr hbl)]
      exact ⟨rfl, rfl⟩
  · have hexec : exec .catchUpWrite s = .next (s.catchUpWrite acc) := by
      change execCatchUpWrite s = _
      rw [execCatchUpWrite, show s.accessOf .catchUp true = some acc from hdone.accessOf]
    obtain ⟨hp, hacc, hreq, hwrite⟩ := hdone
    have hstep : s.catchUpWrite acc =
        ((((s.finishAccess acc).requestCopy s.catchUp.advance).resumeApply).evaluateReady).grant := by
      rcases s.catchUpWrite_cases acc with ⟨hab', -⟩ | ⟨-, h⟩
      · rw [hab] at hab'; cases hab'
      · exact h
    obtain ⟨x, y, hfinish⟩ := s.finishAccess_frame acc
    have hcells := State.finishAccess_written hwf hwrite hbl
    have hnext : ∀ q, s.catchUp.advance.position = some q → s.catchUpWrite acc = State.grant
        { s.finishAccess acc with
          catchUp := s.catchUp.advance
          arbiter := (s.finishAccess acc).arbiter.issue .catchUp ⟨q, .shown, none⟩ } := fun q hq => by
      rw [hstep, State.requestCopy_goes_on hq]
    refine ⟨_, hexec, fun b p => ?_, fun p q rest ph hcatchUp => ?_, fun p q ph hcatchUp hq => ?_, fun hlast => ?_⟩
    · rw [hstep, ← hcells]
      exact State.readCell_congr (by simp) (by simp) b p
    · have hadvance : s.catchUp.advance = .list q rest .readOutstanding := by rw [hcatchUp]; rfl
      rw [hnext q (by rw [hadvance]; rfl), hadvance]
      refine ⟨rfl, State.grant_asks_issued rfl, ?_⟩
      rw [hfinish]
      rfl
    · have hadvance : s.catchUp.advance = .tile q .readOutstanding := by
        rw [hcatchUp, CatchUp.advance, Pos.succ?_of_address hq]
      rw [hnext q (by rw [hadvance]; rfl), hadvance]
      refine ⟨rfl, State.grant_asks_issued rfl, ?_⟩
      rw [hfinish]
      rfl
    · have hadvance : s.catchUp.advance = .idle := by
        obtain ⟨p, ph, hcatchUp | ⟨hcatchUp, rfl⟩⟩ := hlast <;> rw [hcatchUp] <;> rfl
      have hdone : (s.finishAccess acc).requestCopy s.catchUp.advance = { s with
          bufferX := x, bufferY := y, arbiter := { s.arbiter with access := none }, catchUp := .idle } := by
        rw [hadvance, hfinish]
        rfl
      rw [hdone] at hstep
      obtain ⟨u, hu⟩ : ∃ u, u = { s with
        bufferX := x, bufferY := y, arbiter := { s.arbiter with access := none }, catchUp := CatchUp.idle } := ⟨_, rfl⟩
      rw [← hu] at hstep
      obtain ⟨hdefaults, n, r, q, e, dx, dy, l, a, hframe⟩ := (State.Works.resumeApply u).concluded
      rw [← hstep] at hdefaults hframe
      refine ⟨by rw [hframe, hu], ?_, hdefaults.trans (by rw [hu]; rfl), fun hbefore hafter => ?_,
        fun hst hsealed hreq' hwork hann => ?_, by rw [hframe, hu]⟩
      · rw [hstep]
        exact State.readyCondition_evaluated _
      · rw [hstep] at hafter ⊢
        have hgen : u.resumeApply.gen = s.gen := by
          rw [hu]
          simp
        by_cases hc : u.resumeApply.readyCondition = true
        · rw [← hgen]
          exact (State.evaluateReady_of_condition hc).2
        · rw [State.evaluateReady_of_not_condition hc] at hafter
          change u.resumeApply.gen.announced = true at hafter
          rw [hgen, hbefore] at hafter
          cases hafter
      · rw [hstep]
        have hnowork : u.resumeApply = u := State.resumeApply_of_no_work (by rw [hu]; exact hwork)
        rw [hnowork]
        refine (State.evaluateReady_of_condition ?_).1
        rw [hu]
        simp only [State.readyCondition, Bool.and_eq_true, Bool.or_eq_true, decide_eq_true_eq, Bool.not_eq_true']
        exact ⟨⟨⟨⟨⟨hst, hreq'⟩, hsealed⟩, hwork⟩, trivial⟩, hann⟩

/-- Settles O51: the record read is placed, and the next column requested or the fetch is over. -/
theorem rowFetchFillsRowBuffer : Obligations.RowFetchFillsRowBuffer := by
  intro s acc hdone
  have hexec : exec .rowFetch s = .next (s.rowFetched acc) := by
    change execRowFetch s = _
    rw [execRowFetch, show s.accessOf .rowFetch false = some acc from hdone.accessOf]
  obtain ⟨hp, hacc, hreq, hwrite⟩ := hdone
  have hfinish := State.finishAccess_silent (s := s) (.inl hwrite)
  refine ⟨fun r col hab hfetch => ?_, fun hab => ?_⟩
  · have hbuffer : ∀ c : LocalColumn, (s.scan.rowBuffer.set col (some (s.readCell acc.buffer acc.pos)))[c] =
        if c = col then some (s.readCell acc.buffer acc.pos) else s.scan.rowBuffer[c] := fun c => by
      rw [getFin_set]
      simp only [eq_comm]
    rcases s.rowFetched_cases acc with ⟨h | h, -⟩ | ⟨r', col', -, hfetch', ⟨hcol, h⟩ | ⟨hcol, h⟩⟩
    · rw [hab] at h; cases h
    · rw [hfetch] at h; cases h
    · rw [hfetch] at hfetch'
      cases hfetch'
      refine ⟨_, hexec.trans (congrArg _ h), by rw [hfinish]; rfl, hbuffer, fun next hn => ?_, fun hlast => ?_⟩
      · have hnext : (⟨col.val + 1, hcol⟩ : LocalColumn) = next := Fin.ext hn.symm
        rw [hnext]
        exact ⟨rfl, State.grant_asks_issued rfl⟩
      · rw [hlast] at hcol
        exact absurd hcol (by decide)
    · rw [hfetch] at hfetch'
      cases hfetch'
      refine ⟨_, hexec.trans (congrArg _ h), by rw [hfinish]; rfl, hbuffer, fun next hn => ?_, fun _ => rfl⟩
      exact absurd (hn ▸ next.isLt) hcol
  · have hstep : s.rowFetched acc = (s.finishAccess acc).grant := by
      rcases s.rowFetched_cases acc with ⟨-, h⟩ | ⟨r, col, hab', -⟩
      · exact h
      · rw [hab] at hab'; cases hab'
    exact ⟨_, hexec.trans (congrArg _ hstep), by rw [hfinish]; rfl⟩

end Sys2Proof.Proofs
end

section
/-! SUPPORT. The grant at a completion (R130, R131). -/

namespace Sys2Proof.Machine

/-- The grant at a completion, told of the station before it: the highest of the requests that wait is granted, its
owner's own new request included (R131). -/
theorem State.grant_at_completion {s t : State} {acc : Access} (hnone : t.arbiter.access = none)
    (hscan : t.scanFirst = s.scanFirst)
    (hwait : ∀ r q, r ≠ acc.requester ∨ acc.abandoned = true → s.arbiter.waiting r = some q →
      t.arbiter.waiting r = some q) :
    (∀ g, t.grant.arbiter.access = some g → g.abandoned = false ∧ g.blanked = false ∧
      ∀ r, t.grant.arbiter.waiting r ≠ none → g.requester.place s.scanFirst < r.place s.scanFirst) ∧
    (t.grant.arbiter.access = none → ∀ r, t.grant.arbiter.waiting r = none) ∧
    ∀ r q, r ≠ acc.requester ∨ acc.abandoned = true → s.arbiter.waiting r = some q → t.grant.asks r q := by
  obtain ⟨hgranted, hempty, -⟩ := t.arbiter.grant_highest t.shown t.scanFirst hnone
  rw [← hscan]
  exact ⟨hgranted, hempty, fun r q hr hq => State.grant_asks (hwait r q hr hq)⟩

theorem State.scanFirst_congr {s t : State} (h : t.config = s.config) : t.scanFirst = s.scanFirst := by
  unfold State.scanFirst
  rw [h]

theorem State.finishAccess_arbiter (s : State) (acc : Access) :
    (s.finishAccess acc).arbiter = { s.arbiter with access := none } := by
  obtain ⟨x, y, h⟩ := s.finishAccess_frame acc
  rw [h]

/-- After work of the engine the requests of the others wait as they did, and no access is in progress that was not. -/
theorem State.AppliesFrom.others {s t : State} (h : s.AppliesFrom t) : t.arbiter.access = s.arbiter.access ∧
    ∀ r, r ≠ .apply → t.arbiter.waiting r = s.arbiter.waiting r := by
  rcases h with ⟨-, h⟩ | ⟨-, p, c, h⟩ <;> rw [h]
  · exact ⟨rfl, fun _ _ => rfl⟩
  · exact ⟨rfl, fun r hr => Arbiter.waiting_issue_other _ hr _⟩

/-- The request for the next position is catch-up's own. -/
theorem State.requestCopy_others (s : State) (c : CatchUp) : (s.requestCopy c).arbiter.access = s.arbiter.access ∧
    ∀ r, r ≠ .catchUp → (s.requestCopy c).arbiter.waiting r = s.arbiter.waiting r := by
  unfold State.requestCopy
  split
  · exact ⟨rfl, fun r hr => Arbiter.waiting_issue_other _ hr _⟩
  · exact ⟨rfl, fun _ _ => rfl⟩

theorem State.evaluateReady_arbiter (s : State) : s.evaluateReady.arbiter = s.arbiter := by simp

/-- The station to which the grant at a completion is made (R130, R131). -/
def State.Completes (s : State) (acc : Access) (t : State) : Prop :=
  t.arbiter.access = none ∧ t.scanFirst = s.scanFirst ∧
    ∀ r q, r ≠ acc.requester ∨ acc.abandoned = true → s.arbiter.waiting r = some q → t.arbiter.waiting r = some q

theorem State.finishAccess_completes (s : State) (acc : Access) : s.Completes acc (s.finishAccess acc) :=
  ⟨by rw [s.finishAccess_arbiter], State.scanFirst_congr (by simp), fun r q _ hq => by
    rw [s.finishAccess_arbiter]
    cases r <;> exact hq⟩

namespace State.Completes

theorem of_same {s t u : State} {acc : Access} (h : s.Completes acc t) (arbiter : u.arbiter = t.arbiter)
    (config : u.config = t.config) : s.Completes acc u := by
  obtain ⟨hnone, hscan, hwait⟩ := h
  refine ⟨by rw [arbiter]; exact hnone, (State.scanFirst_congr config).trans hscan, ?_⟩
  rw [arbiter]
  exact hwait

/-- The owner of an access that is not given up may request anew. -/
theorem of_others {s t u : State} {acc : Access} (h : s.Completes acc t) (hab : acc.abandoned = false)
    (access : u.arbiter.access = t.arbiter.access) (config : u.config = t.config)
    (others : ∀ r, r ≠ acc.requester → u.arbiter.waiting r = t.arbiter.waiting r) : s.Completes acc u := by
  obtain ⟨hnone, hscan, hwait⟩ := h
  refine ⟨access.trans hnone, (State.scanFirst_congr config).trans hscan, fun r q hr hq => ?_⟩
  have hne : r ≠ acc.requester := hr.resolve_right (by rw [hab]; exact Bool.false_ne_true)
  rw [others r hne]
  exact hwait r q hr hq

theorem rowFetched {s : State} {acc : Access} (hreq : acc.requester = .rowFetch) :
    ∃ t, s.rowFetched acc = t.grant ∧ s.Completes acc t := by
  have hfinish := s.finishAccess_completes acc
  rcases s.rowFetched_cases acc with ⟨-, h⟩ | ⟨r, col, hab, -, ⟨hcol, h⟩ | ⟨-, h⟩⟩
  · exact ⟨_, h, hfinish⟩
  · exact ⟨_, h, hfinish.of_others hab rfl rfl fun r' hr => Arbiter.waiting_issue_other _ (hreq ▸ hr) _⟩
  · exact ⟨_, h, hfinish.of_same rfl rfl⟩

theorem tileStep {s : State} {acc : Access} (hreq : acc.requester = .apply) :
    ∃ t, s.tileStep acc = t.grant ∧ s.Completes acc t := by
  have hfinish := s.finishAccess_completes acc
  rcases s.tileStep_cases acc with ⟨-, h⟩ | ⟨n, hab, -, h⟩
  · exact ⟨_, h, hfinish⟩
  · have hwritten : s.Completes acc (s.tileWritten acc) := hfinish.of_same rfl rfl
    obtain ⟨haccess, hothers⟩ := ((s.tileWritten acc).continueEntry_applies n).others
    refine ⟨_, h, (hwritten.of_others hab haccess (by simp) fun r hr => hothers r (hreq ▸ hr)).of_same ?_ ?_⟩ <;> simp

theorem catchUpRead {s : State} {acc : Access} (hreq : acc.requester = .catchUp) :
    ∃ t, s.catchUpRead acc = t.grant ∧ s.Completes acc t := by
  have hfinish := s.finishAccess_completes acc
  rcases s.catchUpRead_cases acc with ⟨-, h⟩ | ⟨hab, h⟩
  · exact ⟨_, h, hfinish⟩
  · exact ⟨_, h, hfinish.of_others hab rfl rfl fun r hr => Arbiter.waiting_issue_other _ (hreq ▸ hr) _⟩

/-- A waiting request of apply is that of an engine at work, which the end of catch-up leaves alone. -/
theorem catchUpWrite {s : State} {acc : Access} (hreq : acc.requester = .catchUp) (hformed : s.ArbiterFormed) :
    ∃ t, s.catchUpWrite acc = t.grant ∧ s.Completes acc t := by
  have hfinish := s.finishAccess_completes acc
  rcases s.catchUpWrite_cases acc with ⟨-, h⟩ | ⟨hab, h⟩
  · exact ⟨_, h, hfinish⟩
  · obtain ⟨haccess, hothers⟩ := (s.finishAccess acc).requestCopy_others s.catchUp.advance
    have hcopied : s.Completes acc ((s.finishAccess acc).requestCopy s.catchUp.advance) :=
      hfinish.of_others hab haccess (by simp) fun r hr => hothers r (hreq ▸ hr)
    refine ⟨_, h, of_same ?_ (State.evaluateReady_arbiter _) (by simp)⟩
    rcases ((s.finishAccess acc).requestCopy s.catchUp.advance).resumeApply_applies with he | ⟨hidle, -, -, he⟩ <;> rw [he]
    · exact hcopied
    · obtain ⟨hnone, hscan, hwait⟩ := hcopied
      obtain ⟨haccess', hothers'⟩ := (State.takeHeads_applies ((s.finishAccess acc).requestCopy s.catchUp.advance)
        ((s.finishAccess acc).requestCopy s.catchUp.advance).updateQueue).others
      refine ⟨haccess'.trans hnone, (State.scanFirst_congr (by simp)).trans hscan, fun r q hr hq => ?_⟩
      have hne : r ≠ .apply := fun hra => by
        subst hra
        have hq' : s.arbiter.apply = some q := hq
        have hidle' : s.applyEngine = .idle := by simpa using hidle
        exact hformed.working.1 (by rw [hq']; rfl) hidle'
      rw [hothers' r hne]
      exact hwait r q hr hq

end State.Completes

/-- The grant to a feed read, with nothing else waiting (R131). -/
theorem Arbiter.grant_feedRead_alone (q : Request) (shown : BufferName) (scanFirst : Bool) :
    Arbiter.grant ⟨none, some q, none, none, none⟩ shown scanFirst =
      ⟨none, none, none, none, some ⟨.feedRead, shown.ofRole q.role, q.pos, q.write, false, false⟩⟩ := by
  cases scanFirst <;> rfl

end Sys2Proof.Machine
end

section
/-! PROOFS. The grant at a completion, the display of a row and the dot lines. -/

namespace Sys2Proof.Proofs

open Sys2Proof.Machine

/-- Settles O16: every completion ends in a grant with the access over. -/
theorem completionGrantsHighest : Obligations.CompletionGrantsHighest := by
  refine ⟨fun s acc hformed hp hacc happly => ?_, fun s st role row col ro p hfree harbiter hrole hrow hcol => ?_⟩
  · have hkept := s.finishAccess_arbiter acc
    have hdone : ∀ w, acc.write.isSome = w → s.accessOf acc.requester w = some acc := fun w hw =>
      State.accessOf_eq_some.2 ⟨hacc, hp, rfl, hw⟩
    suffices h : ∃ t, exec (acc.requester.completion acc.write.isSome) s = .next t.grant ∧ s.Completes acc t by
      obtain ⟨t, hexec, hnone, hscan, hwait⟩ := h
      exact ⟨_, hexec, State.grant_at_completion hnone hscan hwait⟩
    cases hreq : acc.requester with
    | rowFetch =>
      have hread : acc.write.isSome = false := Bool.eq_false_iff.2 fun hw => by
        rcases hformed.access acc hacc hw with h | h <;> rw [hreq] at h <;> cases h
      obtain ⟨t, ht, hcompletes⟩ := State.Completes.rowFetched (s := s) hreq
      refine ⟨t, ?_, hcompletes⟩
      change execRowFetch s = _
      rw [execRowFetch, ← hreq, hdone false hread, ← ht]
    | feedRead =>
      have hread : acc.write.isSome = false := Bool.eq_false_iff.2 fun hw => by
        rcases hformed.access acc hacc hw with h | h <;> rw [hreq] at h <;> cases h
      refine ⟨{ s.finishAccess acc with port := s.readResponse acc s.port }, ?_,
        (s.finishAccess_completes acc).of_same rfl rfl⟩
      change execFeedReadComplete s = _
      rw [execFeedReadComplete, ← hreq, hdone false hread]
      rfl
    | apply =>
      obtain ⟨t, ht, hcompletes⟩ := State.Completes.tileStep (s := s) hreq
      refine ⟨t, ?_, hcompletes⟩
      change execTileStep s = _
      rw [execTileStep, ← hreq, hdone true (happly hreq), ← ht]
    | catchUp =>
      cases hw : acc.write.isSome with
      | false =>
        obtain ⟨t, ht, hcompletes⟩ := State.Completes.catchUpRead (s := s) hreq
        refine ⟨t, ?_, hcompletes⟩
        change execCatchUpRead s = _
        rw [execCatchUpRead, ← hreq, hdone false hw, ← ht]
      | true =>
        obtain ⟨t, ht, hcompletes⟩ := State.Completes.catchUpWrite hreq hformed
        refine ⟨t, ?_, hcompletes⟩
        change execCatchUpWrite s = _
        rw [execCatchUpWrite, ← hreq, hdone true hw, ← ht]
  · refine ⟨_, exec_readCell_named [] hfree hrole hrow hcol, ?_⟩
    unfold State.grant
    rw [harbiter]
    exact Arbiter.grant_feedRead_alone ⟨p, ro, none⟩ _ _

end Sys2Proof.Proofs
end


section
/-! SUPPORT. What the arbiter of a step keeps up to its grant, the display of a row, and the dots of a line. -/

namespace Sys2Proof.Machine

/-! ### The arbiter up to the grant (R117, R118, R130, R134 to R136) -/

/-- What a step leaves of the arbiter before its grant: the access in progress, a read of the row fetch given up when it
is dropped, and the requests that wait. -/
structure Arbiter.Hands (a b : Arbiter) (dropped : Bool) : Prop where
  access : b.access =
    a.access.map fun acc => { acc with abandoned := acc.abandoned || (dropped && decide (acc.requester = .rowFetch)) }
  feedRead : b.feedRead = a.feedRead
  apply : ∀ q, a.apply = some q → b.apply = some q
  catchUp : ∀ q, a.catchUp = some q → b.catchUp = some q

namespace Arbiter.Hands

theorem refl (a : Arbiter) : a.Hands a false :=
  ⟨by simp, rfl, fun _ h => h, fun _ h => h⟩

theorem trans {a b c : Arbiter} {d e : Bool} (h : a.Hands b d) (g : b.Hands c e) : a.Hands c (d || e) := by
  obtain ⟨haccess, hfeed, happly, hcatchUp⟩ := h
  refine ⟨?_, g.feedRead.trans hfeed, fun q hq => g.apply q (happly q hq), fun q hq => g.catchUp q (hcatchUp q hq)⟩
  rw [g.access, haccess]
  cases a.access with
  | none => rfl
  | some acc => simp [Bool.or_assoc, Bool.and_or_distrib_right]

theorem withdraw_rowFetch (a : Arbiter) : a.Hands (a.withdraw .rowFetch) true := by
  rw [Arbiter.withdraw_rowFetch_eq]
  exact ⟨by simp only [Bool.true_and], rfl, fun _ h => h, fun _ h => h⟩

theorem issue_rowFetch (a : Arbiter) (q : Request) : a.Hands (a.issue .rowFetch q) false :=
  ⟨by simp [Arbiter.issue, Arbiter.setWaiting], rfl, fun _ h => h, fun _ h => h⟩

/-- The grant keeps what it is handed. -/
theorem grant {s t : State} {d : Bool} (h : s.arbiter.Hands t.arbiter d) (keeps : t.ArbiterKeeps u false) :
    s.ArbiterKeeps u d := by
  refine ⟨fun acc hacc => ?_, fun q hq => keeps.feedRead q (h.feedRead.trans hq), fun q hq => keeps.apply q (h.apply q hq),
    fun q hq => keeps.catchUp q (h.catchUp q hq), fun hn => keeps.noFeedRead (h.feedRead.trans hn)⟩
  have ht := h.access
  rw [hacc, Option.map_some] at ht
  simpa using keeps.access _ ht

/-- So does a step that ends without one. -/
theorem kept {s t : State} {d : Bool} (h : s.arbiter.Hands t.arbiter d) : s.ArbiterKeeps t d :=
  h.grant (u := t) ⟨fun acc hacc => by simpa using hacc, fun _ => .inl, fun _ => .inl, fun _ => .inl, id⟩

end Arbiter.Hands

/-! ### What a grant takes from (R131) -/

/-- Nothing waits after a grant that did not wait before it, and what it grants has waited. -/
structure Arbiter.GrantsFrom (a b : Arbiter) : Prop where
  waiting : ∀ r q, b.waiting r = some q → a.waiting r = some q
  access : ∀ acc, b.access = some acc → a.access = some acc ∨ a.waiting acc.requester ≠ none

theorem Arbiter.grantTo_grantsFrom (a : Arbiter) (shown : BufferName) (r : Requester) :
    a.GrantsFrom (a.grantTo shown r) := by
  unfold Arbiter.grantTo
  split
  · exact ⟨fun _ _ h => h, fun _ h => .inl h⟩
  · rename_i q hq
    refine ⟨fun r' q' h => ?_, fun acc h => .inr ?_⟩
    · cases r <;> cases r' <;> first | exact h | cases h
    · obtain rfl := Option.some.inj h
      exact Option.ne_none_iff_exists'.2 ⟨q, hq⟩

theorem Arbiter.grant_grantsFrom (a : Arbiter) (shown : BufferName) (scanFirst : Bool) :
    a.GrantsFrom (a.grant shown scanFirst) := by
  unfold Arbiter.grant
  split
  · exact ⟨fun _ _ h => h, fun _ h => .inl h⟩
  · split
    · exact ⟨fun _ _ h => h, fun _ h => .inl h⟩
    · exact a.grantTo_grantsFrom shown _

theorem State.grant_grantsFrom (s : State) : s.arbiter.GrantsFrom s.grant.arbiter :=
  s.arbiter.grant_grantsFrom _ _

theorem State.grantRace_grantsFrom (s : State) : s.arbiter.GrantsFrom s.grantRace.arbiter := by
  unfold State.grantRace
  split
  · dsimp only
    split
    · exact s.arbiter.grantTo_grantsFrom _ _
    · split
      · exact s.arbiter.grantTo_grantsFrom _ _
      · exact s.arbiter.grantTo_grantsFrom _ _
  · exact s.grant_grantsFrom

/-! ### Display of a row (R110, R117, R120, R121) -/

/-- What the end of a dot line leaves of the scan engine. -/
theorem ScanEngine.endLine_frame (sc : ScanEngine) :
    ∃ n p, sc.endLine = { sc with lineStrobes := n, panel := p } := by
  unfold ScanEngine.endLine
  split
  · split
    · exact ⟨_, _, rfl⟩
    · exact ⟨_, _, rfl⟩
  · exact ⟨_, _, rfl⟩
  · exact ⟨_, _, rfl⟩

theorem ScanEngine.rowIncomplete_eq (sc : ScanEngine) :
    sc.rowIncomplete = decide (∃ c : LocalColumn, sc.rowBuffer[c] = none) := by
  rw [Bool.eq_iff_iff, decide_eq_true_iff, ScanEngine.rowIncomplete, List.any_eq_true]
  constructor
  · rintro ⟨cell, hcell, hnone⟩
    obtain ⟨c, hc, he⟩ := List.getElem_of_mem hcell
    refine ⟨⟨c, by simpa using hc⟩, ?_⟩
    rw [Option.isNone_iff_eq_none.1 hnone] at he
    simpa using he
  · rintro ⟨c, hc⟩
    exact ⟨none, by rw [← hc]; simp, rfl⟩

/-- The row that comes next is the one displayed next. -/
theorem State.rowIsNext.nextRow {s : State} {r : LocalRow} (h : s.rowIsNext r) : s.scan.nextRow = some r := by
  unfold ScanEngine.nextRow
  rcases h with ⟨hphase, rfl⟩ | ⟨q, hphase, hbegun, hr⟩
  · rw [hphase]
  · have hlt : q.val + 1 < 12 := hr ▸ r.isLt
    have hval : (⟨q.val + 1, hlt⟩ : LocalRow) = r := Fin.ext hr.symm
    simp [hphase, hbegun, hlt, hval]

/-- The display of a row up to the fetch of the next (R117, R120, R121). -/
theorem State.takeOver_eq (s : State) (r : LocalRow) : ((s.enterRow r).noteUnderrun).takeOver r =
    { s with
      arbiter := if s.scan.rowIncomplete then s.arbiter.withdraw .rowFetch else s.arbiter
      counters := { s.counters with
        underrunRows := if s.scan.rowIncomplete then rise s.counters.underrunRows else s.counters.underrunRows }
      events := if s.scan.rowIncomplete && !s.scan.underrun then s.events.post s.timer.frameNumber .underrun
        else s.events
      scan := { s.scan.endLine with
        phase := .row r 0, lineBegun := false, displayRow := s.scan.rowBuffer, zone := s.entryRecords[r].zone
        rowBuffer := unfetched, fetch := .idle, underrun := s.scan.underrun || s.scan.rowIncomplete } } := by
  obtain ⟨n, p, hend⟩ := s.scan.endLine_frame
  have hshort : (s.enterRow r).scan.rowIncomplete = s.scan.rowIncomplete := by
    unfold State.enterRow ScanEngine.rowIncomplete
    rw [hend]
  unfold State.takeOver State.noteUnderrun
  rw [hshort]
  cases s.scan.rowIncomplete
  · unfold State.enterRow
    rw [hend, Bool.or_false]
    rfl
  · unfold State.countUnderrun State.enterRow
    rw [hend, Bool.or_true]
    cases s.scan.underrun <;> rfl

/-- The arbiter of the display of a row up to the fetch of the next. -/
theorem State.takeOver_hands (s : State) (r : LocalRow) :
    s.arbiter.Hands (((s.enterRow r).noteUnderrun).takeOver r).arbiter s.scan.rowIncomplete := by
  rw [State.takeOver_eq]
  cases s.scan.rowIncomplete
  · exact .refl _
  · exact .withdraw_rowFetch _

theorem State.fetchAfter_cases (s : State) (r : LocalRow) :
    (∃ next : LocalRow, next.val = r.val + 1 ∧ s.fetchAfter r = s.beginFetch next) ∨ r = 11 ∧ s.fetchAfter r = s := by
  unfold State.fetchAfter
  split
  · exact .inl ⟨_, rfl, rfl⟩
  · exact .inr ⟨Fin.ext (by change r.val = 11; omega), rfl⟩

end Sys2Proof.Machine
end

section
/-! PROOFS. Display (R106, R110 to R126). -/

namespace Sys2Proof.Proofs

open Sys2Proof.Machine

/-- Settles O52: what ROW_DISPLAY and TAIL leave, with the fetch they begin and what the grant keeps. -/
theorem rowDisplayAndTail : Obligations.RowDisplayAndTail := by
  refine ⟨fun s r hp hnext => ?_, fun s hp hphase hbegun => ?_⟩
  · have hexec : exec .rowDisplay s = .next (s.displayRow r) := by
      change execRowDisplay s = _
      rw [execRowDisplay, hnext.nextRow]
      exact if_pos hp
    intro short
    have hshort : s.scan.rowIncomplete = short := s.scan.rowIncomplete_eq
    refine ⟨fun hkind => ⟨_, hexec, ?_⟩, fun hkind => ?_⟩
    · obtain ⟨u, hu⟩ : ∃ u, u = ((s.enterRow r).noteUnderrun).takeOver r := ⟨_, rfl⟩
      have hdisplay : s.displayRow r = (u.fetchAfter r).grant := by
        rw [hu, State.displayRow, if_pos hkind]
      have hhands : s.arbiter.Hands u.arbiter short := by
        rw [hu, ← hshort]
        exact s.takeOver_hands r
      have hunderrun : short = true → u.arbiter = s.arbiter.withdraw .rowFetch := fun h => by
        rw [hu, State.takeOver_eq, hshort, h]
        rfl
      have hframe := State.takeOver_eq s r
      rw [← hu, hshort] at hframe
      rw [hdisplay]
      rcases u.fetchAfter_cases r with ⟨next, hval, hfetch⟩ | ⟨rfl, hfetch⟩
      · obtain ⟨hkeeps, hasks⟩ := (u.beginFetch next).grant_arbiterKeeps
        have hhanded : s.arbiter.Hands (u.beginFetch next).arbiter short := by
          simpa using hhands.trans (.issue_rowFetch _ ⟨⟨next, 0⟩, .shown, none⟩)
        rw [hfetch]
        refine ⟨?_, fun next' hval' => ?_, fun h11 => ?_, hhanded.grant hkeeps, fun h => ⟨fun q hq => ?_, fun h11 => ?_⟩⟩
        · unfold State.grant State.beginFetch
          rw [hframe]
          rfl
        · obtain rfl : next = next' := Fin.ext (hval.trans hval'.symm)
          exact ⟨rfl, hasks _ rfl⟩
        · exact absurd next.isLt (by rw [hval, h11]; decide)
        · obtain rfl := Option.some.inj ((u.beginFetch next).grant_grantsFrom.waiting .rowFetch q hq)
          exact ⟨hval, rfl⟩
        · exact absurd next.isLt (by rw [hval, h11]; decide)
      · rw [hfetch]
        refine ⟨?_, fun next hval => ?_, fun _ => ?_, hhands.grant u.grant_arbiterKeeps.1, fun h => ⟨fun q hq => ?_, fun _ acc hacc hreq => ?_⟩⟩
        · unfold State.grant
          rw [hframe]
          rfl
        · exact absurd next.isLt (by rw [hval]; decide)
        · unfold State.grant
          rw [hframe]
        · have hw := u.grant_grantsFrom.waiting .rowFetch q hq
          rw [hunderrun h] at hw
          cases hw
        · rcases u.grant_grantsFrom.access acc hacc with ha | ha <;> rw [hunderrun h, Arbiter.withdraw_rowFetch_eq] at ha
          · obtain ⟨acc', -, rfl⟩ := Option.map_eq_some_iff.1 ha
            have hreq' : acc'.requester = .rowFetch := hreq
            simp [hreq']
          · rw [hreq] at ha
            exact absurd rfl ha
    · rw [hexec, State.displayRow, if_neg (by rw [hkind]; decide)]
      rfl
  · have hexec : exec .tail s = .next s.beginTail := by
      change execTail s = _
      have hlast : s.scan.lastLine = true := by simp [ScanEngine.lastLine, hphase, hbegun]
      rw [execTail, hlast, hp]
      rfl
    refine ⟨fun hkind => ⟨_, hexec, ?_⟩, fun hkind => ?_⟩
    · rw [State.beginTail, if_pos hkind]
      obtain ⟨hkeeps, hasks⟩ := (s.enterTail.beginFetch 0).grant_arbiterKeeps
      exact ⟨rfl, hasks _ rfl, (Arbiter.Hands.issue_rowFetch s.arbiter _).grant hkeeps⟩
    · rw [hexec, State.beginTail, if_neg (by rw [hkind]; decide)]
      rfl

end Sys2Proof.Proofs
end


section
/-! SUPPORT. The dots of a line (R121 to R126). -/

namespace Sys2Proof.Machine

/-! ### Composition (R121 to R126) -/

/-- The zone a cell sets (R125). -/
def zoneSet : Option CellRecord → Option ZoneRecord
  | some (.zone z) => some z.zone
  | some (.glyph _) => none
  | none => none

theorem zoneAfter_eq (z : ZoneRecord) (cell : Option CellRecord) : zoneAfter z cell = (zoneSet cell).getD z := by
  rcases cell with _ | _ | _ <;> rfl

/-- The zone state that cells leave is the one the last zone cell sets (R121, R125). -/
theorem foldl_zoneAfter (cells : List (Option CellRecord)) (z : ZoneRecord) :
    cells.foldl zoneAfter z = (cells.filterMap zoneSet).getLast?.getD z := by
  induction cells generalizing z with
  | nil => rfl
  | cons cell rest ih =>
    rw [List.foldl_cons, ih, zoneAfter_eq]
    cases h : zoneSet cell with
    | none => rw [List.filterMap_cons_none h]; rfl
    | some z' => rw [List.filterMap_cons_some h, List.getLast?_cons]; rfl

theorem State.zoneAt_eq (s : State) (r : LocalRow) (col : LocalColumn) :
    s.zoneAt r col = (s.scan.displayRow.toList.take col.val).foldl zoneAfter s.entryRecords[r].zone :=
  (foldl_zoneAfter _ _).symm

theorem LineContext.cellDots_length (x : LineContext) (col : Nat) (z : ZoneRecord) (cell : Option CellRecord) :
    (x.cellDots col z cell).length = 8 := by
  unfold LineContext.cellDots
  split
  · exact List.length_replicate
  · exact List.length_replicate
  · split
    · exact List.length_replicate
    · simp

theorem LineContext.compose_length (x : LineContext) (cells : List (Option CellRecord)) (col : Nat) (z : ZoneRecord) :
    (x.compose col z cells).1.length = 8 * cells.length := by
  induction cells generalizing col z with
  | nil => rfl
  | cons cell rest ih =>
    rw [LineContext.compose, List.length_append, x.cellDots_length, ih, List.length_cons]
    omega

/-- The dots of a cell are drawn in the zone state that the cells before it leave (R121). -/
theorem LineContext.compose_dot (x : LineContext) (cells : List (Option CellRecord)) (col : Nat) (z : ZoneRecord)
    (i : Nat) (hi : i < cells.length) (dot : Fin 8) : (x.compose col z cells).1[8 * i + dot.val]? =
      (x.cellDots (col + i) ((cells.take i).foldl zoneAfter z) cells[i])[dot.val]? := by
  induction cells generalizing col z i with
  | nil => exact absurd hi (Nat.not_lt_zero _)
  | cons cell rest ih =>
    rw [LineContext.compose]
    cases i with
    | zero =>
      rw [Nat.mul_zero, Nat.zero_add, List.getElem?_append_left (by rw [x.cellDots_length]; exact dot.isLt)]
      rfl
    | succ i =>
      rw [List.getElem?_append_right (by rw [x.cellDots_length]; omega), x.cellDots_length,
        show 8 * (i + 1) + dot.val - 8 = 8 * i + dot.val by omega, ih (col + 1) (zoneAfter z cell) i (Nat.lt_of_succ_lt_succ hi),
        show col + 1 + i = col + (i + 1) by omega]
      rfl

/-- A dot of a glyph cell is ink as R122 and R123 say. -/
theorem State.ink_eq (s : State) (r : LocalRow) (line : Fin 16) (col : LocalColumn) (dot : Fin 8) (g : GlyphCell) :
    (s.lineContext r line).ink g (s.zoneAt r col) col.val dot.val = s.isInk r line col dot g := by
  have hline : (s.lineContext r line).glyphLineFor g.size =
      if (g.size == .tall || g.size == .large) = true then 8 * (r.val % 2) + line.val / 2 else line.val := by
    have htall : (if r.val % 2 = 0 then line.val / 2 else 8 + line.val / 2) = 8 * (r.val % 2) + line.val / 2 := by
      split <;> omega
    cases hs : g.size with
    | tall | large => exact htall
    | normal | wide => rfl
  have hdot : patternDotFor g.size col.val dot.val =
      if (g.size == .wide || g.size == .large) = true then 4 * (col.val % 2) + dot.val / 2 else dot.val := by
    have hwide : (if col.val % 2 = 0 then dot.val / 2 else 4 + dot.val / 2) = 4 * (col.val % 2) + dot.val / 2 := by
      split <;> omega
    cases hs : g.size with
    | wide | large => exact hwide
    | normal | tall => rfl
  have htall : g.size.isTall = (g.size == .tall || g.size == .large) := by cases g.size <;> rfl
  unfold LineContext.ink State.isInk
  rw [hline, hdot, htall]
  rfl

/-- The dots of a cell in the zone state in force are those of R121 to R126. -/
theorem State.cellDots_dot (s : State) (r : LocalRow) (line : Fin 16) (col : LocalColumn) (dot : Fin 8) :
    ((s.lineContext r line).cellDots col.val (s.zoneAt r col) s.scan.displayRow[col])[dot.val]? =
      some (s.dotColour r line col dot) := by
  have hrep : ∀ c : Colour, (List.replicate 8 c)[dot.val]? = some c := fun c => by
    rw [List.getElem?_replicate, if_pos dot.isLt]
  unfold LineContext.cellDots State.dotColour
  cases s.scan.displayRow[col] with
  | none => exact hrep _
  | some cell =>
    cases cell with
    | zone c => exact hrep _
    | glyph g =>
      by_cases hhidden : (s.lineContext r line).concealed (s.zoneAt r col) = true
      · exact ((congrArg (·[dot.val]?) (if_pos hhidden)).trans (hrep _)).trans (congrArg some (if_pos hhidden).symm)
      · refine (congrArg (·[dot.val]?) (if_neg hhidden)).trans (Eq.trans ?_ (congrArg some (if_neg hhidden).symm))
        simp [s.ink_eq]

/-- A dot of a drawing frame's line (R121 to R126). -/
theorem State.composed_dot (s : State) (r : LocalRow) (line : Fin 16) (col : LocalColumn) (dot : Fin 8) :
    ((s.lineContext r line).compose 0 s.entryRecords[r].zone s.scan.displayRow.toList).1[8 * col.val + dot.val]? =
      some (s.dotColour r line col dot) := by
  rw [LineContext.compose_dot _ _ _ _ col.val (by simp), ← State.zoneAt_eq, Nat.zero_add]
  exact s.cellDots_dot r line col dot

/-! ### The lines of a frame (R110) -/

/-- The dot line that comes next is the one drawn next. -/
theorem State.lineIsNext.nextLine {s : State} {r : LocalRow} {line : Fin 16} (h : s.lineIsNext r line) :
    s.scan.nextLine = some (r, line) := by
  unfold ScanEngine.nextLine
  rcases h with ⟨hphase, hbegun⟩ | ⟨k, hphase, hbegun, hline⟩
  · simp [hphase, hbegun]
  · have hlt : k.val + 1 < 16 := hline ▸ line.isLt
    have hval : (⟨k.val + 1, hlt⟩ : Fin 16) = line := Fin.ext hline.symm
    simp [hphase, hbegun, hlt, hval]

/-- The end of a line that is sent (R110). -/
theorem ScanEngine.endLine_of_begun {sc : ScanEngine} {r : LocalRow} {line : Fin 16} (hphase : sc.phase = .row r line)
    (hbegun : sc.lineBegun = true) : sc.endLine = { sc with
      lineStrobes := sc.lineStrobes + 1
      panel := Memory.write darkLine sc.panel (panelLine r line) sc.dots } := by
  unfold ScanEngine.endLine
  rw [hphase]
  exact if_pos hbegun

end Sys2Proof.Machine
end

section
/-! PROOFS. Dot lines (R106, R110, R121 to R126). -/

namespace Sys2Proof.Proofs

open Sys2Proof.Machine

/-- Settles O53: the dots of a line by induction on the cells composed, and the panel's line by what a write reads as. -/
theorem dotLineDrawsCells : Obligations.DotLineDrawsCells := by
  refine ⟨fun s => ?_, fun s r line hp hnext => ?_, fun s r line hcanonical hphase hbegun => ?_⟩
  · simp [State.frameStrobe]
  · have hexec : exec .dotLine s = .next (s.beginLine r line) := by
      change execDotLine s = _
      rw [execDotLine, hnext.nextLine]
      exact if_pos hp
    refine ⟨fun hkind => ⟨_, hexec, ?_⟩, fun hkind => ?_⟩
    · have hbegin : s.beginLine r line = { s with scan := { s.scan.endLine with
          phase := .row r line, lineBegun := true
          dots := ((s.lineContext r line).compose 0 s.entryRecords[r].zone s.scan.displayRow.toList).1
          zone := ((s.lineContext r line).compose 0 s.entryRecords[r].zone s.scan.displayRow.toList).2 } } := if_pos hkind
      rw [hbegin]
      refine ⟨rfl, ?_, s.composed_dot r line⟩
      exact (LineContext.compose_length _ _ _ _).trans (by simp)
    · rw [hexec, State.beginLine, if_neg (by rw [hkind]; decide)]
      rfl
  · rw [ScanEngine.endLine_of_begun hphase hbegun]
    refine ⟨rfl, fun k => ?_⟩
    change Memory.read darkLine (Memory.write darkLine s.scan.panel (panelLine r line) s.scan.dots) k = _
    by_cases hk : k = panelLine r line
    · rw [hk, Memory.read_write_same _ _ _ _ hcanonical.panel]
      exact (if_pos rfl).symm
    · rw [Memory.read_write_other _ _ _ _ _ hk hcanonical.panel]
      exact (if_neg hk).symm

end Sys2Proof.Proofs
end


section
/-! SUPPORT. Steps that make no access (R57, R59, R60, R87 to R91). -/

namespace Sys2Proof.Machine

/-! ### Quiet steps (R59, R60) -/

/-- The tables of the zone carry: all that a step without an access changes (R59, R60). -/
structure State.SameTables (s t : State) : Prop where
  shown : t.shown = s.shown
  left : t.leftTable = s.leftTable
  x : t.defaultsX = s.defaultsX
  y : t.defaultsY = s.defaultsY

/-- A station with the tables of another. -/
def State.withTables (s t : State) : State :=
  { s with leftTable := t.leftTable, defaultsX := t.defaultsX, defaultsY := t.defaultsY }

/-- Quiet steps make the same tables of the same tables. -/
theorem State.StepsQuietly.transport {steps : List ApplyStep} {s s' u : State} (h : State.StepsQuietly steps s u)
    (same : s.SameTables s') : State.StepsQuietly steps s' (s'.withTables u) := by
  induction steps generalizing s s' with
  | nil =>
    cases h
    unfold State.withTables
    rw [← same.left, ← same.x, ← same.y]
    rfl
  | cons st rest ih =>
    cases st with
    | tile p c => exact h.elim
    | right => exact ih (s := s) h same
    | left r col c =>
      obtain ⟨row, hrow, hrest⟩ := h
      exact ⟨row, by rw [same.left]; exact hrow,
        ih hrest (s' := { s' with leftTable := s'.leftTable.set r row })
          ⟨same.shown, by simp only [same.left], same.x, same.y⟩⟩
    | leftClear r =>
      exact ih (s := { s with leftTable := s.leftTable.set r { entries := [], floor := none } }) h
        (s' := { s' with leftTable := s'.leftTable.set r { entries := [], floor := none } })
        ⟨same.shown, by simp only [same.left], same.x, same.y⟩
    | rowDefault r d =>
      have hset : State.StepsQuietly rest (s.setBuildingDefault r d) u := h
      have hset' := ih hset (s' := s'.setBuildingDefault r d) (by
        rw [State.setBuildingDefault_eq, State.setBuildingDefault_eq]
        refine ⟨same.shown, same.left, ?_, ?_⟩
        · simp only [same.shown, same.x]
        · simp only [same.shown, same.y])
      have hto : (s'.setBuildingDefault r d).withTables u = s'.withTables u := by
        rw [State.setBuildingDefault_eq]
        rfl
      rw [hto] at hset'
      exact hset'

/-- Quiet steps done in front of others, at a station with the tables of `s`. -/
theorem State.runSteps_quiet_at {s t : State} {quiet more : List ApplyStep} {u : Update} {before : List ApplyStep} (n : Nat)
    (hf : t.LeftTableFormed) (hsteps : u.steps t.straps t.wallColumns = before ++ (quiet ++ more))
    (hquiet : ∀ p c, .tile p c ∉ quiet) (same : t.SameTables s) :
    ∃ t', State.StepsQuietly quiet s (s.withTables t') ∧
      t.runSteps (quiet ++ more) n = t'.runSteps more (n + quiet.length) ∧ t'.LeftTableFormed ∧ t' = t.withTables t' := by
  obtain ⟨t', hrun, hruns, hformed, hframe⟩ := State.runSteps_quiet quiet more t n hf (fun r c d hm =>
    Update.left_lt t.straps t.wallColumns u r c d (by
      rw [hsteps]
      exact List.mem_append_right _ (List.mem_append_left _ hm))) hquiet
  exact ⟨t', hrun.transport same, hruns, hformed, hframe⟩

theorem State.takeHeads_done {s t : State} {e : UpdateEntry} {rest : List UpdateEntry} (he : e.epoch = .current)
    (h : s.runSteps (e.update.steps s.straps s.wallColumns) 0 = (t, none)) :
    s.takeHeads (e :: rest) = t.takeHeads rest := by
  rw [State.takeHeads, if_pos he, h]

theorem State.takeHeads_working {s t : State} {e : UpdateEntry} {rest : List UpdateEntry} {n : Nat}
    (he : e.epoch = .current) (h : s.runSteps (e.update.steps s.straps s.wallColumns) 0 = (t, some n)) :
    s.takeHeads (e :: rest) = { t with updateQueue := e :: rest, applyEngine := .applying n } := by
  rw [State.takeHeads, if_pos he, h]

theorem State.continueEntry_done {s t : State} {n : Nat} {e : UpdateEntry} {rest : List UpdateEntry}
    (hq : s.updateQueue = e :: rest)
    (h : s.runSteps ((e.update.steps s.straps s.wallColumns).drop (n + 1)) (n + 1) = (t, none)) :
    s.continueEntry n = { t with updateQueue := rest, applyEngine := .idle }.resumeApply := by
  unfold State.continueEntry
  rw [hq]
  dsimp only
  rw [h]

theorem State.continueEntry_working {s t : State} {n k : Nat} {e : UpdateEntry} {rest : List UpdateEntry}
    (hq : s.updateQueue = e :: rest)
    (h : s.runSteps ((e.update.steps s.straps s.wallColumns).drop (n + 1)) (n + 1) = (t, some k)) :
    s.continueEntry n = { t with updateQueue := e :: rest, applyEngine := .applying k } := by
  unfold State.continueEntry
  rw [hq]
  dsimp only
  rw [h]

/-! ### The steps of an entry (R47, R57) -/

theorem targetStep_eq (p : Straps) (r : LocalRow) (e : Nat × CellRecord) : targetStep p r e =
    if e.1 < leftEdge p then .left r e.1 e.2
    else if h : e.1 < leftEdge p + 32 then .tile ⟨r, ⟨e.1 - leftEdge p, by omega⟩⟩ e.2
    else .right := by
  unfold targetStep regionOf
  by_cases hleft : e.1 < leftEdge p
  · rw [if_pos hleft, if_pos hleft]
  · rw [if_neg hleft, if_neg hleft]
    by_cases htile : e.1 < leftEdge p + 32
    · rw [dif_pos htile, dif_pos (by omega)]
    · rw [dif_neg htile, dif_neg (by omega)]

/-! ### The row a ROWCLEAR leaves (R87, R88, R91) -/

/-- A list that ends below a column takes the column at its end. -/
theorem insertColumn_above (c : Nat) (z : ZoneRecord) (entries : List (Nat × ZoneRecord)) (h : ∀ e ∈ entries, e.1 < c) :
    insertColumn c z entries = entries ++ [(c, z)] := by
  induction entries with
  | nil => rfl
  | cons e rest ih =>
    obtain ⟨b, w⟩ := e
    have hb : b < c := h _ List.mem_cons_self
    rw [insertColumn, if_neg (by omega), if_neg (by omega), ih fun e he => h e (List.mem_cons_of_mem _ he)]
    rfl

/-- The row after the left steps of a ROWCLEAR with a zone cell at its first `n` columns: the last 16 of them, and a
floor below. -/
def LeftRow.swept (z : ZoneRecord) (n : Nat) : LeftRow :=
  ⟨(List.range (min n 16)).map fun k => (n - min n 16 + k, z), if n ≤ 16 then none else some (n - 17)⟩

theorem LeftRow.swept_write (z : ZoneCell) (n : Nat) :
    (LeftRow.swept z.zone n).write n (.zone z) = LeftRow.swept z.zone (n + 1) := by
  have hnot : (LeftRow.swept z.zone n).belowFloor n = false := by
    unfold LeftRow.swept LeftRow.belowFloor
    by_cases hn : n ≤ 16
    · simp only [hn, if_true]
    · simp only [hn, if_false, decide_eq_false_iff_not]
      omega
  have hinsert : insertColumn n z.zone (LeftRow.swept z.zone n).entries =
      (LeftRow.swept z.zone n).entries ++ [(n, z.zone)] := insertColumn_above _ _ _ fun e he => by
    obtain ⟨k, hk, rfl⟩ := List.mem_map.1 he
    have := List.mem_range.1 hk
    change n - min n 16 + k < n
    omega
  unfold LeftRow.write
  rw [if_neg (by rw [hnot]; exact Bool.false_ne_true)]
  change LeftRow.trim { LeftRow.swept z.zone n with entries := insertColumn n z.zone _ } = _
  rw [hinsert]
  have hcolumns : (LeftRow.swept z.zone n).entries ++ [(n, z.zone)] =
      (List.range (min n 16 + 1)).map fun k => (n - min n 16 + k, z.zone) := by
    rw [List.range_succ, List.map_append]
    simp only [LeftRow.swept, List.map_cons, List.map_nil]
    rw [show n - min n 16 + min n 16 = n by omega]
  rw [hcolumns]
  unfold LeftRow.trim
  by_cases hn : n < 16
  · have hmin : min n 16 = n := by omega
    have hmin' : min (n + 1) 16 = n + 1 := by omega
    rw [if_pos (by simp only [List.length_map, List.length_range]; omega)]
    simp only [LeftRow.swept, hmin, hmin', Nat.sub_self, show n ≤ 16 by omega, show n + 1 ≤ 16 by omega, if_true]
  · have hmin : min n 16 = 16 := by omega
    have hmin' : min (n + 1) 16 = 16 := by omega
    rw [if_neg (by simp only [List.length_map, List.length_range]; omega), List.range_succ_eq_map, List.map_cons]
    simp only [LeftRow.swept, hmin, hmin', show ¬ n + 1 ≤ 16 by omega, if_false, List.map_map]
    refine congrArg₂ LeftRow.mk (List.map_congr_left fun k _ => Prod.ext ?_ rfl) (congrArg some ?_)
    · change n - 16 + (k + 1) = n + 1 - 16 + k
      omega
    · omega

theorem LeftRow.foldl_glyph (g : GlyphCell) (columns : List Nat) :
    columns.foldl (fun row col => row.write col (.glyph g)) LeftRow.empty = LeftRow.empty := by
  induction columns with
  | nil => rfl
  | cons col rest ih => exact ih

theorem LeftRow.foldl_zone (z : ZoneCell) (n : Nat) :
    (List.range n).foldl (fun row col => row.write col (.zone z)) LeftRow.empty = LeftRow.swept z.zone n := by
  induction n with
  | zero => rfl
  | succ n ih => rw [List.range_succ, List.foldl_append, ih, List.foldl_cons, List.foldl_nil, LeftRow.swept_write]

/-- The left steps of one record at several columns of a row. -/
theorem State.runSteps_left (s : State) (r : LocalRow) (c : CellRecord) (columns : List Nat) (more : List ApplyStep)
    (n : Nat) : s.runSteps (columns.map (fun col => .left r col c) ++ more) n =
      State.runSteps { s with leftTable := s.leftTable.set r (columns.foldl (fun row col => row.write col c) s.leftTable[r]) }
        more (n + columns.length) := by
  induction columns generalizing s n with
  | nil =>
    have hset : s.leftTable.set r s.leftTable[r] = s.leftTable := by simp
    rw [List.map_nil, List.nil_append, List.foldl_nil, hset]
    rfl
  | cons col rest ih =>
    have hstep := ih { s with leftTable := s.leftTable.set r (s.leftTable[r].write col c) } (n + 1)
    simp only [getFin_set, if_true] at hstep
    rw [List.foldl_cons, List.length_cons, show n + (rest.length + 1) = n + 1 + rest.length by omega]
    refine hstep.trans ?_
    have hset : (s.leftTable.set r (s.leftTable[r].write col c)).set r
        (rest.foldl (fun row col => row.write col c) (s.leftTable[r].write col c)) =
        s.leftTable.set r (rest.foldl (fun row col => row.write col c) (s.leftTable[r].write col c)) := by
      simp
    exact congrArg (fun l => State.runSteps { s with leftTable := l } more (n + 1 + rest.length)) hset

end Sys2Proof.Machine
end

section
/-! PROOFS. The steps between two writes of apply. -/

namespace Sys2Proof.Proofs

open Sys2Proof.Machine

/-- The steps of an UPDATE in a local row (R57). -/
theorem steps_of_topEdge (p : Straps) (columns : Nat) (u : Update) (r : LocalRow) (h : u.row = topEdge p + r.val) :
    ∃ first, u.steps p columns = first ++ (u.targets columns).map (targetStep p r) ∧
      (u.setsDefault = false → first = []) ∧ (∀ row d, u = .rowdef row d → first = [.rowDefault r d]) ∧
      ∀ row d c, u = .rowclear row d c → first = [.rowDefault r d, .leftClear r] := by
  unfold Update.steps
  rw [h, localRow?_of_topEdge]
  cases u with
  | rowdef row d => exact ⟨_, rfl, nofun, fun _ _ h => by cases h; rfl, nofun⟩
  | rowclear row d c => exact ⟨_, rfl, nofun, nofun, fun _ _ _ h => by cases h; rfl⟩
  | cell row col c => exact ⟨_, rfl, fun _ => rfl, nofun, nofun⟩
  | run row col cells => exact ⟨_, rfl, fun _ => rfl, nofun, nofun⟩
  | fill row col count c => exact ⟨_, rfl, fun _ => rfl, nofun, nofun⟩

/-- An UPDATE at an idle engine with an empty queue is taken at once (R50, R55). -/
theorem exec_update_taken {s : State} {st : StationState} {f : BusFrame} {u v : Update}
    (hacc : s.Accepts st 4 f (.update u)) (hv : s.filtered u = some v) (hqueue : s.updateQueue = [])
    (hengine : s.applyEngine = .idle) (hcatchUp : s.catchUp = .idle) (hsealed : s.gen.isSealed = false) :
    exec (.update f) s = .next (State.takeHeads { s.afterShare 4 f with updateQueue := [⟨.current, v⟩] }
      [⟨.current, v⟩]).grant := by
  have hp : (s.afterShare 4 f).participates = true := (State.participates_running hacc.running).trans hacc.inWall
  have hentry : s.updateQueue ++ [s.newEntry v] = [⟨.current, v⟩] := by
    rw [State.newEntry, hsealed, hqueue]
    rfl
  obtain ⟨t, ht⟩ : ∃ t, t = { s.afterShare 4 f with updateQueue := [⟨.current, v⟩] } := ⟨_, rfl⟩
  have hresume : t.resumeApply = t.takeHeads [⟨.current, v⟩] := by
    rw [State.resumeApply_of_ready (by rw [ht]; exact hp) (by rw [ht]; exact hengine) (by rw [ht]; exact hcatchUp), ht]
  have hnot : (t.takeHeads [⟨.current, v⟩]).evaluateReady = t.takeHeads [⟨.current, v⟩] := by
    obtain ⟨⟨_, _, _, _, _, _, hframe⟩, -⟩ := State.Works.takeHeads t [⟨.current, v⟩]
    refine State.evaluateReady_of_unsealed ?_
    rw [hframe, ht]
    exact hsealed
  rw [exec_update_queued hacc hv, hentry, ← ht, hresume, hnot]

/-- The steps of a ROWCLEAR up to its first write: the row default, the row cleared, and one left step for each column
left of the tile (R57, R60, R91). -/
theorem rowclear_steps (p : Straps) (columns : Nat) (d : ZoneRecord) (c : CellRecord) (r : LocalRow)
    (h : leftEdge p < columns) : ∃ pos more, (Update.rowclear (topEdge p + r.val) d c).steps p columns =
      .rowDefault r d :: .leftClear r ::
        ((List.range (leftEdge p)).map (fun col => .left r col c) ++ .tile pos c :: more) := by
  obtain ⟨first, hsteps, -, -, hfirst⟩ := steps_of_topEdge p columns (.rowclear (topEdge p + r.val) d c) r rfl
  obtain ⟨k, rfl⟩ : ∃ k, columns = leftEdge p + (k + 1) := ⟨columns - leftEdge p - 1, by omega⟩
  have hlefts : ((List.range (leftEdge p)).map fun col => (col, c)).map (targetStep p r) =
      (List.range (leftEdge p)).map fun col => .left r col c := by
    rw [List.map_map]
    refine List.map_congr_left fun col hcol => ?_
    exact (targetStep_eq p r (col, c)).trans (if_pos (List.mem_range.1 hcol))
  have htile : targetStep p r (leftEdge p, c) = .tile ⟨r, ⟨leftEdge p - leftEdge p, by omega⟩⟩ c := by
    rw [targetStep_eq, if_neg (Nat.lt_irrefl _), dif_pos (Nat.lt_add_of_pos_right (by decide))]
  have htargets : (Update.rowclear (topEdge p + r.val) d c).targets (leftEdge p + (k + 1)) =
      (List.range (leftEdge p + (k + 1))).map fun col => (col, c) := rfl
  rw [hsteps, hfirst _ _ _ rfl, htargets, List.range_add, List.map_append, List.map_append, hlefts,
    List.range_succ_eq_map]
  simp only [List.map_cons, Nat.add_zero, htile]
  exact ⟨_, _, rfl⟩

/-- Settles O3: the quiet steps in front of a write are done with it, and a ROWCLEAR sweeps its row. -/
theorem leftAndDefaultSteps : Obligations.LeftAndDefaultSteps := by
  refine ⟨fun p columns u r hrow => ?_, fun s st f u v quiet more hf hformed hacc hv hqueue hengine hcatchUp hsealed
    hsteps hquiet => ?_, fun s acc c n e rest quiet more hf hdone hab hengine hqueue hsteps hquiet => ?_,
    fun s st f d c r hacc hlt hcolumns hqueue hengine hcatchUp hsealed => ?_⟩
  · obtain ⟨first, hsteps, hfirst⟩ := steps_of_topEdge p columns u r hrow
    exact ⟨first, by rw [hsteps, funext (targetStep_eq p r)], hfirst⟩
  · obtain ⟨base, hbase⟩ : ∃ base, base = { s.afterShare 4 f with updateQueue := [⟨.current, v⟩] } := ⟨_, rfl⟩
    have hexec := exec_update_taken hacc hv hqueue hengine hcatchUp hsealed
    rw [← hbase] at hexec
    obtain ⟨t', hdone, hruns, -, hframe⟩ := State.runSteps_quiet_at (s := s.afterShare 4 f) (t := base) (quiet := quiet)
      (more := more) (u := v) (before := []) 0 (by rw [hbase]; exact fun k => hf k) (by rw [hbase]; exact hsteps) hquiet
      (by rw [hbase]; exact ⟨rfl, rfl, rfl, rfl⟩)
    have hrun : base.runSteps (v.steps base.straps base.wallColumns) 0 = t'.runSteps more quiet.length := by
      rw [show v.steps base.straps base.wallColumns = quiet ++ more by rw [hbase]; exact hsteps, hruns, Nat.zero_add]
    refine ⟨_, _, hdone, hexec, fun hmore => ?_, fun p c rest hmore => ?_⟩ <;> subst hmore
    · have hend : base.takeHeads [⟨.current, v⟩] = (s.afterShare 4 f).withTables t' := by
        rw [State.takeHeads_done rfl (t := t') hrun, State.takeHeads, hframe, hbase, ← hqueue, ← hengine]
        rfl
      rw [hend]
      exact State.grant_of_settled hformed.waiting
    · have hend := State.takeHeads_working (rest := []) (e := ⟨.current, v⟩) rfl hrun
      rw [hend]
      refine ⟨?_, State.grant_asks (Arbiter.waiting_issue t'.arbiter .apply ⟨p, .building, some c⟩)⟩
      rw [hframe, hbase]
      rfl
  · have hexec : exec .tileStep s = .next (s.tileStep acc) := by
      change execTileStep s = _
      rw [execTileStep, show s.accessOf .apply true = some acc from hdone.accessOf]
    have hstep : s.tileStep acc = (((s.tileWritten acc).continueEntry n).evaluateReady).grant := by
      rcases s.tileStep_cases acc with ⟨h | h, -⟩ | ⟨n', -, hn, h⟩
      · rw [hab] at h; cases h
      · rw [hengine] at h; cases h
      · rw [hengine] at hn
        cases hn
        exact h
    obtain ⟨x, y, hfinish⟩ := s.finishAccess_frame acc
    obtain ⟨w, hw⟩ : ∃ w, w = s.tileWritten acc := ⟨_, rfl⟩
    have hwritten : w = { s with
        bufferX := x, bufferY := y, arbiter := { s.arbiter with access := none }, dirty := s.dirty.post acc.pos } := by
      rw [hw, State.tileWritten, hfinish]
    rw [← hw] at hstep
    have hq : w.updateQueue = e :: rest := by rw [hwritten]; exact hqueue
    obtain ⟨t', hquietly, hruns, hformed, hframe⟩ := State.runSteps_quiet_at (s := s) (t := w) (quiet := quiet)
      (more := more) (u := e.update) (before := (e.update.steps s.straps s.wallColumns).take (n + 1)) (n + 1)
      (by rw [hwritten]; exact hf) (by rw [← hsteps, List.take_append_drop, hwritten]; rfl) hquiet
      (by rw [hwritten]; exact ⟨rfl, rfl, rfl, rfl⟩)
    have hrun : w.runSteps ((e.update.steps w.straps w.wallColumns).drop (n + 1)) (n + 1) =
        t'.runSteps more (n + 1 + quiet.length) := by
      rw [show (e.update.steps w.straps w.wallColumns).drop (n + 1) = quiet ++ more by rw [hwritten]; exact hsteps, hruns]
    refine ⟨_, _, hquietly, hexec.trans (congrArg _ hstep), fun p d tail hmore => ?_, fun hmore hnext => ?_,
      fun e2 tail quiet2 p d after hmore hrest hcurrent hp hcatchUp hsteps2 hquiet2 => ?_⟩ <;> subst hmore
    · have hend := State.continueEntry_working hq hrun
      rw [hend]
      refine ⟨?_, ?_, State.evaluateReady_grant_asks
        (Arbiter.waiting_issue t'.arbiter .apply ⟨p, .building, some d⟩), ?_⟩ <;> rw [State.evaluateReady_frame]
      · exact hqueue.symm
      · rfl
      · exact ⟨rfl, rfl, rfl⟩
    · have hend := State.continueEntry_done hq (t := t') hrun
      rw [State.resumeApply_of_waiting (.inr (.inr ⟨rfl, hnext⟩))] at hend
      rw [hend, State.evaluateReady_frame]
      exact ⟨rfl, rfl, rfl, rfl, rfl⟩
    · have hend := State.continueEntry_done hq (t := t') hrun
      obtain ⟨v, hv⟩ : ∃ v : State, v = { t' with updateQueue := rest, applyEngine := .idle } := ⟨_, rfl⟩
      have hframe' : v = { w.withTables t' with updateQueue := rest, applyEngine := .idle } := by rw [hv, ← hframe]
      have hresume : v.resumeApply = v.takeHeads (e2 :: tail) := by
        rw [State.resumeApply_of_ready, hv, hrest]
        · rw [hframe', hwritten]
          exact hp
        · rw [hv]
        · rw [hframe', hwritten]
          exact hcatchUp
      obtain ⟨t2, hquietly2, hruns2, -, hframe2⟩ := State.runSteps_quiet_at (s := s.withTables t') (t := v)
        (quiet := quiet2) (more := .tile p d :: after) (u := e2.update) (before := []) 0
        (by rw [hv]; exact hformed) (by rw [hframe', hwritten]; exact hsteps2) hquiet2
        (by rw [hframe', hwritten]; exact ⟨rfl, rfl, rfl, rfl⟩)
      have hrun2 : v.runSteps (e2.update.steps v.straps v.wallColumns) 0 = t2.runSteps (.tile p d :: after) quiet2.length := by
        rw [show e2.update.steps v.straps v.wallColumns = quiet2 ++ .tile p d :: after by
          rw [hframe', hwritten]; exact hsteps2, hruns2, Nat.zero_add]
      have hend2 := State.takeHeads_working (rest := tail) hcurrent hrun2
      rw [hend, ← hv, hresume, hend2]
      refine ⟨_, hquietly2, ?_, ?_, State.evaluateReady_grant_asks
        (Arbiter.waiting_issue t2.arbiter .apply ⟨p, .building, some d⟩), ?_⟩ <;> rw [State.evaluateReady_frame]
      · exact hrest.symm
      · rfl
      · exact ⟨rfl, rfl, rfl⟩
  · obtain ⟨pos, more, hsteps⟩ := rowclear_steps s.straps s.wallColumns d c r hcolumns
    have hv : s.filtered (.rowclear (topEdge s.straps + r.val) d c) = some (.rowclear (topEdge s.straps + r.val) d c) :=
      State.filtered_eq_some_iff.2 ⟨rfl, hlt, trivial, (Update.queuedAt_iff _ _ _).2
        ⟨Nat.le_add_right _ _, Nat.add_lt_add_left r.isLt _, .inl rfl⟩⟩
    have hexec := exec_update_taken hacc hv hqueue hengine hcatchUp hsealed
    obtain ⟨base, hbase⟩ : ∃ base, base = { s.afterShare 4 f with
      updateQueue := [⟨.current, Update.rowclear (topEdge s.straps + r.val) d c⟩] } := ⟨_, rfl⟩
    rw [← hbase] at hexec
    obtain ⟨cleared, hcleared⟩ : ∃ cleared, cleared = (base.setBuildingDefault r d).doStep (.leftClear r) := ⟨_, rfl⟩
    have htable : cleared.leftTable = s.leftTable.set r LeftRow.empty := by
      rw [hcleared, State.setBuildingDefault_eq, hbase]
      rfl
    have hrun : base.runSteps ((Update.rowclear (topEdge s.straps + r.val) d c).steps base.straps base.wallColumns) 0 =
        cleared.runSteps ((List.range (leftEdge s.straps)).map (fun col => .left r col c) ++ .tile pos c :: more) 2 := by
      have hsteps' := hsteps
      rw [← show base.straps = s.straps by rw [hbase]; rfl, ← show base.wallColumns = s.wallColumns by rw [hbase]; rfl]
        at hsteps'
      rw [hcleared, ← show base.straps = s.straps by rw [hbase]; rfl, hsteps']
      rfl
    rw [State.runSteps_left] at hrun
    have hend := State.takeHeads_working (rest := []) (e := ⟨.current, _⟩) rfl hrun
    rw [hend] at hexec
    have hrow : ∀ k : LocalRow, (cleared.leftTable.set r ((List.range (leftEdge s.straps)).foldl
        (fun row col => row.write col c) cleared.leftTable[r]))[k] =
        if k = r then (List.range (leftEdge s.straps)).foldl (fun row col => row.write col c) LeftRow.empty
        else s.leftTable[k] := fun k => by
      by_cases hk : k = r
      · rw [getFin_set, if_pos hk.symm, if_pos hk, htable, getFin_set, if_pos rfl]
      · rw [getFin_set, if_neg (Ne.symm hk), if_neg hk, htable, getFin_set, if_neg (Ne.symm hk)]
    refine ⟨_, hexec, fun g hg => (hrow r).trans ?_, fun z hz hedge => (hrow r).trans ?_,
      fun z hz hedge => (hrow r).trans ?_, fun k hk => (hrow k).trans (if_neg hk)⟩ <;> rw [if_pos rfl]
    · rw [hg, LeftRow.foldl_glyph]
      rfl
    · rw [hz, LeftRow.foldl_zone, hedge]
      rfl
    · have hwide : 32 ≤ leftEdge s.straps := by
        unfold leftEdge at hedge ⊢
        omega
      rw [hz, LeftRow.foldl_zone, LeftRow.swept, show min (leftEdge s.straps) 16 = 16 by omega, if_neg (by omega)]

end Sys2Proof.Proofs
end


section
/-! SUPPORT. What an accepted BEACON decides (R18, R21, R36 to R39, R165), told of the station before the frame. -/

namespace Sys2Proof.Machine

/-! ### The decisions of a BEACON -/

theorem State.inStep_iff (s : State) (sender : Station) (m : BeaconFields) :
    s.inStep sender m = true ↔ s.AgreesWith sender m := by
  simp only [State.inStep, Bool.and_eq_true, Bool.or_eq_true, decide_eq_true_eq, Bool.not_eq_true']
  refine ⟨fun ⟨⟨hshown, hsealed⟩, harmed⟩ => ⟨hshown, hsealed, fun hf hr => ?_⟩, fun h => ⟨⟨h.shown, h.isSealed⟩, ?_⟩⟩
  · rcases harmed with (h | h) | h
    · rw [hf] at h; cases h
    · rw [hr] at h; cases h
    · exact h
  · cases hf : s.following with
    | true => exact .inl (.inl rfl)
    | false =>
      cases hr : s.requirementSet[sender] with
      | false => exact .inl (.inr rfl)
      | true => exact .inr (h.armed hf hr)

theorem State.flipsAt_eq (s : State) (m : BeaconFields) :
    s.flipsAt m = (s.armedAt m && decide (s.catchUp = .idle)) := by
  simp [State.flipsAt, State.catchingUp, State.armedInForce, State.armedAt]

theorem State.timesOutAt_eq (s : State) (m : BeaconFields) :
    s.timesOutAt m = (!s.armedAt m && s.gen.isSealed && decide (31 ≤ s.gen.sealAge)) := by
  unfold State.timesOutAt
  rw [show decide (32 ≤ s.gen.sealAge + 1) = decide (31 ≤ s.gen.sealAge) from decide_eq_decide.2 (by omega)]
  rfl

/-- An entry goes Silent at an acceptance when the flip timeout names it, or when another station's BEACON is the 48th it
is not heard at (R36, R37). -/
theorem RosterEntry.afterBeacon_silent_iff {e : RosterEntry} (he : e.state ≠ .silent) (isSender named : Bool) :
    (e.afterBeacon isSender named).state = .silent ↔
      named = true ∨ isSender = false ∧ e.isLive = true ∧ 47 ≤ e.silence := by
  unfold RosterEntry.afterBeacon
  cases named with
  | true => simp
  | false =>
    cases isSender with
    | true => simpa using he
    | false =>
      cases hlive : e.isLive with
      | false => simpa using he
      | true =>
        by_cases hs : e.silence < 47
        · simp [hs, he, Nat.not_le.2 hs]
        · simp [hs, Nat.not_lt.1 hs]

@[simp] theorem RosterEntry.afterPromotion_isLive (e : RosterEntry) (b : Bool) : (e.afterPromotion b).isLive = e.isLive := by
  unfold RosterEntry.afterPromotion RosterEntry.isLive
  split
  · rename_i h
    rw [h.1]
    rfl
  · rfl

@[simp] theorem RosterEntry.afterPromotion_silence (e : RosterEntry) (b : Bool) :
    (e.afterPromotion b).silence = e.silence := by
  unfold RosterEntry.afterPromotion
  split <;> rfl

theorem RosterEntry.afterPromotion_silent_iff (e : RosterEntry) (b : Bool) :
    (e.afterPromotion b).state = .silent ↔ e.state = .silent := by
  unfold RosterEntry.afterPromotion
  split
  · rename_i h
    rw [h.1]
    simp
  · rfl

/-- The entries that go Silent at an acceptance (R36, R37). -/
theorem State.rosterAt_silent_iff (s : State) (sender : Station) (m : BeaconFields) {n : Station}
    (h : s.roster[n].state ≠ .silent) : (s.rosterAt sender m)[n].state = .silent ↔
      s.timesOutAt m = true ∧ s.lags n = true ∨ n ≠ sender ∧ s.roster[n].isLive = true ∧ 47 ≤ s.roster[n].silence := by
  rw [s.rosterAt_entry]
  cases s.flipsAt m with
  | true =>
    simp only [if_true]
    rw [RosterEntry.afterBeacon_silent_iff (by rw [Ne, RosterEntry.afterPromotion_silent_iff]; exact h)]
    simp
  | false =>
    simp only [Bool.false_eq_true, if_false]
    rw [RosterEntry.afterBeacon_silent_iff h]
    simp

/-- The own entry goes Silent (R39). -/
theorem State.silencedAt_iff (s : State) (sender : Station) (m : BeaconFields) : s.silencedAt sender m = true ↔
    s.timesOutAt m = true ∧ s.lags s.station = true ∨
      s.station ≠ sender ∧ s.roster[s.station].isLive = true ∧ 47 ≤ s.roster[s.station].silence := by
  have hlive : ∀ n : Station, s.roster[n].isLive = true → s.roster[n].state ≠ .silent := fun n hn he => by
    rw [RosterEntry.isLive, he] at hn
    cases hn
  simp only [State.silencedAt, Bool.and_eq_true, decide_eq_true_eq]
  refine ⟨fun ⟨hne, hs⟩ => (s.rosterAt_silent_iff sender m hne).1 hs, fun h => ?_⟩
  have hne : s.roster[s.station].state ≠ .silent := by
    rcases h with ⟨-, hlags⟩ | ⟨-, hl, -⟩
    · simp only [State.lags, Bool.and_eq_true] at hlags
      exact hlive _ (State.isLive_of_required hlags.1)
    · exact hlive _ hl
  exact ⟨hne, (s.rosterAt_silent_iff sender m hne).2 h⟩

/-- The stations the timeout itself makes Silent (R22). -/
theorem State.timedOutCount_eq (s : State) (sender : Station) : s.timedOutCount sender =
    ((List.finRange 64).filter fun n =>
      s.lags n && (decide (n = sender) || decide (s.roster[n].silence < 47))).length := by
  unfold State.timedOutCount stationCount
  rw [List.countP_eq_length_filter]
  refine congrArg List.length (List.filter_congr fun n _ => ?_)
  simp only [getFin_tabulate, State.timeoutNames_lags]
  cases hlags : s.lags n with
  | false => rfl
  | true =>
    have hl : s.roster[n].isLive = true := by
      simp only [State.lags, Bool.and_eq_true] at hlags
      exact State.isLive_of_required hlags.1
    have hne : s.roster[n].state ≠ .silent := fun he => by
      rw [RosterEntry.isLive, he] at hl
      cases hl
    have hcount : (rosterCount s.roster sender)[n] = s.roster[n].afterBeacon (decide (n = sender)) false := by
      rw [rosterCount, getFin_tabulate, RosterEntry.counted_eq]
    rw [hcount, Bool.eq_iff_iff]
    simp only [Bool.true_and, decide_eq_true_eq, Bool.or_eq_true, ne_eq, RosterEntry.afterBeacon_silent_iff hne, hl]
    by_cases hs : n = sender
    · simp [hs]
    · simp [hs]

/-! ### The share of the frame is no part of them -/

theorem State.afterShare_following (s : State) (cls : BitVec 3) (f : BusFrame) :
    (s.afterShare cls f).following = s.following := by
  unfold State.following
  cases hl : s.life with
  | running st =>
    rw [show (s.afterShare cls f).life = .running st from hl]
    exact isFollowing_congr (s.afterShare_entryState cls f) st _ _
  | unpowered | heldInReset | readingConfiguration =>
    rw [show (s.afterShare cls f).life = _ from hl]

theorem State.afterShare_lags (s : State) (cls : BitVec 3) (f : BusFrame) (n : Station) :
    (s.afterShare cls f).lags n = s.lags n := by
  unfold State.lags State.requirementSet
  rw [show (s.afterShare cls f).gen = s.gen from rfl, s.afterShare_requirementSet]

theorem State.afterShare_armedAt (s : State) (cls : BitVec 3) (f : BusFrame) (m : BeaconFields) :
    (s.afterShare cls f).armedAt m = s.armedAt m := by
  unfold State.armedAt
  rw [s.afterShare_following]
  rfl

theorem State.afterShare_flipsAt (s : State) (cls : BitVec 3) (f : BusFrame) (m : BeaconFields) :
    (s.afterShare cls f).flipsAt m = s.flipsAt m := by
  rw [State.flipsAt_eq, State.flipsAt_eq, s.afterShare_armedAt]
  rfl

theorem State.afterShare_timesOutAt (s : State) (cls : BitVec 3) (f : BusFrame) (m : BeaconFields) :
    (s.afterShare cls f).timesOutAt m = s.timesOutAt m := by
  rw [State.timesOutAt_eq, State.timesOutAt_eq, s.afterShare_armedAt]
  rfl

theorem State.afterShare_inStep (s : State) (cls : BitVec 3) (f : BusFrame) (sender : Station) (m : BeaconFields) :
    (s.afterShare cls f).inStep sender m = s.inStep sender m := by
  unfold State.inStep State.requirementSet
  rw [show (s.afterShare cls f).gen = s.gen from rfl, s.afterShare_requirementSet, s.afterShare_following]

/-- The roster after an acceptance forgets the sender's silence count before it (R30, R36). -/
theorem State.afterShare_rosterAt (s : State) (cls : BitVec 3) (f : BusFrame) (m : BeaconFields) :
    (s.afterShare cls f).rosterAt f.sender m = s.rosterAt f.sender m := by
  refine vector_ext_fin _ _ fun n => ?_
  rw [State.rosterAt_entry, State.rosterAt_entry, s.afterShare_flipsAt, s.afterShare_timesOutAt, s.afterShare_lags,
    s.afterShare_roster, show (s.afterShare cls f).gen = s.gen from rfl]
  by_cases hn : n = f.sender
  · rw [if_pos hn, decide_eq_true hn]
    have hforget : ∀ (e : RosterEntry) (named : Bool),
        RosterEntry.afterBeacon { e with silence := 0 } true named = e.afterBeacon true named := fun e named => by
      cases named <;> rfl
    have hpromote : ∀ (e : RosterEntry) (b : Bool),
        RosterEntry.afterPromotion { e with silence := 0 } b = { e.afterPromotion b with silence := 0 } := fun e b => by
      unfold RosterEntry.afterPromotion
      by_cases h : e.state = .joining ∧ b = true
      · rw [if_pos h, if_pos h]
      · rw [if_neg h, if_neg h]
    cases s.flipsAt m with
    | true =>
      simp only [if_true]
      rw [hpromote, hforget]
    | false =>
      simp only [Bool.false_eq_true, if_false]
      rw [hforget]
  · rw [if_neg hn]

theorem State.afterShare_silencedAt (s : State) (cls : BitVec 3) (f : BusFrame) (m : BeaconFields) :
    (s.afterShare cls f).silencedAt f.sender m = s.silencedAt f.sender m := by
  unfold State.silencedAt
  rw [s.afterShare_rosterAt, s.afterShare_entryState]
  rfl

theorem State.afterShare_promotedAt (s : State) (cls : BitVec 3) (f : BusFrame) (m : BeaconFields) :
    (s.afterShare cls f).promotedAt f.sender m = s.promotedAt f.sender m := by
  unfold State.promotedAt
  rw [s.afterShare_rosterAt, s.afterShare_entryState, s.afterShare_flipsAt]
  rfl

theorem State.afterShare_swapsAt (s : State) (cls : BitVec 3) (f : BusFrame) (m : BeaconFields) :
    (s.afterShare cls f).swapsAt f.sender m = s.swapsAt f.sender m := by
  unfold State.swapsAt
  rw [s.afterShare_rosterAt, s.afterShare_flipsAt]
  rfl

theorem State.afterShare_stateAt (s : State) (cls : BitVec 3) (f : BusFrame) (st : StationState) (m : BeaconFields) :
    (s.afterShare cls f).stateAt st f.sender m = s.stateAt st f.sender m := by
  unfold State.stateAt
  rw [s.afterShare_promotedAt]

theorem State.afterShare_cutsShort (s : State) (cls : BitVec 3) (f : BusFrame) (st : StationState) (m : BeaconFields) :
    (s.afterShare cls f).cutsShort st f.sender m = s.cutsShort st f.sender m := by
  unfold State.cutsShort
  rw [s.afterShare_stateAt, s.afterShare_silencedAt]
  rfl

theorem State.afterShare_generationEvents (s : State) (cls : BitVec 3) (f : BusFrame) (m : BeaconFields) :
    (s.afterShare cls f).generationEvents f.sender m = s.generationEvents f.sender m := by
  have hcount : (s.afterShare cls f).timedOutCount f.sender = s.timedOutCount f.sender := by
    rw [State.timedOutCount_eq, State.timedOutCount_eq]
    refine congrArg List.length (List.filter_congr fun n _ => ?_)
    rw [s.afterShare_lags, s.afterShare_roster]
    by_cases hn : n = f.sender
    · simp [hn]
    · rw [if_neg hn]
  unfold State.generationEvents
  rw [s.afterShare_flipsAt, s.afterShare_timesOutAt, hcount]
  rfl

theorem State.wallWork_afterShare (t s : State) (cls : BitVec 3) (f : BusFrame) (st : StationState) (m : BeaconFields) :
    t.wallWork (s.afterShare cls f) st f.sender m = t.wallWork s st f.sender m := by
  have hrecord : (s.afterShare cls f).recordAt m = s.recordAt m := by
    unfold State.recordAt
    rw [s.afterShare_flipsAt, show (s.afterShare cls f).armedInForce m = s.armedInForce m from s.afterShare_armedAt cls f m]
    rfl
  unfold State.wallWork
  dsimp only
  rw [s.afterShare_stateAt, s.afterShare_rosterAt, s.afterShare_flipsAt, s.afterShare_cutsShort,
    s.afterShare_generationEvents, hrecord, rosterEvents_congr (s.afterShare_entryState cls f)]
  rfl

theorem State.prepared_afterShare (t s : State) (cls : BitVec 3) (f : BusFrame) (st : StationState) (own : Bool)
    (m : BeaconFields) : t.prepared (s.afterShare cls f) st own f.sender m = t.prepared s st own f.sender m := by
  unfold State.prepared
  rw [t.wallWork_afterShare, s.afterShare_swapsAt, s.afterShare_promotedAt]

/-! ### The outcomes of an accepted BEACON (R39, R164, R165) -/

theorem State.Accepts.exec_beacon {s : State} {st : StationState} {f : BusFrame} {m : BeaconFields}
    (h : s.Accepts st 0 f (.beacon m)) : exec (.beacon f) s =
      .next ((s.afterShare 0 f).acceptBeacon st (decide (f.sender = s.station)) f.sender m) := by
  change Host.Outcome.next (s.endFrame 0 f) = _
  rw [h.endFrame, ← State.ownership_item_isSome h.noClash]
  rfl

/-- A BEACON out of step (R165). -/
theorem State.Accepts.exec_beacon_outOfStep {s : State} {st : StationState} {f : BusFrame} {m : BeaconFields}
    (h : s.Accepts st 0 f (.beacon m)) (hstep : ¬ s.AgreesWith f.sender m) : exec (.beacon f) s =
      .next ((((s.afterShare 0 f).takeBeacon m).withdraw .outOfStep).newFrame false) := by
  rw [h.exec_beacon]
  have hout : (s.afterShare 0 f).inStep f.sender m = false := by
    rw [s.afterShare_inStep, Bool.eq_false_iff, Ne, State.inStep_iff]
    exact hstep
  exact congrArg _ (if_neg (by rw [hout]; exact Bool.false_ne_true))

/-- A BEACON in step at which the own entry goes Silent (R39). -/
theorem State.Accepts.exec_beacon_silenced {s : State} {st : StationState} {f : BusFrame} {m : BeaconFields}
    (h : s.Accepts st 0 f (.beacon m)) (hstep : s.AgreesWith f.sender m) (hs : s.silencedAt f.sender m = true) :
    exec (.beacon f) s =
      .next (((((s.afterShare 0 f).takeBeacon m).wallWork s st f.sender m).withdraw .silenced).newFrame false) := by
  rw [h.exec_beacon]
  have hin : (s.afterShare 0 f).inStep f.sender m = true := by
    rw [s.afterShare_inStep]
    exact (s.inStep_iff _ _).2 hstep
  refine congrArg _ ((if_pos hin).trans ?_)
  rw [State.actOnBeacon_of_silenced (by rw [s.afterShare_silencedAt]; exact hs), State.wallWork_afterShare]

/-- A BEACON in step at which it does not. -/
theorem State.Accepts.exec_beacon_heard {s : State} {st : StationState} {f : BusFrame} {m : BeaconFields}
    (h : s.Accepts st 0 f (.beacon m)) (hstep : s.AgreesWith f.sender m) (hs : s.silencedAt f.sender m = false) :
    exec (.beacon f) s = .next (((((s.afterShare 0 f).takeBeacon m).prepared s st (decide (f.sender = s.station)) f.sender
      m).resumeApply.evaluateReady.tellPromotion st (s.promotedAt f.sender m)).grantRace) := by
  rw [h.exec_beacon]
  have hin : (s.afterShare 0 f).inStep f.sender m = true := by
    rw [s.afterShare_inStep]
    exact (s.inStep_iff _ _).2 hstep
  refine congrArg _ ((if_pos hin).trans ?_)
  rw [State.actOnBeacon_of_heard (by rw [s.afterShare_silencedAt]; exact hs), State.prepared_afterShare,
    s.afterShare_promotedAt]

end Sys2Proof.Machine
end


section
/-! SUPPORT. A withdrawal at a BEACON (R39, R165), and the record after an acceptance (R18, R21). -/

namespace Sys2Proof.Machine

/-- A station that withdraws at a BEACON stands down in a new dark frame (R39, R165, R179). `w` is the station at the
withdrawal. -/
theorem State.withdraw_at_beacon {s w : State} (reason : WithdrawReason)
    (hw : ∃ l r g p q b tm e c, w = { s with
      life := l, roster := r, gen := g, presenceCount := p, updateQueue := q, bus := b, timer := tm, events := e
      counters := c })
    (hsync : w.bus.synchronised = s.bus.synchronised) :
    s.StandsDown ((w.withdraw reason).newFrame false) .withdrawn reason ∧
    ((w.withdraw reason).newFrame false).scan.phase = .lead ∧ ((w.withdraw reason).newFrame false).scan.kind = .dark ∧
    ((w.withdraw reason).newFrame false).gen = w.gen ∧ ((w.withdraw reason).newFrame false).counters = w.counters ∧
    ((w.withdraw reason).newFrame false).timer = { w.timer with quietExpiries := 0 } ∧
    ((w.withdraw reason).newFrame false).events = w.events.postAll w.timer.frameNumber
      ((if w.bus.feedQueue = [] then [] else [.feedFlushed w.bus.feedQueue.length])
        ++ [.state .withdrawn (.withdraw reason)]) := by
  obtain ⟨-, htimer, hevents⟩ := w.withdraw_tells reason
  have hlife : (w.withdraw reason).life = .running .withdrawn := (w.withdraw_standsDown reason).state
  have hdraws : (w.withdraw reason).draws = false := by
    unfold State.draws
    rw [hlife]
    rfl
  have hframe : (w.withdraw reason).newFrame false = (w.withdraw reason).beginFrame .dark := by
    rw [State.newFrame_eq, State.fetchesAgain, hdraws, State.frameKind, hdraws]
    rfl
  have hscan := State.beginFrame_scan (w.withdraw reason) .dark
  have hphase : ((w.withdraw reason).newFrame false).scan.phase = .lead := by
    rw [hframe, hscan]
    rfl
  have hkind : ((w.withdraw reason).newFrame false).scan.kind = .dark := by
    rw [hframe, hscan]
    rfl
  have hdown : w.StandsDown ((w.withdraw reason).newFrame false) .withdrawn reason := by
    rw [hframe]
    exact (w.withdraw_standsDown reason).congr (fetch := by rw [hscan]; rfl) (buffer := by rw [hscan]; rfl)
      (dark := fun _ => ⟨by rw [hscan]; rfl, by rw [hscan]; rfl⟩)
  obtain ⟨l, r, g, p, q, b, tm, e, c, rfl⟩ := hw
  refine ⟨{ hdown with interface := ?_, dark := fun _ => ⟨hphase, hkind⟩ }, hphase, hkind, ?_, ?_, ?_, ?_⟩
  · rw [← hsync]
    exact hdown.interface
  · simp
  · simp
  · rw [hframe]
    exact htimer
  · rw [hframe]
    exact hevents

/-- The record after a flip, settled (R18). -/
theorem GenerationRecord.flip_settle (g : GenerationRecord) (st : StationState) (own : Station) (r : Roster) :
    g.flip.settle st own r = { shown := g.shown + 1, isSealed := false, sealer := none, baseline := none
                               revealBuilding := false, revealShown := g.revealBuilding
                               readySet := Vector.replicate 64 false, armed := false, sealAge := 0
                               announced := false } := by
  have hnone : ∀ b : StationSet, stationInter (Vector.replicate 64 false) b = Vector.replicate 64 false := fun b =>
    vector_ext_fin _ _ fun n => by
      rw [getFin_stationInter]
      simp
  unfold GenerationRecord.settle GenerationRecord.flip StationSet.empty
  simp only [Option.map_none, hnone, computedArmed, Bool.false_and, Bool.and_false]
  rfl

/-- The record after an acceptance without a flip: the seal age alone rises (R21). -/
theorem State.recordAt_unflipped {s : State} {m : BeaconFields} (h : s.flipsAt m = false) : s.recordAt m = { s.gen with
    sealAge := if s.armedAt m = false ∧ s.gen.isSealed = true ∧ s.gen.sealAge < 32 then s.gen.sealAge + 1
               else s.gen.sealAge } := by
  unfold State.recordAt GenerationRecord.aged
  rw [h, show s.armedInForce m = s.armedAt m from rfl]
  cases s.armedAt m with
  | true => rfl
  | false =>
    simp only [Bool.false_eq_true, if_false, true_and, Bool.and_eq_true, decide_eq_true_eq]
    split <;> rfl

/-- The same, settled (R7, R11, R16). -/
theorem State.recordAt_settle {s : State} {m : BeaconFields} (h : s.flipsAt m = false) (st : StationState)
    (own : Station) (r : Roster) : (s.recordAt m).settle st own r = { s.gen with
      baseline := ((s.recordAt m).settle st own r).baseline, readySet := ((s.recordAt m).settle st own r).readySet
      armed := ((s.recordAt m).settle st own r).armed
      sealAge := if s.armedAt m = false ∧ s.gen.isSealed = true ∧ s.gen.sealAge < 32 then s.gen.sealAge + 1
                 else s.gen.sealAge } := by
  rw [State.recordAt_unflipped h]
  rfl

theorem State.afterShare_synchronised (s : State) (cls : BitVec 3) (f : BusFrame) :
    (s.afterShare cls f).bus.synchronised = s.bus.synchronised := by
  rw [s.afterShare_bus]
  cases (s.ownership cls f).item with
  | none => rfl
  | some item => cases item <;> rfl

end Sys2Proof.Machine
end

section
/-! PROOFS. A BEACON that withdraws the station (R39, R165). -/

namespace Sys2Proof.Proofs

open Sys2Proof.Machine

/-- The feed queue at another station's frame. -/
theorem afterShare_feedQueue_of_foreign {s : State} {cls : BitVec 3} {f : BusFrame} (h : f.sender ≠ s.station) :
    (s.afterShare cls f).bus.feedQueue = s.bus.feedQueue := by
  rw [s.afterShare_bus, State.item_none_of_foreign h]
  rfl

/-- Settles O40: the withdrawal of a station out of step. -/
theorem outOfStepWithdraws : Obligations.OutOfStepWithdraws := by
  intro s st f m hacc hforeign hstep
  obtain ⟨w, hw⟩ : ∃ w, w = (s.afterShare 0 f).takeBeacon m := ⟨_, rfl⟩
  have hexec := hacc.exec_beacon_outOfStep hstep
  rw [← hw] at hexec
  obtain ⟨hdown, hphase, hkind, hgen, hcounters, htimer, hevents⟩ := State.withdraw_at_beacon (s := s) (w := w) .outOfStep
    (by rw [hw]; exact ⟨_, _, _, _, _, _, _, _, _, rfl⟩) (by rw [hw]; exact s.afterShare_synchronised 0 f)
  have hqueue : w.bus.feedQueue = s.bus.feedQueue := by
    rw [hw]
    exact afterShare_feedQueue_of_foreign hforeign
  rw [hqueue] at hevents
  refine ⟨_, hexec, hdown, ?_, ?_, ?_, ?_, hphase, hkind⟩
  · rw [hgen, hw]
    rfl
  · rw [hcounters, hw]
    rfl
  · rw [htimer, hw]
    rfl
  · rw [hevents, hw]
    rfl

/-- Settles O42: the withdrawal of a station whose own entry goes Silent. -/
theorem silentOwnEntryWithdraws : Obligations.SilentOwnEntryWithdraws := by
  intro s st f m hacc hstep hforeign hlive hcause
  have hsilenced : s.silencedAt f.sender m = true := by
    rw [State.silencedAt_iff]
    rcases hcause with h | ⟨harmed, hsealed, hage, hlags⟩
    · exact .inr ⟨Ne.symm hforeign, hlive, h⟩
    · exact .inl ⟨by simp [State.timesOutAt_eq, harmed, hsealed, hage], hlags⟩
  obtain ⟨w, hw⟩ : ∃ w, w = ((s.afterShare 0 f).takeBeacon m).wallWork s st f.sender m := ⟨_, rfl⟩
  have hexec := hacc.exec_beacon_silenced hstep hsilenced
  rw [← hw] at hexec
  have hshort : s.cutsShort st f.sender m = false := by
    unfold State.cutsShort
    rw [hsilenced]
    simp
  obtain ⟨hdown, hphase, hkind, hgen, hcounters, htimer, hevents⟩ := State.withdraw_at_beacon (s := s) (w := w) .silenced
    (by rw [hw]; exact ⟨_, _, _, _, _, _, _, _, _, rfl⟩) (by rw [hw]; exact s.afterShare_synchronised 0 f)
  have hqueue : w.bus.feedQueue = s.bus.feedQueue := by
    rw [hw]
    exact afterShare_feedQueue_of_foreign hforeign
  have hposted : w.events = s.events.postAll m.frameNumber
      (s.generationEvents f.sender m ++ rosterEvents s.roster (s.rosterAt f.sender m)) := by
    rw [hw]
    unfold State.wallWork
    rw [hshort]
    rfl
  have hnumber : w.timer.frameNumber = m.frameNumber := by
    rw [hw]
    rfl
  rw [hqueue, hposted, hnumber, ← EventQueue.postAll_append] at hevents
  refine ⟨_, hexec, hdown, ?_, ?_, ?_, hphase, hkind, ?_⟩
  · rw [htimer, hw]
    rfl
  · rw [hcounters, hw]
    unfold State.wallWork
    rw [hshort]
    rfl
  · rw [hevents, ← List.append_assoc, EventQueue.postAll_concat]
    exact EventQueue.post_endsWithState _ _ _ _
  intro flips timesOut count
  have hflips : s.flipsAt m = flips := s.flipsAt_eq m
  have htimesOut : s.timesOutAt m = timesOut := s.timesOutAt_eq m
  have hcount : s.timedOutCount f.sender = count := s.timedOutCount_eq f.sender
  refine ⟨⟨s.rosterAt f.sender m, fun n => ?_, ?_⟩, fun hf => ?_, fun hf => ?_⟩
  · rw [s.rosterAt_entry, hflips, htimesOut]
  · rw [hevents]
    unfold State.generationEvents
    rw [hflips, htimesOut, hcount, List.append_assoc, List.append_assoc, List.append_assoc]
    simp only [Bool.and_eq_true, decide_eq_true_eq]
    rfl
  · rw [hgen, hw]
    unfold State.wallWork State.recordAt
    rw [hflips, hf]
    exact s.gen.flip_settle _ _ _
  · rw [hgen, hw]
    exact State.recordAt_settle (hflips.trans hf) _ _ _

end Sys2Proof.Proofs
end


section
/-! SUPPORT. A BEACON that a station accepts in step and stays in the wall at (R111, R118, R164). -/

namespace Sys2Proof.Machine

/-! ### When the named cases of a BEACON hold (notes/assumptions/4.md) -/

theorem State.Accepts.judge_none {s : State} {st : StationState} {f : BusFrame} {m : BeaconFields}
    (h : s.Accepts st 0 f (.beacon m)) : s.judge 0 f = none := by
  unfold State.judge
  rw [if_neg (by simp [h.checkGood]), h.layout]

/-- An accepted BEACON in step is a good one. -/
theorem State.Accepts.goodBeacon {s : State} {st : StationState} {f : BusFrame} {m : BeaconFields}
    (h : s.Accepts st 0 f (.beacon m)) (hstep : s.AgreesWith f.sender m) : s.goodBeacon f = some m := by
  have hkeys : st.readsKeys = true := by
    have hw := h.inWall
    cases st with
    | joining | member | leaving _ => rfl
    | halted | listening | withdrawn | clashed => cases hw
  have hjudges : s.judges 0 f = true := by
    rw [State.judges, State.participates_running h.running, h.inWall, State.reads_running h.running, h.synchronised,
      hkeys, decide_eq_true h.noClash]
    rfl
  have hclean : s.spoiledHere 0 f = false := by
    rw [State.spoiledHere, h.judge_none, h.unspoiled]
    exact Bool.and_false _
  unfold State.goodBeacon
  rw [hjudges, hclean, h.layout]
  exact if_pos ((s.inStep_iff _ _).2 hstep)

theorem exec_presenceInterval_of {s : State} {f : BusFrame} (h : s.presenceIntervalAt f = true) :
    exec (.presenceInterval f) s = exec (.beacon f) s := if_pos h

theorem exec_silenceTimeout_of {s : State} {f : BusFrame} (h : s.silenceTimeoutAt f = true) :
    exec (.silenceTimeout f) s = exec (.beacon f) s := if_pos h

theorem exec_flipTimeout_of {s : State} {f : BusFrame} (h : s.flipTimeoutAt f = true) :
    exec (.flipTimeout f) s = exec (.beacon f) s := if_pos h

/-! ### The parts of an acceptance (R164) -/

theorem State.newFrame_frame (s : State) (swapped : Bool) : s.newFrame swapped = { s with
    scan := (s.newFrame swapped).scan, arbiter := (s.newFrame swapped).arbiter, freeCount := s.freeCount + 1 } := by
  rw [State.newFrame_eq]
  split <;> rfl

theorem State.grantRace_frame (s : State) : ∃ a k, s.grantRace = { s with arbiter := a, freeCount := k } := by
  unfold State.grantRace
  split
  · exact ⟨_, _, rfl⟩
  · exact ⟨_, s.freeCount, rfl⟩

/-- What apply's resumption, READY, the promotion's event and the grant touch at the end of an acceptance. -/
theorem State.concluded_frame (p : State) (st : StationState) (promoted : Bool) :
    (p.resumeApply.evaluateReady.tellPromotion st promoted).grantRace.shownDefaults = p.shownDefaults ∧
    ∃ n r q e dx dy l a k, (p.resumeApply.evaluateReady.tellPromotion st promoted).grantRace = { p with
      gen := { p.gen with announced := n }, bus := { p.bus with readyPending := r }, updateQueue := q, applyEngine := e
      defaultsX := dx, defaultsY := dy, leftTable := l, arbiter := a, freeCount := k
      events := p.events.postAll p.timer.frameNumber
        (if promoted && decide (st = .joining) then [.state .member .promoted] else []) } := by
  obtain ⟨⟨q, e, dx, dy, l, a, hw⟩, hdefaults⟩ := State.Works.resumeApply p
  have hready : ∃ n r, p.resumeApply.evaluateReady = { p.resumeApply with
      gen := { p.resumeApply.gen with announced := n }, bus := { p.resumeApply.bus with readyPending := r } } := by
    unfold State.evaluateReady
    split
    · exact ⟨_, _, rfl⟩
    · exact ⟨p.resumeApply.gen.announced, p.resumeApply.bus.readyPending, rfl⟩
  obtain ⟨n, r, hr⟩ := hready
  have htell : p.resumeApply.evaluateReady.tellPromotion st promoted = { p.resumeApply.evaluateReady with
      events := p.events.postAll p.timer.frameNumber
        (if promoted && decide (st = .joining) then [.state .member .promoted] else []) } := by
    unfold State.tellPromotion
    rw [hr, hw]
    split <;> rfl
  obtain ⟨b, k, hg⟩ := (p.resumeApply.evaluateReady.tellPromotion st promoted).grantRace_frame
  refine ⟨?_, n, r, q, e, dx, dy, l, b, k, ?_⟩
  · rw [hg, htell, hr]
    exact hdefaults
  · rw [hg, htell, hr, hw]

/-- Without a swap, an acceptance counts presence and begins a new display frame (R41, R111). -/
theorem State.prepared_of_no_swap (t : State) {s : State} {sender : Station} {m : BeaconFields}
    (h : s.swapsAt sender m = false) (st : StationState) (own : Bool) : t.prepared s st own sender m =
      ((t.wallWork s st sender m).countPresence own (s.promotedAt sender m)).newFrame false := by
  unfold State.prepared State.swapIf State.copyIf
  rw [h]
  rfl

theorem State.promotedAt_of_no_flip {s : State} {m : BeaconFields} (h : s.flipsAt m = false) (sender : Station) :
    s.promotedAt sender m = false := by
  unfold State.promotedAt
  rw [h]
  rfl

theorem State.stateAt_of_no_flip {s : State} {m : BeaconFields} (h : s.flipsAt m = false) (st : StationState)
    (sender : Station) : s.stateAt st sender m = st := by
  unfold State.stateAt
  rw [State.promotedAt_of_no_flip h]
  rfl

/-- Presence counting at an acceptance (R35, R41). -/
theorem State.prepared_presence (t s : State) (st : StationState) (own : Bool) (sender : Station) (m : BeaconFields) :
    (t.prepared s st own sender m).presenceCount = (if own then 0 else min 16 (t.presenceCount + 1)) ∧
    (t.prepared s st own sender m).bus.presencePending = (t.bus.presencePending ||
      ((decide (s.stateAt st sender m = .joining) || decide (s.stateAt st sender m = .member)) &&
        decide ((if own then 0 else min 16 (t.presenceCount + 1)) = 16) ||
      (s.promotedAt sender m && decide (s.stateAt st sender m = .member)))) := by
  obtain ⟨w, hw⟩ : ∃ w, w = (t.wallWork s st sender m).swapIf (s.swapsAt sender m) := ⟨_, rfl⟩
  have hlife : w.life = .running (s.stateAt st sender m) := by
    rw [hw]
    unfold State.swapIf
    split <;> rfl
  have hcount : w.presenceCount = t.presenceCount := by
    rw [hw]
    unfold State.swapIf
    split <;> rfl
  have hpending : w.bus.presencePending = t.bus.presencePending := by
    rw [hw]
    unfold State.swapIf
    split <;> rfl
  unfold State.prepared
  rw [← hw]
  have hcopy : ∀ (v : State) (a b : Bool), (v.copyIf a b).presenceCount = v.presenceCount ∧
      (v.copyIf a b).bus = v.bus := fun v a b => by simp
  rw [(hcopy _ _ _).1, (hcopy _ _ _).2, (w.countPresence own (s.promotedAt sender m)).newFrame_frame]
  unfold State.countPresence
  rw [hlife, hcount, hpending]
  simp only [Life.running.injEq]
  exact ⟨trivial, trivial⟩

/-- A station in Joining or Member stays in one of the two while it stays in the wall (R39, R173). -/
theorem State.stateAt_inWall (s : State) {st : StationState} (h : st = .joining ∨ st = .member) (sender : Station)
    (m : BeaconFields) : s.stateAt st sender m = .joining ∨ s.stateAt st sender m = .member := by
  unfold State.stateAt
  split
  · rcases h with rfl | rfl
    · exact .inr rfl
    · exact .inr rfl
  · exact h

/-! ### The arbiter of an acceptance (R118, R134 to R136) -/

namespace Arbiter.Hands

theorem issue_apply {a : Arbiter} (h : a.apply = none) (q : Request) : a.Hands (a.issue .apply q) false :=
  ⟨by simp [Arbiter.issue, Arbiter.setWaiting], rfl, fun p hp => (by rw [h] at hp; cases hp), fun _ h => h⟩

theorem issue_catchUp {a : Arbiter} (h : a.catchUp = none) (q : Request) : a.Hands (a.issue .catchUp q) false :=
  ⟨by simp [Arbiter.issue, Arbiter.setWaiting], rfl, fun _ h => h, fun p hp => by rw [h] at hp; cases hp⟩

/-- A new display frame gives up the row fetch where it begins again (R118). -/
theorem newFrame (s : State) (swapped : Bool) :
    s.arbiter.Hands (s.newFrame swapped).arbiter (s.fetchesAgain swapped) := by
  rw [s.newFrame_arbiter]
  cases s.fetchesAgain swapped with
  | false => exact refl _
  | true =>
    have hhands := (withdraw_rowFetch s.arbiter).trans (issue_rowFetch (s.arbiter.withdraw .rowFetch) ⟨⟨0, 0⟩, .shown, none⟩)
    exact hhands

/-- An idle engine has no request waiting, so its new one replaces none (R64). -/
theorem resumeApply {s : State} (h : s.arbiter.apply.isSome = true → s.applyEngine ≠ .idle) :
    s.arbiter.Hands s.resumeApply.arbiter false := by
  rcases s.resumeApply_applies with he | ⟨hidle, -, -, he⟩ <;> rw [he]
  · exact refl _
  · have hnone : s.arbiter.apply = none := by
      cases ha : s.arbiter.apply with
      | none => rfl
      | some q => exact absurd hidle (h (by rw [ha]; rfl))
    rcases s.takeHeads_applies s.updateQueue with ⟨-, ha⟩ | ⟨-, p, c, ha⟩ <;> rw [ha]
    · exact refl _
    · exact issue_apply hnone _

/-- What an acceptance hands its grant. -/
theorem concluded {s p : State} {d : Bool} (h : s.arbiter.Hands p.arbiter d)
    (hworking : p.arbiter.apply.isSome = true → p.applyEngine ≠ .idle) (st : StationState) (promoted : Bool) :
    s.arbiter.Hands (p.resumeApply.evaluateReady.tellPromotion st promoted).arbiter d := by
  have hresumed := h.trans (resumeApply hworking)
  rw [Bool.or_false] at hresumed
  have hsame : (p.resumeApply.evaluateReady.tellPromotion st promoted).arbiter = p.resumeApply.arbiter := by
    unfold State.tellPromotion
    split
    · exact p.resumeApply.evaluateReady_arbiter
    · exact p.resumeApply.evaluateReady_arbiter
  rw [hsame]
  exact hresumed

end Arbiter.Hands

theorem State.fetchesAgain_eq (s : State) (swapped : Bool) {st : StationState} (h : s.life = .running st) :
    s.fetchesAgain swapped = (st.draws && (swapped || s.scan.phase.isActive)) := by
  unfold State.fetchesAgain State.draws
  rw [h]

/-- The arbiter of an acceptance without a swap (R118, R135, R136). -/
theorem State.heard_arbiterKeeps {s t : State} {st : StationState} {own : Bool} {sender : Station} {m : BeaconFields}
    (hformed : s.ArbiterFormed) (arbiter : t.arbiter = s.arbiter) (engine : t.applyEngine = s.applyEngine)
    (scan : t.scan = s.scan) (hswap : s.swapsAt sender m = false) :
    s.ArbiterKeeps ((t.prepared s st own sender m).resumeApply.evaluateReady.tellPromotion st
      (s.promotedAt sender m)).grantRace (s.scan.phase.isActive && (s.stateAt st sender m).draws) := by
  have hprepared := t.prepared_of_no_swap hswap st own
  obtain ⟨c, hc⟩ : ∃ c, c = (t.wallWork s st sender m).countPresence own (s.promotedAt sender m) := ⟨_, rfl⟩
  have hcarb : c.arbiter = s.arbiter := by
    rw [hc]
    exact arbiter
  have hagain : c.fetchesAgain false = (s.scan.phase.isActive && (s.stateAt st sender m).draws) := by
    rw [c.fetchesAgain_eq (st := s.stateAt st sender m) false (by rw [hc]; rfl), Bool.false_or, Bool.and_comm,
      show c.scan = s.scan by rw [hc]; exact scan]
  have hhands := Arbiter.Hands.newFrame c false
  rw [hagain, hcarb] at hhands
  rw [← hc] at hprepared
  rw [hprepared]
  refine Arbiter.Hands.grant (Arbiter.Hands.concluded hhands (fun h => ?_) st _) (State.grantRace_arbiterKeeps _).1
  have hengine : (c.newFrame false).applyEngine = s.applyEngine := by
    rw [c.newFrame_frame, hc]
    exact engine
  rw [hengine]
  refine hformed.working.1 ?_
  rw [← hcarb]
  rw [c.newFrame_arbiter] at h
  cases hf : c.fetchesAgain false with
  | false => rw [hf] at h; exact h
  | true => rw [hf] at h; exact h

/-! ### An acceptance without a flip (R21, R36, R41) -/

/-- The station at an acceptance without a flip, before its new display frame. -/
def State.aged (s : State) (st : StationState) (f : BusFrame) (m : BeaconFields) : State :=
  (((s.afterShare 0 f).takeBeacon m).wallWork s st f.sender m).countPresence (decide (f.sender = s.station)) false

theorem State.Accepts.aged_frame {s : State} {st : StationState} {f : BusFrame} {m : BeaconFields}
    (h : s.Accepts st 0 f (.beacon m)) (hflips : s.flipsAt m = false) (hs : s.silencedAt f.sender m = false) :
    s.aged st f m = { s.afterShare 0 f with
      gen := (s.recordAt m).settle st s.station (s.rosterAt f.sender m)
      roster := s.rosterAt f.sender m
      presenceCount := if f.sender = s.station then 0 else min 16 (s.presenceCount + 1)
      bus := { (s.afterShare 0 f).bus with
        beaconPending := false
        presencePending := (s.afterShare 0 f).bus.presencePending || (decide (st = .joining ∨ st = .member) &&
          decide ((if f.sender = s.station then 0 else min 16 (s.presenceCount + 1)) = 16)) }
      timer := { s.timer with frameTimer := .running s.period, frameNumber := m.frameNumber }
      events := s.events.postAll m.frameNumber
        ((if decide (s.scan.kind = .drawing) && s.scan.phase.isActive && st.draws then [.shortFrame] else [])
          ++ s.generationEvents f.sender m ++ rosterEvents s.roster (s.rosterAt f.sender m))
      counters := { (s.afterShare 0 f).counters with
        shortFrames := if decide (s.scan.kind = .drawing) && s.scan.phase.isActive && st.draws
          then rise s.counters.shortFrames else s.counters.shortFrames } } := by
  have hcut : s.cutsShort st f.sender m = (decide (s.scan.kind = .drawing) && s.scan.phase.isActive && st.draws) := by
    unfold State.cutsShort
    rw [State.stateAt_of_no_flip hflips, hs]
    exact Bool.and_true _
  have hcount : (if decide (f.sender = s.station) = true then 0
        else min 16 (((s.afterShare 0 f).takeBeacon m).presenceCount + 1)) =
      if f.sender = s.station then 0 else min 16 (s.presenceCount + 1) := by
    by_cases hown : f.sender = s.station
    · rw [if_pos hown, if_pos (decide_eq_true hown)]
    · rw [if_neg hown, if_neg (by simpa using hown)]
      change min 16 ((if (s.ownership 0 f).item.isSome then 0 else s.presenceCount) + 1) = _
      rw [State.item_none_of_foreign hown]
      rfl
  have hinWall : (decide (Life.running st = .running .joining) || decide (Life.running st = .running .member)) =
      decide (st = .joining ∨ st = .member) := by
    cases st <;> simp
  have hlife : (s.afterShare 0 f).life = .running st := h.running
  unfold State.aged State.countPresence State.wallWork
  dsimp only
  rw [State.stateAt_of_no_flip hflips, hflips, hcut, hinWall, hcount, Bool.false_and, Bool.or_false, hlife]
  cases (decide (s.scan.kind = .drawing) && s.scan.phase.isActive && st.draws) <;> rfl

/-- An acceptance without a flip at which the own entry does not go Silent. -/
theorem State.Accepts.exec_beacon_aged {s : State} {st : StationState} {f : BusFrame} {m : BeaconFields}
    (h : s.Accepts st 0 f (.beacon m)) (hstep : s.AgreesWith f.sender m) (hflips : s.flipsAt m = false)
    (hs : s.silencedAt f.sender m = false) : exec (.beacon f) s =
      .next (((s.aged st f m).newFrame false).resumeApply.evaluateReady.tellPromotion st false).grantRace := by
  rw [h.exec_beacon_heard hstep hs, State.prepared_of_no_swap _ (State.swapsAt_of_no_flip hflips f.sender),
    State.promotedAt_of_no_flip hflips]
  rfl

end Sys2Proof.Machine
end

section
/-! PROOFS. A BEACON accepted without a flip: PRESENCE_INTERVAL, SILENCE_TIMEOUT and FLIP_TIMEOUT. -/

namespace Sys2Proof.Proofs

open Sys2Proof.Machine

/-- The own entry does not go Silent where it is heard and the timeout does not name it (R39). -/
theorem silencedAt_eq_false {s : State} {sender : Station} {m : BeaconFields}
    (hheard : sender = s.station ∨ s.roster[s.station].silence < 47)
    (hnamed : s.timesOutAt m = true → s.lags s.station = false) : s.silencedAt sender m = false := by
  refine Bool.eq_false_iff.2 fun h => ?_
  rcases (s.silencedAt_iff sender m).1 h with ⟨htimes, hlags⟩ | ⟨hforeign, -, hsilence⟩
  · rw [hnamed htimes] at hlags
    cases hlags
  · rcases hheard with h | h
    · exact hforeign h.symm
    · omega

/-- Settles O44: the sixteenth BEACON sets PRESENCE pending, with a flip or without. -/
theorem presenceIntervalSetsPresence : Obligations.PresenceIntervalSetsPresence := by
  intro s st f m hacc hstep hforeign hst hcount hpending hsilence hnamed
  have hsilenced : s.silencedAt f.sender m = false := silencedAt_eq_false (.inr hsilence) fun htimes => by
    simp only [State.timesOutAt_eq, Bool.and_eq_true, Bool.not_eq_true', decide_eq_true_eq] at htimes
    obtain ⟨⟨harmed, hsealed⟩, hage⟩ := htimes
    rcases hnamed with h | h | h | h
    · rw [harmed] at h; cases h
    · rw [hsealed] at h; cases h
    · omega
    · exact h
  have hcase : s.presenceIntervalAt f = true := by
    unfold State.presenceIntervalAt
    rw [hacc.goodBeacon hstep, hacc.running, hpending]
    rcases hst with rfl | rfl <;> simp [hsilenced, hforeign, hcount]
  have hexec := hacc.exec_beacon_heard hstep hsilenced
  refine ⟨_, (exec_presenceInterval_of hcase).trans hexec, hexec, ?_⟩
  obtain ⟨p, hp⟩ : ∃ p, p = ((s.afterShare 0 f).takeBeacon m).prepared s st (decide (f.sender = s.station)) f.sender m :=
    ⟨_, rfl⟩
  rw [← hp]
  obtain ⟨-, n, r, q, e, dx, dy, l, a, k, hframe⟩ := State.concluded_frame p st (s.promotedAt f.sender m)
  obtain ⟨hpresence, hpresencePending⟩ := State.prepared_presence ((s.afterShare 0 f).takeBeacon m) s st
    (decide (f.sender = s.station)) f.sender m
  have hbefore : ((s.afterShare 0 f).takeBeacon m).presenceCount = s.presenceCount := by
    change (if (s.ownership 0 f).item.isSome then 0 else s.presenceCount) = _
    rw [State.item_none_of_foreign hforeign]
    rfl
  have hsixteen : (if decide (f.sender = s.station) = true then 0
      else min 16 (((s.afterShare 0 f).takeBeacon m).presenceCount + 1)) = 16 := by
    rw [hbefore, decide_eq_false hforeign, if_neg Bool.false_ne_true]
    omega
  rw [← hp, hsixteen] at hpresence hpresencePending
  rw [hframe]
  refine ⟨hpresence, hpresencePending.trans ?_, ?_⟩
  · rcases s.stateAt_inWall hst f.sender m with h | h <;> simp [h]
  · have htimer : p.timer = ((s.afterShare 0 f).takeBeacon m).timer := by
      rw [hp]
      simp
    change p.timer.frameNumber = _
    rw [htimer]
    rfl

/-- An acceptance without a flip: what it makes of the wall's state (R7, R11, R16, R21, R36, R37), and what of the arbiter
(R118, R136). -/
theorem exec_beacon_unflipped {s : State} {st : StationState} {f : BusFrame} {m : BeaconFields}
    (hacc : s.Accepts st 0 f (.beacon m)) (hstep : s.AgreesWith f.sender m) (hformed : s.ArbiterFormed)
    (hflips : s.flipsAt m = false) (hsilenced : s.silencedAt f.sender m = false) :
    ∃ t, exec (.beacon f) s = .next t ∧ t.life = .running st ∧ t.roster = s.rosterAt f.sender m ∧
      s.RecordFollows t ∧
      (∃ n, t.gen = { (s.recordAt m).settle st s.station (s.rosterAt f.sender m) with announced := n }) ∧
      t.events = s.events.postAll m.frameNumber
        ((if decide (s.scan.kind = .drawing) && s.scan.phase.isActive && st.draws then [.shortFrame] else [])
          ++ s.generationEvents f.sender m ++ rosterEvents s.roster (s.rosterAt f.sender m)) ∧
      t.shownDefaults = s.shownDefaults ∧ t.shown = s.shown ∧ t.bufferX = s.bufferX ∧ t.bufferY = s.bufferY ∧
      t.entryRecords = s.entryRecords ∧ t.dirty = s.dirty ∧ t.catchUp = s.catchUp ∧
      s.ArbiterKeeps t (s.scan.phase.isActive && st.draws) := by
  have hswap := State.swapsAt_of_no_flip hflips f.sender
  have hkeeps := State.heard_arbiterKeeps (s := s) (t := (s.afterShare 0 f).takeBeacon m) (st := st)
    (own := decide (f.sender = s.station)) (sender := f.sender) (m := m) hformed rfl rfl rfl hswap
  rw [State.prepared_of_no_swap _ hswap, State.promotedAt_of_no_flip hflips, State.stateAt_of_no_flip hflips] at hkeeps
  have hexec := hacc.exec_beacon_aged hstep hflips hsilenced
  have hrecord := State.recordAt_unflipped hflips
  obtain ⟨p, hp⟩ : ∃ p, p = (s.aged st f m).newFrame false := ⟨_, rfl⟩
  rw [← hp] at hexec
  change s.ArbiterKeeps (((s.aged st f m).newFrame false).resumeApply.evaluateReady.tellPromotion st false).grantRace _
    at hkeeps
  rw [← hp] at hkeeps
  obtain ⟨hdefaults, n, r, q, e, dx, dy, l, a, k, hframe⟩ := State.concluded_frame p st false
  rw [State.newFrame_frame, hacc.aged_frame hflips hsilenced] at hp
  refine ⟨_, hexec, ?_, ?_, ?_, ?_, ?_, hdefaults.trans ?_, ?_, ?_, ?_, ?_, ?_, ?_, hkeeps⟩
  · rw [hframe, hp]
    exact hacc.running
  · rw [hframe, hp]
  · rw [hframe, hp]
    exact GenerationRecord.settle_follows s _ st (s.recordAt m) (by rw [hrecord]) (by rw [hrecord]) hacc.running ⟨n, rfl⟩
  · rw [hframe, hp]
    exact ⟨n, rfl⟩
  · rw [hframe, hp]
    rfl
  · rw [hp]
    rfl
  all_goals
    rw [hframe, hp]
    rfl

/-- The silence counts that reach 48 show in the row that names them. -/
theorem silenceTimeoutAt_of {s : State} {st : StationState} {f : BusFrame} {m : BeaconFields} {n : Station}
    (hacc : s.Accepts st 0 f (.beacon m)) (hstep : s.AgreesWith f.sender m) (hn : n ≠ f.sender)
    (hlive : s.roster[n].isLive = true) (hs : 47 ≤ s.roster[n].silence) : s.silenceTimeoutAt f = true := by
  have hne : s.roster[n].state ≠ .silent := fun he => by
    rw [RosterEntry.isLive, he] at hlive
    cases hlive
  have hsilent : (rosterCount s.roster f.sender)[n].state = .silent := by
    rw [rosterCount, getFin_tabulate, RosterEntry.counted_eq]
    exact (RosterEntry.afterBeacon_silent_iff hne _ _).2 (.inr ⟨decide_eq_false hn, hlive, hs⟩)
  unfold State.silenceTimeoutAt
  rw [hacc.goodBeacon hstep, Bool.and_eq_true, List.any_eq_true]
  exact ⟨rfl, n, List.mem_finRange n, by rw [hsilent]; simpa using hne⟩

theorem timesOutAt_eq_false {s : State} {m : BeaconFields} (h : s.gen.isSealed = false ∨ s.gen.sealAge < 31) :
    s.timesOutAt m = false := by
  rw [State.timesOutAt_eq]
  rcases h with h | h
  · rw [h, Bool.and_false, Bool.false_and]
  · rw [decide_eq_false (Nat.not_le.2 h), Bool.and_false]

/-- Neither FLIP nor FLIP_TIMEOUT is posted without a flip and without a flip timeout. -/
theorem generationEvents_eq_nil {s : State} {m : BeaconFields} (hflips : s.flipsAt m = false)
    (htimes : s.timesOutAt m = false) (sender : Station) : s.generationEvents sender m = [] := by
  unfold State.generationEvents
  rw [hflips, htimes]
  rfl

/-- Settles O43: an entry that another station's BEACON makes Silent leaves the record. -/
theorem silenceTimeoutMakesSilent : Obligations.SilenceTimeoutMakesSilent := by
  refine ⟨fun s st f m hacc hstep ⟨n, hn, hlive, hs⟩ => exec_silenceTimeout_of (silenceTimeoutAt_of hacc hstep hn hlive hs),
    fun s st f m k hacc hstep harmed hunsealed hk hlive hs hformed hown => ?_⟩
  have hflips : s.flipsAt m = false := by rw [State.flipsAt_eq, harmed, Bool.false_and]
  have htimes := timesOutAt_eq_false (m := m) hunsealed
  have hsilenced : s.silencedAt f.sender m = false := silencedAt_eq_false hown fun h => by rw [htimes] at h; cases h
  obtain ⟨t, hexec, hlife, hroster, hfollows, ⟨n, hgen⟩, hevents, -, -, -, -, -, -, -, hkeeps⟩ :=
    exec_beacon_unflipped hacc hstep hformed hflips hsilenced
  have hentry : ∀ n : Station, t.roster[n] = s.roster[n].afterBeacon (decide (n = f.sender)) false := fun n => by
    rw [hroster, s.rosterAt_entry, hflips, htimes]
    rfl
  have hsilent : t.roster[k].state = .silent := by
    have hne : s.roster[k].state ≠ .silent := fun he => by
      rw [RosterEntry.isLive, he] at hlive
      cases hlive
    rw [hentry]
    exact (RosterEntry.afterBeacon_silent_iff hne _ _).2 (.inr ⟨decide_eq_false hk, hlive, hs⟩)
  have hout : t.requirementSet[k] = false := Bool.eq_false_iff.2 fun h => by
    have hl := State.isLive_of_required h
    rw [RosterEntry.isLive, hsilent] at hl
    cases hl
  refine ⟨t, (exec_silenceTimeout_of (silenceTimeoutAt_of hacc hstep hk hlive hs)).trans hexec, hlife, hentry, hsilent,
    hout, ?_, ?_, hfollows, ?_, ?_, hkeeps, ?_⟩
  · refine Bool.eq_false_iff.2 fun h => ?_
    rw [((hfollows.ready k).1 h).2] at hout
    cases hout
  · exact Bool.eq_false_iff.2 fun h => ((hfollows.baseline k).1 h).2.2 hsilent
  · rw [hgen, State.recordAt_unflipped hflips]
    rfl
  · rw [hgen, State.recordAt_unflipped hflips]
    rfl
  · rw [hevents, generationEvents_eq_nil hflips htimes, List.append_nil, hroster]
    simp only [Bool.and_eq_true, decide_eq_true_eq, and_assoc]

/-- Settles O41: the flip timeout makes every required station that is not ready Silent, and what stays required is
ready. -/
theorem flipTimeoutSilencesLagging : Obligations.FlipTimeoutSilencesLagging := by
  intro s st f m hcounts hformed hacc hstep harmed hsealed hage hown hlags count cut
  have hflips : s.flipsAt m = false := by rw [State.flipsAt_eq, harmed, Bool.false_and]
  have htimes : s.timesOutAt m = true := by
    rw [State.timesOutAt_eq, harmed, hsealed, decide_eq_true hage]
    rfl
  have hsilenced : s.silencedAt f.sender m = false := silencedAt_eq_false hown fun _ => hlags
  have hcase : s.flipTimeoutAt f = true := by
    unfold State.flipTimeoutAt
    rw [hacc.goodBeacon hstep]
    exact htimes
  obtain ⟨t, hexec, hlife, hroster, hfollows, ⟨n, hgen⟩, hevents, hdefaults, hshown, hx, hy, hentries, hdirty, hcatchUp,
    hkeeps⟩ := exec_beacon_unflipped hacc hstep hformed hflips hsilenced
  have hentry : ∀ n : Station, t.roster[n] = s.roster[n].afterBeacon (decide (n = f.sender)) (s.lags n) := fun n => by
    rw [hroster, s.rosterAt_entry, hflips, htimes]
    rfl
  have hrecord := State.recordAt_unflipped hflips
  rw [hrecord] at hgen
  have htsealed : t.gen.isSealed = true := by
    rw [hgen]
    exact hsealed
  have hgeneration : s.generationEvents f.sender m =
      if count = 0 then [] else [.flipTimeout (s.gen.shown + 1) count] := by
    have hcount : s.timedOutCount f.sender = count := s.timedOutCount_eq f.sender
    unfold State.generationEvents
    rw [hflips, htimes, hcount, if_neg Bool.false_ne_true, Bool.true_and]
    by_cases hzero : count = 0
    · rw [if_pos hzero, if_neg (by simpa using hzero)]
    · rw [if_neg hzero, if_pos (by simpa using hzero)]
      rfl
  have hready : ∀ n : Station, t.requirementSet[n] = true → t.gen.readySet[n] = true := fun n hreq => by
    have hlive := State.isLive_of_required hreq
    have hnot : t.roster[n].state ≠ .silent := fun he => by
      rw [RosterEntry.isLive, he] at hlive
      cases hlive
    have hstate : t.roster[n].state = s.roster[n].state := by
      rcases RosterEntry.afterBeacon_state s.roster[n] (decide (n = f.sender)) (s.lags n) with h | h <;>
        rw [← hentry] at h
      · exact h
      · exact absurd h hnot
    have hbefore : s.requirementSet[n] = true := by
      simp only [State.requirementSet, requirementSet, getFin_tabulate, Bool.or_eq_true, Bool.and_eq_true,
        decide_eq_true_eq, hstate] at hreq ⊢
      exact hreq.imp_right fun ⟨⟨_, hjoining⟩, hin⟩ => ⟨⟨hsealed, hjoining⟩, ((hfollows.baseline n).1 hin).1⟩
    have hlagsNot : s.lags n = false := Bool.eq_false_iff.2 fun h => hnot (by
      rw [hentry, h]
      rfl)
    refine (hfollows.ready n).2 ⟨?_, hreq⟩
    rw [State.lags, hbefore, Bool.true_and, Bool.not_eq_false'] at hlagsNot
    exact hlagsNot
  refine ⟨t, (exec_flipTimeout_of hcase).trans hexec, hexec, hlife, hentry, ?_, htsealed, ?_, ?_, ?_, ?_, hfollows, ?_, ?_,
    hshown, hdefaults, hx, hy, hentries, hdirty, hcatchUp, hkeeps⟩
  · rw [hgen]
    rfl
  · rw [hgen]
    rfl
  · rw [hgen]
    change (if s.armedAt m = false ∧ s.gen.isSealed = true ∧ s.gen.sealAge < 32 then s.gen.sealAge + 1
      else s.gen.sealAge) = 32
    have hmost := hcounts.sealAge
    by_cases hless : s.gen.sealAge < 32
    · rw [if_pos ⟨harmed, hsealed, hless⟩]
      omega
    · rw [if_neg fun h => hless h.2.2]
      omega
  · rw [hgen]
    rfl
  · rw [hgen]
    rfl
  · exact ⟨fun h => (hfollows.armed.1 h).1, fun h => hfollows.armed.2 ⟨h, htsealed, hready⟩⟩
  · rw [hevents, hgeneration, hroster]

end Sys2Proof.Proofs
end


section
/-! SUPPORT. An acceptance at which nothing of the wall's state changes (R7, R11, R16). -/

namespace Sys2Proof.Machine

/-- Without a flip and without an entry that goes Silent every entry keeps its state (R36 to R38). -/
theorem State.rosterAt_state_kept {s : State} {sender : Station} {m : BeaconFields} (hflips : s.flipsAt m = false)
    (htimes : s.timesOutAt m = false)
    (hheard : ∀ n : Station, n ≠ sender → s.roster[n].isLive = true → s.roster[n].silence < 47) (n : Station) :
    (s.rosterAt sender m)[n].state = s.roster[n].state := by
  rcases s.rosterAt_state sender m n with h | h | ⟨h, -⟩
  · exact h
  · by_cases hsilent : s.roster[n].state = .silent
    · rw [h, hsilent]
    · rcases (s.rosterAt_silent_iff sender m hsilent).1 h with ⟨ht, -⟩ | ⟨hn, hlive, hs⟩
      · rw [htimes] at ht
        cases ht
      · have := hheard n hn hlive
        omega
  · rw [hflips] at h
    cases h

theorem rosterEvents_of_same {before after : Roster} (h : ∀ n : Station, after[n].state = before[n].state) :
    rosterEvents before after = [] :=
  List.filterMap_eq_nil_iff.2 fun n _ => if_pos (h n).symm

/-- A record that agrees with its roster is settled already for one with the same states (R7, R11, R16). -/
theorem State.settle_of_same {s : State} {st : StationState} {r : Roster} (hagrees : s.RecordAgrees)
    (hlife : s.life = .running st) (hw : st.participates = true)
    (hstate : ∀ n : Station, r[n].state = s.roster[n].state) (age : Nat) :
    GenerationRecord.settle { s.gen with sealAge := age } st s.station r = { s.gen with sealAge := age } := by
  have hp : s.participates = true := (State.participates_running hlife).trans hw
  have hreq : Machine.requirementSet r { s.gen with sealAge := age } = s.requirementSet :=
    Machine.requirementSet_congr hstate _
  rw [GenerationRecord.settle_of_agrees]
  · have harmed := hagrees.armed hp
    rw [State.following_running hlife] at harmed
    have hfollow : isFollowing st s.station r { s.gen with sealAge := age } = isFollowing st s.station s.roster s.gen :=
      isFollowing_congr hstate st s.station _
    have hcomputed : computedArmed r { s.gen with sealAge := age } = computedArmed s.roster s.gen := by
      unfold computedArmed
      rw [hreq]
      rfl
    unfold GenerationRecord.withArmed
    rw [hfollow, hcomputed, ← harmed]
  · exact fun n hn => by rw [hstate]; exact hagrees.baselineLive hp n hn
  · exact fun n hn => by rw [hreq]; exact hagrees.ready hp n hn

/-- A grant with no request waiting, or with an access in progress, changes nothing here either (R130, R132). -/
theorem State.grantRace_of_settled {s : State} (h : (s.arbiter.rowFetch.isSome || s.arbiter.feedRead.isSome
    || s.arbiter.apply.isSome || s.arbiter.catchUp.isSome) = true → s.arbiter.access.isSome = true) : s.grantRace = s := by
  unfold State.grantRace
  rw [if_neg, State.grant_of_settled h]
  intro hc
  simp only [Bool.and_eq_true, Option.isNone_iff_eq_none] at hc
  obtain ⟨⟨⟨hnone, hfetch⟩, -⟩, -⟩ := hc
  have haccess := h (by simp [hfetch])
  rw [hnone] at haccess
  cases haccess

end Sys2Proof.Machine
end

section
/-! PROOFS. A BEACON without a flip, a flip timeout or a silence timeout (R21, R36, R41, R111, R118). -/

namespace Sys2Proof.Proofs

open Sys2Proof.Machine

/-- Settles O39: nothing is left to apply, to announce or, outside the active part, to grant. -/
theorem beaconWithoutFlip : Obligations.BeaconWithoutFlip := by
  intro s st f m hagrees hepochs hformed hready hacc hstep harmed hunsealed hheard u count active cut
  have hflips : s.flipsAt m = false := by rw [State.flipsAt_eq, harmed, Bool.false_and]
  have htimes := timesOutAt_eq_false (m := m) hunsealed
  have hsilenced : s.silencedAt f.sender m = false := Bool.eq_false_iff.2 fun h => by
    rcases (s.silencedAt_iff f.sender m).1 h with ⟨ht, -⟩ | ⟨hn, hlive, hs⟩
    · rw [htimes] at ht
      cases ht
    · have := hheard s.station hn hlive
      omega
  have hstates := State.rosterAt_state_kept hflips htimes hheard
  have hgen : (s.recordAt m).settle st s.station (s.rosterAt f.sender m) =
      { s.gen with sealAge := if s.gen.isSealed then s.gen.sealAge + 1 else s.gen.sealAge } := by
    have hage : (if s.armedAt m = false ∧ s.gen.isSealed = true ∧ s.gen.sealAge < 32 then s.gen.sealAge + 1
        else s.gen.sealAge) = if s.gen.isSealed then s.gen.sealAge + 1 else s.gen.sealAge := by
      rcases hunsealed with h | h
      · rw [h, if_neg fun h => Bool.noConfusion h.2.1]
        rfl
      · by_cases hs : s.gen.isSealed = true
        · rw [if_pos hs, if_pos ⟨harmed, hs, by omega⟩]
        · rw [if_neg hs, if_neg fun h => hs h.2.1]
    rw [State.recordAt_unflipped hflips, hage]
    exact State.settle_of_same hagrees hacc.running hacc.inWall hstates _
  have haged := hacc.aged_frame hflips hsilenced
  rw [generationEvents_eq_nil hflips htimes, rosterEvents_of_same hstates, List.append_nil, List.append_nil, hgen,
    Bool.and_assoc] at haged
  obtain ⟨c, hc⟩ : ∃ c, c = s.aged st f m := ⟨_, rfl⟩
  obtain ⟨p, hp⟩ : ∃ p, p = c.newFrame false := ⟨_, rfl⟩
  rw [← hc] at haged
  have hdraws : c.draws = st.draws := by
    unfold State.draws
    rw [haged, show (s.afterShare 0 f).life = .running st from hacc.running]
  have hagain : c.fetchesAgain false = active := by
    unfold State.fetchesAgain
    rw [hdraws, haged, Bool.false_or, Bool.and_comm]
    rfl
  have hframe : p = { c with scan := p.scan, arbiter := p.arbiter, freeCount := c.freeCount + 1 } := by
    rw [hp]
    exact c.newFrame_frame false
  have hresume : p.resumeApply = p := State.resumeApply_of_waiting (by
    rw [hframe, haged]
    by_cases hidle : s.applyEngine = .idle ∧ s.catchUp = .idle
    · exact .inr (.inr ⟨hidle.1, fun e rest hq => hepochs.taken ((State.participates_running hacc.running).trans hacc.inWall)
        hidle.1 hidle.2 e (by rw [show s.updateQueue = e :: rest from hq]; exact List.mem_cons_self)⟩)
    · by_cases hengine : s.applyEngine = .idle
      · exact .inr (.inl fun h => hidle ⟨hengine, h⟩)
      · exact .inl hengine)
  have hnot : p.evaluateReady = p := State.evaluateReady_of_not_condition (by
    have hsame : p.readyCondition = s.readyCondition := by
      rw [hframe, haged]
      exact State.readyCondition_congr rfl
        (congrArg (fun r : StationSet => r[s.station]) (requirementSet_congr hstates s.gen)) rfl rfl
        (State.currentWork_congr rfl rfl) Iff.rfl
    rw [hsame, hready]
    exact Bool.false_ne_true)
  have hexec := hacc.exec_beacon_aged hstep hflips hsilenced
  rw [← hc, ← hp, hresume, hnot] at hexec
  change exec (.beacon f) s = .next p.grantRace at hexec
  have hscan : p.scan = { s.scan.frameBegun (if st.draws then .drawing else .dark) m.frameNumber s.gen.revealShown
      s.concealEnable with
      rowBuffer := if active then Vector.replicate 32 none else s.scan.rowBuffer
      fetch := if active then .fetching 0 0 else s.scan.fetch
      panel := p.scan.panel } := by
    rw [hp, c.newFrame_scan, hagain, State.frameKind, hdraws, haged]
    rfl
  have harbiter : p.arbiter = if active then (s.arbiter.withdraw .rowFetch).issue .rowFetch ⟨⟨0, 0⟩, .shown, none⟩
      else s.arbiter := by
    rw [hp, c.newFrame_arbiter, hagain, haged]
    rfl
  have hhands : s.arbiter.Hands p.arbiter active := by
    have h := Arbiter.Hands.newFrame c false
    rw [hagain, ← hp, show c.arbiter = s.arbiter by rw [haged]; rfl] at h
    exact h
  obtain ⟨a, k, hgrant⟩ := p.grantRace_frame
  obtain ⟨hkeeps, hasks⟩ := p.grantRace_arbiterKeeps
  refine ⟨_, hexec, ?_, fun n => ?_, ?_, hhands.grant hkeeps, fun hactive => ⟨?_, fun q hq => ?_⟩, fun hquiet => ?_⟩
  · rw [hgrant, hframe, haged]
  · rw [hgrant, hframe, haged]
    change (s.rosterAt f.sender m)[n] = _
    rw [s.rosterAt_entry, hflips, htimes]
    rfl
  · rw [hgrant]
    exact hscan
  · refine hasks _ ?_
    rw [harbiter, if_pos hactive]
    rfl
  · have hbefore := p.grantRace_grantsFrom.waiting .rowFetch q hq
    rw [harbiter, if_pos hactive] at hbefore
    exact (Option.some.inj hbefore).symm
  · rw [hquiet] at harbiter
    change p.arbiter = s.arbiter at harbiter
    rw [State.grantRace_of_settled (by rw [harbiter]; exact hformed.waiting), harbiter]

end Sys2Proof.Proofs
end


section
/-! SUPPORT. A flip (R18, R35, R52, R71, R75, R94, R118). -/

namespace Sys2Proof.Machine

/-! ### What a flip decides (R18, R38, R39, R71) -/

/-- The own entry is promoted at a flip of a station in this state (R38, R39). -/
def State.promotesOwn (s : State) (st : StationState) : Bool :=
  !st.draws && decide (s.roster[s.station].state = .joining) && s.gen.inBaseline s.station

/-- The station state after a flip (R39, R71). -/
def State.flippedState (s : State) (st : StationState) : StationState :=
  if s.promotesOwn st then (if st = .joining then .member else .leaving .fromMember) else st

/-- The state of the own entry after a flip at which it is heard (R36, R38). -/
theorem State.rosterAt_own_flip {s : State} {sender : Station} {m : BeaconFields} (hflips : s.flipsAt m = true)
    (hheard : sender = s.station ∨ s.roster[s.station].silence < 47) : (s.rosterAt sender m)[s.station].state =
      (s.roster[s.station].afterPromotion (s.gen.inBaseline s.station)).state := by
  have htimes : s.timesOutAt m = false := Bool.eq_false_iff.2 fun h => by
    rw [State.flipsAt_of_timesOutAt h] at hflips
    cases hflips
  rw [s.rosterAt_entry, hflips, htimes, if_pos rfl, Bool.false_and]
  unfold RosterEntry.afterBeacon
  rw [if_neg Bool.false_ne_true]
  split
  · rfl
  · rename_i hown
    have hs : s.roster[s.station].silence < 47 := hheard.resolve_left fun h => hown (decide_eq_true h.symm)
    split
    · rw [if_pos (by simpa using hs)]
    · rfl

theorem RosterEntry.afterPromotion_member_iff (e : RosterEntry) (b : Bool) :
    (e.afterPromotion b).state = .member ↔ e.state = .member ∨ e.state = .joining ∧ b = true := by
  unfold RosterEntry.afterPromotion
  split
  · rename_i h
    exact ⟨fun _ => .inr h, fun _ => rfl⟩
  · rename_i h
    exact ⟨.inl, fun h' => h'.resolve_right h⟩

/-- What a flip decides of a station whose own entry is heard. -/
theorem State.flip_decides {s : State} {st : StationState} {sender : Station} {m : BeaconFields}
    (hown : s.OwnEntryAgrees) (hlife : s.life = .running st) (hw : st.participates = true) (harmed : s.armedAt m = true)
    (hidle : s.catchUp = .idle) (hheard : sender = s.station ∨ s.roster[s.station].silence < 47) :
    s.flipsAt m = true ∧ s.silencedAt sender m = false ∧ s.promotedAt sender m = s.promotesOwn st ∧
    s.swapsAt sender m = (st.draws || s.promotesOwn st) ∧ s.stateAt st sender m = s.flippedState st ∧
    (s.flippedState st).draws = (st.draws || s.promotesOwn st) := by
  have hflips : s.flipsAt m = true := by
    rw [State.flipsAt_eq, harmed, decide_eq_true hidle]
    rfl
  have htimes : s.timesOutAt m = false := Bool.eq_false_iff.2 fun h => by
    rw [State.flipsAt_of_timesOutAt h] at hflips
    cases hflips
  have hp : s.participates = true := (State.participates_running hlife).trans hw
  have hmember : s.roster[s.station].state = .member ↔ st.draws = true := by
    have h := hown.member hp
    unfold State.draws at h
    rw [hlife] at h
    exact h
  have hafter := State.rosterAt_own_flip hflips hheard
  obtain ⟨e, he⟩ : ∃ e, e = s.roster[s.station] := ⟨_, rfl⟩
  have hexclusive : e.state = .joining → e.state ≠ .member := fun h => by rw [h]; decide
  rw [← he] at hmember hafter
  have hpromoted : s.promotedAt sender m = s.promotesOwn st := by
    unfold State.promotedAt State.promotesOwn
    rw [hflips, hafter, ← he, Bool.eq_iff_iff]
    simp only [Bool.and_eq_true, decide_eq_true_eq, Bool.not_eq_true', RosterEntry.afterPromotion_member_iff]
    rw [← Bool.not_eq_true st.draws, ← hmember]
    tauto
  have hswaps : s.swapsAt sender m = (st.draws || s.promotesOwn st) := by
    unfold State.swapsAt State.promotesOwn
    rw [hflips, hafter, ← he, Bool.eq_iff_iff]
    simp only [Bool.and_eq_true, Bool.or_eq_true, decide_eq_true_eq, Bool.not_eq_true',
      RosterEntry.afterPromotion_member_iff]
    rw [← Bool.not_eq_true st.draws, ← hmember]
    tauto
  have hstate : s.stateAt st sender m = s.flippedState st := by
    unfold State.stateAt State.flippedState
    rw [hpromoted]
    cases hpr : s.promotesOwn st with
    | false => rfl
    | true =>
      have hd : st.draws = false := by
        simp only [State.promotesOwn, Bool.and_eq_true, Bool.not_eq_true'] at hpr
        exact hpr.1.1
      cases st with
      | joining | leaving _ => rfl
      | member => cases hd
      | halted | listening | withdrawn | clashed => cases hw
  refine ⟨hflips, ?_, hpromoted, hswaps, hstate, ?_⟩
  · refine Bool.eq_false_iff.2 fun h => ?_
    rcases (s.silencedAt_iff sender m).1 h with ⟨ht, -⟩ | ⟨hne, -, hs⟩
    · rw [htimes] at ht
      cases ht
    · rcases hheard with h | h
      · exact hne h.symm
      · omega
  · unfold State.flippedState
    cases s.promotesOwn st with
    | false => exact (Bool.or_false _).symm
    | true =>
      by_cases hj : st = .joining
      · rw [if_pos rfl, if_pos hj, Bool.or_true]
        rfl
      · rw [if_pos rfl, if_neg hj, Bool.or_true]
        rfl

/-! ### The swap (R71, R75, R94, R118) -/

/-- The row defaults apply built, which a swap shows and copies (R71). -/
def State.built (s : State) : Vector ZoneRecord 12 := if s.shown = .x then s.defaultsY else s.defaultsX

theorem State.swap_eq (s : State) : s.swap = { s with
    shown := s.shown.other, defaultsX := s.built, defaultsY := s.built
    entryRecords := latchAll s.leftTable s.built
    events := s.events.postAll s.timer.frameNumber (latchEvents s.entryRecords (latchAll s.leftTable s.built)) } := by
  unfold State.swap State.built
  cases s.shown <;> rfl

/-- A swap's shown defaults are those built. -/
theorem State.shownDefaults_of_built {s : State} {d : Vector ZoneRecord 12} (hx : s.defaultsX = d) (hy : s.defaultsY = d) :
    s.shownDefaults = d := by
  unfold State.shownDefaults
  cases s.shown with
  | x => exact hx
  | y => exact hy

theorem State.requestCopy_frame (s : State) (c : CatchUp) :
    s.requestCopy c = { s with catchUp := c, arbiter := (s.requestCopy c).arbiter } := by
  unfold State.requestCopy
  split <;> rfl

/-- Catch-up's first request (R75, R76). -/
theorem State.requestCopy_asks (s : State) (c : CatchUp) :
    (∀ q, c.position = some q → (s.requestCopy c).arbiter = s.arbiter.issue .catchUp ⟨q, .shown, none⟩) ∧
    (c.position = none → (s.requestCopy c).arbiter = s.arbiter) := by
  unfold State.requestCopy
  refine ⟨fun q hq => ?_, fun hq => ?_⟩ <;> rw [hq]

/-- The station of an acceptance with a swap, before apply resumes (R71, R75, R111, R118). -/
theorem State.prepared_swap {t s : State} {st : StationState} {sender : Station} {m : BeaconFields}
    (h : s.swapsAt sender m = true) (hdraws : (s.stateAt st sender m).draws = true) (hnone : t.arbiter.catchUp = none)
    (own : Bool) : ∃ p, p = t.prepared s st own sender m ∧
      p.shown = t.shown.other ∧ p.defaultsX = t.built ∧ p.defaultsY = t.built ∧
      p.entryRecords = latchAll t.leftTable t.built ∧ p.dirty = ⟨[], false⟩ ∧
      p.catchUp = catchUpWork (s.promotedAt sender m) t.dirty ∧
      p.events = (t.wallWork s st sender m).events.postAll t.timer.frameNumber
        (latchEvents t.entryRecords (latchAll t.leftTable t.built)) ∧
      p.scan = { t.scan.frameBegun .drawing t.timer.frameNumber (t.wallWork s st sender m).gen.revealShown
          t.concealEnable with
        rowBuffer := Vector.replicate 32 none, fetch := .fetching 0 0, panel := p.scan.panel } ∧
      t.arbiter.Hands p.arbiter true ∧ p.arbiter.apply = t.arbiter.apply ∧
      p.arbiter.rowFetch = some ⟨⟨0, 0⟩, .shown, none⟩ ∧
      ∀ q, p.catchUp.position = some q → p.arbiter.catchUp = some ⟨q, .shown, none⟩ := by
  obtain ⟨c, hc⟩ : ∃ c, c = (t.wallWork s st sender m).swap.countPresence own (s.promotedAt sender m) := ⟨_, rfl⟩
  obtain ⟨v, hv⟩ : ∃ v : State, v = { c.newFrame true with dirty := ⟨[], false⟩ } := ⟨_, rfl⟩
  obtain ⟨w, hw⟩ : ∃ w, w = catchUpWork (s.promotedAt sender m) t.dirty := ⟨_, rfl⟩
  have hcframe : c = { (t.wallWork s st sender m).swap with presenceCount := c.presenceCount, bus := c.bus } := by
    rw [hc]
    rfl
  rw [State.swap_eq] at hcframe
  have hcdraws : c.draws = true := by
    rw [hcframe]
    exact hdraws
  have hagain : c.fetchesAgain true = true := by
    unfold State.fetchesAgain
    rw [hcdraws]
    rfl
  have hvarbiter : v.arbiter = (t.arbiter.withdraw .rowFetch).issue .rowFetch ⟨⟨0, 0⟩, .shown, none⟩ := by
    rw [hv]
    change (c.newFrame true).arbiter = _
    rw [c.newFrame_arbiter, hagain, hcframe]
    rfl
  have hvscan : v.scan = { t.scan.frameBegun .drawing t.timer.frameNumber (t.wallWork s st sender m).gen.revealShown
      t.concealEnable with
      rowBuffer := Vector.replicate 32 none, fetch := .fetching 0 0, panel := v.scan.panel } := by
    rw [hv]
    change (c.newFrame true).scan = _
    rw [c.newFrame_scan, hagain, State.frameKind, hcdraws, hcframe]
    rfl
  have hprepared : t.prepared s st own sender m = v.requestCopy w := by
    unfold State.prepared State.copyIf State.swapIf
    rw [h, if_pos rfl, if_pos rfl, ← hc, State.startCatchUp, ← hv]
    have hdirty : (c.newFrame true).dirty = t.dirty := by
      rw [c.newFrame_frame, hcframe]
      rfl
    rw [hdirty, hw]
  have hhands : t.arbiter.Hands v.arbiter true := by
    rw [hvarbiter]
    exact (Arbiter.Hands.withdraw_rowFetch t.arbiter).trans (.issue_rowFetch _ _)
  have hvcatchUp : v.arbiter.catchUp = none := by
    rw [hvarbiter]
    exact hnone
  obtain ⟨hasks, hquiet⟩ := v.requestCopy_asks w
  have hframe := v.requestCopy_frame w
  refine ⟨v.requestCopy w, hprepared.symm, ?_⟩
  have hkeeps : (v.requestCopy w).arbiter.apply = t.arbiter.apply ∧
      (v.requestCopy w).arbiter.rowFetch = some ⟨⟨0, 0⟩, .shown, none⟩ ∧ t.arbiter.Hands (v.requestCopy w).arbiter true := by
    cases hpos : w.position with
    | none =>
      rw [hquiet hpos]
      exact ⟨by rw [hvarbiter]; rfl, by rw [hvarbiter]; rfl, hhands⟩
    | some q =>
      rw [hasks q hpos]
      exact ⟨by rw [hvarbiter]; rfl, by rw [hvarbiter]; rfl, hhands.trans (.issue_catchUp hvcatchUp _)⟩
  obtain ⟨happly, hfetch, hhanded⟩ := hkeeps
  have hcatchUp : (v.requestCopy w).catchUp = w := by rw [hframe]
  refine ⟨?_, ?_, ?_, ?_, ?_, hcatchUp.trans hw, ?_, ?_, hhanded, happly, hfetch, fun q hq => ?_⟩
  · rw [hframe, hv, c.newFrame_frame, hcframe]
    rfl
  · rw [hframe, hv, c.newFrame_frame, hcframe]
    rfl
  · rw [hframe, hv, c.newFrame_frame, hcframe]
    rfl
  · rw [hframe, hv, c.newFrame_frame, hcframe]
    rfl
  · rw [hframe, hv]
  · rw [hframe, hv, c.newFrame_frame, hcframe]
    rfl
  · rw [hframe]
    exact hvscan
  · rw [hcatchUp] at hq
    rw [hasks q hq]
    rfl

end Sys2Proof.Machine
end


section
/-! SUPPORT. What an acceptance with a flip makes of the update queue, the engine and the building defaults (R20, R52, R55,
R60, R61, R64, R92). -/

namespace Sys2Proof.Machine

/-- The station of an acceptance without a swap, before apply resumes (R111, R118). -/
theorem State.prepared_unswapped {t s : State} {st : StationState} {sender : Station} {m : BeaconFields}
    (h : s.swapsAt sender m = false) (own : Bool) : ∃ p, p = t.prepared s st own sender m ∧
      p.shown = t.shown ∧ p.defaultsX = t.defaultsX ∧ p.defaultsY = t.defaultsY ∧ p.entryRecords = t.entryRecords ∧
      p.dirty = t.dirty ∧ p.catchUp = t.catchUp ∧ p.events = (t.wallWork s st sender m).events ∧
      ((s.stateAt st sender m).draws = false → p.arbiter = t.arbiter ∧
        p.scan = { t.scan.frameBegun .dark t.timer.frameNumber (t.wallWork s st sender m).gen.revealShown
          t.concealEnable with panel := p.scan.panel }) := by
  obtain ⟨c, hc⟩ : ∃ c, c = (t.wallWork s st sender m).countPresence own (s.promotedAt sender m) := ⟨_, rfl⟩
  have hcframe : c = { (t.wallWork s st sender m) with presenceCount := c.presenceCount, bus := c.bus } := by
    rw [hc]
    rfl
  refine ⟨c.newFrame false, ?_, ?_⟩
  · rw [t.prepared_of_no_swap h, hc]
  refine ⟨?_, ?_, ?_, ?_, ?_, ?_, ?_, fun hdraws => ?_⟩
  · rw [c.newFrame_frame, hcframe]
    rfl
  · rw [c.newFrame_frame, hcframe]
    rfl
  · rw [c.newFrame_frame, hcframe]
    rfl
  · rw [c.newFrame_frame, hcframe]
    rfl
  · rw [c.newFrame_frame, hcframe]
    rfl
  · rw [c.newFrame_frame, hcframe]
    rfl
  · rw [c.newFrame_frame, hcframe]
  · have hcdraws : c.draws = false := by
      rw [hcframe]
      exact hdraws
    have hagain : c.fetchesAgain false = false := by
      unfold State.fetchesAgain
      rw [hcdraws]
      rfl
    refine ⟨?_, ?_⟩
    · rw [c.newFrame_arbiter, hagain, hcframe]
      rfl
    · rw [c.newFrame_scan, hagain, State.frameKind, hcdraws, hcframe]
      rfl

/-! ### What READY and the grant leave to the engine -/

/-- The end of an acceptance is the engine's but for READY, the promotion's event and the grant. -/
theorem State.concluded_engine (p : State) (st : StationState) (promoted : Bool) {t : State}
    (ht : t = (p.resumeApply.evaluateReady.tellPromotion st promoted).grantRace) :
    t.updateQueue = p.resumeApply.updateQueue ∧ t.applyEngine = p.resumeApply.applyEngine ∧
    t.leftTable = p.resumeApply.leftTable ∧ t.defaultsX = p.resumeApply.defaultsX ∧
    t.defaultsY = p.resumeApply.defaultsY ∧ t.catchUp = p.catchUp ∧ t.shown = p.shown ∧
    ∀ q, p.resumeApply.arbiter.apply = some q → t.asks .apply q := by
  obtain ⟨w, hw⟩ : ∃ w, w = p.resumeApply.evaluateReady.tellPromotion st promoted := ⟨_, rfl⟩
  have hwframe : w = { p.resumeApply with
      gen := p.resumeApply.evaluateReady.gen, bus := w.bus, events := w.events } := by
    rw [hw, State.tellPromotion, State.evaluateReady_frame]
    split <;> rfl
  obtain ⟨⟨_, _, _, _, _, _, hworks⟩, -⟩ := State.Works.resumeApply p
  obtain ⟨a, k, hgrant⟩ := w.grantRace_frame
  rw [← hw] at ht
  refine ⟨?_, ?_, ?_, ?_, ?_, ?_, ?_, fun q hq => ?_⟩
  · rw [ht, hgrant, hwframe]
  · rw [ht, hgrant, hwframe]
  · rw [ht, hgrant, hwframe]
  · rw [ht, hgrant, hwframe]
  · rw [ht, hgrant, hwframe]
  · rw [ht, hgrant, hwframe, hworks]
  · rw [ht, hgrant, hwframe, hworks]
  · rw [ht]
    exact w.grantRace_arbiterKeeps.1.apply q (by rw [hwframe]; exact hq)

/-- An unsealed station owes no READY (R13). -/
theorem State.concluded_of_unsealed {p : State} (h : p.gen.isSealed = false) (st : StationState) (promoted : Bool)
    {t : State} (ht : t = (p.resumeApply.evaluateReady.tellPromotion st promoted).grantRace) :
    t.gen = p.gen ∧ t.bus = p.bus := by
  obtain ⟨⟨_, _, _, _, _, _, hworks⟩, -⟩ := State.Works.resumeApply p
  have hnot : p.resumeApply.evaluateReady = p.resumeApply := State.evaluateReady_of_unsealed (by rw [hworks]; exact h)
  obtain ⟨a, k, hgrant⟩ := (p.resumeApply.evaluateReady.tellPromotion st promoted).grantRace_frame
  rw [ht, hgrant, hnot]
  unfold State.tellPromotion
  rw [hworks]
  split <;> exact ⟨rfl, rfl⟩

/-! ### The building defaults (R60) -/

/-- A row whose default no step sets keeps it. -/
theorem State.runSteps_defaults (r : LocalRow) (steps : List ApplyStep) (h : ∀ d, .rowDefault r d ∉ steps) (s : State)
    (n : Nat) : (s.runSteps steps n).1.defaultsX[r] = s.defaultsX[r] ∧
      (s.runSteps steps n).1.defaultsY[r] = s.defaultsY[r] := by
  induction steps generalizing s n with
  | nil => exact ⟨rfl, rfl⟩
  | cons st rest ih =>
    have hrest : ∀ d, .rowDefault r d ∉ rest := fun d hd => h d (List.mem_cons_of_mem _ hd)
    cases st with
    | tile p c => exact ⟨rfl, rfl⟩
    | right => exact ih hrest s (n + 1)
    | left r' col c => exact ih hrest (s.doStep (.left r' col c)) (n + 1)
    | leftClear r' => exact ih hrest (s.doStep (.leftClear r')) (n + 1)
    | rowDefault r' d =>
      obtain ⟨hx, hy⟩ := ih hrest (s.setBuildingDefault r' d) (n + 1)
      have hne : r' ≠ r := fun he => h d (by rw [he]; exact List.mem_cons_self)
      refine ⟨hx.trans ?_, hy.trans ?_⟩ <;> rw [State.setBuildingDefault_eq]
      · change (if s.shown = .x then s.defaultsX else s.defaultsX.set r' d)[r] = _
        split
        · rfl
        · rw [getFin_set, if_neg hne]
      · change (if s.shown = .x then s.defaultsY.set r' d else s.defaultsY)[r] = _
        split
        · rw [getFin_set, if_neg hne]
        · rfl

/-- The default steps of an UPDATE are those of a ROWDEF or ROWCLEAR of their row (R57). -/
theorem Update.sets_of_rowDefault {p : Straps} {columns : Nat} {u : Update} {r : LocalRow} {d : ZoneRecord}
    (h : .rowDefault r d ∈ u.steps p columns) : u.setsDefault = true ∧ u.row = topEdge p + r.val := by
  have htarget : ∀ (r' : LocalRow) (targets : List (Nat × CellRecord)), .rowDefault r d ∉ targets.map (targetStep p r') :=
    fun r' targets hm => by
      obtain ⟨e, -, he⟩ := List.mem_map.1 hm
      rw [targetStep_eq] at he
      split at he
      · cases he
      · split at he <;> cases he
  unfold Update.steps at h
  cases hr : localRow? p u.row with
  | none => rw [hr] at h; cases h
  | some r' =>
    rw [hr] at h
    have hrow : u.row = topEdge p + r'.val := by
      unfold localRow? at hr
      split at hr
      · rename_i hin
        cases Option.some.inj hr
        change u.row = topEdge p + (u.row - topEdge p)
        omega
      · cases hr
    cases u with
    | cell _ _ _ | run _ _ _ | fill _ _ _ _ => exact absurd ((List.mem_append.1 h).resolve_left (by simp)) (htarget _ _)
    | rowdef row d' =>
      rcases List.mem_append.1 h with h | h
      · simp only [List.mem_cons, ApplyStep.rowDefault.injEq, List.not_mem_nil, or_false] at h
        rw [h.1]
        exact ⟨rfl, hrow⟩
      · exact absurd h (htarget _ _)
    | rowclear row d' c =>
      rcases List.mem_append.1 h with h | h
      · simp only [List.mem_cons, ApplyStep.rowDefault.injEq, reduceCtorEq, List.not_mem_nil, or_false] at h
        rw [h.1]
        exact ⟨rfl, hrow⟩
      · exact absurd h (htarget _ _)

/-- The engine keeps the default of a row that no entry of the queue sets. -/
theorem State.takeHeads_defaults (r : LocalRow) (q : List UpdateEntry) (s : State)
    (h : ∀ e ∈ q, e.update.setsDefault = true → e.update.row ≠ topEdge s.straps + r.val) :
    (s.takeHeads q).defaultsX[r] = s.defaultsX[r] ∧ (s.takeHeads q).defaultsY[r] = s.defaultsY[r] := by
  induction q generalizing s with
  | nil => exact ⟨rfl, rfl⟩
  | cons e rest ih =>
    have hsteps : ∀ d, .rowDefault r d ∉ e.update.steps s.straps s.wallColumns := fun d hd => by
      obtain ⟨hsets, hrow⟩ := Update.sets_of_rowDefault hd
      exact h e List.mem_cons_self hsets hrow
    have hrun := State.runSteps_defaults r _ hsteps s 0
    obtain ⟨⟨_, _, _, _, _, _, hworks⟩, -⟩ := State.Works.runSteps s (e.update.steps s.straps s.wallColumns) 0
    by_cases he : e.epoch = .current
    · obtain ⟨⟨t, k⟩, ht⟩ : ∃ tk, s.runSteps (e.update.steps s.straps s.wallColumns) 0 = tk := ⟨_, rfl⟩
      rw [ht] at hrun hworks
      cases k with
      | none =>
        have hstraps : t.straps = s.straps := by
          change t = _ at hworks
          rw [hworks]
        obtain ⟨hx, hy⟩ := ih t fun e' he' => by
          rw [hstraps]
          exact h e' (List.mem_cons_of_mem _ he')
        rw [State.takeHeads_done he ht]
        exact ⟨hx.trans hrun.1, hy.trans hrun.2⟩
      | some k =>
        rw [State.takeHeads_working he ht]
        exact hrun
    · rw [State.takeHeads, if_neg he]
      exact ⟨rfl, rfl⟩

/-! ### The update queue (R20, R52, R55, R64, R92) -/

/-- What a flip makes of the queue, at any station whose entries have become Current. -/
theorem State.concluded_queueFlips {s p t : State} {d : Bool} {st : StationState} {promoted : Bool}
    (ht : t = (p.resumeApply.evaluateReady.tellPromotion st promoted).grantRace)
    (hqueue : p.updateQueue = epochsCurrent s.updateQueue) (hengine : p.applyEngine = s.applyEngine)
    (hleft : p.leftTable = s.leftTable) (hstraps : p.straps = s.straps) (hcolumns : p.wallColumns = s.wallColumns)
    (hp : p.participates = true) (hformed : s.LeftTableFormed) (hkeeps : s.ArbiterKeeps t d) : s.QueueFlips t := by
  obtain ⟨tqueue, tengine, tleft, -, -, tcatchUp, -, tasks⟩ := State.concluded_engine p st promoted ht
  by_cases hidle : p.applyEngine = .idle ∧ p.catchUp = .idle
  · have hresume := State.resumeApply_of_ready hp hidle.1 hidle.2
    have hcurrent : ∀ e ∈ p.updateQueue, e.epoch = .current := fun e he => by
      rw [hqueue] at he
      obtain ⟨e', -, rfl⟩ := List.mem_map.1 he
      rfl
    have hpformed : p.LeftTableFormed := by
      intro r
      rw [hleft, hstraps]
      exact hformed r
    obtain ⟨done, quiet, u, hsplit, hquiet, huleft, hempty, hhead⟩ := p.takeHeads_current p.updateQueue hpformed hcurrent
    rw [← hresume] at hsplit huleft hempty hhead
    obtain ⟨u', hquiet', huleft'⟩ := hquiet.sameLeft hleft.symm
    rw [hstraps, hcolumns] at hquiet' 
    refine ⟨done, quiet, u', ?_, hquiet', ?_, fun hnot => ?_, fun _ _ => ⟨fun he => ?_, fun e rest he => ?_⟩⟩
    · rw [tqueue, ← hsplit, hqueue]
      rfl
    · rw [tleft, huleft', huleft]
    · rw [tcatchUp, ← hengine] at hnot
      rcases hnot with h | h
      · exact absurd hidle.1 h
      · exact absurd hidle.2 h
    · rw [tqueue] at he
      rw [tengine]
      exact hempty he
    · rw [tqueue] at he
      obtain ⟨pos, c, more, hsteps, hworking, harbiter⟩ := hhead e rest he
      rw [hstraps, hcolumns] at hsteps
      exact ⟨pos, c, more, hsteps, tengine.trans hworking, tasks _ (by rw [harbiter]; rfl)⟩
  · have hresume : p.resumeApply = p := State.resumeApply_of_waiting (by
      by_cases he : p.applyEngine = .idle
      · exact .inr (.inl fun hc => hidle ⟨he, hc⟩)
      · exact .inl he)
    rw [hresume] at tqueue tengine tleft
    refine ⟨[], [], s, ?_, rfl, tleft.trans hleft, fun _ => ⟨rfl, rfl, tengine.trans hengine, hkeeps.apply,
      fun acc hacc hreq => ?_⟩, fun he hc => absurd ⟨hengine.trans he, tcatchUp ▸ hc⟩ hidle⟩
    · rw [tqueue, hqueue]
      rfl
    · rw [hkeeps.access acc hacc, decide_eq_false (by rw [hreq]; decide), Bool.and_false, Bool.or_false]

end Sys2Proof.Machine
end


section
/-! SUPPORT. The outcome of an acceptance with a flip. -/

namespace Sys2Proof.Machine

/-- The requests of the row fetch and of catch-up reach the grant as they were (R130). -/
theorem State.concluded_requests (p : State) (st : StationState) (promoted : Bool) {t : State}
    (ht : t = (p.resumeApply.evaluateReady.tellPromotion st promoted).grantRace) :
    (∀ q, p.arbiter.rowFetch = some q → t.asks .rowFetch q) ∧ (∀ q, p.arbiter.catchUp = some q → t.asks .catchUp q) ∧
    ∀ q, t.arbiter.rowFetch = some q → p.arbiter.rowFetch = some q := by
  obtain ⟨v, hv⟩ : ∃ v, v = p.resumeApply.evaluateReady.tellPromotion st promoted := ⟨_, rfl⟩
  have hsame : v.arbiter = p.resumeApply.arbiter := by
    rw [hv, State.tellPromotion]
    split
    · exact p.resumeApply.evaluateReady_arbiter
    · exact p.resumeApply.evaluateReady_arbiter
  have hresume : ∀ r, r ≠ .apply → v.arbiter.waiting r = p.arbiter.waiting r := by
    rw [hsame]
    rcases p.resumeApply_applies with he | ⟨-, -, -, he⟩ <;> rw [he]
    · exact fun _ _ => rfl
    · exact (State.takeHeads_applies p p.updateQueue).others.2
  have hfetch : v.arbiter.rowFetch = p.arbiter.rowFetch := hresume .rowFetch nofun
  have hcatchUp : v.arbiter.catchUp = p.arbiter.catchUp := hresume .catchUp nofun
  rw [← hv] at ht
  obtain ⟨hkeeps, hasks⟩ := v.grantRace_arbiterKeeps
  rw [← ht] at hkeeps hasks
  refine ⟨fun q hq => hasks q (hfetch.trans hq), fun q hq => hkeeps.catchUp q (hcatchUp.trans hq), fun q hq => ?_⟩
  rw [← hfetch]
  refine v.grantRace_grantsFrom.waiting .rowFetch q ?_
  rw [← ht]
  exact hq

theorem State.flippedState_participates (s : State) {st : StationState} (h : st.participates = true) :
    (s.flippedState st).participates = true := by
  unfold State.flippedState
  split
  · split <;> rfl
  · exact h

/-- What a flip makes of the wall's state, with a swap or without (R14, R18, R36, R38, R52). -/
theorem State.prepared_flip {s : State} {st : StationState} {f : BusFrame} {m : BeaconFields}
    (hflips : s.flipsAt m = true) (hsilenced : s.silencedAt f.sender m = false)
    (hstate : s.stateAt st f.sender m = s.flippedState st) {w : State}
    (hw : w = ((s.afterShare 0 f).takeBeacon m).wallWork s st f.sender m) :
    w.life = .running (s.flippedState st) ∧ w.roster = s.rosterAt f.sender m ∧
    w.gen = { shown := s.gen.shown + 1, isSealed := false, sealer := none, baseline := none, revealBuilding := false
              revealShown := s.gen.revealBuilding, readySet := Vector.replicate 64 false, armed := false
              sealAge := 0, announced := false } ∧
    w.updateQueue = epochsCurrent s.updateQueue ∧ w.bus.readyPending = none ∧ w.bus.beaconPending = false ∧
    w.bus.feedQueue = (s.afterShare 0 f).bus.feedQueue ∧
    w.counters = { s.counters with
      framesAccepted := rise s.counters.framesAccepted
      shortFrames := if decide (s.scan.kind = .drawing) && s.scan.phase.isActive && (s.flippedState st).draws
        then rise s.counters.shortFrames else s.counters.shortFrames } ∧
    w.events = s.events.postAll m.frameNumber
      ((if decide (s.scan.kind = .drawing) && s.scan.phase.isActive && (s.flippedState st).draws then [.shortFrame]
        else []) ++ [.flip (s.gen.shown + 1)] ++ rosterEvents s.roster (s.rosterAt f.sender m)) := by
  have hcut : s.cutsShort st f.sender m =
      (decide (s.scan.kind = .drawing) && s.scan.phase.isActive && (s.flippedState st).draws) := by
    unfold State.cutsShort
    rw [hstate, hsilenced]
    exact Bool.and_true _
  have hgeneration : s.generationEvents f.sender m = [.flip (s.gen.shown + 1)] := by
    unfold State.generationEvents
    rw [hflips]
    rfl
  rw [hw]
  unfold State.wallWork
  dsimp only
  rw [hstate, hflips, hcut, hgeneration]
  refine ⟨rfl, rfl, ?_, rfl, rfl, rfl, rfl, ?_, rfl⟩
  · unfold State.recordAt
    rw [hflips]
    exact s.gen.flip_settle _ _ _
  · cases (decide (s.scan.kind = .drawing) && s.scan.phase.isActive && (s.flippedState st).draws) <;> rfl

/-- An acceptance with a flip: the station before apply resumes, and what the end of the acceptance makes of it. -/
theorem State.Accepts.exec_beacon_flipped {s : State} {st : StationState} {f : BusFrame} {m : BeaconFields}
    (hacc : s.Accepts st 0 f (.beacon m)) (hown : s.OwnEntryAgrees) (hformed : s.ArbiterFormed)
    (hstep : s.AgreesWith f.sender m) (harmed : s.armedAt m = true) (hidle : s.catchUp = .idle)
    (hheard : f.sender = s.station ∨ s.roster[s.station].silence < 47) : ∃ p t,
      p = ((s.afterShare 0 f).takeBeacon m).prepared s st (decide (f.sender = s.station)) f.sender m ∧
      t = (p.resumeApply.evaluateReady.tellPromotion st (s.promotesOwn st)).grantRace ∧ exec (.beacon f) s = .next t ∧
      p.gen.isSealed = false ∧ s.ArbiterKeeps t (s.flippedState st).draws := by
  obtain ⟨hflips, hsilenced, hpromoted, hswaps, hstate, hdraws⟩ :=
    State.flip_decides hown hacc.running hacc.inWall harmed hidle hheard
  have hexec := hacc.exec_beacon_heard hstep hsilenced
  rw [hpromoted] at hexec
  obtain ⟨p, hp⟩ : ∃ p, p = ((s.afterShare 0 f).takeBeacon m).prepared s st (decide (f.sender = s.station)) f.sender m :=
    ⟨_, rfl⟩
  rw [← hp] at hexec
  have hgen : p.gen.isSealed = false := by
    have h := (State.prepared_flip hflips hsilenced hstate rfl).2.2.1
    have hsame : p.gen = (((s.afterShare 0 f).takeBeacon m).wallWork s st f.sender m).gen := by
      rw [hp]
      simp
    rw [hsame, h]
  have hengine : p.applyEngine = s.applyEngine := by
    rw [hp]
    simp
    rfl
  have hnone : s.arbiter.catchUp = none := by
    cases hc : s.arbiter.catchUp with
    | none => rfl
    | some q => exact absurd hidle (hformed.working.2 (by rw [hc]; rfl))
  have hhands : s.arbiter.Hands p.arbiter (s.flippedState st).draws ∧ p.arbiter.apply = s.arbiter.apply := by
    cases hd : (s.flippedState st).draws with
    | true =>
      obtain ⟨p', hp', -, -, -, -, -, -, -, -, hhands, happly, -⟩ := State.prepared_swap
        (t := (s.afterShare 0 f).takeBeacon m) (s := s) (st := st) (sender := f.sender) (m := m)
        (by rw [hswaps, ← hdraws, hd]) (by rw [hstate, hd]) hnone (decide (f.sender = s.station))
      rw [hp, ← hp']
      exact ⟨hhands, happly⟩
    | false =>
      obtain ⟨p', hp', -, -, -, -, -, -, -, hquiet⟩ := State.prepared_unswapped
        (t := (s.afterShare 0 f).takeBeacon m) (s := s) (st := st) (sender := f.sender) (m := m)
        (by rw [hswaps, ← hdraws, hd]) (decide (f.sender = s.station))
      have harbiter : p'.arbiter = s.arbiter := (hquiet (by rw [hstate, hd])).1
      rw [hp, ← hp', harbiter]
      exact ⟨.refl _, rfl⟩
  refine ⟨p, _, hp, rfl, hexec, hgen, ?_⟩
  refine (hhands.1.concluded (fun h => ?_) st _).grant (State.grantRace_arbiterKeeps _).1
  rw [hengine]
  rw [hhands.2] at h
  exact hformed.working.1 h

end Sys2Proof.Machine
end

section
/-! PROOFS. Flips (R14, R18, R35, R52, R71, R75, R94, R118). -/

namespace Sys2Proof.Proofs

open Sys2Proof.Machine

/-- The events of an acceptance with a flip, in R195's order. -/
theorem flip_events {s : State} {st : StationState} {f : BusFrame} {m : BeaconFields} {p t : State}
    (hformed : s.ArbiterFormed) (hidle : s.catchUp = .idle) (hflips : s.flipsAt m = true)
    (hsilenced : s.silencedAt f.sender m = false)
    (hswaps : s.swapsAt f.sender m = (s.flippedState st).draws)
    (hstate : s.stateAt st f.sender m = s.flippedState st)
    (hp : p = ((s.afterShare 0 f).takeBeacon m).prepared s st (decide (f.sender = s.station)) f.sender m)
    (ht : t = (p.resumeApply.evaluateReady.tellPromotion st (s.promotesOwn st)).grantRace) :
    t.events = s.events.postAll m.frameNumber
      ((if decide (s.scan.kind = .drawing) && s.scan.phase.isActive && (s.flippedState st).draws then [.shortFrame]
        else []) ++ [.flip (s.gen.shown + 1)] ++ rosterEvents s.roster (s.rosterAt f.sender m)
        ++ (if (s.flippedState st).draws then latchEvents s.entryRecords t.entryRecords else [])
        ++ (if s.promotesOwn st && decide (st = .joining) then [.state .member .promoted] else [])) := by
  obtain ⟨-, -, -, -, -, -, -, -, hevents⟩ := State.prepared_flip hflips hsilenced hstate rfl
  obtain ⟨-, n, r, q, e, dx, dy, l, a, k, hframe⟩ := State.concluded_frame p st (s.promotesOwn st)
  rw [← ht] at hframe
  have htimer : p.timer.frameNumber = m.frameNumber := by
    have h : p.timer = ((s.afterShare 0 f).takeBeacon m).timer := by
      rw [hp]
      simp
    rw [h]
    rfl
  have hentries : t.entryRecords = p.entryRecords := by rw [hframe]
  have hposted : t.events = p.events.postAll m.frameNumber
      (if s.promotesOwn st && decide (st = .joining) then [.state .member .promoted] else []) := by
    rw [hframe, ← htimer]
  have hprepared : p.events = s.events.postAll m.frameNumber
      ((if decide (s.scan.kind = .drawing) && s.scan.phase.isActive && (s.flippedState st).draws then [.shortFrame]
        else []) ++ [.flip (s.gen.shown + 1)] ++ rosterEvents s.roster (s.rosterAt f.sender m)
        ++ (if (s.flippedState st).draws then latchEvents s.entryRecords p.entryRecords else [])) := by
    cases hd : (s.flippedState st).draws with
    | true =>
      have hnone : s.arbiter.catchUp = none := by
        cases hc : s.arbiter.catchUp with
        | none => rfl
        | some q => exact absurd hidle (hformed.working.2 (by rw [hc]; rfl))
      obtain ⟨p', hp', -, -, -, hlatched, -, -, hlatch, -⟩ := State.prepared_swap
        (t := (s.afterShare 0 f).takeBeacon m) (s := s) (st := st) (sender := f.sender) (m := m)
        (by rw [hswaps, hd]) (by rw [hstate, hd]) hnone (decide (f.sender = s.station))
      rw [← hp] at hp'
      rw [hp'] at hlatched hlatch
      rw [hlatch, hevents, hlatched, hd]
      exact (EventQueue.postAll_append s.events m.frameNumber _ _).symm
    | false =>
      obtain ⟨p', hp', -, -, -, -, -, -, hsame, -⟩ := State.prepared_unswapped
        (t := (s.afterShare 0 f).takeBeacon m) (s := s) (st := st) (sender := f.sender) (m := m)
        (by rw [hswaps, hd]) (decide (f.sender = s.station))
      rw [← hp] at hp'
      rw [hp'] at hsame
      rw [hsame, hevents, hd, if_neg Bool.false_ne_true, List.append_nil]
  rw [hposted, hprepared, hentries, EventQueue.postAll_append s.events m.frameNumber _
    (if s.promotesOwn st && decide (st = .joining) then [.state .member .promoted] else [])]

/-- Settles O37: the record, the roster, the queue and the events of a flip, with a swap or without. -/
theorem flipChangesRecordAndRoster : Obligations.FlipChangesRecordAndRoster := by
  intro s st f m hown hleft hformed hacc hstep harmed hidle hheard promoted st' cut
  obtain ⟨hflips, hsilenced, hpromoted, hswaps, hstate, hdraws⟩ :=
    State.flip_decides hown hacc.running hacc.inWall harmed hidle hheard
  obtain ⟨p, t, hp, ht, hexec, hunsealed, hkeeps⟩ :=
    hacc.exec_beacon_flipped hown hformed hstep harmed hidle hheard
  obtain ⟨wlife, wroster, wgen, wqueue, wready, wbeacon, wfeed, wcounters, -⟩ :=
    State.prepared_flip hflips hsilenced hstate rfl
  have hevents := flip_events hformed hidle hflips hsilenced (hswaps.trans hdraws.symm) hstate hp ht
  obtain ⟨hgen, hbus⟩ := State.concluded_of_unsealed hunsealed st (s.promotesOwn st) ht
  obtain ⟨-, n, r, q, e, dx, dy, l, a, k, hframe⟩ := State.concluded_frame p st (s.promotesOwn st)
  rw [← ht] at hframe
  have hkept := State.prepared_keeps ((s.afterShare 0 f).takeBeacon m) s st (decide (f.sender = s.station)) f.sender m
  rw [← hp] at hkept
  obtain ⟨plife, -, pstraps, pconfig, pwithdraw, pgen, proster, pclash, pqueue, pengine, px, py, pleft, pglyphs, ptimer,
    pport, -, -, pcounters, -, pbeacon, pready, -, -, -, pfeed, -, -, -⟩ := hkept
  have htimes : s.timesOutAt m = false := Bool.eq_false_iff.2 fun h => by
    rw [State.flipsAt_of_timesOutAt h] at hflips
    cases hflips
  have troster : t.roster = s.rosterAt f.sender m := by
    rw [hframe]
    exact proster.trans wroster
  have hqueue : s.QueueFlips t := State.concluded_queueFlips ht (pqueue.trans wqueue) pengine pleft pstraps
    (by rw [State.wallColumns, pconfig]; rfl)
    ((State.participates_running (plife.trans wlife)).trans (s.flippedState_participates hacc.inWall)) hleft hkeeps
  refine ⟨t, hexec, ?_, ?_, fun n => ?_, ?_, ?_, hqueue, hkeeps, ?_, ?_, ?_, ?_, ?_⟩
  · rw [hframe]
    exact plife.trans wlife
  · rw [hgen]
    exact pgen.trans wgen
  · rw [troster, s.rosterAt_entry, hflips, htimes]
    rfl
  · rw [hbus]
    exact pready.trans wready
  · rw [hbus]
    exact pbeacon.trans wbeacon
  · obtain ⟨done, quiet, u, hsplit, -⟩ := hqueue
    intro e he
    have hmem : e ∈ s.updateQueue.map fun e => { e with epoch := .current } := by
      rw [hsplit]
      exact List.mem_append_right _ he
    obtain ⟨e', -, rfl⟩ := List.mem_map.1 hmem
    rfl
  · rw [hframe]
    exact ptimer
  · rw [hevents, troster]
    rfl
  · rw [hframe]
    exact pcounters.trans wcounters
  · rw [hframe]
    exact ⟨px, py, pglyphs, pconfig, pstraps, pport, pclash, pwithdraw, pfeed.trans wfeed⟩

end Sys2Proof.Proofs
end


section
/-! PROOFS. The swap of a flip (R35, R71, R75, R94, R111, R118). -/

namespace Sys2Proof.Proofs

open Sys2Proof.Machine

/-- The engine at the end of an acceptance keeps the default of a row that no entry of the queue sets. -/
theorem resumeApply_defaults {s p : State} (hqueue : p.updateQueue = epochsCurrent s.updateQueue)
    (hstraps : p.straps = s.straps) (r : LocalRow)
    (h : ∀ e ∈ s.updateQueue, e.update.setsDefault = true → e.update.row ≠ topEdge s.straps + r.val) :
    p.resumeApply.defaultsX[r] = p.defaultsX[r] ∧ p.resumeApply.defaultsY[r] = p.defaultsY[r] := by
  rcases p.resumeApply_applies with he | ⟨-, -, -, he⟩ <;> rw [he]
  · exact ⟨rfl, rfl⟩
  · refine p.takeHeads_defaults r p.updateQueue (fun e hmem => ?_) |>.imp id id
    rw [hqueue] at hmem
    obtain ⟨e', he', rfl⟩ := List.mem_map.1 hmem
    rw [hstraps]
    exact h e' he'

/-- The row a latch sets (R94). -/
theorem latchAll_row (table : Vector LeftRow 12) (shownDefaults : Vector ZoneRecord 12) (r : LocalRow) :
    (latchAll table shownDefaults)[r] = table[r].latch shownDefaults[r] := by
  rw [latchAll, getFin_tabulate]

/-- A flip at a station that does not draw after it (R20, R52, R64, R71, R111, R135). -/
theorem flip_at_dark {s : State} {st : StationState} {f : BusFrame} {m : BeaconFields} (hown : s.OwnEntryAgrees)
    (hformed : s.ArbiterFormed) (hacc : s.Accepts st 0 f (.beacon m)) (hstep : s.AgreesWith f.sender m)
    (harmed : s.armedAt m = true) (hidle : s.catchUp = .idle)
    (hheard : f.sender = s.station ∨ s.roster[s.station].silence < 47) (hd : (s.flippedState st).draws = false) :
    ∃ t, exec (.beacon f) s = .next t ∧
      t.shown = s.shown ∧ t.bufferX = s.bufferX ∧ t.bufferY = s.bufferY ∧ t.shownDefaults = s.shownDefaults ∧
      t.entryRecords = s.entryRecords ∧ t.dirty = s.dirty ∧ t.catchUp = .idle ∧ s.ArbiterKeeps t false ∧
      (∀ q, s.arbiter.rowFetch = some q → t.asks .rowFetch q) ∧
      (s.applyEngine ≠ .idle ∨ s.updateQueue = [] →
        t.updateQueue = s.updateQueue.map (fun e => { e with epoch := .current }) ∧ t.applyEngine = s.applyEngine ∧
        t.leftTable = s.leftTable ∧ t.defaultsX = s.defaultsX ∧ t.defaultsY = s.defaultsY) ∧
      t.scan = { s.scan.frameBegun .dark m.frameNumber s.gen.revealBuilding s.concealEnable with
        panel := t.scan.panel } := by
  obtain ⟨hflips, hsilenced, hpromoted, hswaps, hstate, hdraws⟩ :=
    State.flip_decides hown hacc.running hacc.inWall harmed hidle hheard
  obtain ⟨p, t, hp, ht, hexec, -, hkeeps⟩ :=
    hacc.exec_beacon_flipped hown hformed hstep harmed hidle hheard
  obtain ⟨wlife, wroster, wgen, wqueue, -⟩ := State.prepared_flip hflips hsilenced hstate rfl
  obtain ⟨hdefaults, n, r, q, e, dx, dy, l, a, k, hframe⟩ := State.concluded_frame p st (s.promotesOwn st)
  obtain ⟨tqueue, tengine, tleft, tdx, tdy, tcatchUp, tshown, -⟩ := State.concluded_engine p st (s.promotesOwn st) ht
  obtain ⟨hfetchAsks, -, -⟩ := State.concluded_requests p st (s.promotesOwn st) ht
  rw [← ht] at hframe hdefaults
  have hkept := State.prepared_keeps ((s.afterShare 0 f).takeBeacon m) s st (decide (f.sender = s.station)) f.sender m
  rw [← hp] at hkept
  obtain ⟨-, -, -, -, -, -, -, -, pqueue, pengine, px, py, pleft, -⟩ := hkept
  obtain ⟨p', hp', pshown, pdx, pdy, pentries, pdirty, pcatchUp, -, pdark⟩ := State.prepared_unswapped
    (t := (s.afterShare 0 f).takeBeacon m) (s := s) (st := st) (sender := f.sender) (m := m)
    (by rw [hswaps, ← hdraws, hd]) (decide (f.sender = s.station))
  obtain ⟨parbiter, pscan⟩ := pdark (by rw [hstate, hd])
  rw [← hp] at hp'
  subst hp'
  refine ⟨t, hexec, tshown.trans pshown, ?_, ?_, hdefaults.trans ?_, ?_, ?_, ?_, ?_, fun q hq => hfetchAsks q ?_,
    fun hquiet => ?_, ?_⟩
  · rw [hframe]
    exact px
  · rw [hframe]
    exact py
  · unfold State.shownDefaults
    rw [pshown, pdx, pdy]
    rfl
  · rw [hframe]
    exact pentries
  · rw [hframe]
    exact pdirty
  · rw [tcatchUp, pcatchUp]
    exact hidle
  · rw [← hd]
    exact hkeeps
  · rw [parbiter]
    exact hq
  · have hresume : p'.resumeApply = p' := State.resumeApply_of_waiting (by
      by_cases hengine : p'.applyEngine = .idle
      · refine .inr (.inr ⟨hengine, fun e rest hcons => ?_⟩)
        rcases hquiet with h | h
        · exact absurd (pengine.symm.trans hengine) h
        · rw [pqueue, wqueue, h] at hcons
          cases hcons
      · exact .inl hengine)
    rw [hresume] at tqueue tengine tleft tdx tdy
    exact ⟨tqueue.trans (pqueue.trans wqueue), tengine.trans pengine, tleft.trans pleft, tdx.trans pdx, tdy.trans pdy⟩
  · rw [hframe]
    change p'.scan = _
    rw [pscan, wgen]
    rfl


/-- Settles O38: the swap at a station whose own entry ends the flip Member, and what a flip leaves of any other. -/
theorem flipSwapsForMember : Obligations.FlipSwapsForMember := by
  intro s st f m hown hformed hacc hstep harmed hidle hheard promoted
  obtain ⟨hflips, hsilenced, hpromoted, hswaps, hstate, hdraws⟩ :=
    State.flip_decides hown hacc.running hacc.inWall harmed hidle hheard
  obtain ⟨p, t, hp, ht, hexec, hunsealed, hkeeps⟩ :=
    hacc.exec_beacon_flipped hown hformed hstep harmed hidle hheard
  obtain ⟨wlife, wroster, wgen, wqueue, -⟩ := State.prepared_flip hflips hsilenced hstate rfl
  obtain ⟨-, hbus⟩ := State.concluded_of_unsealed hunsealed st (s.promotesOwn st) ht
  obtain ⟨hdefaults, n, r, q, e, dx, dy, l, a, k, hframe⟩ := State.concluded_frame p st (s.promotesOwn st)
  obtain ⟨tqueue, tengine, tleft, tdx, tdy, tcatchUp, tshown, -⟩ := State.concluded_engine p st (s.promotesOwn st) ht
  obtain ⟨hfetchAsks, hcopyAsks, hfetchOnly⟩ := State.concluded_requests p st (s.promotesOwn st) ht
  have hpresence := (State.prepared_presence ((s.afterShare 0 f).takeBeacon m) s st (decide (f.sender = s.station))
    f.sender m).2
  rw [← ht] at hframe hdefaults
  have hkept := State.prepared_keeps ((s.afterShare 0 f).takeBeacon m) s st (decide (f.sender = s.station)) f.sender m
  rw [← hp] at hkept hpresence
  obtain ⟨plife, -, pstraps, -, -, -, -, -, pqueue, pengine, px, py, pleft, -⟩ := hkept
  refine ⟨fun hswap => ?_, fun hdark hnot => ?_⟩
  · have hd : (s.flippedState st).draws = true := by
      rw [hdraws, Bool.or_eq_true]
      exact hswap
    have hnone : s.arbiter.catchUp = none := by
      cases hc : s.arbiter.catchUp with
      | none => rfl
      | some q => exact absurd hidle (hformed.working.2 (by rw [hc]; rfl))
    obtain ⟨p', hp', pshown, pdx, pdy, pentries, pdirty, pcatchUp, -, pscan, -, -, pfetch, pcopy⟩ := State.prepared_swap
      (t := (s.afterShare 0 f).takeBeacon m) (s := s) (st := st) (sender := f.sender) (m := m)
      (by rw [hswaps, ← hdraws, hd]) (by rw [hstate, hd]) hnone (decide (f.sender = s.station))
    rw [← hp] at hp'
    subst hp'
    have hbuilt : t.shownDefaults = s.built := hdefaults.trans (State.shownDefaults_of_built pdx pdy)
    refine ⟨t, hexec, tshown.trans pshown, ?_, ?_, hbuilt.trans ?_, fun row hrow => ?_, fun row => ?_, ?_, ?_,
      fun pos hpos => hcopyAsks _ (pcopy pos (by rw [← tcatchUp]; exact hpos)), ?_, hfetchAsks _ pfetch, ?_,
      fun q hq => ?_, fun hjoining => ?_⟩
    · rw [hframe]
      exact px
    · rw [hframe]
      exact py
    · unfold State.built
      cases s.shown <;> rfl
    · obtain ⟨hx, hy⟩ := resumeApply_defaults (pqueue.trans wqueue) pstraps row hrow
      rw [tdx, tdy, hx, hy, pdx, pdy]
    · have hentries : t.entryRecords = latchAll s.leftTable s.built := by
        rw [hframe]
        exact pentries
      rw [hentries, latchAll_row, hbuilt]
      unfold LeftRow.latch
      cases s.leftTable[row].entries.getLast? <;> rfl
    · rw [hframe]
      exact pdirty
    · rw [tcatchUp, pcatchUp, hpromoted]
      unfold catchUpWork
      simp only [Bool.or_eq_true]
      rfl
    · rw [hframe]
      change p'.scan = _
      rw [pscan, wgen]
      rfl
    · rw [← hd]
      exact hkeeps
    · rw [pfetch] at hfetchOnly
      exact (Option.some.inj (hfetchOnly q hq)).symm
    · have hpr : s.promotesOwn st = true := hswap.resolve_left (by rw [hjoining]; exact Bool.false_ne_true)
      have hmember : s.flippedState st = .member := by
        unfold State.flippedState
        rw [hpr, if_pos rfl, if_pos hjoining]
      rw [hbus, hpresence, hpromoted, hpr, hstate, hmember]
      simp
  · refine flip_at_dark hown hformed hacc hstep harmed hidle hheard ?_
    rw [hdraws, hdark]
    exact hnot

end Sys2Proof.Proofs
end


section
/-! SUPPORT. What a command makes of the station state, and what it tells of it (R173, R195). -/

namespace Sys2Proof.Machine

/-- The change of station state from `s` to `t`, if `t` runs: there is none, or the latest event tells the new state, and
the change is one of the table where the station is what its invariant says (R173, R195). -/
def State.TellsState (s t : State) : Prop :=
  ∀ st', t.life = .running st' →
    (∃ st, s.life = .running st ∧ st.sameState st' = true) ∨
    t.events.endsWithState t.timer.frameNumber st' ∧
      (s.OwnEntryAgrees → ∀ st, s.life = .running st → st.mayBecome st' = true)

theorem StationState.sameState_refl (st : StationState) : st.sameState st = true := by
  cases st <;> rfl

/-- A station in the wall may withdraw (R173). -/
theorem StationState.mayWithdraw {st : StationState} (h : st.participates = true) : st.mayBecome .withdrawn = true := by
  cases st with
  | joining | member => rfl
  | leaving origin => cases origin <;> rfl
  | halted | listening | withdrawn | clashed => cases h

/-- A station that reads keys may clash (R173, R181). -/
theorem StationState.mayClash {st : StationState} (h : st.readsKeys = true) : st.mayBecome .clashed = true := by
  cases st with
  | joining | member | listening | withdrawn => rfl
  | leaving origin => cases origin <;> rfl
  | halted | clashed => cases h

namespace State.TellsState

theorem of_stays {s t : State} (life : t.life = s.life) : s.TellsState t := fun st' h =>
  .inl ⟨st', by rw [← life]; exact h, st'.sameState_refl⟩

/-- The stage before a station runs, or after it, tells nothing (R108, R182). -/
theorem of_not_running {s t : State} (h : ∀ st, t.life ≠ .running st) : s.TellsState t := fun st' hl =>
  absurd hl (h st')

theorem of_told {s t : State} {st' : StationState} (life : t.life = .running st')
    (told : t.events.endsWithState t.timer.frameNumber st')
    (table : s.OwnEntryAgrees → ∀ st, s.life = .running st → st.mayBecome st' = true) : s.TellsState t := fun st'' h => by
  rw [life] at h
  cases h
  exact .inr ⟨told, table⟩

/-- What is told stays told while the state, the events and the frame number stay. -/
theorem congr {s t u : State} (h : s.TellsState t) (life : u.life = t.life := by simp)
    (events : u.events = t.events := by simp) (timer : u.timer = t.timer := by simp) : s.TellsState u := fun st' hl => by
  rw [events, timer]
  exact h st' (by rw [← life]; exact hl)

/-- A withdrawal, of a station that was in the wall before. -/
theorem withdraw {s w : State} (reason : WithdrawReason)
    (h : s.OwnEntryAgrees → ∀ st, s.life = .running st → st.participates = true) : s.TellsState (w.withdraw reason) := by
  refine of_told (st' := .withdrawn) (by simp) ?_ fun ho st hl => StationState.mayWithdraw (h ho st hl)
  obtain ⟨-, htimer, hevents⟩ := w.withdraw_tells reason
  rw [htimer, hevents, EventQueue.postAll_concat]
  exact EventQueue.post_endsWithState _ _ _ _

theorem becomeClashed {s : State} (h : s.reads = true) : s.TellsState s.becomeClashed := by
  refine of_told (st' := .clashed) (by simp) ?_ fun _ st hl => StationState.mayClash ?_
  · obtain ⟨-, -, htimer, hevents⟩ := s.becomeClashed_tells
    rw [htimer, hevents, EventQueue.postAll_concat]
    exact EventQueue.post_endsWithState _ _ _ _
  · rw [State.reads_running hl, Bool.and_eq_true] at h
    exact h.2

theorem enterListening {s w : State} (reason : StateReason)
    (h : ∀ st, s.life = .running st → st.mayBecome .listening = true) : s.TellsState (w.enterListening reason) :=
  of_told rfl (EventQueue.post_endsWithState _ _ _ _) fun _ => h

/-! ### The end of a frame -/

/-- An attempt that is spoiled leaves the station state, or withdraws the station with its LEAVE unheard (R152). -/
theorem attemptSpoiled {s w : State} {item : Option Item} (reason : Option SpoilReason) (life : w.life = s.life)
    (h : item = some .leave → s.OwnEntryAgrees → ∀ st, s.life = .running st → st.participates = true) :
    s.TellsState (w.attemptSpoiled item reason) := by
  unfold State.attemptSpoiled
  split
  · exact of_stays life
  · rename_i i
    dsimp only
    split
    · unfold State.spoilLeave
      split
      · exact of_stays life
      · exact withdraw _ (h rfl)
    · unfold State.spoilFeedHead
      split
      · exact of_stays life
      · split
        · exact of_stays life
        · exact of_stays life
    · exact of_stays life
    · exact of_stays life
    · exact of_stays life
    · exact of_stays life

theorem frameSpoiled {s w : State} (item : Option Item) (reason : Option SpoilReason) (life : w.life = s.life)
    (h : ∀ st, s.life = .running st → st.participates = true) : s.TellsState (w.frameSpoiled item reason) := by
  unfold State.frameSpoiled State.deafCheck
  split
  · exact withdraw _ fun _ => h
  · refine attemptSpoiled reason ?_ fun _ _ => h
    unfold State.driveSpoil
    split
    · exact life
    · exact life

/-- A station that stays in the wall at a BEACON is promoted or stays what it was; a promotion out of Joining is told
(R39, R177). -/
theorem heard {s w : State} {st : StationState} {sender : Station} {m : BeaconFields} {own : Bool}
    (life : s.life = .running st) (hw : st.participates = true) (before : State) (hbefore : before = w) : s.TellsState
      (((w.takeBeacon m).prepared before st own sender m).resumeApply.evaluateReady.tellPromotion st
        (before.promotedAt sender m)).grantRace := by
  subst hbefore
  obtain ⟨p, hp⟩ : ∃ p, p = (before.takeBeacon m).prepared before st own sender m := ⟨_, rfl⟩
  obtain ⟨-, n, r, q, e, dx, dy, l, a, k, hframe⟩ := State.concluded_frame p st (before.promotedAt sender m)
  have hlife : p.life = .running (before.stateAt st sender m) := by
    rw [hp]
    simp
    rfl
  rw [← hp, hframe]
  unfold State.stateAt at hlife
  cases hpr : before.promotedAt sender m with
  | false =>
    rw [hpr] at hlife
    exact of_stays (hlife.trans life.symm)
  | true =>
    rw [hpr] at hlife
    cases st with
    | joining =>
      refine of_told (st' := .member) hlife ?_ fun _ st hl => ?_
      · exact EventQueue.post_endsWithState _ _ _ _
      · rw [life] at hl
        cases hl
        rfl
    | member => exact of_stays (hlife.trans life.symm)
    | leaving origin =>
      intro st' hl
      have hst' : st' = .leaving .fromMember := by
        change p.life = _ at hl
        rw [hlife] at hl
        cases hl
        rfl
      exact .inl ⟨_, life, by rw [hst']; rfl⟩
    | halted | listening | withdrawn | clashed => cases hw

theorem acceptBeacon {s w : State} {st : StationState} (life : s.life = .running st) (hw : st.participates = true)
    (own : Bool) (sender : Station) (m : BeaconFields) : s.TellsState (w.acceptBeacon st own sender m) := by
  have hin : s.OwnEntryAgrees → ∀ st', s.life = .running st' → st'.participates = true := fun _ st' hl => by
    rw [life] at hl
    cases hl
    exact hw
  rcases w.acceptBeacon_cases st own sender m with ⟨-, h⟩ | ⟨-, -, h⟩ | ⟨-, -, h⟩ <;> rw [h]
  · exact (withdraw (w := w.takeBeacon m) .outOfStep hin).congr
  · exact (withdraw (w := (w.takeBeacon m).wallWork w st sender m) .silenced hin).congr
  · exact heard life hw w rfl

theorem acceptMessage {s w : State} {st : StationState} (life : s.life = .running st) (hw : st.participates = true)
    (same : w.life = s.life) (item : Option Item) (sender : Station) (msg : Message) :
    s.TellsState (w.acceptMessage st item sender msg) := by
  cases msg with
  | beacon m => exact acceptBeacon life hw _ _ _
  | ready g => exact of_stays (Eq.trans (by simp [State.acceptMessage]) same)
  | sealing g reveal carried => exact of_stays (Eq.trans (by simp [State.acceptMessage]) same)
  | join width height period =>
    refine of_stays (Eq.trans ?_ same)
    change (w.acceptJoin st sender width height period).life = _
    unfold State.acceptJoin
    split
    · dsimp only
      split <;> simp
    · rfl
  | presence isMember =>
    refine of_stays (Eq.trans ?_ same)
    change (w.acceptPresence st sender isMember).life = _
    unfold State.acceptPresence
    split <;> simp
  | leave =>
    change s.TellsState (w.acceptLeave st item.isSome sender)
    unfold State.acceptLeave
    dsimp only
    split
    · exact withdraw _ fun _ st' hl => by
        rw [life] at hl
        cases hl
        exact hw
    · exact of_stays (Eq.trans (by simp) same)
  | update u =>
    refine of_stays (Eq.trans ?_ same)
    change (w.acceptUpdate u).life = _
    unfold State.acceptUpdate
    split
    · simp
    · rfl
  | glyph set code first patterns => exact of_stays (Eq.trans (by simp [State.acceptMessage]) same)

theorem adopt {s w : State} (life : s.life = .running .listening) (m : BeaconFields) : s.TellsState (w.adopt m) := by
  refine of_told (st' := .joining) (by simp) ?_ fun _ st hl => ?_
  · unfold State.adopt
    dsimp only
    rw [State.newFrame_frame]
    exact EventQueue.post_endsWithState _ _ _ _
  · rw [life] at hl
    cases hl
    rfl

theorem endFrame (s : State) (cls : BitVec 3) (f : BusFrame) : s.TellsState (s.endFrame cls f) := by
  have hends := s.endFrame_ends cls f
  generalize s.endFrame cls f = t at hends
  cases hends with
  | unread _ => exact of_stays rfl
  | clash hr _ => exact becomeClashed hr
  | outside _ => exact of_stays rfl
  | spoiled st reason hl hw _ _ _ _ =>
    exact frameSpoiled (w := s.endFlight) _ _ rfl fun st' hl' => by
      rw [hl] at hl'
      cases hl'
      exact hw
  | accepted st msg hl hw _ _ _ _ _ =>
    have same : (s.afterShare cls f).life = s.life := by simp [State.afterShare]
    exact acceptMessage hl hw same _ _ _
  | listenSpoiled hl _ hc =>
    refine attemptSpoiled (w := s.endFlight) none rfl fun hitem ho => ?_
    obtain ⟨-, sent, hsent, hi, -⟩ := State.ownership_own (Ownership.item_eq_some.1 hitem)
    have hbeacon := ho.listening hl sent hsent
    rw [hi] at hbeacon
    cases hbeacon
  | listenAdopted m hl _ _ _ _ => exact adopt (w := s.endFlight.frameAccepted (s.ownership cls f).item) hl m
  | listenIgnored _ => exact of_stays rfl

/-! ### The other commands -/

theorem endRead (s : State) (h : s.life = .readingConfiguration) (read : ConfigurationRead) :
    s.TellsState (s.endRead read) := by
  have hnone : ∀ (P : StationState → Prop) st, s.life = .running st → P st := fun P st hl => by
    rw [h] at hl
    cases hl
  unfold State.endRead
  split
  · exact enterListening _ (hnone _)
  · exact of_told (st' := .halted) rfl (EventQueue.post_endsWithState _ _ _ _) fun _ => hnone _
  · exact of_told (st' := .halted) rfl (EventQueue.post_endsWithState _ _ _ _) fun _ => hnone _

theorem expire (s : State) : s.TellsState s.expire := by
  unfold State.expire
  dsimp only
  split
  · unfold State.listeningExpiry
    dsimp only
    split <;> exact of_stays rfl
  · rename_i hl
    unfold State.quietExpiry
    dsimp only
    split
    · refine enterListening _ fun st hl' => ?_
      rw [hl] at hl'
      cases hl'
      rfl
    · exact of_stays rfl
  all_goals exact of_stays rfl

theorem restart {s w : State} {st : StationState} (life : s.life = .running st) (same : w.life = s.life) :
    s.TellsState (w.restartCommand st) := by
  have table : ∀ st', st.mayBecome st' = true → ∀ st'', s.life = .running st'' → st''.mayBecome st' = true :=
    fun st' h st'' hl => by
      rw [life] at hl
      cases hl
      exact h
  cases st with
  | halted | leaving _ => exact of_stays same
  | joining => exact of_told rfl (EventQueue.post_endsWithState _ _ _ _) fun _ => table _ rfl
  | member => exact of_told rfl (EventQueue.post_endsWithState _ _ _ _) fun _ => table _ rfl
  | listening => exact of_stays life.symm
  | withdrawn | clashed => exact (enterListening (w := w) .restart (table _ rfl)).congr rfl rfl rfl

end State.TellsState

/-- Every command tells the change of station state it makes (R173, R195). -/
theorem Effect.tellsState {s t : State} (h : Effect s t) : s.TellsState t := by
  cases h with
  | none => exact .of_stays rfl
  | start low life straps glyphs hlife hglyphs =>
    refine .of_not_running fun st hl => ?_
    have hl' : life = .running st := hl
    rcases hlife with h | h <;> rw [h] at hl' <;> cases hl'
  | pin low n => exact .of_stays rfl
  | endRead read hl => exact .endRead s hl read
  | expire _ => exact .expire s
  | synchronise => exact .of_stays (by simp)
  | contend others _ => exact .of_stays (by simp)
  | clash cause hc =>
    refine .becomeClashed ?_
    cases cause <;> exact (Bool.and_eq_true_iff.1 hc).1
  | frame cls f => exact .endFrame s cls f
  | tileStep acc _ =>
    refine .of_stays ?_
    obtain ⟨-, he⟩ | ⟨n, -, -, he⟩ := s.tileStep_cases acc <;> rw [he]
    · simp
    · simp [State.tileWritten]
  | catchUpRead acc _ =>
    refine .of_stays ?_
    obtain ⟨-, he⟩ | ⟨-, he⟩ := s.catchUpRead_cases acc <;> rw [he]
    · simp
    · simp [State.copyRead]
  | catchUpWrite acc _ =>
    refine .of_stays ?_
    obtain ⟨-, he⟩ | ⟨-, he⟩ := s.catchUpWrite_cases acc <;> rw [he]
    · simp
    · simp
  | rowFetched acc _ => exact .of_stays (by simp)
  | feedReadDone acc _ => exact .of_stays (by simp [State.feedReadDone])
  | displayRow r _ _ => exact .of_stays (by simp)
  | beginLine r line _ _ => exact .of_stays (by simp)
  | beginTail _ _ => exact .of_stays (by simp)
  | report tr bytes p c => exact .of_stays rfl
  | nextEvent tr bytes p => exact .of_stays rfl
  | submit tr bytes cls payload =>
    refine .of_stays ?_
    obtain ⟨r, he⟩ | ⟨-, -, -, r, he⟩ := State.submit_cases _ cls payload <;> rw [he]
    · rfl
    · rfl
  | readCell tr bytes role row col =>
    refine .of_stays ?_
    obtain he | ⟨r, p, he⟩ := State.readCellCommand_cases _ role row col <;> rw [he]
    · rfl
    · rfl
  | restart tr bytes st hl => exact .restart hl rfl
  | losePower => exact .of_not_running fun st hl => nomatch hl

end Sys2Proof.Machine
end

section
/-! PROOFS. Changes of station state (R173, R195). -/

namespace Sys2Proof.Proofs

open Sys2Proof.Machine

/-- Settles O13: the station state stays, or the change that is told is one of the table. -/
theorem stationStateMovesByTable : Obligations.StationStateMovesByTable := by
  intro c s t st st' hown hlife hexec hlife'
  rcases (exec_effect hexec).tellsState st' hlife' with ⟨st'', hl, hsame⟩ | ⟨-, htable⟩
  · rw [hlife] at hl
    cases hl
    exact .inl hsame
  · exact .inr (htable hown st hlife)

/-- Settles O14: a state that is not the state before is the latest told. -/
theorem stateEventAtEveryChange : Obligations.StateEventAtEveryChange := by
  intro c s t st' hexec hlife hchange
  rcases (exec_effect hexec).tellsState st' hlife with ⟨st, hl, hsame⟩ | ⟨htold, -⟩
  · rw [hchange st hl] at hsame
    cases hsame
  · exact htold

end Sys2Proof.Proofs
end
